-- ==== Sys2Proof/Word.lean ====
section
/-! DEFINITION. The machine's word types (00_scope.md R1, R2, R4). -/

namespace Sys2Proof

/-- One byte. -/
abbrev Byte := BitVec 8
/-- One register or register-map word (R4). -/
abbrev Word := BitVec 32
/-- One 64-bit quantity (R7). -/
abbrev DWord := BitVec 64

end Sys2Proof
end

