-- ==== Sys2Proof/Syntax.lean ====
section
/-! DEFINITION. The commands of the SV9 block, one constructor of `Instr` per row of spec/opcode_table.json, and the operand types
they carry. Register numbers, event numbers, tiles and cores are bounded by their types; what a type cannot bound is in WellFormed.lean. -/

namespace Sys2Proof

/-- An access path to the register map (R7, R11, R16). -/
inductive Path where
  | pcie | spi | usb
  | core (c : Fin 10)
deriving DecidableEq, Repr

/-- The rails of Table PB-16 other than VDD_AON (R57). -/
inductive MonRail where
  | core | sram | io18 | stash | vddq
deriving DecidableEq, Repr

/-- Traffic classes of Table IS-4. -/
inductive FlitClass where
  | request | reply | stash | message
deriving DecidableEq, Repr

/-- One flit on a link: 128 payload bits and 4 even-parity bits, one over each 32-bit quarter (04, Links and flits).
`head` marks the head flit of a packet. -/
structure Flit where
  head    : Bool
  payload : BitVec 128
  parity  : BitVec 4
deriving DecidableEq, Repr

/-- The two edges of R116 at a receiver's slot: the receiver takes its oldest visible flit, which frees the slot; the slot's credit reaches the
sender. -/
inductive CreditEdge where
  | freed | back
deriving DecidableEq, Repr

/-- The requesters of Table SP-3. -/
inductive Requester where
  | injection (array : Fin 4) | shadowLoad | drainWrite | veRead | veWrite
  | expressLocal | expressNeighbour | rowLocal | rowNeighbour
  | stashTraffic | window | scrubber | march
deriving DecidableEq, Repr

/-- One memory-window access (R11): a read of a length, or a write whose disabled bytes are `none`. -/
inductive WinOp where
  | read (len : Nat)
  | write (bytes : List (Option Byte))
deriving DecidableEq, Repr

/-- A descriptor's header (Table TC-10) less its kind, and the core that posts it. -/
structure StitchHdr where
  express   : Bool
  doneEn    : Bool
  doneEvent : BitVec 6
  doneCore  : BitVec 4
  tag       : BitVec 16
  budget    : BitVec 12
  poster    : Fin 10
deriving DecidableEq, Repr

/-- Tables MX-1 and TC-11. -/
structure LoadP where
  src : Word
  stride : BitVec 16
  arrays : BitVec 4
  transposed : Bool
  int4 : Bool
  useCtl : Bool
  age : BitVec 4
  accMode : BitVec 8
deriving DecidableEq, Repr

/-- Tables MX-1 and TC-12. -/
structure PassP where
  src : Word
  vecStride : BitVec 16
  arrayStride : BitVec 16
  nVec : BitVec 10
  cHist : BitVec 9
  rowBase : BitVec 6
  accShift : BitVec 4
  half : Bool
  accAdd : Bool
  reseed : Bool
  arrays : BitVec 4
  cMode : Bool
  swap : Bool
  afmt : BitVec 2
  age : BitVec 4
deriving DecidableEq, Repr

/-- Tables MX-1 and TC-13. -/
structure DrainP where
  rq : Word
  dst : Word
  dstStride : BitVec 16
  posBase : BitVec 16
  topkDst : BitVec 21
  k : BitVec 5
  topkStart : Bool
  topkEnd : Bool
  noStore : Bool
  clear : Bool
  array : Fin 4
  half : Bool
  rowBase : BitVec 6
  nRows : BitVec 7
  ofmt : BitVec 3
  age : BitVec 4
deriving DecidableEq, Repr

/-- An input stream of Table VE-1. -/
structure StreamIn where
  src : Word
  stride : BitVec 16
  fmt : BitVec 3
  age : BitVec 4
deriving DecidableEq, Repr

/-- An output stream of Table VE-1. -/
structure StreamOut where
  dst : Word
  stride : BitVec 16
  fmt : BitVec 3
  isInt : Bool
  sat : Bool
  exp : BitVec 2
deriving DecidableEq, Repr

/-- Tables VE-1 and TC-14. -/
structure VeP where
  chain : Fin 64
  ocm : Bool
  nBeatsM1 : BitVec 10
  inMask : BitVec 3
  outMask : BitVec 2
  s0 : StreamIn
  s1 : StreamIn
  s2 : StreamIn
  o0 : StreamOut
  o1 : StreamOut
deriving DecidableEq, Repr

/-- Table TC-15. -/
structure XferP where
  src : Word
  dst : Word
  nLinesM1 : BitVec 12
  age : BitVec 4
  weightWrite : Bool
  srcHub : Bool
  dstHub : Bool
  srcStride : BitVec 16
  dstStride : BitVec 16
deriving DecidableEq, Repr

/-- FETCH and STORE of Table SK-5. -/
structure BlockP where
  tiles : BitVec 4
  age : BitVec 4
  weightWrite : Bool
  sp : Word
  stash : Word
  nBlocksM1 : BitVec 16
  tileStride : BitVec 16
deriving DecidableEq, Repr

/-- RUN of Table DZ-2. -/
structure RunP where
  init : BitVec 2
  check : Bool
  penalty : Bool
  replicasM1 : BitVec 5
  exchEvery : BitVec 8
  traceEvery : BitVec 8
  traceReset : Bool
  nSweeps : BitVec 24
  active : BitVec 64
  resDst : BitVec 21
  traceBase : BitVec 21
  traceSize : BitVec 4
  penWeight : BitVec 11
  endEvent : BitVec 6
  endCore : BitVec 4
  endEn : Bool
deriving DecidableEq, Repr

/-- COPY of Table DZ-2. -/
structure CopyP where
  nLinesM1 : BitVec 9
  src : BitVec 21
  dst : BitVec 23
deriving DecidableEq, Repr

/-- SEND of Table HL-9. -/
structure SendP where
  type : BitVec 8
  skein : BitVec 8
  tsNow : Bool
  frameTs : Bool
  rings : BitVec 16
  usb : Bool
  src : BitVec 21
  length : BitVec 12
  timestamp : DWord
deriving DecidableEq, Repr

/-- A stitch's body, by kind and op (Tables TC-10, SK-5, DZ-2, HL-9). -/
inductive Body where
  | load (p : LoadP) | pass (p : PassP) | drain (p : DrainP)
  | ve (p : VeP) | xfer (p : XferP)
  | swapOut (skein : BitVec 7) | swapIn (skein : BitVec 7) (slot : BitVec 5)
  | fetch (p : BlockP) | store (p : BlockP)
  | run (p : RunP) | stop | copy (p : CopyP)
  | send (p : SendP) | flush (rings : BitVec 16) (usb : Bool)
  | msgOther (op : BitVec 4)
deriving DecidableEq, Repr

/-- One stitch: its header and its body. -/
structure Stitch where
  hdr : StitchHdr
  body : Body
deriving DecidableEq, Repr

/-- The stitch units with a queue of their own (R243): per tile the loader, the PASS queue, four drainers, the VE and the transfer
unit; in the hub the stash queue (posted to by all cores), the DZA and the MSG. -/
inductive UnitId where
  | loader (t : Fin 4) | injector (t : Fin 4) | drainer (t : Fin 4) (a : Fin 4)
  | ve (t : Fin 4) | xfer (t : Fin 4)
  | stash | dza | msg
deriving DecidableEq, Repr

/-- Swatch instances of Table FR-5. -/
inductive SwatchInst where
  | array (t : Fin 4) (a : Fin 4) | spBank (t : Fin 4) | ve (t : Fin 4) | dza
deriving DecidableEq, Repr

/-- How a swatch test ends (R413, R414). -/
inductive SwatchOutcome where
  | passed | failed (arg0 arg1 : Word) | abandoned
deriving DecidableEq, Repr

/-- Completion statuses of a descriptor read that the device issued (R376); a successful one carries the buffer address (Table HL-10). -/
inductive CplStatus where
  | ok (buffer : DWord) | ur | ca | poisoned
deriving DecidableEq, Repr

/-- A message destination: ring r or EP2 IN (Table HL-6). -/
inductive Dest where
  | ring (r : Fin 16) | usb
deriving DecidableEq, Repr

/-- The commands: one constructor per row of spec/opcode_table.json, in the table's order. `powerOn` carries the monitored rails that are
above their thresholds when VDD_AON rises, `coldCastOn` those that rise above theirs afterwards, in order (R57, R58); the row
HUB_SRAM_HOST_WRITE stands for both forms of R11's access to the hub SRAM window, its writes and its reads. An operand with a default says
what the command means where a sender leaves it out: no rail up before VDD_AON, the rails rising in Table PB-8's order, the slot's edge of
CREDIT_RETURN, no failing clock, a write that is no weight write, a swatch test that compares no arrays. -/
inductive Instr where
  -- power, pins, clocks
  | powerOn (up : List MonRail := []) | porstNAssert | pwrokFall
  | undervoltage (rail : MonRail)
  | coldCastOn (rises : List MonRail := [.io18, .sram, .core, .stash, .vddq])
  | sensorReading (sensor : Fin 16) (temp : BitVec 11)
  | xtalLost | timebaseRelock | amclkLost
  | voutCommandWrite (acked : Bool) (readVout : BitVec 16)
  | vrAlert (acked : Bool) (statusWord : BitVec 16)
  | droopEvent (isl : Fin 264)
  | targetIdle (p : Path) | idleEntry
  | targetRetention (p : Path) | retentionEntry
  | targetRun (p : Path)
  | perstNRise | perstNAssert
  | linkDown (hotReset : Bool)
  -- cast-on block, NVM and lifeline
  | recast (p : Path) | recastReload (p : Path) | castOn (p : Path) | rescan (p : Path)
  | nvmRead (p : Path) (lenM1 : BitVec 12) | program (p : Path) (lenM1 : BitVec 12)
  | erase4KiB (p : Path) | erase64KiB (p : Path)
  | nvmOpComplete (flashOk : Bool)
  | llWrite (p : Path) (key : BitVec 16) (length : BitVec 12)
  | llRead (p : Path) (key : BitVec 16)
  | delete (p : Path) (key : BitVec 16)
  | llOpComplete (flashOk : Bool)
  -- islands and links
  | governorInterval (estimate : BitVec 10) (measure : Fin 5)
  | tensionFloor
  | flitSend (src dst : Fin 264) (cls : FlitClass) (f : Flit)
  | flitArrival (src dst : Fin 264) (cls : FlitClass)
  | creditReturn (src dst : Fin 264) (cls : FlitClass) (edge : CreditEdge := .freed)
  | linkStall (src dst : Fin 264) (cls : FlitClass)
  | replyTimeout (requester target : Fin 264)
  | cycleCountCheck (failing : List (Fin 264) := [])
  -- scratchpad
  | bankGrant (t : Fin 4) (bank : Fin 32) (requests : List Requester)
  | spRead (t : Fin 4) (addr : Word) (len : Fin 65) (age : BitVec 4)
  | spWrite (t : Fin 4) (addr : Word) (bytes : List (Option Byte)) (weightWrite : Bool := false)
  | correctedWriteback (t : Fin 4) (bank : Fin 32)
  | scrubRead (t : Fin 4) (bank : Fin 32)
  | spWindowAccess (p : Path) (t : Fin 4) (off : BitVec 19) (op : WinOp)
  -- matrix engine
  | load (t : Fin 4) (h : StitchHdr) (p : LoadP)
  | loadComplete (t : Fin 4)
  | pass (t : Fin 4) (h : StitchHdr) (p : PassP)
  | vectorCommit (t : Fin 4)
  | resultPromotion (t : Fin 4)
  | drain (t : Fin 4) (h : StitchHdr) (p : DrainP)
  -- vector engine
  | ve (t : Fin 4) (h : StitchHdr) (p : VeP)
  | beatIssue (t : Fin 4)
  | tableSwitch (t : Fin 4)
  | veOcAccess (p : Path) (t : Fin 4) (write : Option Word)
  -- stitches
  | xfer (t : Fin 4) (h : StitchHdr) (p : XferP)
  | stitchStart (u : UnitId) | stitchComplete (u : UnitId) | stitchOverrun (u : UnitId)
  -- tending-core instructions
  | add (c : Fin 10) (rd ra rb : BitVec 5) | sub (c : Fin 10) (rd ra rb : BitVec 5)
  | and (c : Fin 10) (rd ra rb : BitVec 5) | or (c : Fin 10) (rd ra rb : BitVec 5)
  | xor (c : Fin 10) (rd ra rb : BitVec 5)
  | sll (c : Fin 10) (rd ra rb : BitVec 5) | srl (c : Fin 10) (rd ra rb : BitVec 5)
  | sra (c : Fin 10) (rd ra rb : BitVec 5)
  | slt (c : Fin 10) (rd ra rb : BitVec 5) | sltu (c : Fin 10) (rd ra rb : BitVec 5)
  | min (c : Fin 10) (rd ra rb : BitVec 5) | max (c : Fin 10) (rd ra rb : BitVec 5)
  | minu (c : Fin 10) (rd ra rb : BitVec 5) | maxu (c : Fin 10) (rd ra rb : BitVec 5)
  | clz (c : Fin 10) (rd ra : BitVec 5)
  | mul (c : Fin 10) (rd ra rb : BitVec 5) | mulh (c : Fin 10) (rd ra rb : BitVec 5)
  | mulhu (c : Fin 10) (rd ra rb : BitVec 5)
  | addi (c : Fin 10) (rd ra : BitVec 5) (imm : BitVec 16)
  | andi (c : Fin 10) (rd ra : BitVec 5) (imm : BitVec 16)
  | ori (c : Fin 10) (rd ra : BitVec 5) (imm : BitVec 16)
  | xori (c : Fin 10) (rd ra : BitVec 5) (imm : BitVec 16)
  | slti (c : Fin 10) (rd ra : BitVec 5) (imm : BitVec 16)
  | sltiu (c : Fin 10) (rd ra : BitVec 5) (imm : BitVec 16)
  | slli (c : Fin 10) (rd ra : BitVec 5) (sh : BitVec 5)
  | srli (c : Fin 10) (rd ra : BitVec 5) (sh : BitVec 5)
  | srai (c : Fin 10) (rd ra : BitVec 5) (sh : BitVec 5)
  | lui (c : Fin 10) (rd : BitVec 5) (imm : BitVec 16)
  | lw (c : Fin 10) (rd ra : BitVec 5) (imm : BitVec 16)
  | lh (c : Fin 10) (rd ra : BitVec 5) (imm : BitVec 16)
  | lhu (c : Fin 10) (rd ra : BitVec 5) (imm : BitVec 16)
  | lb (c : Fin 10) (rd ra : BitVec 5) (imm : BitVec 16)
  | lbu (c : Fin 10) (rd ra : BitVec 5) (imm : BitVec 16)
  | sw (c : Fin 10) (rd ra : BitVec 5) (imm : BitVec 16)
  | sh (c : Fin 10) (rd ra : BitVec 5) (imm : BitVec 16)
  | sb (c : Fin 10) (rd ra : BitVec 5) (imm : BitVec 16)
  | beq (c : Fin 10) (ra rb : BitVec 5) (off : BitVec 16)
  | bne (c : Fin 10) (ra rb : BitVec 5) (off : BitVec 16)
  | blt (c : Fin 10) (ra rb : BitVec 5) (off : BitVec 16)
  | bge (c : Fin 10) (ra rb : BitVec 5) (off : BitVec 16)
  | bltu (c : Fin 10) (ra rb : BitVec 5) (off : BitVec 16)
  | bgeu (c : Fin 10) (ra rb : BitVec 5) (off : BitVec 16)
  | jal (c : Fin 10) (off : BitVec 26)
  | jalr (c : Fin 10) (rd ra : BitVec 5) (imm : BitVec 16)
  | post (c : Fin 10) (rd ra : BitVec 5) (imm : BitVec 10)
  | sigev (c : Fin 10) (ev : BitVec 6) (target : BitVec 4)
  | waitev (c : Fin 10) (rd ra : BitVec 5) (ev : BitVec 6) (anyEv : Bool)
  | rowend (c : Fin 10) (rd : BitVec 5)
  | evcnt (c : Fin 10) (rd : BitVec 5) (ev : BitVec 6)
  | fence (c : Fin 10)
  | csrr (c : Fin 10) (rd : BitVec 5) (csr : BitVec 16)
  | csrw (c : Fin 10) (ra : BitVec 5) (csr : BitVec 16)
  | csrs (c : Fin 10) (ra : BitVec 5) (csr : BitVec 16)
  | csrc (c : Fin 10) (ra : BitVec 5) (csr : BitVec 16)
  | trap (c : Fin 10) (imm : BitVec 16)
  | tret (c : Fin 10)
  | brk (c : Fin 10)
  -- core events and control
  | deviceReply (c : Fin 10)
  | storeError (c : Fin 10)
  | waitevTimeout (c : Fin 10)
  | eventSignal (c : Fin 10) (ev : BitVec 6)
  | hostDoorbell (p : Path) (c : Fin 10)
  | halt (p : Path) (c : Fin 10) (on : Bool)
  | step (p : Path) (c : Fin 10)
  | tcDbgDataAccess (p : Path) (c : Fin 10) (write : Option Word)
  | programUpdateApply (c : Fin 10)
  | tcWdog (c : Fin 10)
  | rowBoundary
  -- skeins and the stash
  | swapOut (h : StitchHdr) (skein : BitVec 7)
  | swapIn (h : StitchHdr) (skein : BitVec 7) (slot : BitVec 5)
  | fetch (h : StitchHdr) (p : BlockP)
  | store (h : StitchHdr) (p : BlockP)
  | stashBlockGrant (channel : Fin 2)
  | swapComplete (skein : Fin 96)
  | stashWindowAccess (off : BitVec 25) (op : WinOp)
  | hubSramHostWrite (p : Path) (off : BitVec 21) (op : WinOp)
  -- annealer
  | run (h : StitchHdr) (p : RunP)
  | stop (h : StitchHdr)
  | copy (h : StitchHdr) (p : CopyP)
  | sweepEnd | runEnd
  | problemWindowWrite (p : Path) (off : BitVec 19) (bytes : List (Option Byte))
  -- audio edge
  | sample (ch : Fin 120) (value : Word)
  | frameEvent (ring : Fin 16)
  | playbackFrame (ring : Fin 16)
  | gainChange (input : Fin 16)
  | snap (p : Path)
  | acdSwatchTest (p : Path)
  | acdSwatchEnd (failed : BitVec 16)
  | pdmStuck (mic : Fin 32)
  | tdmSyncLost (port : Fin 4)
  | tdmRate (port : Fin 4) (ppm : BitVec 16)
  | biasFault (n : Fin 2)
  | acdLink
  -- host links and messages
  | configurationRequest (off : BitVec 12) (write : Option Word)
  | ptmDialogue (master : DWord)
  | completion (ring : Fin 16) (status : CplStatus)
  | completionTimeout (ring : Fin 16)
  | prodWrite (p : Path) (ring : Fin 16) (prod : BitVec 16)
  | ringEnable (p : Path) (ring : Fin 16)
  | ringDisable (p : Path) (ring : Fin 16)
  | messageDelivery (d : Dest)
  | bufferCloseTimer (d : Dest)
  | intTimer (ring : Fin 16)
  | holdExpiry (d : Dest)
  | send (h : StitchHdr) (p : SendP)
  | flush (h : StitchHdr) (rings : BitVec 16) (usb : Bool)
  | usbVbus (present : Bool)
  | usbBusReset | usbSuspend
  | regRead (addr : BitVec 24)
  | regWrite (addr : BitVec 24) (value : Word)
  | lastStatus
  | bulkOut (bytes : List Byte)
  | bulkInAck
  | audioMicroframe (capture : Bool) (samples : List Word)
  | spiRead (addr : BitVec 24)
  | spiReadTimeout (addr : BitVec 24)
  | spiWrite (bytes : List Byte)
  | spiStatus
  -- frog and bind-off
  | frog (p : Path) (fn : BitVec 5)
  | bindOff (p : Path) (fn : BitVec 5)
  | enable (p : Path) (fn : BitVec 5)
  | cut
  | rejoin (failed : Option (Fin 264))
  | frogDone
  | pop (p : Path)
  -- swatch tests
  | swatchWindow
  | swatchTestStart (inst : SwatchInst) (compared : BitVec 4 := 0)
  | swatchTestEnd (inst : SwatchInst) (outcome : SwatchOutcome)
  -- gauges
  | dumpNow (p : Path)
  | dumpComplete
  | gaugeClear (p : Path) (block : Fin 5)
  -- register accesses
  | regPairLowRead (p : Path) (addr : BitVec 24)
  | regPairLowWrite (p : Path) (addr : BitVec 24) (value : Word)
  | regPairHighWrite (p : Path) (addr : BitVec 24) (value : Word)
  | registerWrite (p : Path) (addr : BitVec 24) (value : Word)
  -- rows added after the table's first part
  | amclkInReturn
  | pdmStuckCleared (mic : Fin 32)
  | tdmSyncRegained (port : Fin 4)
  | usbResume
  | linkTrained (speed : BitVec 3) (width : BitVec 3)
  | regPairHighRead (p : Path) (addr : BitVec 24)
  | rescanEnd
  | deviceStoreReply (c : Fin 10)
  | illegal (c : Fin 10) (word : Word)
  | imemUe (c : Fin 10)
  | fetchRange (c : Fin 10)
  | alternateSetting (capture : Bool) (setting : Fin 2)
  | featureUnit (capture : Bool) (channel : Fin 8) (mute : Bool) (halfDb : BitVec 8)
  | msiXTableWrite (dwordIndex : BitVec 7) (value : Word)
  | overhangRewriteEnd (model : BitVec 16)
deriving DecidableEq, Repr

end Sys2Proof
end

