-- ==== Sys2Proof/Config.lean ====
section
/-! DEFINITION. What a chip fixes and the spec leaves open, as constants without a body, and the free values (log entries 1, 7). -/

namespace Sys2Proof.Config

/-- FREE VALUE: the n-th value the spec leaves open; `Mach.free` counts them (log entry 1). -/
opaque freeValue : Nat → BitVec 64

/-- OTP: the signed-image fuse `GL_CAPS.sig_required` (R81). -/
opaque sigRequired : Bool
/-- OTP: the 256-bit KEY digest (R81). -/
opaque keyDigest : BitVec 256
/-- OTP: the die identifier (R20, PA-13). -/
opaque uid : BitVec 64
/-- OTP: PCI Express vendor and subsystem identifiers (HL-1). -/
opaque pcieVendor : BitVec 16
opaque pcieSubsystem : BitVec 32
/-- OTP: USB product and vendor identifiers (HL-14). -/
opaque usbId : BitVec 32
/-- The PCI Express configuration words that Table HL-1 does not fix (log entry 8). -/
opaque pcieConfigWord : Nat → BitVec 32
/-- The fewest taps at which an island's path monitor passes at a code and a supply level in microvolts (R139). -/
opaque measuredMargin : Nat → BitVec 8 → Nat → BitVec 5

/-- FREE VALUE: which of +0 and -0 FMAX and FMIN answer (log entry 20). -/
opaque zeroChoice : BitVec 32 → BitVec 32 → Bool
/-- FREE VALUE: MANT_RSQRT of +infinity (log entry 20). -/
opaque rsqrtInf : BitVec 32
/-- FREE VALUE: whether CMP holds under a code that Table VE-3 does not list (log entry 20). -/
opaque cmpOther : Nat → BitVec 32 → BitVec 32 → Bool

end Sys2Proof.Config
end

