-- ==== Sys2Proof/Machine/Registers.lean ====
section
/-! DEFINITION. The register map: each register's address, fields, types and reset values as the tables of spec/ give them (R4, R5, R9,
R10), generated from those tables. A field that is absent from a register is reserved. Registers with an index take it as an argument;
tile registers take the tile first, core registers the core code of R241, gauge registers the block (4 = hub). -/

namespace Sys2Proof.Machine

/-- Field types of Table SC-3 other than RSV. -/
inductive FType where
  | rw | ro | w1c | w1s | wo
deriving DecidableEq, Repr

/-- One field: bits [hi:lo], type, reset value. -/
structure FieldDesc where
  hi : Nat
  lo : Nat
  ty : FType
  reset : Nat
deriving DecidableEq, Repr

/-- One register or array of registers: base address, (count, stride) of each index, fields. -/
structure RegDesc where
  base : Nat
  dims : List (Nat × Nat)
  fields : List FieldDesc
deriving DecidableEq, Repr

/-- A field of one register. -/
structure Fld where
  addr : Nat
  hi : Nat
  lo : Nat
deriving DecidableEq, Repr

/-- Base of the registers of the core with code c (R271). -/
def coreRegs (c : Nat) : Nat :=
  if c < 8 then 0x130000 + 0x100000 * (c / 2) + 0x100 * (c % 2) else 0x800 + 0x100 * (c - 8)

/-- Base of gauge block b (R432). -/
def gaugeRegs (b : Nat) : Nat := if b < 4 then 0x140000 + 0x100000 * b else 0x40000

def GlId.reg : Nat := 0x0
def GlId.family : Fld := ⟨0x0, 31, 16⟩
def GlId.member : Fld := ⟨0x0, 15, 8⟩
def GlRev.reg : Nat := 0x4
def GlRev.stashStep : Fld := ⟨0x4, 23, 16⟩
def GlRev.acdStep : Fld := ⟨0x4, 15, 8⟩
def GlRev.computeStep : Fld := ⟨0x4, 7, 0⟩
def GlCaps.reg : Nat := 0x8
def GlCaps.skeinsMax : Fld := ⟨0x8, 23, 16⟩
def GlCaps.residentSlots : Fld := ⟨0x8, 15, 8⟩
def GlCaps.sigRequired : Fld := ⟨0x8, 6, 6⟩
def GlCaps.stashPresent : Fld := ⟨0x8, 5, 5⟩
def GlCaps.acdPresent : Fld := ⟨0x8, 4, 4⟩
def GlCaps.tilesPresent : Fld := ⟨0x8, 3, 0⟩
def GlStatus.reg : Nat := 0x10
def GlStatus.funcDown : Fld := ⟨0x10, 11, 11⟩
def GlStatus.patternRunning : Fld := ⟨0x10, 10, 10⟩
def GlStatus.faultPending : Fld := ⟨0x10, 9, 9⟩
def GlStatus.tensionCapped : Fld := ⟨0x10, 8, 8⟩
def GlStatus.refused : Fld := ⟨0x10, 7, 7⟩
def GlStatus.overhang : Fld := ⟨0x10, 6, 6⟩
def GlStatus.signed : Fld := ⟨0x10, 5, 5⟩
def GlStatus.imageCopy : Fld := ⟨0x10, 4, 4⟩
def GlStatus.phase : Fld := ⟨0x10, 3, 0⟩
def GlFuncUp.reg : Nat := 0x14
def GlFuncUp.func : Fld := ⟨0x14, 18, 0⟩
def GlFuncOff.reg : Nat := 0x18
def GlFuncOff.func : Fld := ⟨0x18, 18, 0⟩
def GlTbLo.reg : Nat := 0x20
def GlTbLo.tb : Fld := ⟨0x20, 31, 0⟩
def GlTbHi.reg : Nat := 0x24
def GlTbHi.tb : Fld := ⟨0x24, 31, 0⟩
def GlScratch.reg : Nat := 0x30
def GlScratch.value : Fld := ⟨0x30, 31, 0⟩
def GlUidLo.reg : Nat := 0x40
def GlUidLo.uid : Fld := ⟨0x40, 31, 0⟩
def GlUidHi.reg : Nat := 0x44
def GlUidHi.uid : Fld := ⟨0x44, 31, 0⟩
def GlStrap.reg : Nat := 0x100
def GlStrap.strap : Fld := ⟨0x100, 3, 0⟩
def GlResetCause.reg : Nat := 0x104
def GlResetCause.orderViolation : Fld := ⟨0x104, 8, 8⟩
def GlResetCause.thermtrip : Fld := ⟨0x104, 7, 7⟩
def GlResetCause.uvStash : Fld := ⟨0x104, 6, 6⟩
def GlResetCause.uvIo18 : Fld := ⟨0x104, 5, 5⟩
def GlResetCause.uvSram : Fld := ⟨0x104, 4, 4⟩
def GlResetCause.uvCore : Fld := ⟨0x104, 3, 3⟩
def GlResetCause.pwrok : Fld := ⟨0x104, 2, 2⟩
def GlResetCause.porst : Fld := ⟨0x104, 1, 1⟩
def GlResetCause.powerOn : Fld := ⟨0x104, 0, 0⟩
def GlSupply.reg : Nat := 0x108
def GlSupply.pwrokPin : Fld := ⟨0x108, 7, 7⟩
def GlSupply.vddqStashOk : Fld := ⟨0x108, 6, 6⟩
def GlSupply.vddStashOk : Fld := ⟨0x108, 5, 5⟩
def GlSupply.io18Ok : Fld := ⟨0x108, 4, 4⟩
def GlSupply.sramOk : Fld := ⟨0x108, 3, 3⟩
def GlSupply.coreOk : Fld := ⟨0x108, 2, 2⟩
def GlSupply.afeOk : Fld := ⟨0x108, 1, 1⟩
def GlSupply.pcieOk : Fld := ⟨0x108, 0, 0⟩
def GlPstateCtl.reg : Nat := 0x110
def GlPstateCtl.perstWake : Fld := ⟨0x110, 4, 4⟩
def GlPstateCtl.target : Fld := ⟨0x110, 1, 0⟩
def GlPstateStat.reg : Nat := 0x114
def GlPstateStat.pending : Fld := ⟨0x114, 5, 4⟩
def GlPstateStat.pendValid : Fld := ⟨0x114, 3, 3⟩
def GlPstateStat.busy : Fld := ⟨0x114, 2, 2⟩
def GlPstateStat.current : Fld := ⟨0x114, 1, 0⟩
def GlTemp.reg : Nat := 0x118
def GlTemp.valid : Fld := ⟨0x118, 31, 31⟩
def GlTemp.sensor : Fld := ⟨0x118, 19, 16⟩
def GlTemp.temp : Fld := ⟨0x118, 10, 0⟩
def GlTherm.reg : Nat := 0x11c
def GlTherm.alertHit : Fld := ⟨0x11c, 31, 31⟩
def GlTherm.trip : Fld := ⟨0x11c, 23, 16⟩
def GlTherm.alert : Fld := ⟨0x11c, 7, 0⟩
def GlClkstat.reg : Nat := 0x128
def GlClkstat.pcieRefclkPresent : Fld := ⟨0x128, 4, 4⟩
def GlClkstat.amclkLost : Fld := ⟨0x128, 3, 3⟩
def GlClkstat.amclkPresent : Fld := ⟨0x128, 2, 2⟩
def GlClkstat.xtalLost : Fld := ⟨0x128, 1, 1⟩
def GlClkstat.xtalOk : Fld := ⟨0x128, 0, 0⟩
def GlVrCtl.reg : Nat := 0x120
def GlVrCtl.adaptive : Fld := ⟨0x120, 15, 15⟩
def GlVrCtl.addr : Fld := ⟨0x120, 6, 0⟩
def GlVrStat.reg : Nat := 0x124
def GlVrStat.nackCount : Fld := ⟨0x124, 31, 24⟩
def GlVrStat.exponent : Fld := ⟨0x124, 20, 16⟩
def GlVrStat.voutCode : Fld := ⟨0x124, 15, 0⟩
def CoStatus.reg : Nat := 0x10000
def CoStatus.failCode : Fld := ⟨0x10000, 31, 16⟩
def CoStatus.logCount : Fld := ⟨0x10000, 15, 11⟩
def CoStatus.busy : Fld := ⟨0x10000, 10, 10⟩
def CoStatus.reqIgnored : Fld := ⟨0x10000, 9, 9⟩
def CoStatus.fallback : Fld := ⟨0x10000, 8, 8⟩
def CoStatus.step : Fld := ⟨0x10000, 7, 0⟩
def CoCtl.reg : Nat := 0x10004
def CoCtl.guard : Fld := ⟨0x10004, 15, 8⟩
def CoCtl.prefer : Fld := ⟨0x10004, 5, 4⟩
def CoCtl.op : Fld := ⟨0x10004, 2, 0⟩
def CoImgStat.reg : Nat := 0x10008
def CoImgStat.bState : Fld := ⟨0x10008, 3, 2⟩
def CoImgStat.aState : Fld := ⟨0x10008, 1, 0⟩
def CoImgAGen.reg : Nat := 0x1000c
def CoImgAGen.gen : Fld := ⟨0x1000c, 31, 0⟩
def CoImgBGen.reg : Nat := 0x10010
def CoImgBGen.gen : Fld := ⟨0x10010, 31, 0⟩
def CoImgBBase.reg : Nat := 0x10014
def CoImgBBase.base : Fld := ⟨0x10014, 31, 0⟩
def CoRecastCount.reg : Nat := 0x10018
def CoRecastCount.count : Fld := ⟨0x10018, 31, 0⟩
def CoNvmInfo.reg : Nat := 0x10020
def CoNvmInfo.probed : Fld := ⟨0x10020, 31, 31⟩
def CoNvmInfo.mode : Fld := ⟨0x10020, 30, 28⟩
def CoNvmInfo.addr4 : Fld := ⟨0x10020, 27, 27⟩
def CoNvmInfo.clockMhz : Fld := ⟨0x10020, 23, 16⟩
def CoNvmInfo.sizeLog2 : Fld := ⟨0x10020, 15, 8⟩
def CoNvmInfo.chipLog2 : Fld := ⟨0x10020, 7, 0⟩
def CoNvmCtl.reg : Nat := 0x10024
def CoNvmCtl.lenM1 : Fld := ⟨0x10024, 27, 16⟩
def CoNvmCtl.op : Fld := ⟨0x10024, 2, 0⟩
def CoNvmAddr.reg : Nat := 0x10028
def CoNvmAddr.addr : Fld := ⟨0x10028, 31, 0⟩
def CoNvmStat.reg : Nat := 0x1002c
def CoNvmStat.result : Fld := ⟨0x1002c, 3, 1⟩
def CoNvmStat.busy : Fld := ⟨0x1002c, 0, 0⟩
def CoLlCtl.reg : Nat := 0x10040
def CoLlCtl.key : Fld := ⟨0x10040, 31, 16⟩
def CoLlCtl.length : Fld := ⟨0x10040, 14, 3⟩
def CoLlCtl.op : Fld := ⟨0x10040, 2, 0⟩
def CoLlStat.reg : Nat := 0x10044
def CoLlStat.freeSectors : Fld := ⟨0x10044, 31, 23⟩
def CoLlStat.length : Fld := ⟨0x10044, 19, 8⟩
def CoLlStat.result : Fld := ⟨0x10044, 3, 1⟩
def CoLlStat.busy : Fld := ⟨0x10044, 0, 0⟩
def CoLlCfg.reg : Nat := 0x10048
def CoLlCfg.endurance : Fld := ⟨0x10048, 15, 0⟩
def CoLlWear.reg : Nat := 0x1004c
def CoLlWear.maxErase : Fld := ⟨0x1004c, 31, 0⟩
def CoStepLog0.reg (i : Nat) : Nat := 0x10100 + 0x8 * i
def CoStepLog0.result (i : Nat) : Fld := ⟨0x10100 + 0x8 * i, 23, 16⟩
def CoStepLog0.copy (i : Nat) : Fld := ⟨0x10100 + 0x8 * i, 15, 8⟩
def CoStepLog0.step (i : Nat) : Fld := ⟨0x10100 + 0x8 * i, 7, 0⟩
def CoStepLog1.reg (i : Nat) : Nat := 0x10104 + 0x8 * i
def CoStepLog1.time (i : Nat) : Fld := ⟨0x10104 + 0x8 * i, 31, 0⟩
def IsStatus.reg : Nat := 0x20000
def IsStatus.capReason : Fld := ⟨0x20000, 7, 4⟩
def IsStatus.floorHit : Fld := ⟨0x20000, 3, 3⟩
def IsStatus.expressHit : Fld := ⟨0x20000, 2, 2⟩
def IsStatus.capped : Fld := ⟨0x20000, 1, 1⟩
def IsStatus.active : Fld := ⟨0x20000, 0, 0⟩
def IsReplyTmo.reg : Nat := 0x20004
def IsReplyTmo.units : Fld := ⟨0x20004, 23, 0⟩
def IsStallLast.reg : Nat := 0x20008
def IsStallLast.valid : Fld := ⟨0x20008, 31, 31⟩
def IsStallLast.classF : Fld := ⟨0x20008, 19, 18⟩
def IsStallLast.dest : Fld := ⟨0x20008, 17, 9⟩
def IsStallLast.src : Fld := ⟨0x20008, 8, 0⟩
def IsStallCount.reg : Nat := 0x2000c
def IsStallCount.count : Fld := ⟨0x2000c, 31, 0⟩
def IsTenCfg.reg : Nat := 0x20010
def IsTenCfg.thermMargin : Fld := ⟨0x20010, 19, 16⟩
def IsTenCfg.limit : Fld := ⟨0x20010, 9, 0⟩
def IsTenReserve.reg : Nat := 0x20014
def IsTenReserve.power : Fld := ⟨0x20014, 9, 0⟩
def IsTenStat.reg : Nat := 0x20018
def IsTenStat.peak : Fld := ⟨0x20018, 27, 18⟩
def IsTenStat.power : Fld := ⟨0x20018, 17, 8⟩
def IsTenStat.rowDuty : Fld := ⟨0x20018, 7, 0⟩
def IsIslCfg.reg (i : Nat) : Nat := 0x21000 + 0x10 * i
def IsIslCfg.margin (i : Nat) : Fld := ⟨0x21000 + 0x10 * i, 12, 8⟩
def IsIslCfg.cap (i : Nat) : Fld := ⟨0x21000 + 0x10 * i, 7, 0⟩
def IsIslStat.reg (i : Nat) : Nat := 0x21004 + 0x10 * i
def IsIslStat.capClamped (i : Nat) : Fld := ⟨0x21004 + 0x10 * i, 12, 12⟩
def IsIslStat.stopped (i : Nat) : Fld := ⟨0x21004 + 0x10 * i, 11, 11⟩
def IsIslStat.inService (i : Nat) : Fld := ⟨0x21004 + 0x10 * i, 10, 10⟩
def IsIslStat.capped (i : Nat) : Fld := ⟨0x21004 + 0x10 * i, 9, 9⟩
def IsIslStat.sched (i : Nat) : Fld := ⟨0x21004 + 0x10 * i, 8, 8⟩
def IsIslStat.code (i : Nat) : Fld := ⟨0x21004 + 0x10 * i, 7, 0⟩
def IsIslDroop.reg (i : Nat) : Nat := 0x21008 + 0x10 * i
def IsIslDroop.count (i : Nat) : Fld := ⟨0x21008 + 0x10 * i, 31, 0⟩
def SpLayout.reg (t : Nat) : Nat := 0x110000 + 0x100000 * t
def SpLayout.mode (t : Nat) : Fld := ⟨0x110000 + 0x100000 * t, 16, 16⟩
def SpLayout.pFirst (t : Nat) : Fld := ⟨0x110000 + 0x100000 * t, 12, 8⟩
def SpLayout.aFirst (t : Nat) : Fld := ⟨0x110000 + 0x100000 * t, 4, 0⟩
def SpCtl.reg (t : Nat) : Nat := 0x110004 + 0x100000 * t
def SpCtl.scrubEn (t : Nat) : Fld := ⟨0x110004 + 0x100000 * t, 16, 16⟩
def SpCtl.scrubInterval (t : Nat) : Fld := ⟨0x110004 + 0x100000 * t, 15, 1⟩
def SpCtl.skewAction (t : Nat) : Fld := ⟨0x110004 + 0x100000 * t, 0, 0⟩
def SpStatus.reg (t : Nat) : Nat := 0x110008 + 0x100000 * t
def SpStatus.stray (t : Nat) : Fld := ⟨0x110008 + 0x100000 * t, 5, 5⟩
def SpStatus.wProtect (t : Nat) : Fld := ⟨0x110008 + 0x100000 * t, 4, 4⟩
def SpStatus.range (t : Nat) : Fld := ⟨0x110008 + 0x100000 * t, 3, 3⟩
def SpStatus.reach (t : Nat) : Fld := ⟨0x110008 + 0x100000 * t, 2, 2⟩
def SpStatus.ue (t : Nat) : Fld := ⟨0x110008 + 0x100000 * t, 1, 1⟩
def SpStatus.skew (t : Nat) : Fld := ⟨0x110008 + 0x100000 * t, 0, 0⟩
def SpWinPage.reg (t : Nat) : Nat := 0x11000c + 0x100000 * t
def SpWinPage.region (t : Nat) : Fld := ⟨0x11000c + 0x100000 * t, 9, 8⟩
def SpWinPage.page (t : Nat) : Fld := ⟨0x11000c + 0x100000 * t, 6, 0⟩
def SpBankAlloc.reg (t : Nat) : Nat := 0x110010 + 0x100000 * t
def SpBankAlloc.alloc (t : Nat) : Fld := ⟨0x110010 + 0x100000 * t, 31, 0⟩
def SpRow.reg (t : Nat) : Nat := 0x110014 + 0x100000 * t
def SpRow.count (t : Nat) : Fld := ⟨0x110014 + 0x100000 * t, 31, 4⟩
def SpRow.tag (t : Nat) : Fld := ⟨0x110014 + 0x100000 * t, 3, 0⟩
def SpSkewLast.reg (t : Nat) : Nat := 0x110020 + 0x100000 * t
def SpSkewLast.valid (t : Nat) : Fld := ⟨0x110020 + 0x100000 * t, 31, 31⟩
def SpSkewLast.bank (t : Nat) : Fld := ⟨0x110020 + 0x100000 * t, 28, 24⟩
def SpSkewLast.line (t : Nat) : Fld := ⟨0x110020 + 0x100000 * t, 23, 9⟩
def SpSkewLast.parity (t : Nat) : Fld := ⟨0x110020 + 0x100000 * t, 8, 8⟩
def SpSkewLast.expected (t : Nat) : Fld := ⟨0x110020 + 0x100000 * t, 7, 4⟩
def SpSkewLast.found (t : Nat) : Fld := ⟨0x110020 + 0x100000 * t, 3, 0⟩
def SpUeLast.reg (t : Nat) : Nat := 0x110034 + 0x100000 * t
def SpUeLast.valid (t : Nat) : Fld := ⟨0x110034 + 0x100000 * t, 31, 31⟩
def SpUeLast.bank (t : Nat) : Fld := ⟨0x110034 + 0x100000 * t, 22, 18⟩
def SpUeLast.line (t : Nat) : Fld := ⟨0x110034 + 0x100000 * t, 17, 3⟩
def SpUeLast.word (t : Nat) : Fld := ⟨0x110034 + 0x100000 * t, 2, 0⟩
def SpSkewCount.reg (t : Nat) : Nat := 0x110024 + 0x100000 * t
def SpSkewCount.count (t : Nat) : Fld := ⟨0x110024 + 0x100000 * t, 31, 0⟩
def SpCeCount.reg (t : Nat) : Nat := 0x110028 + 0x100000 * t
def SpCeCount.count (t : Nat) : Fld := ⟨0x110028 + 0x100000 * t, 31, 0⟩
def SpChkCount.reg (t : Nat) : Nat := 0x11002c + 0x100000 * t
def SpChkCount.count (t : Nat) : Fld := ⟨0x11002c + 0x100000 * t, 31, 0⟩
def SpUeCount.reg (t : Nat) : Nat := 0x110030 + 0x100000 * t
def SpUeCount.count (t : Nat) : Fld := ⟨0x110030 + 0x100000 * t, 31, 0⟩
def SpAgeCount.reg (t : Nat) : Nat := 0x110038 + 0x100000 * t
def SpAgeCount.count (t : Nat) : Fld := ⟨0x110038 + 0x100000 * t, 31, 0⟩
def MxCtl.reg (t : Nat) : Nat := 0x100000 + 0x100000 * t
def MxCtl.satPoison (t : Nat) : Fld := ⟨0x100000 + 0x100000 * t, 16, 16⟩
def MxCtl.accMode (t : Nat) : Fld := ⟨0x100000 + 0x100000 * t, 7, 0⟩
def MxSrSeed.reg (t : Nat) : Nat := 0x100008 + 0x100000 * t
def MxSrSeed.seed (t : Nat) : Fld := ⟨0x100008 + 0x100000 * t, 23, 0⟩
def MxStatus.reg (t : Nat) : Nat := 0x100004 + 0x100000 * t
def MxStatus.injecting (t : Nat) : Fld := ⟨0x100004 + 0x100000 * t, 27, 24⟩
def MxStatus.draining (t : Nat) : Fld := ⟨0x100004 + 0x100000 * t, 23, 20⟩
def MxStatus.loading (t : Nat) : Fld := ⟨0x100004 + 0x100000 * t, 19, 19⟩
def MxStatus.lockstep (t : Nat) : Fld := ⟨0x100004 + 0x100000 * t, 9, 9⟩
def MxStatus.topkAbandoned (t : Nat) : Fld := ⟨0x100004 + 0x100000 * t, 8, 8⟩
def MxStatus.accUe (t : Nat) : Fld := ⟨0x100004 + 0x100000 * t, 7, 7⟩
def MxStatus.sat (t : Nat) : Fld := ⟨0x100004 + 0x100000 * t, 6, 6⟩
def MxStatus.spError (t : Nat) : Fld := ⟨0x100004 + 0x100000 * t, 5, 5⟩
def MxStatus.format (t : Nat) : Fld := ⟨0x100004 + 0x100000 * t, 4, 4⟩
def MxStatus.range (t : Nat) : Fld := ⟨0x100004 + 0x100000 * t, 3, 3⟩
def MxStatus.noWeights (t : Nat) : Fld := ⟨0x100004 + 0x100000 * t, 2, 2⟩
def MxStatus.busyShadow (t : Nat) : Fld := ⟨0x100004 + 0x100000 * t, 1, 1⟩
def MxStatus.wswapStall (t : Nat) : Fld := ⟨0x100004 + 0x100000 * t, 0, 0⟩
def MxFaultLast.reg (t : Nat) : Nat := 0x10000c + 0x100000 * t
def MxFaultLast.valid (t : Nat) : Fld := ⟨0x10000c + 0x100000 * t, 31, 31⟩
def MxFaultLast.lane (t : Nat) : Fld := ⟨0x10000c + 0x100000 * t, 12, 12⟩
def MxFaultLast.kind (t : Nat) : Fld := ⟨0x10000c + 0x100000 * t, 11, 10⟩
def MxFaultLast.array (t : Nat) : Fld := ⟨0x10000c + 0x100000 * t, 9, 8⟩
def MxFaultLast.code (t : Nat) : Fld := ⟨0x10000c + 0x100000 * t, 7, 0⟩
def MxEpoch.reg (t i : Nat) : Nat := 0x100010 + 0x100000 * t + 0x4 * i
def MxEpoch.poisoned (t i : Nat) : Fld := ⟨0x100010 + 0x100000 * t + 0x4 * i, 16, 16⟩
def MxEpoch.loadRows (t i : Nat) : Fld := ⟨0x100010 + 0x100000 * t + 0x4 * i, 15, 8⟩
def MxEpoch.activeValid (t i : Nat) : Fld := ⟨0x100010 + 0x100000 * t + 0x4 * i, 7, 7⟩
def MxEpoch.shadowState (t i : Nat) : Fld := ⟨0x100010 + 0x100000 * t + 0x4 * i, 5, 4⟩
def MxEpoch.shadowEpoch (t i : Nat) : Fld := ⟨0x100010 + 0x100000 * t + 0x4 * i, 3, 2⟩
def MxEpoch.activeEpoch (t i : Nat) : Fld := ⟨0x100010 + 0x100000 * t + 0x4 * i, 1, 0⟩
def MxTopkStat.reg (t : Nat) : Nat := 0x100020 + 0x100000 * t
def MxTopkStat.openF (t : Nat) : Fld := ⟨0x100020 + 0x100000 * t, 31, 31⟩
def MxTopkStat.k (t : Nat) : Fld := ⟨0x100020 + 0x100000 * t, 30, 26⟩
def MxTopkStat.seen (t : Nat) : Fld := ⟨0x100020 + 0x100000 * t, 16, 0⟩
def MxAccUeLast.reg (t : Nat) : Nat := 0x100034 + 0x100000 * t
def MxAccUeLast.valid (t : Nat) : Fld := ⟨0x100034 + 0x100000 * t, 31, 31⟩
def MxAccUeLast.array (t : Nat) : Fld := ⟨0x100034 + 0x100000 * t, 18, 17⟩
def MxAccUeLast.half (t : Nat) : Fld := ⟨0x100034 + 0x100000 * t, 16, 16⟩
def MxAccUeLast.row (t : Nat) : Fld := ⟨0x100034 + 0x100000 * t, 14, 9⟩
def MxAccUeLast.column (t : Nat) : Fld := ⟨0x100034 + 0x100000 * t, 8, 0⟩
def MxSatCount.reg (t : Nat) : Nat := 0x100024 + 0x100000 * t
def MxSatCount.count (t : Nat) : Fld := ⟨0x100024 + 0x100000 * t, 31, 0⟩
def MxAccCeCount.reg (t : Nat) : Nat := 0x100028 + 0x100000 * t
def MxAccCeCount.count (t : Nat) : Fld := ⟨0x100028 + 0x100000 * t, 31, 0⟩
def MxAccChkCount.reg (t : Nat) : Nat := 0x10002c + 0x100000 * t
def MxAccChkCount.count (t : Nat) : Fld := ⟨0x10002c + 0x100000 * t, 31, 0⟩
def MxAccUeCount.reg (t : Nat) : Nat := 0x100030 + 0x100000 * t
def MxAccUeCount.count (t : Nat) : Fld := ⟨0x100030 + 0x100000 * t, 31, 0⟩
def VeCtl.reg (t : Nat) : Nat := 0x120000 + 0x100000 * t
def VeCtl.sf24Strict (t : Nat) : Fld := ⟨0x120000 + 0x100000 * t, 1, 1⟩
def VeCtl.satPoison (t : Nat) : Fld := ⟨0x120000 + 0x100000 * t, 0, 0⟩
def VeStatus.reg (t : Nat) : Nat := 0x120004 + 0x100000 * t
def VeStatus.busy (t : Nat) : Fld := ⟨0x120004 + 0x100000 * t, 31, 31⟩
def VeStatus.swatch (t : Nat) : Fld := ⟨0x120004 + 0x100000 * t, 7, 7⟩
def VeStatus.ue (t : Nat) : Fld := ⟨0x120004 + 0x100000 * t, 6, 6⟩
def VeStatus.fault (t : Nat) : Fld := ⟨0x120004 + 0x100000 * t, 5, 5⟩
def VeStatus.sf24Mismatch (t : Nat) : Fld := ⟨0x120004 + 0x100000 * t, 4, 4⟩
def VeStatus.sat (t : Nat) : Fld := ⟨0x120004 + 0x100000 * t, 3, 3⟩
def VeStatus.overflow (t : Nat) : Fld := ⟨0x120004 + 0x100000 * t, 2, 2⟩
def VeStatus.invalid (t : Nat) : Fld := ⟨0x120004 + 0x100000 * t, 1, 1⟩
def VeFaultLast.reg (t : Nat) : Nat := 0x120008 + 0x100000 * t
def VeFaultLast.valid (t : Nat) : Fld := ⟨0x120008 + 0x100000 * t, 31, 31⟩
def VeFaultLast.lane (t : Nat) : Fld := ⟨0x120008 + 0x100000 * t, 24, 24⟩
def VeFaultLast.stage (t : Nat) : Fld := ⟨0x120008 + 0x100000 * t, 23, 21⟩
def VeFaultLast.beat (t : Nat) : Fld := ⟨0x120008 + 0x100000 * t, 20, 11⟩
def VeFaultLast.code (t : Nat) : Fld := ⟨0x120008 + 0x100000 * t, 7, 0⟩
def VeTblStat.reg (t : Nat) : Nat := 0x12000c + 0x100000 * t
def VeTblStat.damaged (t : Nat) : Fld := ⟨0x12000c + 0x100000 * t, 31, 16⟩
def VeTblStat.loaded (t : Nat) : Fld := ⟨0x12000c + 0x100000 * t, 15, 0⟩
def VeUeLast.reg (t : Nat) : Nat := 0x120024 + 0x100000 * t
def VeUeLast.valid (t : Nat) : Fld := ⟨0x120024 + 0x100000 * t, 31, 31⟩
def VeUeLast.table (t : Nat) : Fld := ⟨0x120024 + 0x100000 * t, 30, 30⟩
def VeUeLast.word (t : Nat) : Fld := ⟨0x120024 + 0x100000 * t, 12, 0⟩
def VeOcAddr.reg (t : Nat) : Nat := 0x120040 + 0x100000 * t
def VeOcAddr.addr (t : Nat) : Fld := ⟨0x120040 + 0x100000 * t, 15, 2⟩
def VeOcData.reg (t : Nat) : Nat := 0x120044 + 0x100000 * t
def VeOcData.data (t : Nat) : Fld := ⟨0x120044 + 0x100000 * t, 31, 0⟩
def VeSatCount.reg (t : Nat) : Nat := 0x120010 + 0x100000 * t
def VeSatCount.count (t : Nat) : Fld := ⟨0x120010 + 0x100000 * t, 31, 0⟩
def VeInvalidCount.reg (t : Nat) : Nat := 0x120014 + 0x100000 * t
def VeInvalidCount.count (t : Nat) : Fld := ⟨0x120014 + 0x100000 * t, 31, 0⟩
def VeCeCount.reg (t : Nat) : Nat := 0x120018 + 0x100000 * t
def VeCeCount.count (t : Nat) : Fld := ⟨0x120018 + 0x100000 * t, 31, 0⟩
def VeChkCount.reg (t : Nat) : Nat := 0x12001c + 0x100000 * t
def VeChkCount.count (t : Nat) : Fld := ⟨0x12001c + 0x100000 * t, 31, 0⟩
def VeUeCount.reg (t : Nat) : Nat := 0x120020 + 0x100000 * t
def VeUeCount.count (t : Nat) : Fld := ⟨0x120020 + 0x100000 * t, 31, 0⟩
def TcCtl.reg (c : Nat) : Nat := coreRegs c + 0x0
def TcCtl.breakHalt (c : Nat) : Fld := ⟨coreRegs c + 0x0, 2, 2⟩
def TcCtl.step (c : Nat) : Fld := ⟨coreRegs c + 0x0, 1, 1⟩
def TcCtl.halt (c : Nat) : Fld := ⟨coreRegs c + 0x0, 0, 0⟩
def TcStat.reg (c : Nat) : Nat := coreRegs c + 0x4
def TcStat.dbgDenied (c : Nat) : Fld := ⟨coreRegs c + 0x4, 4, 4⟩
def TcStat.inTrap (c : Nat) : Fld := ⟨coreRegs c + 0x4, 3, 3⟩
def TcStat.state (c : Nat) : Fld := ⟨coreRegs c + 0x4, 2, 0⟩
def TcPc.reg (c : Nat) : Nat := coreRegs c + 0x8
def TcPc.pc (c : Nat) : Fld := ⟨coreRegs c + 0x8, 31, 0⟩
def TcDbgAddr.reg (c : Nat) : Nat := coreRegs c + 0xc
def TcDbgAddr.space (c : Nat) : Fld := ⟨coreRegs c + 0xc, 31, 30⟩
def TcDbgAddr.addr (c : Nat) : Fld := ⟨coreRegs c + 0xc, 17, 2⟩
def TcDbgAddr.autoinc (c : Nat) : Fld := ⟨coreRegs c + 0xc, 0, 0⟩
def TcDbgData.reg (c : Nat) : Nat := coreRegs c + 0x10
def TcDbgData.data (c : Nat) : Fld := ⟨coreRegs c + 0x10, 31, 0⟩
def TcDoorbell.reg (c : Nat) : Nat := coreRegs c + 0x14
def TcDoorbell.ring (c : Nat) : Fld := ⟨coreRegs c + 0x14, 0, 0⟩
def TcCeCount.reg (c : Nat) : Nat := coreRegs c + 0x18
def TcCeCount.count (c : Nat) : Fld := ⟨coreRegs c + 0x18, 31, 0⟩
def TcChkCount.reg (c : Nat) : Nat := coreRegs c + 0x1c
def TcChkCount.count (c : Nat) : Fld := ⟨coreRegs c + 0x1c, 31, 0⟩
def TcUeCount.reg (c : Nat) : Nat := coreRegs c + 0x20
def TcUeCount.count (c : Nat) : Fld := ⟨coreRegs c + 0x20, 31, 0⟩
def TcLatentCount.reg (c : Nat) : Nat := coreRegs c + 0x24
def TcLatentCount.count (c : Nat) : Fld := ⟨coreRegs c + 0x24, 31, 0⟩
def TcUeLast.reg (c : Nat) : Nat := coreRegs c + 0x28
def TcUeLast.valid (c : Nat) : Fld := ⟨coreRegs c + 0x28, 31, 31⟩
def TcUeLast.mem (c : Nat) : Fld := ⟨coreRegs c + 0x28, 30, 30⟩
def TcUeLast.latent (c : Nat) : Fld := ⟨coreRegs c + 0x28, 29, 29⟩
def TcUeLast.word (c : Nat) : Fld := ⟨coreRegs c + 0x28, 16, 3⟩
def StashStatus.reg : Nat := 0x800000
def StashStatus.occupied : Fld := ⟨0x800000, 27, 23⟩
def StashStatus.free : Fld := ⟨0x800000, 22, 18⟩
def StashStatus.moving : Fld := ⟨0x800000, 17, 13⟩
def StashStatus.tokensFree : Fld := ⟨0x800000, 12, 10⟩
def StashStatus.ohCrc : Fld := ⟨0x800000, 3, 3⟩
def StashStatus.lost : Fld := ⟨0x800000, 2, 2⟩
def StashStatus.tableWp : Fld := ⟨0x800000, 1, 1⟩
def StashStatus.trained : Fld := ⟨0x800000, 0, 0⟩
def StashLostLast.reg : Nat := 0x80000c
def StashLostLast.valid : Fld := ⟨0x80000c, 31, 31⟩
def StashLostLast.reason : Fld := ⟨0x80000c, 30, 29⟩
def StashLostLast.skein : Fld := ⟨0x80000c, 28, 22⟩
def StashLostLast.block : Fld := ⟨0x80000c, 21, 0⟩
def StashRetryCount.reg : Nat := 0x800004
def StashRetryCount.count : Fld := ⟨0x800004, 31, 0⟩
def StashLostCount.reg : Nat := 0x800008
def StashLostCount.count : Fld := ⟨0x800008, 31, 0⟩
def StashSwapCount.reg : Nat := 0x800010
def StashSwapCount.count : Fld := ⟨0x800010, 31, 0⟩
def DzCtl.reg : Nat := 0x500000
def DzCtl.driftStop : Fld := ⟨0x500000, 1, 1⟩
def DzCtl.seedSrc : Fld := ⟨0x500000, 0, 0⟩
def DzStatus.reg : Nat := 0x500004
def DzStatus.problem : Fld := ⟨0x500004, 12, 12⟩
def DzStatus.swatch : Fld := ⟨0x500004, 11, 11⟩
def DzStatus.ue : Fld := ⟨0x500004, 10, 10⟩
def DzStatus.writeDenied : Fld := ⟨0x500004, 9, 9⟩
def DzStatus.drift : Fld := ⟨0x500004, 8, 8⟩
def DzStatus.swatchActive : Fld := ⟨0x500004, 3, 3⟩
def DzStatus.checked : Fld := ⟨0x500004, 2, 2⟩
def DzStatus.statesValid : Fld := ⟨0x500004, 1, 1⟩
def DzStatus.runActive : Fld := ⟨0x500004, 0, 0⟩
def DzFaultLast.reg : Nat := 0x500010
def DzFaultLast.valid : Fld := ⟨0x500010, 31, 31⟩
def DzFaultLast.lane : Fld := ⟨0x500010, 12, 12⟩
def DzFaultLast.op : Fld := ⟨0x500010, 11, 8⟩
def DzFaultLast.code : Fld := ⟨0x500010, 7, 0⟩
def DzCheckLast.reg : Nat := 0x500014
def DzCheckLast.valid : Fld := ⟨0x500014, 31, 31⟩
def DzCheckLast.kind : Fld := ⟨0x500014, 30, 28⟩
def DzCheckLast.index : Fld := ⟨0x500014, 15, 0⟩
def DzSweep.reg : Nat := 0x500018
def DzSweep.count : Fld := ⟨0x500018, 31, 0⟩
def DzTraceStat.reg : Nat := 0x50001c
def DzTraceStat.index : Fld := ⟨0x50001c, 11, 0⟩
def DzTraceLap.reg : Nat := 0x500020
def DzTraceLap.lap : Fld := ⟨0x500020, 31, 0⟩
def DzWinPage.reg : Nat := 0x500024
def DzWinPage.page : Fld := ⟨0x500024, 3, 0⟩
def DzDriftLast.reg : Nat := 0x50002c
def DzDriftLast.valid : Fld := ⟨0x50002c, 31, 31⟩
def DzDriftLast.replica : Fld := ⟨0x50002c, 28, 24⟩
def DzDriftLast.diff : Fld := ⟨0x50002c, 23, 0⟩
def DzUeLast.reg : Nat := 0x50003c
def DzUeLast.valid : Fld := ⟨0x50003c, 31, 31⟩
def DzUeLast.lane : Fld := ⟨0x50003c, 30, 30⟩
def DzUeLast.word : Fld := ⟨0x50003c, 19, 0⟩
def DzSeed.reg : Nat := 0x500008
def DzSeed.seed : Fld := ⟨0x500008, 31, 0⟩
def DzSeedUsed.reg : Nat := 0x50000c
def DzSeedUsed.seed : Fld := ⟨0x50000c, 31, 0⟩
def DzDriftCount.reg : Nat := 0x500028
def DzDriftCount.count : Fld := ⟨0x500028, 31, 0⟩
def DzCeCount.reg : Nat := 0x500030
def DzCeCount.count : Fld := ⟨0x500030, 31, 0⟩
def DzChkCount.reg : Nat := 0x500034
def DzChkCount.count : Fld := ⟨0x500034, 31, 0⟩
def DzUeCount.reg : Nat := 0x500038
def DzUeCount.count : Fld := ⟨0x500038, 31, 0⟩
def DzBeta.reg (i : Nat) : Nat := 0x500040 + 0x4 * i
def DzBeta.hi (i : Nat) : Fld := ⟨0x500040 + 0x4 * i, 31, 16⟩
def DzBeta.lo (i : Nat) : Fld := ⟨0x500040 + 0x4 * i, 15, 0⟩
def AeCtl.reg : Nat := 0x600000
def AeCtl.clipThr : Fld := ⟨0x600000, 23, 0⟩
def AeStatus.reg : Nat := 0x600004
def AeStatus.capturing : Fld := ⟨0x600004, 16, 16⟩
def AeStatus.ringBad : Fld := ⟨0x600004, 6, 6⟩
def AeStatus.biasFault : Fld := ⟨0x600004, 5, 5⟩
def AeStatus.underrun : Fld := ⟨0x600004, 4, 4⟩
def AeStatus.syncLost : Fld := ⟨0x600004, 3, 3⟩
def AeStatus.stuck : Fld := ⟨0x600004, 2, 2⟩
def AeStatus.clip : Fld := ⟨0x600004, 1, 1⟩
def AeStatus.cfgDenied : Fld := ⟨0x600004, 0, 0⟩
def AeClksel.reg : Nat := 0x600008
def AeClksel.amclk : Fld := ⟨0x600008, 5, 0⟩
def AeSnap.reg : Nat := 0x60000c
def AeSnap.snap : Fld := ⟨0x60000c, 0, 0⟩
def AeAcdCtl.reg : Nat := 0x600010
def AeAcdCtl.inEn : Fld := ⟨0x600010, 31, 16⟩
def AeAcdCtl.swatch : Fld := ⟨0x600010, 12, 12⟩
def AeAcdCtl.bias1Level : Fld := ⟨0x600010, 11, 9⟩
def AeAcdCtl.bias0Level : Fld := ⟨0x600010, 8, 6⟩
def AeAcdCtl.bias1En : Fld := ⟨0x600010, 5, 5⟩
def AeAcdCtl.bias0En : Fld := ⟨0x600010, 4, 4⟩
def AeAcdCtl.hp : Fld := ⟨0x600010, 3, 2⟩
def AeAcdCtl.minphase : Fld := ⟨0x600010, 1, 1⟩
def AeAcdCtl.rate : Fld := ⟨0x600010, 0, 0⟩
def AeAcdStat.reg : Nat := 0x600014
def AeAcdStat.swatchBusy : Fld := ⟨0x600014, 19, 19⟩
def AeAcdStat.bias1Fault : Fld := ⟨0x600014, 18, 18⟩
def AeAcdStat.bias0Fault : Fld := ⟨0x600014, 17, 17⟩
def AeAcdStat.trimmed : Fld := ⟨0x600014, 16, 16⟩
def AeAcdStat.failed : Fld := ⟨0x600014, 15, 0⟩
def AeAcdOut.reg : Nat := 0x600018
def AeAcdOut.minphase : Fld := ⟨0x600018, 8, 8⟩
def AeAcdOut.outEn : Fld := ⟨0x600018, 7, 0⟩
def AePdmCtl.reg : Nat := 0x600030
def AePdmCtl.lineEn : Fld := ⟨0x600030, 31, 16⟩
def AePdmCtl.clkEn : Fld := ⟨0x600030, 15, 8⟩
def AePdmCtl.div : Fld := ⟨0x600030, 5, 4⟩
def AePdmCtl.hp : Fld := ⟨0x600030, 3, 2⟩
def AePdmCtl.minphase : Fld := ⟨0x600030, 1, 1⟩
def AePdmCtl.rate : Fld := ⟨0x600030, 0, 0⟩
def AePdmStuck.reg : Nat := 0x60003c
def AePdmStuck.stuck : Fld := ⟨0x60003c, 31, 0⟩
def AeAcdGain.reg (i : Nat) : Nat := 0x600020 + 0x4 * i
def AeAcdGain.gain0 (i : Nat) : Fld := ⟨0x600020 + 0x4 * i, 4, 0⟩
def AeAcdGain.gain1 (i : Nat) : Fld := ⟨0x600020 + 0x4 * i, 12, 8⟩
def AeAcdGain.gain2 (i : Nat) : Fld := ⟨0x600020 + 0x4 * i, 20, 16⟩
def AeAcdGain.gain3 (i : Nat) : Fld := ⟨0x600020 + 0x4 * i, 28, 24⟩
def AePdmMap.reg (i : Nat) : Nat := 0x600034 + 0x4 * i
def AePdmMap.clk0 (i : Nat) : Fld := ⟨0x600034 + 0x4 * i, 2, 0⟩
def AePdmMap.clk1 (i : Nat) : Fld := ⟨0x600034 + 0x4 * i, 6, 4⟩
def AePdmMap.clk2 (i : Nat) : Fld := ⟨0x600034 + 0x4 * i, 10, 8⟩
def AePdmMap.clk3 (i : Nat) : Fld := ⟨0x600034 + 0x4 * i, 14, 12⟩
def AePdmMap.clk4 (i : Nat) : Fld := ⟨0x600034 + 0x4 * i, 18, 16⟩
def AePdmMap.clk5 (i : Nat) : Fld := ⟨0x600034 + 0x4 * i, 22, 20⟩
def AePdmMap.clk6 (i : Nat) : Fld := ⟨0x600034 + 0x4 * i, 26, 24⟩
def AePdmMap.clk7 (i : Nat) : Fld := ⟨0x600034 + 0x4 * i, 30, 28⟩
def AeTdmCtl.reg (i : Nat) : Nat := 0x600040 + 0x10 * i
def AeTdmCtl.rxEn (i : Nat) : Fld := ⟨0x600040 + 0x10 * i, 31, 16⟩
def AeTdmCtl.hp (i : Nat) : Fld := ⟨0x600040 + 0x10 * i, 9, 8⟩
def AeTdmCtl.word (i : Nat) : Fld := ⟨0x600040 + 0x10 * i, 7, 6⟩
def AeTdmCtl.rxEdge (i : Nat) : Fld := ⟨0x600040 + 0x10 * i, 5, 5⟩
def AeTdmCtl.delay (i : Nat) : Fld := ⟨0x600040 + 0x10 * i, 4, 4⟩
def AeTdmCtl.fsyncPol (i : Nat) : Fld := ⟨0x600040 + 0x10 * i, 3, 3⟩
def AeTdmCtl.format (i : Nat) : Fld := ⟨0x600040 + 0x10 * i, 2, 1⟩
def AeTdmCtl.master (i : Nat) : Fld := ⟨0x600040 + 0x10 * i, 0, 0⟩
def AeTdmStat.reg (i : Nat) : Nat := 0x600044 + 0x10 * i
def AeTdmStat.ppm (i : Nat) : Fld := ⟨0x600044 + 0x10 * i, 31, 16⟩
def AeTdmStat.asrc (i : Nat) : Fld := ⟨0x600044 + 0x10 * i, 1, 1⟩
def AeTdmStat.locked (i : Nat) : Fld := ⟨0x600044 + 0x10 * i, 0, 0⟩
def AeCnt.reg (i : Nat) : Nat := 0x6000c0 + 0x4 * i
def AeCnt.count (i : Nat) : Fld := ⟨0x6000c0 + 0x4 * i, 31, 0⟩
def AeTsLo.reg (i : Nat) : Nat := 0x6000e0 + 0x8 * i
def AeTsLo.tb (i : Nat) : Fld := ⟨0x6000e0 + 0x8 * i, 31, 0⟩
def AeTsHi.reg (i : Nat) : Nat := 0x6000e4 + 0x8 * i
def AeTsHi.tb (i : Nat) : Fld := ⟨0x6000e4 + 0x8 * i, 31, 0⟩
def AeClip.reg (i : Nat) : Nat := 0x600120 + 0x4 * i
def AeClip.clip (i : Nat) : Fld := ⟨0x600120 + 0x4 * i, 31, 0⟩
def AeMiss.reg (i : Nat) : Nat := 0x600130 + 0x4 * i
def AeMiss.miss (i : Nat) : Fld := ⟨0x600130 + 0x4 * i, 31, 0⟩
def AeUnderrunCount.reg : Nat := 0x600140
def AeUnderrunCount.count : Fld := ⟨0x600140, 31, 0⟩
def AeClipCount.reg : Nat := 0x600144
def AeClipCount.count : Fld := ⟨0x600144, 31, 0⟩
def AeSyncCount.reg : Nat := 0x600148
def AeSyncCount.count : Fld := ⟨0x600148, 31, 0⟩
def AeRingCtl.reg (i : Nat) : Nat := 0x600200 + 0x20 * i
def AeRingCtl.leadM1 (i : Nat) : Fld := ⟨0x600200 + 0x20 * i, 24, 21⟩
def AeRingCtl.depthM1 (i : Nat) : Fld := ⟨0x600200 + 0x20 * i, 20, 11⟩
def AeRingCtl.phase (i : Nat) : Fld := ⟨0x600200 + 0x20 * i, 10, 7⟩
def AeRingCtl.hopM1 (i : Nat) : Fld := ⟨0x600200 + 0x20 * i, 6, 3⟩
def AeRingCtl.rate (i : Nat) : Fld := ⟨0x600200 + 0x20 * i, 2, 2⟩
def AeRingCtl.dir (i : Nat) : Fld := ⟨0x600200 + 0x20 * i, 1, 1⟩
def AeRingCtl.enable (i : Nat) : Fld := ⟨0x600200 + 0x20 * i, 0, 0⟩
def AeRingBase.reg (i : Nat) : Nat := 0x600204 + 0x20 * i
def AeRingBase.base (i : Nat) : Fld := ⟨0x600204 + 0x20 * i, 20, 0⟩
def AeRingEvt.reg (i : Nat) : Nat := 0x600208 + 0x20 * i
def AeRingEvt.event (i : Nat) : Fld := ⟨0x600208 + 0x20 * i, 21, 16⟩
def AeRingEvt.cores (i : Nat) : Fld := ⟨0x600208 + 0x20 * i, 9, 0⟩
def AeRingStat.reg (i : Nat) : Nat := 0x60021c + 0x20 * i
def AeRingStat.running (i : Nat) : Fld := ⟨0x60021c + 0x20 * i, 31, 31⟩
def AeRingStat.reason (i : Nat) : Fld := ⟨0x60021c + 0x20 * i, 30, 28⟩
def AeRingCh.reg (i j : Nat) : Nat := 0x60020c + 0x20 * i + 0x4 * j
def AeRingCh.ch (i j : Nat) : Fld := ⟨0x60020c + 0x20 * i + 0x4 * j, 31, 0⟩
def HlPcieId.reg : Nat := 0x700000
def HlPcieId.device : Fld := ⟨0x700000, 31, 16⟩
def HlPcieId.vendor : Fld := ⟨0x700000, 15, 0⟩
def HlPcieStat.reg : Nat := 0x700004
def HlPcieStat.poisonedRx : Fld := ⟨0x700004, 19, 19⟩
def HlPcieStat.caUrRx : Fld := ⟨0x700004, 18, 18⟩
def HlPcieStat.cplTmo : Fld := ⟨0x700004, 17, 17⟩
def HlPcieStat.linkReset : Fld := ⟨0x700004, 16, 16⟩
def HlPcieStat.perstN : Fld := ⟨0x700004, 9, 9⟩
def HlPcieStat.bme : Fld := ⟨0x700004, 8, 8⟩
def HlPcieStat.width : Fld := ⟨0x700004, 5, 3⟩
def HlPcieStat.speed : Fld := ⟨0x700004, 2, 0⟩
def HlStashPage.reg : Nat := 0x700008
def HlStashPage.page : Fld := ⟨0x700008, 2, 0⟩
def HlPtmCtl.reg : Nat := 0x700010
def HlPtmCtl.valid : Fld := ⟨0x700010, 31, 31⟩
def HlPtmCtl.interval : Fld := ⟨0x700010, 15, 8⟩
def HlPtmCtl.auto : Fld := ⟨0x700010, 0, 0⟩
def HlUsbId.reg : Nat := 0x700040
def HlUsbId.pid : Fld := ⟨0x700040, 31, 16⟩
def HlUsbId.vid : Fld := ⟨0x700040, 15, 0⟩
def HlUsbStat.reg : Nat := 0x700044
def HlUsbStat.busReset : Fld := ⟨0x700044, 16, 16⟩
def HlUsbStat.address : Fld := ⟨0x700044, 15, 8⟩
def HlUsbStat.degraded : Fld := ⟨0x700044, 6, 6⟩
def HlUsbStat.capActive : Fld := ⟨0x700044, 5, 5⟩
def HlUsbStat.playActive : Fld := ⟨0x700044, 4, 4⟩
def HlUsbStat.suspended : Fld := ⟨0x700044, 3, 3⟩
def HlUsbStat.configured : Fld := ⟨0x700044, 2, 2⟩
def HlUsbStat.attached : Fld := ⟨0x700044, 1, 1⟩
def HlUsbStat.vbus : Fld := ⟨0x700044, 0, 0⟩
def HlSpiStat.reg : Nat := 0x700080
def HlSpiStat.timeout : Fld := ⟨0x700080, 18, 18⟩
def HlSpiStat.abort : Fld := ⟨0x700080, 17, 17⟩
def HlSpiStat.crcErr : Fld := ⟨0x700080, 16, 16⟩
def HlSpiStat.lastResult : Fld := ⟨0x700080, 10, 8⟩
def HlSpiStat.writes : Fld := ⟨0x700080, 7, 0⟩
def HlPtmTbLo.reg : Nat := 0x700014
def HlPtmTbLo.value : Fld := ⟨0x700014, 31, 0⟩
def HlPtmTbHi.reg : Nat := 0x700018
def HlPtmTbHi.value : Fld := ⟨0x700018, 31, 0⟩
def HlPtmMasterLo.reg : Nat := 0x70001c
def HlPtmMasterLo.value : Fld := ⟨0x70001c, 31, 0⟩
def HlPtmMasterHi.reg : Nat := 0x700020
def HlPtmMasterHi.value : Fld := ⟨0x700020, 31, 0⟩
def MsgStatus.reg : Nat := 0x780000
def MsgStatus.usedKib : Fld := ⟨0x780000, 31, 20⟩
def MsgStatus.fault : Fld := ⟨0x780000, 3, 3⟩
def MsgStatus.ue : Fld := ⟨0x780000, 2, 2⟩
def MsgStatus.stageFull : Fld := ⟨0x780000, 1, 1⟩
def MsgStatus.ringError : Fld := ⟨0x780000, 0, 0⟩
def MsgStage.reg : Nat := 0x780004
def MsgStage.sizeKib : Fld := ⟨0x780004, 31, 21⟩
def MsgStage.base : Fld := ⟨0x780004, 20, 0⟩
def MsgSysDest.reg : Nat := 0x780008
def MsgSysDest.usb : Fld := ⟨0x780008, 16, 16⟩
def MsgSysDest.rings : Fld := ⟨0x780008, 15, 0⟩
def MsgDevSeq.reg : Nat := 0x78000c
def MsgDevSeq.seq : Fld := ⟨0x78000c, 31, 0⟩
def MsgFaultLast.reg : Nat := 0x780014
def MsgFaultLast.valid : Fld := ⟨0x780014, 31, 31⟩
def MsgFaultLast.lane : Fld := ⟨0x780014, 12, 12⟩
def MsgFaultLast.op : Fld := ⟨0x780014, 11, 8⟩
def MsgFaultLast.code : Fld := ⟨0x780014, 7, 0⟩
def MsgUsbCfg.reg : Nat := 0x780020
def MsgUsbCfg.inboxEvent : Fld := ⟨0x780020, 31, 26⟩
def MsgUsbCfg.inboxCore : Fld := ⟨0x780020, 25, 22⟩
def MsgUsbCfg.capChM1 : Fld := ⟨0x780020, 21, 19⟩
def MsgUsbCfg.playChM1 : Fld := ⟨0x780020, 18, 16⟩
def MsgUsbCfg.coalesce : Fld := ⟨0x780020, 15, 8⟩
def MsgUsbCfg.holdMs : Fld := ⟨0x780020, 7, 4⟩
def MsgUsbCfg.policy : Fld := ⟨0x780020, 0, 0⟩
def MsgUsbInbox.reg : Nat := 0x780024
def MsgUsbInbox.slotsM1 : Fld := ⟨0x780024, 31, 26⟩
def MsgUsbInbox.base : Fld := ⟨0x780024, 20, 0⟩
def MsgStageDrop.reg : Nat := 0x780010
def MsgStageDrop.count : Fld := ⟨0x780010, 31, 0⟩
def MsgUsbDrop.reg : Nat := 0x780028
def MsgUsbDrop.count : Fld := ⟨0x780028, 31, 0⟩
def MsgRingCtl.reg (i : Nat) : Nat := 0x780100 + 0x40 * i
def MsgRingCtl.holdMs (i : Nat) : Fld := ⟨0x780100 + 0x40 * i, 11, 8⟩
def MsgRingCtl.sizeLog2 (i : Nat) : Fld := ⟨0x780100 + 0x40 * i, 7, 3⟩
def MsgRingCtl.policy (i : Nat) : Fld := ⟨0x780100 + 0x40 * i, 2, 2⟩
def MsgRingCtl.enable (i : Nat) : Fld := ⟨0x780100 + 0x40 * i, 0, 0⟩
def MsgRingBaseLo.reg (i : Nat) : Nat := 0x780104 + 0x40 * i
def MsgRingBaseLo.value (i : Nat) : Fld := ⟨0x780104 + 0x40 * i, 31, 0⟩
def MsgRingBaseHi.reg (i : Nat) : Nat := 0x780108 + 0x40 * i
def MsgRingBaseHi.value (i : Nat) : Fld := ⟨0x780108 + 0x40 * i, 31, 0⟩
def MsgRingStatusLo.reg (i : Nat) : Nat := 0x78010c + 0x40 * i
def MsgRingStatusLo.value (i : Nat) : Fld := ⟨0x78010c + 0x40 * i, 31, 0⟩
def MsgRingStatusHi.reg (i : Nat) : Nat := 0x780110 + 0x40 * i
def MsgRingStatusHi.value (i : Nat) : Fld := ⟨0x780110 + 0x40 * i, 31, 0⟩
def MsgRingProd.reg (i : Nat) : Nat := 0x780114 + 0x40 * i
def MsgRingProd.prod (i : Nat) : Fld := ⟨0x780114 + 0x40 * i, 15, 0⟩
def MsgRingDone.reg (i : Nat) : Nat := 0x780118 + 0x40 * i
def MsgRingDone.doneTail (i : Nat) : Fld := ⟨0x780118 + 0x40 * i, 15, 0⟩
def MsgRingStat.reg (i : Nat) : Nat := 0x78011c + 0x40 * i
def MsgRingStat.running (i : Nat) : Fld := ⟨0x78011c + 0x40 * i, 31, 31⟩
def MsgRingStat.error (i : Nat) : Fld := ⟨0x78011c + 0x40 * i, 30, 30⟩
def MsgRingStat.cause (i : Nat) : Fld := ⟨0x78011c + 0x40 * i, 29, 27⟩
def MsgRingStat.inDevice (i : Nat) : Fld := ⟨0x78011c + 0x40 * i, 16, 0⟩
def MsgRingDrop.reg (i : Nat) : Nat := 0x780120 + 0x40 * i
def MsgRingDrop.count (i : Nat) : Fld := ⟨0x780120 + 0x40 * i, 31, 0⟩
def MsgRingInt.reg (i : Nat) : Nat := 0x780124 + 0x40 * i
def MsgRingInt.vector (i : Nat) : Fld := ⟨0x780124 + 0x40 * i, 31, 27⟩
def MsgRingInt.intTimer (i : Nat) : Fld := ⟨0x780124 + 0x40 * i, 26, 16⟩
def MsgRingInt.intCount (i : Nat) : Fld := ⟨0x780124 + 0x40 * i, 15, 8⟩
def MsgRingInt.coalesce (i : Nat) : Fld := ⟨0x780124 + 0x40 * i, 7, 0⟩
def FrStatus.reg : Nat := 0x30000
def FrStatus.pendLost : Fld := ⟨0x30000, 31, 24⟩
def FrStatus.pendCount : Fld := ⟨0x30000, 23, 19⟩
def FrStatus.queued : Fld := ⟨0x30000, 18, 14⟩
def FrStatus.step : Fld := ⟨0x30000, 13, 11⟩
def FrStatus.func : Fld := ⟨0x30000, 10, 6⟩
def FrStatus.frogFail : Fld := ⟨0x30000, 5, 5⟩
def FrStatus.frogLimit : Fld := ⟨0x30000, 4, 4⟩
def FrStatus.escalated : Fld := ⟨0x30000, 3, 3⟩
def FrStatus.starved : Fld := ⟨0x30000, 2, 2⟩
def FrStatus.reqDenied : Fld := ⟨0x30000, 1, 1⟩
def FrStatus.busy : Fld := ⟨0x30000, 0, 0⟩
def FrCtl.reg : Nat := 0x30004
def FrCtl.guard : Fld := ⟨0x30004, 31, 24⟩
def FrCtl.func : Fld := ⟨0x30004, 9, 5⟩
def FrCtl.op : Fld := ⟨0x30004, 1, 0⟩
def FrFrogLast.reg : Nat := 0x30008
def FrFrogLast.valid : Fld := ⟨0x30008, 31, 31⟩
def FrFrogLast.outcome : Fld := ⟨0x30008, 30, 29⟩
def FrFrogLast.func : Fld := ⟨0x30008, 28, 24⟩
def FrFrogLast.duration : Fld := ⟨0x30008, 23, 0⟩
def FrFaultSeq.reg : Nat := 0x3000c
def FrFaultSeq.seq : Fld := ⟨0x3000c, 31, 0⟩
def FrWdogCfg.reg : Nat := 0x30010
def FrWdogCfg.rows : Fld := ⟨0x30010, 7, 0⟩
def FrEscStat.reg : Nat := 0x30014
def FrEscStat.castOns : Fld := ⟨0x30014, 31, 16⟩
def FrEscStat.recasts : Fld := ⟨0x30014, 15, 0⟩
def FrPendPop.reg : Nat := 0x30040
def FrPendPop.pop : Fld := ⟨0x30040, 0, 0⟩
def FrSwCfg.reg : Nat := 0x30050
def FrSwCfg.interval : Fld := ⟨0x30050, 15, 8⟩
def FrSwCfg.enable : Fld := ⟨0x30050, 3, 0⟩
def FrSwStat.reg : Nat := 0x30054
def FrSwStat.dza : Fld := ⟨0x30054, 24, 24⟩
def FrSwStat.ve : Fld := ⟨0x30054, 23, 20⟩
def FrSwStat.sp : Fld := ⟨0x30054, 19, 16⟩
def FrSwStat.array : Fld := ⟨0x30054, 15, 0⟩
def FrPend.reg (i : Nat) : Nat := 0x30020 + 0x4 * i
def FrPend.word (i : Nat) : Fld := ⟨0x30020 + 0x4 * i, 31, 0⟩
def FrSwRunCount.reg : Nat := 0x30058
def FrSwRunCount.count : Fld := ⟨0x30058, 31, 0⟩
def FrSwAbandonCount.reg : Nat := 0x3005c
def FrSwAbandonCount.count : Fld := ⟨0x3005c, 31, 0⟩
def FrSwFailCount.reg : Nat := 0x30060
def FrSwFailCount.count : Fld := ⟨0x30060, 31, 0⟩
def FrHsrCeCount.reg : Nat := 0x30064
def FrHsrCeCount.count : Fld := ⟨0x30064, 31, 0⟩
def FrHsrChkCount.reg : Nat := 0x30068
def FrHsrChkCount.count : Fld := ⟨0x30068, 31, 0⟩
def FrHsrUeCount.reg : Nat := 0x3006c
def FrHsrUeCount.count : Fld := ⟨0x3006c, 31, 0⟩
def FrFrogCount.reg : Nat := 0x30070
def FrFrogCount.count : Fld := ⟨0x30070, 31, 0⟩
def GaCtl.reg (b : Nat) : Nat := gaugeRegs b + 0x0
def GaCtl.clear (b : Nat) : Fld := ⟨gaugeRegs b + 0x0, 1, 1⟩
def GaCtl.runF (b : Nat) : Fld := ⟨gaugeRegs b + 0x0, 0, 0⟩
def GaStatus.reg (b : Nat) : Nat := gaugeRegs b + 0x4
def GaStatus.badCfg (b : Nat) : Fld := ⟨gaugeRegs b + 0x4, 16, 16⟩
def GaStatus.ovf (b : Nat) : Fld := ⟨gaugeRegs b + 0x4, 15, 8⟩
def GaStatus.thr (b : Nat) : Fld := ⟨gaugeRegs b + 0x4, 7, 0⟩
def GaTbLo.reg (b : Nat) : Nat := gaugeRegs b + 0x8
def GaTbLo.tb (b : Nat) : Fld := ⟨gaugeRegs b + 0x8, 31, 0⟩
def GaTbHi.reg (b : Nat) : Nat := gaugeRegs b + 0xc
def GaTbHi.tb (b : Nat) : Fld := ⟨gaugeRegs b + 0xc, 31, 0⟩
def GaCfg.reg (b i : Nat) : Nat := gaugeRegs b + 0x40 + 0x20 * i
def GaCfg.thrEn (b i : Nat) : Fld := ⟨gaugeRegs b + 0x40 + 0x20 * i, 31, 31⟩
def GaCfg.mode (b i : Nat) : Fld := ⟨gaugeRegs b + 0x40 + 0x20 * i, 30, 29⟩
def GaCfg.n (b i : Nat) : Fld := ⟨gaugeRegs b + 0x40 + 0x20 * i, 23, 16⟩
def GaCfg.inst (b i : Nat) : Fld := ⟨gaugeRegs b + 0x40 + 0x20 * i, 15, 8⟩
def GaCfg.event (b i : Nat) : Fld := ⟨gaugeRegs b + 0x40 + 0x20 * i, 7, 0⟩
def GaCntLo.reg (b i : Nat) : Nat := gaugeRegs b + 0x44 + 0x20 * i
def GaCntLo.count (b i : Nat) : Fld := ⟨gaugeRegs b + 0x44 + 0x20 * i, 31, 0⟩
def GaCntHi.reg (b i : Nat) : Nat := gaugeRegs b + 0x48 + 0x20 * i
def GaCntHi.count (b i : Nat) : Fld := ⟨gaugeRegs b + 0x48 + 0x20 * i, 15, 0⟩
def GaCmpLo.reg (b i : Nat) : Nat := gaugeRegs b + 0x4c + 0x20 * i
def GaCmpLo.cmp (b i : Nat) : Fld := ⟨gaugeRegs b + 0x4c + 0x20 * i, 31, 0⟩
def GaCmpHi.reg (b i : Nat) : Nat := gaugeRegs b + 0x50 + 0x20 * i
def GaCmpHi.cmp (b i : Nat) : Fld := ⟨gaugeRegs b + 0x50 + 0x20 * i, 15, 0⟩
def GaOvf.reg (b i : Nat) : Nat := gaugeRegs b + 0x54 + 0x20 * i
def GaOvf.ovfCount (b i : Nat) : Fld := ⟨gaugeRegs b + 0x54 + 0x20 * i, 15, 0⟩
def GaFlit.reg (b i : Nat) : Nat := gaugeRegs b + 0x180 + 0x4 * i
def GaFlit.flits (b i : Nat) : Fld := ⟨gaugeRegs b + 0x180 + 0x4 * i, 31, 0⟩
def GaDumpCtl.reg : Nat := 0x40200
def GaDumpCtl.now : Fld := ⟨0x40200, 9, 9⟩
def GaDumpCtl.msg : Fld := ⟨0x40200, 8, 8⟩
def GaDumpCtl.period : Fld := ⟨0x40200, 7, 0⟩
def GaDumpStat.reg : Nat := 0x40204
def GaDumpStat.skipped : Fld := ⟨0x40204, 31, 16⟩
def GaDumpStat.readable : Fld := ⟨0x40204, 0, 0⟩
def GaLogRd.reg : Nat := 0x40208
def GaLogRd.seq : Fld := ⟨0x40208, 31, 0⟩
def GaLogWr.reg : Nat := 0x4020c
def GaLogWr.seq : Fld := ⟨0x4020c, 31, 0⟩
def GaLogLost.reg : Nat := 0x40210
def GaLogLost.count : Fld := ⟨0x40210, 31, 0⟩

def regTable0 : List RegDesc :=
  [ ⟨0x0, [], [⟨31, 16, .ro, 0x5356⟩, ⟨15, 8, .ro, 0x9⟩]⟩,
    ⟨0x4, [], [⟨23, 16, .ro, 0x21⟩, ⟨15, 8, .ro, 0x21⟩, ⟨7, 0, .ro, 0x21⟩]⟩,
    ⟨0x8, [], [⟨23, 16, .ro, 0x60⟩, ⟨15, 8, .ro, 0x18⟩, ⟨6, 6, .ro, 0x0⟩, ⟨5, 5, .ro, 0x0⟩, ⟨4, 4, .ro, 0x1⟩, ⟨3, 0, .ro, 0xf⟩]⟩,
    ⟨0x10, [], [⟨11, 11, .ro, 0x1⟩, ⟨10, 10, .ro, 0x0⟩, ⟨9, 9, .ro, 0x0⟩, ⟨8, 8, .ro, 0x0⟩, ⟨7, 7, .ro, 0x0⟩, ⟨6, 6, .ro, 0x0⟩, ⟨5, 5, .ro, 0x0⟩, ⟨4, 4, .ro, 0x0⟩, ⟨3, 0, .ro, 0x0⟩]⟩,
    ⟨0x14, [], [⟨18, 0, .ro, 0x0⟩]⟩,
    ⟨0x18, [], [⟨18, 0, .ro, 0x0⟩]⟩,
    ⟨0x20, [], [⟨31, 0, .ro, 0x0⟩]⟩,
    ⟨0x24, [], [⟨31, 0, .ro, 0x0⟩]⟩,
    ⟨0x30, [], [⟨31, 0, .rw, 0x0⟩]⟩,
    ⟨0x40, [], [⟨31, 0, .ro, 0x0⟩]⟩,
    ⟨0x44, [], [⟨31, 0, .ro, 0x0⟩]⟩,
    ⟨0x100, [], [⟨3, 0, .ro, 0x0⟩]⟩,
    ⟨0x104, [], [⟨8, 8, .w1c, 0x0⟩, ⟨7, 7, .w1c, 0x0⟩, ⟨6, 6, .w1c, 0x0⟩, ⟨5, 5, .w1c, 0x0⟩, ⟨4, 4, .w1c, 0x0⟩, ⟨3, 3, .w1c, 0x0⟩, ⟨2, 2, .w1c, 0x0⟩, ⟨1, 1, .w1c, 0x0⟩, ⟨0, 0, .w1c, 0x1⟩]⟩,
    ⟨0x108, [], [⟨7, 7, .ro, 0x0⟩, ⟨6, 6, .ro, 0x0⟩, ⟨5, 5, .ro, 0x0⟩, ⟨4, 4, .ro, 0x0⟩, ⟨3, 3, .ro, 0x0⟩, ⟨2, 2, .ro, 0x0⟩, ⟨1, 1, .ro, 0x0⟩, ⟨0, 0, .ro, 0x0⟩]⟩,
    ⟨0x110, [], [⟨4, 4, .rw, 0x0⟩, ⟨1, 0, .rw, 0x0⟩]⟩,
    ⟨0x114, [], [⟨5, 4, .ro, 0x0⟩, ⟨3, 3, .ro, 0x0⟩, ⟨2, 2, .ro, 0x0⟩, ⟨1, 0, .ro, 0x0⟩]⟩,
    ⟨0x118, [], [⟨31, 31, .ro, 0x0⟩, ⟨19, 16, .ro, 0x0⟩, ⟨10, 0, .ro, 0x0⟩]⟩,
    ⟨0x11c, [], [⟨31, 31, .w1c, 0x0⟩, ⟨23, 16, .ro, 0x73⟩, ⟨7, 0, .rw, 0x69⟩]⟩,
    ⟨0x128, [], [⟨4, 4, .ro, 0x0⟩, ⟨3, 3, .w1c, 0x0⟩, ⟨2, 2, .ro, 0x0⟩, ⟨1, 1, .w1c, 0x0⟩, ⟨0, 0, .ro, 0x0⟩]⟩,
    ⟨0x120, [], [⟨15, 15, .ro, 0x0⟩, ⟨6, 0, .rw, 0x40⟩]⟩,
    ⟨0x124, [], [⟨31, 24, .ro, 0x0⟩, ⟨20, 16, .ro, 0x0⟩, ⟨15, 0, .ro, 0x0⟩]⟩,
    ⟨0x10000, [], [⟨31, 16, .ro, 0x0⟩, ⟨15, 11, .ro, 0x0⟩, ⟨10, 10, .ro, 0x0⟩, ⟨9, 9, .w1c, 0x0⟩, ⟨8, 8, .ro, 0x0⟩, ⟨7, 0, .ro, 0x0⟩]⟩,
    ⟨0x10004, [], [⟨15, 8, .wo, 0x0⟩, ⟨5, 4, .rw, 0x0⟩, ⟨2, 0, .wo, 0x0⟩]⟩,
    ⟨0x10008, [], [⟨3, 2, .ro, 0x0⟩, ⟨1, 0, .ro, 0x0⟩]⟩ ]

def regTable1 : List RegDesc :=
  [ ⟨0x1000c, [], [⟨31, 0, .ro, 0x0⟩]⟩,
    ⟨0x10010, [], [⟨31, 0, .ro, 0x0⟩]⟩,
    ⟨0x10014, [], [⟨31, 0, .ro, 0x0⟩]⟩,
    ⟨0x10018, [], [⟨31, 0, .ro, 0x0⟩]⟩,
    ⟨0x10020, [], [⟨31, 31, .ro, 0x0⟩, ⟨30, 28, .ro, 0x0⟩, ⟨27, 27, .ro, 0x0⟩, ⟨23, 16, .ro, 0x0⟩, ⟨15, 8, .ro, 0x0⟩, ⟨7, 0, .ro, 0x0⟩]⟩,
    ⟨0x10024, [], [⟨27, 16, .rw, 0x0⟩, ⟨2, 0, .wo, 0x0⟩]⟩,
    ⟨0x10028, [], [⟨31, 0, .rw, 0x0⟩]⟩,
    ⟨0x1002c, [], [⟨3, 1, .ro, 0x0⟩, ⟨0, 0, .ro, 0x0⟩]⟩,
    ⟨0x10040, [], [⟨31, 16, .rw, 0x0⟩, ⟨14, 3, .rw, 0x0⟩, ⟨2, 0, .wo, 0x0⟩]⟩,
    ⟨0x10044, [], [⟨31, 23, .ro, 0x0⟩, ⟨19, 8, .ro, 0x0⟩, ⟨3, 1, .ro, 0x0⟩, ⟨0, 0, .ro, 0x0⟩]⟩,
    ⟨0x10048, [], [⟨15, 0, .rw, 0x64⟩]⟩,
    ⟨0x1004c, [], [⟨31, 0, .ro, 0x0⟩]⟩,
    ⟨0x10100, [(32, 0x8)], [⟨23, 16, .ro, 0x0⟩, ⟨15, 8, .ro, 0x0⟩, ⟨7, 0, .ro, 0x0⟩]⟩,
    ⟨0x10104, [(32, 0x8)], [⟨31, 0, .ro, 0x0⟩]⟩,
    ⟨0x20000, [], [⟨7, 4, .ro, 0x0⟩, ⟨3, 3, .w1c, 0x0⟩, ⟨2, 2, .w1c, 0x0⟩, ⟨1, 1, .ro, 0x0⟩, ⟨0, 0, .ro, 0x0⟩]⟩,
    ⟨0x20004, [], [⟨23, 0, .rw, 0x3a98⟩]⟩,
    ⟨0x20008, [], [⟨31, 31, .w1c, 0x0⟩, ⟨19, 18, .ro, 0x0⟩, ⟨17, 9, .ro, 0x0⟩, ⟨8, 0, .ro, 0x0⟩]⟩,
    ⟨0x2000c, [], [⟨31, 0, .ro, 0x0⟩]⟩,
    ⟨0x20010, [], [⟨19, 16, .rw, 0x5⟩, ⟨9, 0, .rw, 0x258⟩]⟩,
    ⟨0x20014, [], [⟨9, 0, .rw, 0x0⟩]⟩,
    ⟨0x20018, [], [⟨27, 18, .ro, 0x0⟩, ⟨17, 8, .ro, 0x0⟩, ⟨7, 0, .ro, 0xff⟩]⟩,
    ⟨0x21000, [(264, 0x10)], [⟨12, 8, .rw, 0x8⟩, ⟨7, 0, .rw, 0xb4⟩]⟩,
    ⟨0x21004, [(264, 0x10)], [⟨12, 12, .w1c, 0x0⟩, ⟨11, 11, .ro, 0x0⟩, ⟨10, 10, .ro, 0x0⟩, ⟨9, 9, .ro, 0x0⟩, ⟨8, 8, .ro, 0x0⟩, ⟨7, 0, .ro, 0x28⟩]⟩,
    ⟨0x21008, [(264, 0x10)], [⟨31, 0, .ro, 0x0⟩]⟩ ]

def regTable2 : List RegDesc :=
  [ ⟨0x110000, [(4, 0x100000)], [⟨16, 16, .ro, 0x0⟩, ⟨12, 8, .ro, 0x1e⟩, ⟨4, 0, .ro, 0x18⟩]⟩,
    ⟨0x110004, [(4, 0x100000)], [⟨16, 16, .rw, 0x1⟩, ⟨15, 1, .rw, 0x1000⟩, ⟨0, 0, .rw, 0x1⟩]⟩,
    ⟨0x110008, [(4, 0x100000)], [⟨5, 5, .w1c, 0x0⟩, ⟨4, 4, .w1c, 0x0⟩, ⟨3, 3, .w1c, 0x0⟩, ⟨2, 2, .w1c, 0x0⟩, ⟨1, 1, .w1c, 0x0⟩, ⟨0, 0, .w1c, 0x0⟩]⟩,
    ⟨0x11000c, [(4, 0x100000)], [⟨9, 8, .rw, 0x0⟩, ⟨6, 0, .rw, 0x0⟩]⟩,
    ⟨0x110010, [(4, 0x100000)], [⟨31, 0, .rw, 0xffffffff⟩]⟩,
    ⟨0x110014, [(4, 0x100000)], [⟨31, 4, .ro, 0x0⟩, ⟨3, 0, .ro, 0x0⟩]⟩,
    ⟨0x110020, [(4, 0x100000)], [⟨31, 31, .w1c, 0x0⟩, ⟨28, 24, .ro, 0x0⟩, ⟨23, 9, .ro, 0x0⟩, ⟨8, 8, .ro, 0x0⟩, ⟨7, 4, .ro, 0x0⟩, ⟨3, 0, .ro, 0x0⟩]⟩,
    ⟨0x110034, [(4, 0x100000)], [⟨31, 31, .w1c, 0x0⟩, ⟨22, 18, .ro, 0x0⟩, ⟨17, 3, .ro, 0x0⟩, ⟨2, 0, .ro, 0x0⟩]⟩,
    ⟨0x110024, [(4, 0x100000)], [⟨31, 0, .ro, 0x0⟩]⟩,
    ⟨0x110028, [(4, 0x100000)], [⟨31, 0, .ro, 0x0⟩]⟩,
    ⟨0x11002c, [(4, 0x100000)], [⟨31, 0, .ro, 0x0⟩]⟩,
    ⟨0x110030, [(4, 0x100000)], [⟨31, 0, .ro, 0x0⟩]⟩,
    ⟨0x110038, [(4, 0x100000)], [⟨31, 0, .ro, 0x0⟩]⟩,
    ⟨0x100000, [(4, 0x100000)], [⟨16, 16, .rw, 0x0⟩, ⟨7, 0, .rw, 0x0⟩]⟩,
    ⟨0x100008, [(4, 0x100000)], [⟨23, 0, .rw, 0x1⟩]⟩,
    ⟨0x100004, [(4, 0x100000)], [⟨27, 24, .ro, 0x0⟩, ⟨23, 20, .ro, 0x0⟩, ⟨19, 19, .ro, 0x0⟩, ⟨9, 9, .w1c, 0x0⟩, ⟨8, 8, .w1c, 0x0⟩, ⟨7, 7, .w1c, 0x0⟩, ⟨6, 6, .w1c, 0x0⟩, ⟨5, 5, .w1c, 0x0⟩, ⟨4, 4, .w1c, 0x0⟩, ⟨3, 3, .w1c, 0x0⟩, ⟨2, 2, .w1c, 0x0⟩, ⟨1, 1, .w1c, 0x0⟩, ⟨0, 0, .w1c, 0x0⟩]⟩,
    ⟨0x10000c, [(4, 0x100000)], [⟨31, 31, .w1c, 0x0⟩, ⟨12, 12, .ro, 0x0⟩, ⟨11, 10, .ro, 0x0⟩, ⟨9, 8, .ro, 0x0⟩, ⟨7, 0, .ro, 0x0⟩]⟩,
    ⟨0x100010, [(4, 0x100000), (4, 0x4)], [⟨16, 16, .ro, 0x0⟩, ⟨15, 8, .ro, 0x0⟩, ⟨7, 7, .ro, 0x0⟩, ⟨5, 4, .ro, 0x0⟩, ⟨3, 2, .ro, 0x0⟩, ⟨1, 0, .ro, 0x0⟩]⟩,
    ⟨0x100020, [(4, 0x100000)], [⟨31, 31, .ro, 0x0⟩, ⟨30, 26, .ro, 0x0⟩, ⟨16, 0, .ro, 0x0⟩]⟩,
    ⟨0x100034, [(4, 0x100000)], [⟨31, 31, .w1c, 0x0⟩, ⟨18, 17, .ro, 0x0⟩, ⟨16, 16, .ro, 0x0⟩, ⟨14, 9, .ro, 0x0⟩, ⟨8, 0, .ro, 0x0⟩]⟩,
    ⟨0x100024, [(4, 0x100000)], [⟨31, 0, .ro, 0x0⟩]⟩,
    ⟨0x100028, [(4, 0x100000)], [⟨31, 0, .ro, 0x0⟩]⟩,
    ⟨0x10002c, [(4, 0x100000)], [⟨31, 0, .ro, 0x0⟩]⟩,
    ⟨0x100030, [(4, 0x100000)], [⟨31, 0, .ro, 0x0⟩]⟩ ]

def regTable3 : List RegDesc :=
  [ ⟨0x120000, [(4, 0x100000)], [⟨1, 1, .rw, 0x0⟩, ⟨0, 0, .rw, 0x0⟩]⟩,
    ⟨0x120004, [(4, 0x100000)], [⟨31, 31, .ro, 0x0⟩, ⟨7, 7, .w1c, 0x0⟩, ⟨6, 6, .w1c, 0x0⟩, ⟨5, 5, .w1c, 0x0⟩, ⟨4, 4, .w1c, 0x0⟩, ⟨3, 3, .w1c, 0x0⟩, ⟨2, 2, .w1c, 0x0⟩, ⟨1, 1, .w1c, 0x0⟩]⟩,
    ⟨0x120008, [(4, 0x100000)], [⟨31, 31, .w1c, 0x0⟩, ⟨24, 24, .ro, 0x0⟩, ⟨23, 21, .ro, 0x0⟩, ⟨20, 11, .ro, 0x0⟩, ⟨7, 0, .ro, 0x0⟩]⟩,
    ⟨0x12000c, [(4, 0x100000)], [⟨31, 16, .ro, 0x0⟩, ⟨15, 0, .ro, 0x0⟩]⟩,
    ⟨0x120024, [(4, 0x100000)], [⟨31, 31, .w1c, 0x0⟩, ⟨30, 30, .ro, 0x0⟩, ⟨12, 0, .ro, 0x0⟩]⟩,
    ⟨0x120040, [(4, 0x100000)], [⟨15, 2, .rw, 0x0⟩]⟩,
    ⟨0x120044, [(4, 0x100000)], [⟨31, 0, .rw, 0x0⟩]⟩,
    ⟨0x120010, [(4, 0x100000)], [⟨31, 0, .ro, 0x0⟩]⟩,
    ⟨0x120014, [(4, 0x100000)], [⟨31, 0, .ro, 0x0⟩]⟩,
    ⟨0x120018, [(4, 0x100000)], [⟨31, 0, .ro, 0x0⟩]⟩,
    ⟨0x12001c, [(4, 0x100000)], [⟨31, 0, .ro, 0x0⟩]⟩,
    ⟨0x120020, [(4, 0x100000)], [⟨31, 0, .ro, 0x0⟩]⟩,
    ⟨0x130000, [(4, 0x100000), (2, 0x100)], [⟨2, 2, .rw, 0x0⟩, ⟨1, 1, .wo, 0x0⟩, ⟨0, 0, .rw, 0x0⟩]⟩,
    ⟨0x800, [(2, 0x100)], [⟨2, 2, .rw, 0x0⟩, ⟨1, 1, .wo, 0x0⟩, ⟨0, 0, .rw, 0x0⟩]⟩,
    ⟨0x130004, [(4, 0x100000), (2, 0x100)], [⟨4, 4, .w1c, 0x0⟩, ⟨3, 3, .ro, 0x0⟩, ⟨2, 0, .ro, 0x0⟩]⟩,
    ⟨0x804, [(2, 0x100)], [⟨4, 4, .w1c, 0x0⟩, ⟨3, 3, .ro, 0x0⟩, ⟨2, 0, .ro, 0x0⟩]⟩,
    ⟨0x130008, [(4, 0x100000), (2, 0x100)], [⟨31, 0, .rw, 0x0⟩]⟩,
    ⟨0x808, [(2, 0x100)], [⟨31, 0, .rw, 0x0⟩]⟩,
    ⟨0x13000c, [(4, 0x100000), (2, 0x100)], [⟨31, 30, .rw, 0x0⟩, ⟨17, 2, .rw, 0x0⟩, ⟨0, 0, .rw, 0x0⟩]⟩,
    ⟨0x80c, [(2, 0x100)], [⟨31, 30, .rw, 0x0⟩, ⟨17, 2, .rw, 0x0⟩, ⟨0, 0, .rw, 0x0⟩]⟩,
    ⟨0x130010, [(4, 0x100000), (2, 0x100)], [⟨31, 0, .rw, 0x0⟩]⟩,
    ⟨0x810, [(2, 0x100)], [⟨31, 0, .rw, 0x0⟩]⟩,
    ⟨0x130014, [(4, 0x100000), (2, 0x100)], [⟨0, 0, .wo, 0x0⟩]⟩,
    ⟨0x814, [(2, 0x100)], [⟨0, 0, .wo, 0x0⟩]⟩ ]

def regTable4 : List RegDesc :=
  [ ⟨0x130018, [(4, 0x100000), (2, 0x100)], [⟨31, 0, .ro, 0x0⟩]⟩,
    ⟨0x818, [(2, 0x100)], [⟨31, 0, .ro, 0x0⟩]⟩,
    ⟨0x13001c, [(4, 0x100000), (2, 0x100)], [⟨31, 0, .ro, 0x0⟩]⟩,
    ⟨0x81c, [(2, 0x100)], [⟨31, 0, .ro, 0x0⟩]⟩,
    ⟨0x130020, [(4, 0x100000), (2, 0x100)], [⟨31, 0, .ro, 0x0⟩]⟩,
    ⟨0x820, [(2, 0x100)], [⟨31, 0, .ro, 0x0⟩]⟩,
    ⟨0x130024, [(4, 0x100000), (2, 0x100)], [⟨31, 0, .ro, 0x0⟩]⟩,
    ⟨0x824, [(2, 0x100)], [⟨31, 0, .ro, 0x0⟩]⟩,
    ⟨0x130028, [(4, 0x100000), (2, 0x100)], [⟨31, 31, .w1c, 0x0⟩, ⟨30, 30, .ro, 0x0⟩, ⟨29, 29, .ro, 0x0⟩, ⟨16, 3, .ro, 0x0⟩]⟩,
    ⟨0x828, [(2, 0x100)], [⟨31, 31, .w1c, 0x0⟩, ⟨30, 30, .ro, 0x0⟩, ⟨29, 29, .ro, 0x0⟩, ⟨16, 3, .ro, 0x0⟩]⟩,
    ⟨0x800000, [], [⟨27, 23, .ro, 0x0⟩, ⟨22, 18, .ro, 0x18⟩, ⟨17, 13, .ro, 0x0⟩, ⟨12, 10, .ro, 0x4⟩, ⟨3, 3, .w1c, 0x0⟩, ⟨2, 2, .w1c, 0x0⟩, ⟨1, 1, .w1c, 0x0⟩, ⟨0, 0, .ro, 0x0⟩]⟩,
    ⟨0x80000c, [], [⟨31, 31, .w1c, 0x0⟩, ⟨30, 29, .ro, 0x0⟩, ⟨28, 22, .ro, 0x0⟩, ⟨21, 0, .ro, 0x0⟩]⟩,
    ⟨0x800004, [], [⟨31, 0, .ro, 0x0⟩]⟩,
    ⟨0x800008, [], [⟨31, 0, .ro, 0x0⟩]⟩,
    ⟨0x800010, [], [⟨31, 0, .ro, 0x0⟩]⟩,
    ⟨0x500000, [], [⟨1, 1, .rw, 0x0⟩, ⟨0, 0, .rw, 0x0⟩]⟩,
    ⟨0x500004, [], [⟨12, 12, .w1c, 0x0⟩, ⟨11, 11, .w1c, 0x0⟩, ⟨10, 10, .w1c, 0x0⟩, ⟨9, 9, .w1c, 0x0⟩, ⟨8, 8, .w1c, 0x0⟩, ⟨3, 3, .ro, 0x0⟩, ⟨2, 2, .ro, 0x0⟩, ⟨1, 1, .ro, 0x0⟩, ⟨0, 0, .ro, 0x0⟩]⟩,
    ⟨0x500010, [], [⟨31, 31, .w1c, 0x0⟩, ⟨12, 12, .ro, 0x0⟩, ⟨11, 8, .ro, 0x0⟩, ⟨7, 0, .ro, 0x0⟩]⟩,
    ⟨0x500014, [], [⟨31, 31, .w1c, 0x0⟩, ⟨30, 28, .ro, 0x0⟩, ⟨15, 0, .ro, 0x0⟩]⟩,
    ⟨0x500018, [], [⟨31, 0, .ro, 0x0⟩]⟩,
    ⟨0x50001c, [], [⟨11, 0, .ro, 0x0⟩]⟩,
    ⟨0x500020, [], [⟨31, 0, .ro, 0x0⟩]⟩,
    ⟨0x500024, [], [⟨3, 0, .rw, 0x0⟩]⟩,
    ⟨0x50002c, [], [⟨31, 31, .w1c, 0x0⟩, ⟨28, 24, .ro, 0x0⟩, ⟨23, 0, .ro, 0x0⟩]⟩ ]

def regTable5 : List RegDesc :=
  [ ⟨0x50003c, [], [⟨31, 31, .w1c, 0x0⟩, ⟨30, 30, .ro, 0x0⟩, ⟨19, 0, .ro, 0x0⟩]⟩,
    ⟨0x500008, [], [⟨31, 0, .rw, 0x1⟩]⟩,
    ⟨0x50000c, [], [⟨31, 0, .ro, 0x0⟩]⟩,
    ⟨0x500028, [], [⟨31, 0, .ro, 0x0⟩]⟩,
    ⟨0x500030, [], [⟨31, 0, .ro, 0x0⟩]⟩,
    ⟨0x500034, [], [⟨31, 0, .ro, 0x0⟩]⟩,
    ⟨0x500038, [], [⟨31, 0, .ro, 0x0⟩]⟩,
    ⟨0x500040, [(16, 0x4)], [⟨31, 16, .rw, 0x3c00⟩, ⟨15, 0, .rw, 0x3c00⟩]⟩,
    ⟨0x600000, [], [⟨23, 0, .rw, 0x7fffff⟩]⟩,
    ⟨0x600004, [], [⟨16, 16, .ro, 0x0⟩, ⟨6, 6, .w1c, 0x0⟩, ⟨5, 5, .w1c, 0x0⟩, ⟨4, 4, .w1c, 0x0⟩, ⟨3, 3, .w1c, 0x0⟩, ⟨2, 2, .w1c, 0x0⟩, ⟨1, 1, .w1c, 0x0⟩, ⟨0, 0, .w1c, 0x0⟩]⟩,
    ⟨0x600008, [], [⟨5, 0, .rw, 0x0⟩]⟩,
    ⟨0x60000c, [], [⟨0, 0, .wo, 0x0⟩]⟩,
    ⟨0x600010, [], [⟨31, 16, .rw, 0xffff⟩, ⟨12, 12, .wo, 0x0⟩, ⟨11, 9, .rw, 0x0⟩, ⟨8, 6, .rw, 0x0⟩, ⟨5, 5, .rw, 0x0⟩, ⟨4, 4, .rw, 0x0⟩, ⟨3, 2, .rw, 0x1⟩, ⟨1, 1, .rw, 0x0⟩, ⟨0, 0, .rw, 0x0⟩]⟩,
    ⟨0x600014, [], [⟨19, 19, .ro, 0x0⟩, ⟨18, 18, .ro, 0x0⟩, ⟨17, 17, .ro, 0x0⟩, ⟨16, 16, .ro, 0x0⟩, ⟨15, 0, .ro, 0x0⟩]⟩,
    ⟨0x600018, [], [⟨8, 8, .rw, 0x0⟩, ⟨7, 0, .rw, 0xff⟩]⟩,
    ⟨0x600030, [], [⟨31, 16, .rw, 0x0⟩, ⟨15, 8, .rw, 0x0⟩, ⟨5, 4, .rw, 0x0⟩, ⟨3, 2, .rw, 0x1⟩, ⟨1, 1, .rw, 0x0⟩, ⟨0, 0, .rw, 0x0⟩]⟩,
    ⟨0x60003c, [], [⟨31, 0, .ro, 0x0⟩]⟩,
    ⟨0x600020, [(4, 0x4)], [⟨4, 0, .rw, 0x0⟩, ⟨12, 8, .rw, 0x0⟩, ⟨20, 16, .rw, 0x0⟩, ⟨28, 24, .rw, 0x0⟩]⟩,
    ⟨0x600034, [(2, 0x4)], [⟨2, 0, .rw, 0x0⟩, ⟨6, 4, .rw, 0x1⟩, ⟨10, 8, .rw, 0x2⟩, ⟨14, 12, .rw, 0x3⟩, ⟨18, 16, .rw, 0x4⟩, ⟨22, 20, .rw, 0x5⟩, ⟨26, 24, .rw, 0x6⟩, ⟨30, 28, .rw, 0x7⟩]⟩,
    ⟨0x600040, [(4, 0x10)], [⟨31, 16, .rw, 0x0⟩, ⟨9, 8, .rw, 0x1⟩, ⟨7, 6, .rw, 0x2⟩, ⟨5, 5, .rw, 0x0⟩, ⟨4, 4, .rw, 0x1⟩, ⟨3, 3, .rw, 0x0⟩, ⟨2, 1, .rw, 0x0⟩, ⟨0, 0, .rw, 0x0⟩]⟩,
    ⟨0x600044, [(4, 0x10)], [⟨31, 16, .ro, 0x0⟩, ⟨1, 1, .ro, 0x0⟩, ⟨0, 0, .ro, 0x0⟩]⟩,
    ⟨0x6000c0, [(7, 0x4)], [⟨31, 0, .ro, 0x0⟩]⟩,
    ⟨0x6000e0, [(7, 0x8)], [⟨31, 0, .ro, 0x0⟩]⟩,
    ⟨0x6000e4, [(7, 0x8)], [⟨31, 0, .ro, 0x0⟩]⟩ ]

def regTable6 : List RegDesc :=
  [ ⟨0x600120, [(4, 0x4)], [⟨31, 0, .w1c, 0x0⟩]⟩,
    ⟨0x600130, [(4, 0x4)], [⟨31, 0, .ro, 0x0⟩]⟩,
    ⟨0x600140, [], [⟨31, 0, .ro, 0x0⟩]⟩,
    ⟨0x600144, [], [⟨31, 0, .ro, 0x0⟩]⟩,
    ⟨0x600148, [], [⟨31, 0, .ro, 0x0⟩]⟩,
    ⟨0x600200, [(16, 0x20)], [⟨24, 21, .rw, 0x0⟩, ⟨20, 11, .rw, 0x1⟩, ⟨10, 7, .rw, 0x0⟩, ⟨6, 3, .rw, 0x0⟩, ⟨2, 2, .rw, 0x0⟩, ⟨1, 1, .rw, 0x0⟩, ⟨0, 0, .rw, 0x0⟩]⟩,
    ⟨0x600204, [(16, 0x20)], [⟨20, 0, .rw, 0x0⟩]⟩,
    ⟨0x600208, [(16, 0x20)], [⟨21, 16, .rw, 0x8⟩, ⟨9, 0, .rw, 0x0⟩]⟩,
    ⟨0x60021c, [(16, 0x20)], [⟨31, 31, .ro, 0x0⟩, ⟨30, 28, .ro, 0x0⟩]⟩,
    ⟨0x60020c, [(16, 0x20), (4, 0x4)], [⟨31, 0, .rw, 0x0⟩]⟩,
    ⟨0x700000, [], [⟨31, 16, .ro, 0x5309⟩, ⟨15, 0, .ro, 0x0⟩]⟩,
    ⟨0x700004, [], [⟨19, 19, .w1c, 0x0⟩, ⟨18, 18, .w1c, 0x0⟩, ⟨17, 17, .w1c, 0x0⟩, ⟨16, 16, .w1c, 0x0⟩, ⟨9, 9, .ro, 0x0⟩, ⟨8, 8, .ro, 0x0⟩, ⟨5, 3, .ro, 0x0⟩, ⟨2, 0, .ro, 0x0⟩]⟩,
    ⟨0x700008, [], [⟨2, 0, .rw, 0x0⟩]⟩,
    ⟨0x700010, [], [⟨31, 31, .ro, 0x0⟩, ⟨15, 8, .rw, 0xa⟩, ⟨0, 0, .rw, 0x0⟩]⟩,
    ⟨0x700040, [], [⟨31, 16, .ro, 0x0⟩, ⟨15, 0, .ro, 0x0⟩]⟩,
    ⟨0x700044, [], [⟨16, 16, .w1c, 0x0⟩, ⟨15, 8, .ro, 0x0⟩, ⟨6, 6, .ro, 0x0⟩, ⟨5, 5, .ro, 0x0⟩, ⟨4, 4, .ro, 0x0⟩, ⟨3, 3, .ro, 0x0⟩, ⟨2, 2, .ro, 0x0⟩, ⟨1, 1, .ro, 0x0⟩, ⟨0, 0, .ro, 0x0⟩]⟩,
    ⟨0x700080, [], [⟨18, 18, .w1c, 0x0⟩, ⟨17, 17, .w1c, 0x0⟩, ⟨16, 16, .w1c, 0x0⟩, ⟨10, 8, .ro, 0x0⟩, ⟨7, 0, .ro, 0x0⟩]⟩,
    ⟨0x700014, [], [⟨31, 0, .ro, 0x0⟩]⟩,
    ⟨0x700018, [], [⟨31, 0, .ro, 0x0⟩]⟩,
    ⟨0x70001c, [], [⟨31, 0, .ro, 0x0⟩]⟩,
    ⟨0x700020, [], [⟨31, 0, .ro, 0x0⟩]⟩,
    ⟨0x780000, [], [⟨31, 20, .ro, 0x0⟩, ⟨3, 3, .w1c, 0x0⟩, ⟨2, 2, .w1c, 0x0⟩, ⟨1, 1, .w1c, 0x0⟩, ⟨0, 0, .w1c, 0x0⟩]⟩,
    ⟨0x780004, [], [⟨31, 21, .rw, 0x40⟩, ⟨20, 0, .rw, 0x10000⟩]⟩,
    ⟨0x780008, [], [⟨16, 16, .rw, 0x1⟩, ⟨15, 0, .rw, 0x1⟩]⟩ ]

def regTable7 : List RegDesc :=
  [ ⟨0x78000c, [], [⟨31, 0, .ro, 0x0⟩]⟩,
    ⟨0x780014, [], [⟨31, 31, .w1c, 0x0⟩, ⟨12, 12, .ro, 0x0⟩, ⟨11, 8, .ro, 0x0⟩, ⟨7, 0, .ro, 0x0⟩]⟩,
    ⟨0x780020, [], [⟨31, 26, .rw, 0x8⟩, ⟨25, 22, .rw, 0x8⟩, ⟨21, 19, .rw, 0x1⟩, ⟨18, 16, .rw, 0x1⟩, ⟨15, 8, .rw, 0x0⟩, ⟨7, 4, .rw, 0x8⟩, ⟨0, 0, .rw, 0x0⟩]⟩,
    ⟨0x780024, [], [⟨31, 26, .rw, 0x1⟩, ⟨20, 0, .rw, 0xc000⟩]⟩,
    ⟨0x780010, [], [⟨31, 0, .ro, 0x0⟩]⟩,
    ⟨0x780028, [], [⟨31, 0, .ro, 0x0⟩]⟩,
    ⟨0x780100, [(16, 0x40)], [⟨11, 8, .rw, 0x8⟩, ⟨7, 3, .rw, 0x8⟩, ⟨2, 2, .rw, 0x0⟩, ⟨0, 0, .rw, 0x0⟩]⟩,
    ⟨0x780104, [(16, 0x40)], [⟨31, 0, .rw, 0x0⟩]⟩,
    ⟨0x780108, [(16, 0x40)], [⟨31, 0, .rw, 0x0⟩]⟩,
    ⟨0x78010c, [(16, 0x40)], [⟨31, 0, .rw, 0x0⟩]⟩,
    ⟨0x780110, [(16, 0x40)], [⟨31, 0, .rw, 0x0⟩]⟩,
    ⟨0x780114, [(16, 0x40)], [⟨15, 0, .rw, 0x0⟩]⟩,
    ⟨0x780118, [(16, 0x40)], [⟨15, 0, .ro, 0x0⟩]⟩,
    ⟨0x78011c, [(16, 0x40)], [⟨31, 31, .ro, 0x0⟩, ⟨30, 30, .w1c, 0x0⟩, ⟨29, 27, .ro, 0x0⟩, ⟨16, 0, .ro, 0x0⟩]⟩,
    ⟨0x780120, [(16, 0x40)], [⟨31, 0, .ro, 0x0⟩]⟩,
    ⟨0x780124, [(16, 0x40)], [⟨31, 27, .rw, 0x1⟩, ⟨26, 16, .rw, 0x0⟩, ⟨15, 8, .rw, 0x1⟩, ⟨7, 0, .rw, 0x0⟩]⟩,
    ⟨0x30000, [], [⟨31, 24, .ro, 0x0⟩, ⟨23, 19, .ro, 0x0⟩, ⟨18, 14, .ro, 0x0⟩, ⟨13, 11, .ro, 0x0⟩, ⟨10, 6, .ro, 0x0⟩, ⟨5, 5, .w1c, 0x0⟩, ⟨4, 4, .w1c, 0x0⟩, ⟨3, 3, .w1c, 0x0⟩, ⟨2, 2, .w1c, 0x0⟩, ⟨1, 1, .w1c, 0x0⟩, ⟨0, 0, .ro, 0x0⟩]⟩,
    ⟨0x30004, [], [⟨31, 24, .wo, 0x0⟩, ⟨9, 5, .wo, 0x0⟩, ⟨1, 0, .wo, 0x0⟩]⟩,
    ⟨0x30008, [], [⟨31, 31, .w1c, 0x0⟩, ⟨30, 29, .ro, 0x0⟩, ⟨28, 24, .ro, 0x0⟩, ⟨23, 0, .ro, 0x0⟩]⟩,
    ⟨0x3000c, [], [⟨31, 0, .ro, 0x0⟩]⟩,
    ⟨0x30010, [], [⟨7, 0, .rw, 0x4⟩]⟩,
    ⟨0x30014, [], [⟨31, 16, .ro, 0x0⟩, ⟨15, 0, .ro, 0x0⟩]⟩,
    ⟨0x30040, [], [⟨0, 0, .wo, 0x0⟩]⟩,
    ⟨0x30050, [], [⟨15, 8, .rw, 0xa⟩, ⟨3, 0, .rw, 0xf⟩]⟩ ]

def regTable8 : List RegDesc :=
  [ ⟨0x30054, [], [⟨24, 24, .w1c, 0x0⟩, ⟨23, 20, .w1c, 0x0⟩, ⟨19, 16, .w1c, 0x0⟩, ⟨15, 0, .w1c, 0x0⟩]⟩,
    ⟨0x30020, [(8, 0x4)], [⟨31, 0, .ro, 0x0⟩]⟩,
    ⟨0x30058, [], [⟨31, 0, .ro, 0x0⟩]⟩,
    ⟨0x3005c, [], [⟨31, 0, .ro, 0x0⟩]⟩,
    ⟨0x30060, [], [⟨31, 0, .ro, 0x0⟩]⟩,
    ⟨0x30064, [], [⟨31, 0, .ro, 0x0⟩]⟩,
    ⟨0x30068, [], [⟨31, 0, .ro, 0x0⟩]⟩,
    ⟨0x3006c, [], [⟨31, 0, .ro, 0x0⟩]⟩,
    ⟨0x30070, [], [⟨31, 0, .ro, 0x0⟩]⟩,
    ⟨0x140000, [(4, 0x100000)], [⟨1, 1, .wo, 0x0⟩, ⟨0, 0, .rw, 0x1⟩]⟩,
    ⟨0x40000, [], [⟨1, 1, .wo, 0x0⟩, ⟨0, 0, .rw, 0x1⟩]⟩,
    ⟨0x140004, [(4, 0x100000)], [⟨16, 16, .w1c, 0x0⟩, ⟨15, 8, .w1c, 0x0⟩, ⟨7, 0, .w1c, 0x0⟩]⟩,
    ⟨0x40004, [], [⟨16, 16, .w1c, 0x0⟩, ⟨15, 8, .w1c, 0x0⟩, ⟨7, 0, .w1c, 0x0⟩]⟩,
    ⟨0x140008, [(4, 0x100000)], [⟨31, 0, .ro, 0x0⟩]⟩,
    ⟨0x40008, [], [⟨31, 0, .ro, 0x0⟩]⟩,
    ⟨0x14000c, [(4, 0x100000)], [⟨31, 0, .ro, 0x0⟩]⟩,
    ⟨0x4000c, [], [⟨31, 0, .ro, 0x0⟩]⟩,
    ⟨0x140040, [(4, 0x100000), (8, 0x20)], [⟨31, 31, .rw, 0x0⟩, ⟨30, 29, .rw, 0x0⟩, ⟨23, 16, .rw, 0x0⟩, ⟨15, 8, .rw, 0x0⟩, ⟨7, 0, .rw, 0x0⟩]⟩,
    ⟨0x40040, [(8, 0x20)], [⟨31, 31, .rw, 0x0⟩, ⟨30, 29, .rw, 0x0⟩, ⟨23, 16, .rw, 0x0⟩, ⟨15, 8, .rw, 0x0⟩, ⟨7, 0, .rw, 0x0⟩]⟩,
    ⟨0x140044, [(4, 0x100000), (8, 0x20)], [⟨31, 0, .ro, 0x0⟩]⟩,
    ⟨0x40044, [(8, 0x20)], [⟨31, 0, .ro, 0x0⟩]⟩,
    ⟨0x140048, [(4, 0x100000), (8, 0x20)], [⟨15, 0, .ro, 0x0⟩]⟩,
    ⟨0x40048, [(8, 0x20)], [⟨15, 0, .ro, 0x0⟩]⟩,
    ⟨0x14004c, [(4, 0x100000), (8, 0x20)], [⟨31, 0, .rw, 0x0⟩]⟩ ]

def regTable9 : List RegDesc :=
  [ ⟨0x4004c, [(8, 0x20)], [⟨31, 0, .rw, 0x0⟩]⟩,
    ⟨0x140050, [(4, 0x100000), (8, 0x20)], [⟨15, 0, .rw, 0x0⟩]⟩,
    ⟨0x40050, [(8, 0x20)], [⟨15, 0, .rw, 0x0⟩]⟩,
    ⟨0x140054, [(4, 0x100000), (8, 0x20)], [⟨15, 0, .ro, 0x0⟩]⟩,
    ⟨0x40054, [(8, 0x20)], [⟨15, 0, .ro, 0x0⟩]⟩,
    ⟨0x140180, [(4, 0x100000), (4, 0x4)], [⟨31, 0, .ro, 0x0⟩]⟩,
    ⟨0x40180, [(4, 0x4)], [⟨31, 0, .ro, 0x0⟩]⟩,
    ⟨0x40200, [], [⟨9, 9, .wo, 0x0⟩, ⟨8, 8, .rw, 0x0⟩, ⟨7, 0, .rw, 0x0⟩]⟩,
    ⟨0x40204, [], [⟨31, 16, .ro, 0x0⟩, ⟨0, 0, .ro, 0x0⟩]⟩,
    ⟨0x40208, [], [⟨31, 0, .rw, 0x0⟩]⟩,
    ⟨0x4020c, [], [⟨31, 0, .ro, 0x0⟩]⟩,
    ⟨0x40210, [], [⟨31, 0, .ro, 0x0⟩]⟩ ]

/-- Every register of the map. -/
def regTable : List RegDesc :=
  regTable0 ++ regTable1 ++ regTable2 ++ regTable3 ++ regTable4 ++ regTable5 ++ regTable6 ++ regTable7 ++ regTable8 ++ regTable9

end Sys2Proof.Machine
end

