-- ==== Sys2Proof/Machine/State.lean ====
section
/-! DEFINITION. The machine's state as plain data (INVENTORY.md, ## State), the stop reasons, and the state after reset.

`State` = the queue of waiting commands, the links between islands, what they carry, and `Mach`, everything else. Registers of the 16 MiB map live in
`Mach.regs`, a sparse file by address: an address that is not listed holds its reset value (Machine/Registers.lean). Register fields
that only mirror other state (phase-independent views such as `GL_FUNC_UP`) are computed when read (Machine/RegRead.lean). -/

namespace Sys2Proof.Machine

/-- A sparse map: keys strictly rising, no entry equal to what an unlisted key reads as. -/
abbrev Tab (α : Type) := List (Nat × α)

/-- Byte memory in canonical sparse form. -/
abbrev Memory := List Host.Cell

/-- A SECDED memory (13 Table FR-4): stored bytes, and per 64-bit word the stored bits that differ from a correct code word:
bits [63:0] data bits, [71:64] check bits (R453). -/
structure EccMem where
  bytes : Memory
  flips : Tab (BitVec 72)
deriving DecidableEq, Repr

/-- Reply status of Table IS-4. -/
inductive Status where
  | ok | error | voidReset | voidOff | poison
deriving DecidableEq, Repr

/-- A function's service state (Table PA-11, R415, R416): not in service, in service, being frogged (FENCE to REJOIN), bound off. -/
inductive FnState where
  | down | up | frogging | off
deriving DecidableEq, Repr

/-- A power-state transition in progress (R47, R48), or a re-cast waiting for the end of the row (R88). -/
inductive Trans where
  | none | toIdle | toRetention
  | toRecast (reload : Bool)
deriving DecidableEq, Repr

/-- Pins, supplies, sensors and clocks (02_package_supplies_clocks.md). `temps` is the temperature last met at each sensor, which a sensor
reads when it starts in step 4 (R63). `vrAnswers`: the board's regulator acknowledges the reads of step 4 when they go to its address
`vrBoard` (R33); `vrAddr` is the address in use, taken from `GL_VR_CTL.addr` at the last cast-on; `vout` is the code that READ_VOUT reads.
`stashTrains`: the stash die trains in step 7 (R106; log entry 3). -/
structure Power where
  porst : Bool
  pwrok : Bool
  perst : Bool
  straps : BitVec 4
  vbus : Bool
  amclk : Bool
  refclk : Bool
  pcieRefclk : Bool
  thermtrip : Bool
  coreOk : Bool
  sramOk : Bool
  io18Ok : Bool
  stashOk : Bool
  vddqOk : Bool
  afeOk : Bool
  pcieOk : Bool
  orderBad : Bool
  temps : Vector (BitVec 11) 16
  tempsValid : BitVec 16
  vrExp : BitVec 5
  vrTarget : BitVec 16
  vrConfirmed : BitVec 16
  vout : BitVec 16
  vrAddr : BitVec 7
  vrBoard : BitVec 7
  vrHold : Bool
  fixedSupply : Bool
  vrAnswers : Bool
  stashTrains : Bool
  trans : Trans
deriving DecidableEq, Repr

/-- The flash chip and what its SFDP table declares (R71, R72). Its unlisted bytes read 0xFF. `weak` lists bit masks of bytes whose first
reading comes back wrong (R84); a second reading returns the byte as stored. -/
structure Flash where
  bytes : Memory
  weak : Memory
  sizeLog2 : Nat
  sfdpOk : Bool
  addr4 : Bool
  octal : Bool
  quad144 : Bool
  quad114 : Bool
  maxMhz : Nat
deriving DecidableEq, Repr

/-- One record-table entry (Table CO-4). -/
structure RecEntry where
  type : Nat
  id : Nat
  offset : Nat
  length : Nat
  dest : Nat
  param : Nat
  flags : Nat
  crc : Nat
deriving DecidableEq, Repr

/-- One placed model (R85, R284): its identifier, the resident bytes and the overhang area (start, length) of each tile. -/
structure Placed where
  model : Nat
  resident : List Nat
  overhang : List (Nat × Nat)
deriving DecidableEq, Repr

/-- The image in use and the books of cast-on (03_cast_on.md). `residency` holds, per record of the running copy, its type, id and
the CRC-32C of its destination (R90). `live` is the copy whose live-updatable records wait for a row end (R101). `marginsDue` holds measured
margins that key 0x0004 is still to take (R139). -/
structure Cast where
  loaded : Bool
  base : Nat
  length : Nat
  rowPeriod : Nat
  generation : Nat
  records : List RecEntry
  residency : List (Nat × Nat × Word)
  models : List Placed
  rescanA : Bool
  rescanB : Bool
  rescanning : Bool
  live : Option Bool
  suspended : List Nat
  /-- CRCs of the regions that a live update has written and not yet switched to (R90, R294; log entry 86). -/
  written : List (Nat × Nat × Word)
  /-- WEIGHTS records whose W space is in use (R294). -/
  inUse : List RecEntry
  wornLogged : Bool
  corruptLogged : List Nat
  marginsDue : Option (List Byte)
  regWrites : List (Nat × Word)
deriving DecidableEq, Repr

/-- An NVM operation accepted by the writer (R456): op 1 READ, 2 PROGRAM, 3 and 4 ERASE; `firmware` marks one that a tending core requested,
which is no host operation of R103. -/
structure NvmOp where
  op : Nat
  addr : Nat
  len : Nat
  data : List Byte
  firmware : Bool
deriving DecidableEq, Repr

/-- A lifeline operation accepted by the writer (R456): op 1 WRITE, 2 READ, 3 DELETE; `device` marks the device's own writes (R96), `firmware`
those that a tending core requested (R103). -/
structure LlOp where
  op : Nat
  key : Nat
  data : List Byte
  device : Bool
  firmware : Bool
deriving DecidableEq, Repr

/-- An operation that waits for the writer, which serves one at a time (R98, R103). -/
inductive WriterOp where
  | nvm (o : NvmOp)
  | ll (o : LlOp)
deriving DecidableEq, Repr

/-- A flit in a receiver's FIFO; `poisoned` when a data flit's parity failed (R135). -/
structure RxFlit where
  flit : Flit
  poisoned : Bool
deriving DecidableEq, Repr

/-- One direction and class of one link (R116, R117, R121): the sender's credits, the flits in flight, oldest first, the receiver's FIFO and
the credits on their way back. The oldest `doomed` flits in flight are discarded as they arrive, after a CUT (R131). `owed` counts the data
flits of the packet being sent that are still to follow; `voiding`: that packet is discarded at a closed router port (Table FR-6).
`dropping`: the receiver is discarding the rest of a packet whose head failed parity (R135). -/
structure Link where
  credits : Nat
  inFlight : List Flit
  doomed : Nat
  fifo : List RxFlit
  returning : Nat
  owed : Nat
  voiding : Bool
  dropping : Bool
deriving DecidableEq, Repr

/-- An outstanding request (R119, R120): its island, tag and target. `inside` once the target has taken its head, `poisoned` when one of its data
flits failed parity, `replied` once the target sends its reply. `status` and `data` are the room reserved for the whole reply. -/
structure Request where
  src : Nat
  tag : BitVec 8
  dst : Nat
  inside : Bool
  poisoned : Bool
  replied : Bool
  status : Status
  data : List (BitVec 128)
deriving DecidableEq, Repr

/-- The reply that a request got: the real one or a VOID (R120). -/
structure Answer where
  tag : BitVec 8
  status : Status
  data : List (BitVec 128)
deriving DecidableEq, Repr

/-- A packet being taken at a receiver or sent by an endpoint: its data flits still to come, and its request, 256 * island + tag. -/
structure Taking where
  left : Nat
  who : Nat
deriving DecidableEq, Repr

/-- What the links carry between islands, and the routers' arbitration (R118-R120). `holder` is, by the key of a router's output and class, 1 +
the input island whose packet is being forwarded there; `nextPort`, `nextLocal` and `nextClass` are the round-robin positions. `taking` and
`sending` are keyed by link and class. `answers` holds each island's last reply. -/
structure Net where
  reqs : List Request
  holder : Tab Nat
  nextPort : Tab Nat
  nextLocal : Tab Nat
  nextClass : Tab Nat
  taking : Tab Taking
  sending : Tab Nat
  answers : List (Nat × Answer)
deriving DecidableEq, Repr

/-- One clock island (R110-R115, R136): governor ceiling, pattern clock of the image, whether the pattern names it, the code in use, a code
that waits for the next stitch boundary (R115), stopped, cycle count with the fraction of a cycle in 1/960, and FRC's last reading. -/
structure Island where
  ceiling : BitVec 8
  patClk : BitVec 8
  named : Bool
  code : BitVec 8
  next : Option (BitVec 8)
  stopped : Bool
  cycles : Nat
  frac : Nat
  lastRead : Option Nat
deriving DecidableEq, Repr

/-- The tension governor (R122-R125, R137): the last hundred 10 us estimates, newest first, the measure of R123 in force (0 none,
1-4), whether it holds every island at the floor, and the end of its last interval. -/
structure Governor where
  estimates : List (BitVec 10)
  measure : Nat
  floor : Bool
  lastEnd : Nat
deriving DecidableEq, Repr

/-- A tile's scratchpad (05_scratchpads.md). Byte b of line l of bank k has key (k * 20480 + l) * 64 + b; tags are keyed by
k * 20480 + l, bit 4 of a tag entry marks wrong tag parity. `lost` counts a requester's consecutive lost bank cycles (R148), keyed
bank * 32 + requester code; `writeback` holds corrected words waiting for a free cycle: bank, line, word (R163). -/
structure Sp where
  unified : Bool
  aFirst : Nat
  pFirst : Nat
  mem : EccMem
  tags : Tab (BitVec 5)
  lost : Tab Nat
  writeback : List (Nat × Nat × Nat)
  scrubPos : Tab Nat
  marching : Option Nat
  marchNext : Nat
  replyData : List Byte
  replyStatus : Status
deriving DecidableEq, Repr

/-- State of an array's shadow set (Table MX-6). -/
inductive Shadow where
  | empty | loading | ready
deriving DecidableEq, Repr

/-- A weight set: byte of cell (r, c) at 512 r + c, INT4 pairs or INT8, the SR bit of each 64-column group, its epoch, and whether a
poisoned line was loaded (R197). -/
structure WeightSet where
  cells : Memory
  int4 : Bool
  srMode : BitVec 8
  epoch : BitVec 2
  poisoned : Bool
deriving DecidableEq, Repr

/-- One matrix array and its accumulator (06_matrix_engine.md). Accumulator word (half, row, column) has key
(half * 64 + row) * 512 + column; `accFlips` bits [39:0] data, [46:40] check (R198). -/
structure MxArray where
  active : WeightSet
  activeValid : Bool
  shadow : WeightSet
  shadowState : Shadow
  loadRows : Nat
  lfsr : Tab (BitVec 24)
  acc : Tab (BitVec 40)
  accPoison : Tab Bool
  accFlips : Tab (BitVec 47)
deriving DecidableEq, Repr

/-- One committed vector whose results have not been promoted yet (R173, R174): its pass, array, ADD or WRITE, and per accumulator key
it writes the result, how often it saturated on the way and whether it is poisoned; `last` marks the pass's last vector. -/
structure Committed where
  seq : Nat
  array : Fin 4
  accAdd : Bool
  results : List (Nat × Int × Nat × Bool)
  last : Bool
deriving DecidableEq, Repr

/-- A load in progress (R187), with the acc_mode it took. -/
structure LoadRun where
  hdr : StitchHdr
  p : LoadP
  accMode : BitVec 8
  seq : Nat
deriving DecidableEq, Repr

/-- A pass being injected (R173): its stitch, the next vector, and in C mode per named array the preceding samples, newest first,
each with its poison mark (R184), and whether a skewed line has been logged (R165). -/
structure PassRun where
  hdr : StitchHdr
  p : PassP
  seq : Nat
  next : Nat
  skewed : Bool
  history : List (List (List Int × Bool))
deriving DecidableEq, Repr

/-- One entry of the top-k list (R182, R183): the value scaled by 2^149 for comparing, the 32-bit value, position, tile * 4 + array. -/
structure TopEntry where
  key : Int
  value : Word
  pos : Nat
  source : Nat
deriving DecidableEq, Repr

/-- The open top-k run of a tile (R182). -/
structure TopRun where
  k : Nat
  seen : Nat
  /-- Values of the drains that have joined, read or not (Table MX-8). -/
  claimed : Nat
  /-- The drains of the run, by their numbers in start order. -/
  members : List Nat
  entries : List TopEntry
deriving DecidableEq, Repr

/-- A stitch in progress at its unit (R244, R246, R247): its number in start order, start tick, whether its last write has been
granted, and whether its overrun has been logged. -/
structure Running where
  stitch : Stitch
  seq : Nat
  start : Nat
  done : Bool
  overran : Bool
deriving DecidableEq, Repr

/-- A drain in progress (R181, R191): the tile rows it has read, and whether a line has failed the tag check (R165). -/
structure DrainRun where
  hdr : StitchHdr
  p : DrainP
  seq : Nat
  next : Nat
  skewed : Bool
deriving DecidableEq, Repr

/-- One unit's queue (R243, R244): express and row-lane stitches in arrival order, and those in progress. -/
structure UnitQ where
  express : List Stitch
  row : List Stitch
  current : List Running
deriving DecidableEq, Repr

/-- A tile's matrix engine. -/
structure Mx where
  arrays : Vector MxArray 4
  loading : Option LoadRun
  passes : List PassRun
  committed : List Committed
  drains : List DrainRun
  topk : Option TopRun
deriving DecidableEq, Repr

/-- A VE stitch in progress (R208): next beat, and the SCAN block so far: per beat lanes of (a, b) with poison (R216). -/
structure VeRun where
  hdr : StitchHdr
  p : VeP
  seq : Nat
  beat : Nat
  skewed : Bool
  scan : List (List (Word × Word × Bool))
  carry : List (Word × Bool)
deriving DecidableEq, Repr

/-- A tile's vector engine (07_vector_engine.md). Operand store byte (slot, lane, b) at slot * 256 + lane * 4 + b; `poison` by 64-bit
word. Table slot n at n * 3104. `staged` tables wait for a stitch boundary (R220), `oc` debug accesses (R223): word,
value written if any, path. -/
structure Ve where
  store : EccMem
  poison : Tab Bool
  tables : EccMem
  staged : List (Nat × List Byte)
  oc : List (Nat × Option Word × Path)
  run : Option VeRun
deriving DecidableEq, Repr

/-- One compute tile. -/
structure Tile where
  sp : Sp
  mx : Mx
  ve : Ve
  sdm : EccMem
  loaderQ : UnitQ
  injectorQ : UnitQ
  drainerQ : Vector UnitQ 4
  veQ : UnitQ
  xferQ : UnitQ
deriving DecidableEq, Repr

/-- Core states of Table TC-20. -/
inductive CoreSt where
  | reset | run | wait | halted | stopped
deriving DecidableEq, Repr

/-- A WAITEV in progress (R240): destination, any-event form, the event, the TB tick of its timeout. -/
structure WaitSt where
  rd : BitVec 5
  anyEv : Bool
  ev : BitVec 6
  deadline : Option Nat
deriving DecidableEq, Repr

/-- A device load held in M until its reply arrives (R232). -/
structure DevLoad where
  rd : BitVec 5
  addr : Word
  value : Word
  status : Status
deriving DecidableEq, Repr

/-- One tending core (08_tending_cores.md). `regs` holds g0-g31; g0 is never written. `cycleBase` is its island's cycle count when it
left reset. `latches` holds the high words latched by CSR low-word reads, keyed by the reader and the low CSR's number (R255). `staged`: records of a live
TC_PROGRAM update that waits for this core (R253): record id, IMEM offset, data. -/
structure Core where
  regs : Vector Word 32
  pc : Word
  st : CoreSt
  stepReq : Bool
  haltReq : Bool
  epc : Word
  cause : Word
  tval : Word
  tvec : Word
  scratch : Word
  inTrap : Bool
  sigLost : Bool
  evWait : DWord
  evOvf : DWord
  counts : Vector (BitVec 8) 64
  cycleBase : Nat
  sfault : List Word
  sfaultLost : BitVec 8
  wait : Option WaitSt
  devLoad : Option DevLoad
  stores : List (Word × Status)
  heldStore : Option (Word × Word)
  fencing : Bool
  arrived : Bool
  missed : Nat
  programmed : Bool
  btb : List (Word × Word)
  imem : EccMem
  dmem : EccMem
  latches : Tab Word
  staged : List (Nat × Nat × List Byte)
deriving DecidableEq, Repr

/-- Use of a resident slot (R121, R286). -/
inductive SlotUse where
  | free | occupied | moving
deriving DecidableEq, Repr

/-- A swap in flight (R285-R288): direction, skein, slot, blocks moved over each channel, the block whose CRC failed twice if any,
stitch header. -/
structure Swap where
  out : Bool
  skein : Nat
  slot : Nat
  moved : Vector Nat 2
  lost : Option Nat
  hdr : StitchHdr
  seq : Nat
deriving DecidableEq, Repr

/-- A FETCH or STORE in progress (R289): blocks moved over each channel. -/
structure BlockRun where
  store : Bool
  hdr : StitchHdr
  p : BlockP
  seq : Nat
  moved : Vector Nat 2
  /-- Has a line of the stitch failed the tag check (R165)? -/
  skewed : Bool
deriving DecidableEq, Repr

/-- An access through the BAR2 stash window that waits for its blocks' grants (R374): stash address, what it does, its place in arrival order,
blocks served over each channel, and whether a block's CRC failed. -/
structure WinRun where
  a : Nat
  op : WinOp
  seq : Nat
  moved : Vector Nat 2
  bad : Bool
deriving DecidableEq, Repr

/-- The stash die and its controller (09_skeins.md). `crc` per 256-byte block: 0 good, 1 first read fails and the retry matches,
2 fails twice (R303). `waiting` swaps hold the head of the STASH queue for a token (R285). -/
structure Stash where
  mem : Memory
  crc : Tab Nat
  trained : Bool
  slots : Vector SlotUse 24
  unusable : BitVec 24
  swaps : List Swap
  blocks : List BlockRun
  windows : List WinRun
  queue : UnitQ
  rewriting : List Nat
deriving DecidableEq, Repr

/-- One replica (R316, R318, R321): configuration, tracked energy, the generators of its 16 units, its temperature slot. -/
structure Replica where
  conf : BitVec 16384
  energy : Int
  gens : Vector Word 16
  slot : Nat
deriving DecidableEq, Repr

/-- An accepted annealer run (R315, R332): its descriptor, latched beta table, seed and drift action, and its counters. `ended` is the
outcome once the run has met its end. -/
structure DzRun where
  hdr : StitchHdr
  p : RunP
  betas : Vector (BitVec 16) 32
  driftStop : Bool
  sweeps : Nat
  exchanges : Nat
  moves : Nat
  repaired : Nat
  exchAcc : Nat
  exchSinceAcc : Nat
  exchSinceAtt : Nat
  movesSince : Nat
  traced : Bool
  ended : Option Nat
deriving DecidableEq, Repr

/-- An access to the annealer's registers or window that waits for the end of its swatch test (R334): path, address of the map, what it does. -/
structure DzAccess where
  p : Path
  a : Nat
  op : WinOp
deriving DecidableEq, Repr

/-- The annealer (10_dzidakan_annealer.md). `laneFlips` are the words of the lane states whose stored bits are wrong (R339). -/
structure Dza where
  mem : EccMem
  reps : Vector Replica 32
  laneFlips : List (Nat × BitVec 72)
  held : List DzAccess
  used : Nat
  exchGen : Word
  run : Option DzRun
  stopReq : Bool
  traceBase : Nat
  traceSize : Nat
  traceSeq : Word
  queue : UnitQ
deriving DecidableEq, Repr

/-- A playback frame playing on a ring (R358). -/
structure Playing where
  frame : Nat
  ok : Bool
deriving DecidableEq, Repr

/-- The audio edge (11_audio_edge.md). `grid` is each capture channel's next grid instant; `capStart` the start of capture of each domain;
`stuck`, `syncLost`, `rateBad` the conditions of Table AE-9; `miss`, `clip` and `early` the masks and flag of frames being
filled, keyed ring * 2^32 + seq; `frames` and `played` the next frame of each ring; `raw` the samples of the frame that each output channel
plays, `out` the same under its gain, `sound` the channels whose gain is up or rising, `ramp` the samples left of a gain ramp; `lastTick` and
`counted` the TB tick and the grid instant of each sample counter's last increment, `snapCount` the counts that the last AE_SNAP latched (R361;
log entry 38), `native` the part of a native sample it has run on, in
millionths; `blind` the tick up to which capture ran within the command that started the pattern; `eff` the values that registers with static
fields have in effect while their domain's function is not in service (R363). -/
structure Ae where
  capturing : Bool
  grid : Tab Nat
  capStart : Vector Nat 7
  stuck : BitVec 32
  syncLost : BitVec 4
  rateBad : BitVec 4
  ppm : Vector (BitVec 16) 4
  gains : Vector (BitVec 5) 16
  swatch : Bool
  miss : Tab (BitVec 128)
  clip : Tab (BitVec 128)
  early : Tab Bool
  running : BitVec 16
  frames : Vector Nat 16
  played : Vector Nat 16
  playing : Vector (Option Playing) 16
  raw : Tab (List Word)
  out : Tab (List Word)
  sound : BitVec 80
  ramp : Tab Nat
  lastTick : Vector DWord 7
  counted : Vector Nat 7
  snapCount : Vector (Option Word) 7
  native : Vector Nat 7
  blind : Nat
  eff : Tab Word
deriving DecidableEq, Repr

/-- A message of R385 before its destination-dependent fields: its payload lies at hub SRAM offset `src` in staging; `dests` are the
destinations still to be served, bit 16 = EP2 IN. -/
structure Msg where
  type : Nat
  skein : Nat
  flags : Nat
  seq : Word
  modelId : Nat
  ts : DWord
  length : Nat
  src : Nat
  dests : BitVec 17
deriving DecidableEq, Repr

/-- A buffer of a destination (R390): its bytes, the scope of each message in it (256 = device), the places its messages keep in staging as
(offset, footprint) (R392, R393), and whether it is due to close as soon as a memory request may be issued (R377). -/
structure Buf where
  bytes : List Byte
  scopes : List Nat
  places : List (Nat × Nat)
  due : Bool
deriving DecidableEq, Repr

/-- The message engine (12, R385-R398). `descs` holds a ring's fetched descriptor address; `reading` the rings with a read outstanding;
`gap` the (destination, scope) pairs owed a gap mark (scope 256 = device); `closes` unsignalled closes; `usbReady` the buffers of EP2
IN that are ready or sending, oldest first. -/
structure MsgEng where
  staged : List Msg
  bufs : Tab Buf
  descs : Tab DWord
  reading : BitVec 16
  stopped : BitVec 16
  gap : List (Nat × Nat)
  closes : Tab Nat
  usbReady : List Buf
  queue : UnitQ
deriving DecidableEq, Repr

/-- Host-side state of the links (12): PCI Express configuration words written by the host, MSI-X table and pending bits, MSI-X messages
sent (address, data), the AER error messages sent (`errSent`: is it fatal), USB endpoint 0, feature units, the inbox slot to write next, the SPI reply, the PCI Express and USB replies
of the last access, and what the device has written to host memory. -/
structure HostSide where
  linkUp : Bool
  cfg : Tab Word
  msixTable : Tab Word
  pba : BitVec 32
  msix : List (DWord × Word)
  cfgReply : Word
  errSent : List Bool
  pcieReply : List Byte
  pcieStatus : Status
  usbLast : Status
  usbWrites : BitVec 24
  usbReply : List Byte
  mutes : BitVec 16
  volumes : Vector (BitVec 8) 16
  inboxNext : Nat
  nak : Bool
  usbIn : List Word
  spiReply : List Byte
  mem : Memory
deriving DecidableEq, Repr

/-- The steps of Table FR-6 that last: FENCE with DRAIN, RESET and REJOIN. CUT and the end of a bind-off are instants. -/
inductive FrogStep where
  | fence | reset | rejoin
deriving DecidableEq, Repr

/-- What a request to FRC asks (R423). -/
inductive FrogKind where
  | frog | bindOff | enable
deriving DecidableEq, Repr

/-- The frog or bind-off in progress (R415): function, kind, step, TB tick of its FENCE, and a skein set whose stepping was 1 then (R299). -/
structure FrogRun where
  fn : Nat
  kind : FrogKind
  step : FrogStep
  start : Nat
  stepping : List Nat
deriving DecidableEq, Repr

/-- The fault and frog controller (13): pending queue, AON buffer while the log ring cannot take records, requests, history of frogs per
function (R421), times of escalated re-casts (R422), and whether one of them is starting (R426). -/
structure Frc where
  pend : List (List Word)
  buffering : Bool
  buffer : List (List Word)
  queue : List (Nat × FrogKind)
  cur : Option FrogRun
  history : Tab (List Nat)
  escTimes : List Nat
  escStarting : Bool
  recent : List (List Word)
deriving DecidableEq, Repr

/-- One swatch instance (R413, R414): its window, whether its test runs, on which arrays (R193), and whether a stitch has broken the test off. -/
structure SwatchSt where
  isOpen : Bool
  running : Bool
  consec : Nat
  arrays : BitVec 4
  broken : Bool
deriving DecidableEq, Repr

/-- One gauge block's counters (R432); configuration and compare values are registers. -/
structure Gauge where
  counts : Vector (BitVec 48) 8
  ovfs : Vector (BitVec 16) 8
  flits : Vector Word 4
  wasReset : Bool
deriving DecidableEq, Repr

/-- A dump being written (R439, R441). -/
structure Dump where
  bytes : List Byte
  tick : DWord
deriving DecidableEq, Repr

/-- A pair register's shadow and staged low word on one path (R7), keyed by the low word's address; no path stands for the writes of
cast-on's own records, which are no path's accesses (R13). -/
structure PairSt where
  path : Option Path
  low : Nat
  shadow : Option Word
  staged : Option Word
deriving DecidableEq, Repr

/-- The block, less its queue and its links. `free` counts the free values taken, `linkEpoch` the cast-ons and re-casts that have brought
the links up afresh (R138). -/
structure Mach where
  free : Nat
  linkEpoch : Nat
  issue : Nat
  /-- Skeins whose state a step's read found uncorrectable, until the command that read settles them (R304). -/
  struck : List Nat
  regs : Tab Word
  pairs : List PairSt
  tb : DWord
  tbOn : Bool
  pw : Power
  fns : Vector FnState 19
  flash : Flash
  cast : Cast
  nvm : Option NvmOp
  ll : Option LlOp
  waiting : List WriterOp
  islands : Vector Island 264
  gov : Governor
  rowCount : Nat
  rowStart : Nat
  tiles : Vector Tile 4
  cores : Vector Core 10
  hub : EccMem
  stash : Stash
  dza : Dza
  ae : Ae
  msg : MsgEng
  host : HostSide
  frc : Frc
  swatch : Tab SwatchSt
  gauges : Vector Gauge 5
  dump : Option Dump
  dumpSeq : Word
deriving DecidableEq, Repr

/-- The whole machine: waiting commands first in, first out; the links of R116-R121, keyed (source * 264 + destination) * 4 + class; the
packets they carry; everything else. -/
structure State where
  pending : List Instr
  links : Tab Link
  net : Net
  m : Mach
deriving DecidableEq, Repr

/-- Reasons for a stop with a fault: none. Every command of the table has an effect or leaves the state as it is. -/
inductive Fault where
deriving DecidableEq, Repr

/-- Reasons to refuse a command. -/
inductive Refusal where
  /-- Raised by `exec` for a command without a meaning yet; no arm of this model uses it. Safe: the machine stops. -/
  | notModelled (mnemonic : String)
deriving DecidableEq, Repr

/-- Empty memory: nothing listed. -/
def EccMem.empty : EccMem := { bytes := [], flips := [] }

def UnitQ.empty : UnitQ := { express := [], row := [], current := [] }

def Link.reset : Link :=
  { credits := 8, inFlight := [], doomed := 0, fifo := [], returning := 0, owed := 0, voiding := false, dropping := false }

def Net.reset : Net :=
  { reqs := [], holder := [], nextPort := [], nextLocal := [], nextClass := [], taking := [], sending := [], answers := [] }

/-- Table IS-14's reset code 40 is 400 MHz (R138). -/
def Island.reset : Island :=
  { ceiling := 180, patClk := 180, named := false, code := 40, next := none, stopped := false, cycles := 0, frac := 0, lastRead := none }

/-- The default layout of R143 and R145. -/
def Sp.reset : Sp :=
  { unified := false, aFirst := 24, pFirst := 30, mem := EccMem.empty, tags := [], lost := [], writeback := [], scrubPos := [],
    marching := none, marchNext := 0, replyData := [], replyStatus := .ok }

def WeightSet.empty : WeightSet := { cells := [], int4 := false, srMode := 0, epoch := 0, poisoned := false }

def MxArray.reset : MxArray :=
  { active := WeightSet.empty, activeValid := false, shadow := WeightSet.empty, shadowState := .empty, loadRows := 0,
    lfsr := [], acc := [], accPoison := [], accFlips := [] }

def Mx.reset : Mx := { arrays := Vector.replicate 4 MxArray.reset, loading := none, passes := [], committed := [], drains := [], topk := none }

def Ve.reset : Ve := { store := EccMem.empty, poison := [], tables := EccMem.empty, staged := [], oc := [], run := none }

def Tile.reset : Tile :=
  { sp := Sp.reset, mx := Mx.reset, ve := Ve.reset, sdm := EccMem.empty, loaderQ := UnitQ.empty, injectorQ := UnitQ.empty,
    drainerQ := Vector.replicate 4 UnitQ.empty, veQ := UnitQ.empty, xferQ := UnitQ.empty }

/-- A core in RESET (R269; Table TC-16's reset values). -/
def Core.reset : Core :=
  { regs := Vector.replicate 32 0, pc := 0, st := .reset, stepReq := false, haltReq := false, epc := 0, cause := 0, tval := 0,
    tvec := 0x10, scratch := 0, inTrap := false, sigLost := false, evWait := 0, evOvf := 0, counts := Vector.replicate 64 0,
    cycleBase := 0, sfault := [], sfaultLost := 0, wait := none, devLoad := none, stores := [], heldStore := none, fencing := false,
    arrived := false, missed := 0, programmed := false, btb := [], imem := EccMem.empty, dmem := EccMem.empty, latches := [], staged := [] }

def Stash.reset : Stash :=
  { mem := [], crc := [], trained := false, slots := Vector.replicate 24 .free, unusable := 0, swaps := [], blocks := [], windows := [],
    queue := UnitQ.empty, rewriting := [] }

def Replica.reset : Replica := { conf := 0, energy := 0, gens := Vector.replicate 16 0, slot := 0 }

def Dza.reset : Dza :=
  { mem := EccMem.empty, reps := Vector.replicate 32 Replica.reset, laneFlips := [], held := [], used := 0, exchGen := 0, run := none,
    stopReq := false, traceBase := 0, traceSize := 0, traceSeq := 0, queue := UnitQ.empty }

def Ae.reset : Ae :=
  { capturing := false, grid := [], capStart := Vector.replicate 7 0, stuck := 0, syncLost := 0, rateBad := 0,
    ppm := Vector.replicate 4 0, gains := Vector.replicate 16 0, swatch := false, miss := [], clip := [], early := [], running := 0,
    frames := Vector.replicate 16 0, played := Vector.replicate 16 0, playing := Vector.replicate 16 none, raw := [], out := [], sound := 0, ramp := [],
    lastTick := Vector.replicate 7 0, counted := Vector.replicate 7 0, snapCount := Vector.replicate 7 none, native := Vector.replicate 7 0, blind := 0, eff := [] }

def MsgEng.reset : MsgEng :=
  { staged := [], bufs := [], descs := [], reading := 0, stopped := 0, gap := [], closes := [], usbReady := [], queue := UnitQ.empty }

def HostSide.reset : HostSide :=
  { linkUp := false, cfg := [], msixTable := [], pba := 0, msix := [], cfgReply := 0, errSent := [], pcieReply := [], pcieStatus := .ok, usbLast := .ok, usbWrites := 0,
    usbReply := [], mutes := 0, volumes := Vector.replicate 16 0, inboxNext := 0, nak := false, usbIn := [], spiReply := [], mem := [] }

def Frc.reset : Frc :=
  { pend := [], buffering := true, buffer := [], queue := [], cur := none, history := [], escTimes := [], escStarting := false, recent := [] }

def Gauge.reset : Gauge :=
  { counts := Vector.replicate 8 0, ovfs := Vector.replicate 8 0, flits := Vector.replicate 4 0, wasReset := false }

/-- Pins low, every rail good, no valid reading (log entries 2 to 4). DESIGN CHOICE (log entry 3): the stash die trains; the spec leaves to the
board whether it does (R106), and no command changes it. -/
def Power.reset : Power :=
  { porst := false, pwrok := false, perst := false, straps := 0, vbus := false, amclk := false, refclk := true,
    pcieRefclk := true, thermtrip := false, coreOk := true, sramOk := true, io18Ok := true, stashOk := true, vddqOk := true, afeOk := true, pcieOk := true,
    orderBad := false, temps := Vector.replicate 16 0, tempsValid := 0, vrExp := 23, vrTarget := 384, vrConfirmed := 384, vout := 384, vrAddr := 0x40,
    vrBoard := 0x40, vrHold := false,
    fixedSupply := false, vrAnswers := true, stashTrains := true, trans := .none }

/-- An erased 64 MiB chip that declares every mode (log entry 5). -/
def Flash.reset : Flash :=
  { bytes := [], weak := [], sizeLog2 := 26, sfdpOk := true, addr4 := true, octal := true, quad144 := true, quad114 := true, maxMhz := 200 }

def Cast.reset : Cast :=
  { loaded := false, base := 0, length := 0, rowPeriod := 1, generation := 0, records := [], residency := [], models := [],
    rescanA := false, rescanB := false, rescanning := false, live := none, suspended := [], written := [], inUse := [], wornLogged := false, corruptLogged := [],
    marginsDue := none, regWrites := [] }

def Mach.reset : Mach :=
  { free := 0, linkEpoch := 0, issue := 0, struck := [], regs := [], pairs := [], tb := 0, tbOn := false, pw := Power.reset, fns := Vector.replicate 19 .down,
    flash := Flash.reset, cast := Cast.reset, nvm := none, ll := none, waiting := [], islands := Vector.replicate 264 Island.reset,
    gov := { estimates := [], measure := 0, floor := false, lastEnd := 0 }, rowCount := 0, rowStart := 0, tiles := Vector.replicate 4 Tile.reset,
    cores := Vector.replicate 10 Core.reset, hub := EccMem.empty, stash := Stash.reset, dza := Dza.reset, ae := Ae.reset,
    msg := MsgEng.reset, host := HostSide.reset, frc := Frc.reset, swatch := [], gauges := Vector.replicate 5 Gauge.reset, dump := none,
    dumpSeq := 0 }

/-- The block after power-on reset, before its first cast-on (R19: phase RESET; R57: `GL_RESET_CAUSE.power_on` reads 1), with no command
waiting. -/
def State.reset : State := { pending := [], links := [], net := Net.reset, m := Mach.reset }

end Sys2Proof.Machine
end

