-- ==== Sys2Proof/Machine/Ops.lean ====
section
/-! DEFINITION. The named operations over sparse maps, registers, SECDED memories, fault records, gauges, events and functions that every
meaning is written over. -/

namespace Sys2Proof.Machine

/-! ## Sparse maps -/

/-- What key k reads as; d gives the value of an unlisted key. -/
def Tab.get {α : Type} (d : Nat → α) : Tab α → Nat → α
  | [], k => d k
  | (k', v) :: t, k => if k' = k then v else Tab.get d t k

/-- The map without key k. -/
def Tab.erase {α : Type} (t : Tab α) (k : Nat) : Tab α := t.filter (fun e => e.1 != k)

/-- The map with (k, v) in its place among rising keys. -/
def Tab.insert {α : Type} : Tab α → Nat → α → Tab α
  | [], k, v => [(k, v)]
  | (k', v') :: t, k, v => if k < k' then (k, v) :: (k', v') :: t else (k', v') :: Tab.insert t k v

/-- Write v at key k, in canonical form: the default value is not listed. -/
def Tab.set {α : Type} [DecidableEq α] (d : Nat → α) (t : Tab α) (k : Nat) (v : α) : Tab α :=
  if v = d k then Tab.erase t k else Tab.insert (Tab.erase t k) k v

/-- The canonical form: keys strictly rising, no entry equal to the default. -/
def Tab.wf {α : Type} [DecidableEq α] (d : Nat → α) : Tab α → Bool
  | [] => true
  | [(k, v)] => v != d k
  | (k, v) :: (k', v') :: t => v != d k && decide (k < k') && Tab.wf d ((k', v') :: t)

/-- What an unlisted byte of an on-chip memory reads as: zero, as step 5 of cast-on leaves it (R66, log entry 2). -/
def zeroByte : Nat → Byte := fun _ => 0
/-- What an unlisted byte of the flash reads as: erased. -/
def erasedByte : Nat → Byte := fun _ => 0xFF

/-- The canonical form of byte memory whose unlisted bytes read zero. -/
def Memory.wf (m : Memory) : Bool := Tab.wf zeroByte m

/-- n bytes of memory from a. -/
def Memory.read (d : Nat → Byte) (m : Memory) (a n : Nat) : List Byte := (List.range n).map fun i => Tab.get d m (a + i)

/-- Write bytes from a; a `none` leaves its byte. -/
def Memory.writeOpt (d : Nat → Byte) (m : Memory) (a : Nat) : List (Option Byte) → Memory
  | [] => m
  | none :: bs => Memory.writeOpt d m (a + 1) bs
  | some b :: bs => Memory.writeOpt d (Tab.set d m a b) (a + 1) bs

def Memory.write (d : Nat → Byte) (m : Memory) (a : Nat) (bs : List Byte) : Memory := Memory.writeOpt d m a (bs.map some)

/-! ## Numbers and bytes (R1) -/

/-- The value of bytes, little-endian. -/
def leNat : List Byte → Nat
  | [] => 0
  | b :: bs => b.toNat + 256 * leNat bs

/-- n bytes of a value, little-endian. -/
def leBytes : Nat → Nat → List Byte
  | 0, _ => []
  | n + 1, v => BitVec.ofNat 8 v :: leBytes n (v / 256)

/-- Bits [hi:lo] of a number. -/
def bitsOf (v hi lo : Nat) : Nat := (v / 2 ^ lo) % 2 ^ (hi + 1 - lo)

def b2n (b : Bool) : Nat := if b then 1 else 0

/-- A two's-complement reading of the low w bits. -/
def signed (w v : Nat) : Int := let u := v % 2 ^ w; if u < 2 ^ (w - 1) then (u : Int) else (u : Int) - (2 ^ w : Int)

/-- The low w bits of an integer. -/
def wrap (w : Nat) (i : Int) : Nat := (i % (2 ^ w : Int)).toNat

/-- Clamp to [lo, hi]; the flag says that it clamped. -/
def clampInt (lo hi i : Int) : Int × Bool := if i < lo then (lo, true) else if hi < i then (hi, true) else (i, false)

/-- Round an integer up to a multiple of n. -/
def roundUp (v n : Nat) : Nat := (v + n - 1) / n * n

/-! ## Vectors -/

def vget {α : Type} {n : Nat} (v : Vector α n) (i : Fin n) : α := v[i.val]
def vset {α : Type} {n : Nat} (v : Vector α n) (i : Fin n) (x : α) : Vector α n := v.set i.val x i.isLt
def vmod {α : Type} {n : Nat} (v : Vector α n) (i : Fin n) (f : α → α) : Vector α n := vset v i (f (vget v i))
/-- A number as an index, folded into range. -/
def ix (n : Nat) (i : Nat) (h : 0 < n := by decide) : Fin n := ⟨i % n, Nat.mod_lt i h⟩

/-! ## Registers (R4, R5) -/

/-- Does the register (array) cover address a? Index strides fall from outer to inner. -/
def coversFrom (a base : Nat) : List (Nat × Nat) → Bool
  | [] => a == base
  | (n, s) :: ds => base ≤ a && coversFrom a (base + Nat.min ((a - base) / s) (n - 1) * s) ds

def RegDesc.covers (d : RegDesc) (a : Nat) : Bool := coversFrom a d.base d.dims

/-- The register at an address, if a chapter assigns one (R8). -/
def findReg (a : Nat) : Option RegDesc := regTable.find? fun d => d.covers a

/-- The reset value of the register at an address. A ring's vector resets to 1 + r (Table HL-16). -/
def regReset (a : Nat) : Word :=
  match findReg a with
  | none => 0
  | some d =>
    let w := d.fields.foldl (fun acc f => acc + f.reset * 2 ^ f.lo) 0
    if 0x780100 ≤ a ∧ a < 0x780500 ∧ (a - 0x780100) % 0x40 = 0x24 then BitVec.ofNat 32 (w + (a - 0x780100) / 0x40 * 2 ^ 27)
    else BitVec.ofNat 32 w

/-- A field's value in a word. -/
def Fld.of (f : Fld) (w : Word) : Nat := bitsOf w.toNat f.hi f.lo

/-- The mask of bits [hi:lo]. -/
def maskOf (hi lo : Nat) : Word := BitVec.ofNat 32 ((2 ^ (hi + 1 - lo) - 1) * 2 ^ lo)

/-- A word with bits [hi:lo] replaced. -/
def putBits (w : Word) (hi lo v : Nat) : Word :=
  (w &&& ~~~(maskOf hi lo)) ||| (BitVec.ofNat 32 (v * 2 ^ lo) &&& maskOf hi lo)

/-- The stored word of the register at an address. -/
def Mach.reg (m : Mach) (a : Nat) : Word := Tab.get regReset m.regs a
def Mach.setReg (m : Mach) (a : Nat) (w : Word) : Mach := { m with regs := Tab.set regReset m.regs a w }
/-- A field of a register as stored. -/
def Mach.get (m : Mach) (f : Fld) : Nat := f.of (m.reg f.addr)
def Mach.on (m : Mach) (f : Fld) : Bool := m.get f != 0
/-- Store a field. -/
def Mach.put (m : Mach) (f : Fld) (v : Nat) : Mach := m.setReg f.addr (putBits (m.reg f.addr) f.hi f.lo v)
/-- Set a sticky bit. -/
def Mach.flag (m : Mach) (f : Fld) : Mach := m.put f 1
/-- Count, holding at the field's largest value. -/
def Mach.bump (m : Mach) (f : Fld) (n : Nat := 1) : Mach := m.put f (Nat.min (m.get f + n) (2 ^ (f.hi + 1 - f.lo) - 1))
/-- Count modulo the field's width. -/
def Mach.bumpMod (m : Mach) (f : Fld) (n : Nat := 1) : Mach := m.put f (m.get f + n)
/-- A 64-bit quantity in two registers (R7). -/
def Mach.putPair (m : Mach) (lo : Nat) (v : Nat) : Mach :=
  (m.setReg lo (BitVec.ofNat 32 v)).setReg (lo + 4) (BitVec.ofNat 32 (v / 2 ^ 32))
def Mach.pair (m : Mach) (lo : Nat) : Nat := (m.reg lo).toNat + 2 ^ 32 * (m.reg (lo + 4)).toNat
/-- Registers of [lo, hi) back at their reset values. -/
def Mach.resetRegs (m : Mach) (lo hi : Nat) : Mach := { m with regs := m.regs.filter fun e => !(lo ≤ e.1 && e.1 < hi) }

/-! ## Parts of the machine -/

def Mach.tile (m : Mach) (t : Fin 4) : Tile := vget m.tiles t
def Mach.modTile (m : Mach) (t : Fin 4) (f : Tile → Tile) : Mach := { m with tiles := vmod m.tiles t f }
def Mach.modSp (m : Mach) (t : Fin 4) (f : Sp → Sp) : Mach := m.modTile t fun x => { x with sp := f x.sp }
def Mach.modMx (m : Mach) (t : Fin 4) (f : Mx → Mx) : Mach := m.modTile t fun x => { x with mx := f x.mx }
def Mach.modArray (m : Mach) (t a : Fin 4) (f : MxArray → MxArray) : Mach :=
  m.modMx t fun x => { x with arrays := vmod x.arrays a f }
def Mach.modVe (m : Mach) (t : Fin 4) (f : Ve → Ve) : Mach := m.modTile t fun x => { x with ve := f x.ve }
def Mach.core (m : Mach) (c : Fin 10) : Core := vget m.cores c
def Mach.modCore (m : Mach) (c : Fin 10) (f : Core → Core) : Mach := { m with cores := vmod m.cores c f }
def Mach.isl (m : Mach) (i : Fin 264) : Island := vget m.islands i
def Mach.modIsl (m : Mach) (i : Fin 264) (f : Island → Island) : Mach := { m with islands := vmod m.islands i f }

/-- A fresh free value (log entry 1): nothing constrains it. -/
def Mach.fresh (m : Mach) : BitVec 64 × Mach := (Config.freeValue m.free, { m with free := m.free + 1 })

/-- A fresh value in 0 .. n - 1. -/
def Mach.freshBelow (m : Mach) (n : Nat) : Nat × Mach := let r := m.fresh; (r.1.toNat % n, r.2)

def Mach.now (m : Mach) : Nat := m.tb.toNat
/-- The least multiple of p above t. -/
def nextMultiple (t p : Nat) : Nat := (t / p + 1) * p

/-! ## Phases and functions (Tables PA-10, PA-11) -/

def phReset : Nat := 0
def phCasting : Nat := 1
def phRunning : Nat := 2
def phRecasting : Nat := 3
def phIdle : Nat := 4
def phRetention : Nat := 5
def phFailed : Nat := 15

def Mach.phase (m : Mach) : Nat := m.get GlStatus.phase
def Mach.setPhase (m : Mach) (p : Nat) : Mach := m.put GlStatus.phase p

def fnDza : Fin 19 := 4
def fnStash : Fin 19 := 5
def fnMsg : Fin 19 := 6
def fnPcie : Fin 19 := 7
def fnUsb : Fin 19 := 8
def fnSpi : Fin 19 := 9
def fnAcd : Fin 19 := 10
def fnPdm : Fin 19 := 11
def fnNvm : Fin 19 := 18

def Mach.fn (m : Mach) (f : Fin 19) : FnState := vget m.fns f
def Mach.setFn (m : Mach) (f : Fin 19) (s : FnState) : Mach := { m with fns := vset m.fns f s }
/-- In service. -/
def Mach.up (m : Mach) (f : Fin 19) : Bool := m.fn f == .up
/-- The word that GL_FUNC_UP or GL_FUNC_OFF shows. -/
def fnMask (v : Vector FnState 19) (s : FnState) : Nat :=
  (List.range 19).foldl (fun acc i => if vget v (ix 19 i) == s then acc + 2 ^ i else acc) 0

def tileFn (t : Fin 4) : Fin 19 := ⟨t.val, by omega⟩
def coreFn (c : Fin 10) : Fin 19 := if h : c.val < 8 then ⟨c.val / 2, by omega⟩ else ⟨8 + c.val, by omega⟩
def coreTile (c : Fin 10) : Option (Fin 4) := if h : c.val < 8 then some ⟨c.val / 2, by omega⟩ else none
def coreIsland (c : Fin 10) : Fin 264 :=
  if h : c.val < 8 then ⟨59 * (c.val / 2) + 55 + c.val % 2, by omega⟩ else ⟨238 + c.val, by omega⟩

/-- The function an island belongs to (Tables IS-1, IS-2). -/
def islandFn (i : Nat) : Option (Fin 19) :=
  if i < 236 then some (ix 19 (i / 59))
  else if i = 246 then some 16 else if i = 247 then some 17
  else if i = 248 ∨ i = 249 ∨ i = 250 then some 4
  else if i = 251 then some 6 else if i = 252 ∨ i = 253 then some 5
  else if i = 254 then some 7 else if i = 255 then some 8 else if i = 256 then some 9
  else if i = 257 then some 11 else if 258 ≤ i ∧ i ≤ 261 then some (ix 19 (12 + (i - 258)))
  else if i = 262 then some 10 else if i = 263 then some 18 else none

/-- A tile router TRT (R417). -/
def isTrt (i : Nat) : Bool := i < 236 && i % 59 == 57

/-- VOID status of a function that is not in service (R416). -/
def voidStatus (s : FnState) : Status := match s with | .frogging => .voidReset | _ => .voidOff

def Status.code : Status → Nat
  | .ok => 0 | .error => 1 | .voidReset => 2 | .voidOff => 3 | .poison => 4

/-! ## SECDED memories (R453, R163-R164, R412) -/

inductive Judge where
  | ok | ce (bit : Nat) | chk | ue
deriving DecidableEq, Repr

/-- How many bits of a word pattern are set. -/
def popcount {w : Nat} (x : BitVec w) : Nat := (List.range w).countP fun i => x.getLsbD i

/-- The judgement of a word at a read (R453). -/
def judge (f : BitVec 72) : Judge :=
  if f = 0 then .ok
  else if popcount f = 1 then
    match (List.range 64).find? fun i => f.getLsbD i with
    | some b => .ce b
    | none => .chk
  else .ue

/-- Inverted check bits: the word reads as uncorrectable (R164). -/
def invertedCheck : BitVec 72 := 0xFF0000000000000000

def noFlips : Nat → BitVec 72 := fun _ => 0

def EccMem.flip (m : EccMem) (w : Nat) : BitVec 72 := Tab.get noFlips m.flips w
def EccMem.setFlip (m : EccMem) (w : Nat) (f : BitVec 72) : EccMem := { m with flips := Tab.set noFlips m.flips w f }
def EccMem.bad (m : EccMem) (w : Nat) : Bool := judge (m.flip w) == .ue
/-- One byte as a read returns it: a single wrong data bit is corrected. -/
def EccMem.byte (m : EccMem) (a : Nat) : Byte :=
  let b := Tab.get zeroByte m.bytes a
  match judge (m.flip (a / 8)) with
  | .ce bit => if bit / 8 = a % 8 then b ^^^ BitVec.ofNat 8 (2 ^ (bit % 8)) else b
  | _ => b
def EccMem.read (m : EccMem) (a n : Nat) : List Byte := (List.range n).map fun i => m.byte (a + i)
def EccMem.nat (m : EccMem) (a n : Nat) : Nat := leNat (m.read a n)

/-- The 64-bit words that n bytes from a touch. -/
def wordsOf (a n : Nat) : List Nat := if n = 0 then [] else (List.range ((a + n - 1) / 8 - a / 8 + 1)).map fun i => a / 8 + i

/-- Words of a range with a judgement. -/
def EccMem.ces (m : EccMem) (a n : Nat) : List Nat := (wordsOf a n).filter fun w => match judge (m.flip w) with | .ce _ => true | _ => false
def EccMem.chks (m : EccMem) (a n : Nat) : List Nat := (wordsOf a n).filter fun w => judge (m.flip w) == .chk
def EccMem.ues (m : EccMem) (a n : Nat) : List Nat := (wordsOf a n).filter m.bad

/-- The write-back of a corrected word (R163, R453). -/
def EccMem.repair (m : EccMem) (w : Nat) : EccMem :=
  if m.bad w then m
  else { bytes := Memory.write zeroByte m.bytes (8 * w) (m.read (8 * w) 8), flips := Tab.set noFlips m.flips w 0 }

def EccMem.repairAll (m : EccMem) (ws : List Nat) : EccMem := ws.foldl EccMem.repair m

/-- The words of a write of which some bytes are written and some are not: each is a read-modify-write (R141, R164). -/
def partWords (a : Nat) (bs : List (Option Byte)) : List Nat :=
  let given := fun w => (List.range 8).countP fun i => decide (a ≤ 8 * w + i) && (bs[8 * w + i - a]?.join).isSome
  (wordsOf a bs.length).filter fun w => given w != 0 && given w != 8

/-- Write bytes: a whole word clears its error, a partial write keeps an uncorrectable word so and corrects any other (R164). -/
def EccMem.writeOpt (m : EccMem) (a : Nat) (bs : List (Option Byte)) : EccMem :=
  let touched := wordsOf a bs.length
  let whole := fun w => (List.range 8).all fun i => a ≤ 8 * w + i && 8 * w + i < a + bs.length && (bs[8 * w + i - a]?.join).isSome
  let any := fun w => (List.range 8).any fun i => a ≤ 8 * w + i && 8 * w + i < a + bs.length && (bs[8 * w + i - a]?.join).isSome
  let m1 := touched.foldl (fun acc w =>
    if whole w then acc.setFlip w 0
    else if any w then (if acc.bad w then acc.setFlip w invertedCheck else acc.repair w)
    else acc) m
  { m1 with bytes := Memory.writeOpt zeroByte m1.bytes a bs }

def EccMem.write (m : EccMem) (a : Nat) (bs : List Byte) : EccMem := m.writeOpt a (bs.map some)
def EccMem.writeNat (m : EccMem) (a n v : Nat) : EccMem := m.write a (leBytes n v)
/-- Store words so that they read as uncorrectable. -/
def EccMem.poisonWords (m : EccMem) (ws : List Nat) : EccMem := ws.foldl (fun acc w => acc.setFlip w invertedCheck) m

/-! ## Hub SRAM (R412, R442) -/

def Mach.modHub (m : Mach) (f : EccMem → EccMem) : Mach := { m with hub := f m.hub }
def Mach.hubWrite (m : Mach) (a : Nat) (bs : List Byte) : Mach := m.modHub fun h => h.write a bs
def Mach.hubNat (m : Mach) (a n : Nat) : Nat := m.hub.nat a n
def Mach.hubPut (m : Mach) (a n v : Nat) : Mach := m.hubWrite a (leBytes n v)

/-! ## MSI-X (R375) -/

/-- What the writable words of configuration space hold after reset (log entry 8): requests of 512 B, the target speed 16 GT/s, the errors that
are fatal, the correctable errors that are masked. -/
def cfgReset (off : Nat) : Word :=
  match off with
  | 0x68 => 0x2000 | 0x90 => 0x4 | 0x10C => 0x00062010 | 0x114 => 0x2000 | _ => 0

def Mach.cfgWord (m : Mach) (off : Nat) : Word := Tab.get cfgReset m.host.cfg off
/-- Does the endpoint answer and issue requests: its link is up and it is in D0, not in D3hot (Table HL-1)? -/
def Mach.linkD0 (m : Mach) : Bool := m.host.linkUp && (m.cfgWord 0x44 &&& 3) == 0
/-- Bus Master Enable, in D0 (R377, log entry 8). -/
def Mach.bme (m : Mach) : Bool := m.linkD0 && (m.cfgWord 0x04).getLsbD 2
/-- MSI-X enable without function mask. -/
def Mach.msixOn (m : Mach) : Bool := (m.cfgWord 0x50).getLsbD 31 && !(m.cfgWord 0x50).getLsbD 30
def Mach.msixDword (m : Mach) (v k : Nat) : Word := Tab.get (fun i => if i % 4 = 3 then 1 else 0) m.host.msixTable (4 * v + k)

/-- Send vector v's message, or keep it pending while it is masked or may not be sent (R375). -/
def Mach.raiseVector (m : Mach) (v : Nat) : Mach :=
  if m.bme && m.msixOn && !(m.msixDword v 3).getLsbD 0 then
    { m with host := { m.host with
        msix := m.host.msix ++ [((m.msixDword v 1) ++ (m.msixDword v 0), m.msixDword v 2)]
        pba := m.host.pba &&& ~~~(BitVec.ofNat 32 (2 ^ v)) } }
  else { m with host := { m.host with pba := m.host.pba ||| BitVec.ofNat 32 (2 ^ v) } }

/-- The condition that asserts HOST_ALERT_N (R44). -/
def Mach.hostAlert (m : Mach) : Bool := m.on GlTherm.alertHit || !m.frc.pend.isEmpty

/-- Vector 0 is raised each time that condition becomes true (R375). -/
def Mach.alertEdge (m : Mach) (before : Bool) : Mach := if m.hostAlert && !before then m.raiseVector 0 else m

/-! ## Fault codes (Table FR-1) -/

def Flt.xtalLost : Nat := 0x0001
def Flt.amclkLost : Nat := 0x0002
def Flt.vrNack : Nat := 0x0003
def Flt.vrMode : Nat := 0x0004
def Flt.vrMismatch : Nat := 0x0005
def Flt.vrAlert : Nat := 0x0006
def Flt.tensionExpress : Nat := 0x0007
def Flt.tensionFloor : Nat := 0x0008
def Flt.nvmProbeFail : Nat := 0x0101
def Flt.copyFallback : Nat := 0x0102
def Flt.imageMalformed : Nat := 0x0103
def Flt.sigFail : Nat := 0x0104
def Flt.nvmReread : Nat := 0x0105
def Flt.checkOnly : Nat := 0x0106
def Flt.recordCorrupt : Nat := 0x0107
def Flt.headerInvalid : Nat := 0x0108
def Flt.modelRefused : Nat := 0x0109
def Flt.skeinNotCreated : Nat := 0x010A
def Flt.residencyFail : Nat := 0x010B
def Flt.llWorn : Nat := 0x010C
def Flt.llCorrupt : Nat := 0x010D
def Flt.linkStall : Nat := 0x0201
def Flt.replyTimeout : Nat := 0x0202
def Flt.linkParity : Nat := 0x0203
def Flt.islandClock : Nat := 0x0204
def Flt.schedSkew : Nat := 0x0301
def Flt.tagParity : Nat := 0x0302
def Flt.spUe : Nat := 0x0303
def Flt.spReach : Nat := 0x0304
def Flt.spRange : Nat := 0x0305
def Flt.spMarch : Nat := 0x0306
def Flt.accUe : Nat := 0x0401
def Flt.mxLockstep : Nat := 0x0402
def Flt.veUe : Nat := 0x0403
def Flt.veSwatch : Nat := 0x0404
def Flt.tcUe : Nat := 0x0501
def Flt.latentUe : Nat := 0x0502
def Flt.evOverflow : Nat := 0x0503
def Flt.stitchOverrun : Nat := 0x0504
def Flt.rowOverrun : Nat := 0x0505
def Flt.tcDoubleTrap : Nat := 0x0506
def Flt.tcWdog : Nat := 0x0507
def Flt.stepLate : Nat := 0x0601
def Flt.stashCrc : Nat := 0x0602
def Flt.ohCrc : Nat := 0x0603
def Flt.dzDrift : Nat := 0x0701
def Flt.dzUe : Nat := 0x0702
def Flt.dzSwatch : Nat := 0x0703
def Flt.dzProblem : Nat := 0x0704
def Flt.aeUnderrun : Nat := 0x0801
def Flt.pdmStuck : Nat := 0x0802
def Flt.tdmSyncLost : Nat := 0x0803
def Flt.tdmRate : Nat := 0x0804
def Flt.biasFault : Nat := 0x0805
def Flt.acdLink : Nat := 0x0806
def Flt.acdSwatch : Nat := 0x0807
def Flt.acdUntrimmed : Nat := 0x0808
def Flt.aeRingBad : Nat := 0x0809
def Flt.hlRingError : Nat := 0x0901
def Flt.msgUe : Nat := 0x0902
def Flt.hsrUe : Nat := 0x0903
def Flt.swatchStarved : Nat := 0x0A01
def Flt.frogDone : Nat := 0x0A02
def Flt.frogFail : Nat := 0x0A03
def Flt.frogLimit : Nat := 0x0A04
def Flt.escRecast : Nat := 0x0A05
def Flt.escCastOn : Nat := 0x0A06


/-- Severity 0 faults (R408). -/
def severity (code : Nat) : Nat :=
  if code = Flt.nvmReread ∨ code = Flt.checkOnly ∨ code = Flt.stepLate ∨ code = Flt.tensionExpress ∨ code = Flt.llWorn ∨ code = Flt.frogDone
  then 0 else 1

/-- Where a fault comes from (Table FR-2). -/
structure Src where
  fn : Nat := 0xFF
  island : Nat := 0x1FF
  skein : Nat := 0x7F
deriving DecidableEq, Repr

/-- A source island with its function. -/
def srcIsl (i : Nat) : Src := { fn := match islandFn i with | some f => f.val | none => 0xFF, island := i }
def srcFn (f : Nat) : Src := { fn := f }
/-- Bank b of tile t (Table IS-1). -/
def srcBank (t : Fin 4) (b : Nat) : Src := srcIsl (59 * t.val + 20 + b)
def srcCore (c : Fin 10) : Src := srcIsl (coreIsland c).val

def logBase : Nat := 0x1DF000

/-- One record into the log ring (R442, R443). -/
def Mach.logToRing (m : Mach) (entry : List Word) : Mach :=
  let seq := (entry.getD 4 0).toNat
  let full := (seq + 2 ^ 32 - (m.reg GaLogRd.reg).toNat) % 2 ^ 32 == 4096
  let m1 := if full then (m.bump GaLogLost.count).setReg GaLogRd.reg (m.reg GaLogRd.reg + 1) else m
  m1.hubWrite (logBase + 32 * (seq % 4096)) (entry.flatMap fun w => leBytes 4 w.toNat)

/-- Into the log ring, or into the AON buffer of 64 while the ring cannot take records (R430). -/
def Mach.logRecord (m : Mach) (entry : List Word) : Mach :=
  if m.frc.buffering then
    if m.frc.buffer.length < 64 then { m with frc := { m.frc with buffer := m.frc.buffer ++ [entry] } } else m.bump GaLogLost.count
  else m.logToRing entry

/-- A severity-1 record enters the pending queue of 16 or counts as lost (R409), and is among the last 16 (R422). -/
def Mach.pendRecord (m : Mach) (entry : List Word) : Mach :=
  let keep := (m.frc.recent ++ [entry]).drop (m.frc.recent.length - 15)
  if m.frc.pend.length < 16 then { m with frc := { m.frc with pend := m.frc.pend ++ [entry], recent := keep } }
  else { m.bump FrStatus.pendLost with frc := { m.frc with recent := keep } }

/-- Write one fault record (R409): sequence number, pending queue, log. `action` and `held` as Table FR-2. -/
def Mach.recordBase (m : Mach) (code : Nat) (src : Src) (args : List Nat) (action : Nat) (held : Bool) : Mach :=
  let sev := severity code
  let seq := m.reg FrFaultSeq.reg
  let entry : List Word :=
    [ BitVec.ofNat 32 (code + src.fn * 2 ^ 16 + sev * 2 ^ 24 + action * 2 ^ 26 + b2n held * 2 ^ 29),
      BitVec.ofNat 32 (src.island + src.skein * 2 ^ 9), BitVec.ofNat 32 m.now, BitVec.ofNat 32 (m.now / 2 ^ 32), seq,
      BitVec.ofNat 32 (args.getD 0 0), BitVec.ofNat 32 (args.getD 1 0), BitVec.ofNat 32 (args.getD 2 0) ]
  let m1 := m.setReg FrFaultSeq.reg (seq + 1)
  let m2 := if sev = 0 then m1 else m1.pendRecord entry
  (m2.logRecord entry).alertEdge m.hostAlert

/-! ## Gauges (R434-R436) -/

/-- Counter c of block b counts n: wrap and threshold event. The flag says that a core event is due. -/
def Mach.gaugeAdd (m : Mach) (b : Fin 5) (c : Fin 8) (n : Nat) : Mach × Bool :=
  if n = 0 then (m, false)
  else
    let g := vget m.gauges b
    let old := (vget g.counts c).toNat
    let new := old + n
    let cmp := ((m.reg (GaCmpLo.reg b c)).toNat + 2 ^ 32 * (m.reg (GaCmpHi.reg b c)).toNat) % 2 ^ 48
    let wraps := 2 ^ 48 ≤ new
    let hit := decide (old < cmp ∧ cmp ≤ new) || decide (old < cmp + 2 ^ 48 ∧ cmp + 2 ^ 48 ≤ new)
    let ovf := (vget g.ovfs c).toNat
    let g1 := { g with
      counts := vset g.counts c (BitVec.ofNat 48 new)
      ovfs := if wraps then vset g.ovfs c (BitVec.ofNat 16 (Nat.min (ovf + 1) 0xFFFF)) else g.ovfs }
    let m1 := { m with gauges := vset m.gauges b g1 }
    let m2 := if wraps then m1.put (GaStatus.ovf b) (m1.get (GaStatus.ovf b) ||| 2 ^ c.val) else m1
    let m3 := if hit then m2.put (GaStatus.thr b) (m2.get (GaStatus.thr b) ||| 2 ^ c.val) else m2
    (m3, hit && m.on (GaCfg.thrEn b c))

/-- Every counter of a block that selects (code, inst) adds what `add mode n` gives (R434). An event without an instance passes none. -/
def Mach.gaugeCount (m : Mach) (b : Fin 5) (code : Nat) (inst : Option Nat) (add : Nat → Nat → Nat) : Mach × Bool :=
  if !m.on (GaCtl.runF b) then (m, false)
  else (List.range 8).foldl (fun acc c =>
    if acc.1.get (GaCfg.event b c) = code && (inst.isNone || inst == some (acc.1.get (GaCfg.inst b c))) then
      let r := acc.1.gaugeAdd b (ix 8 c) (add (acc.1.get (GaCfg.mode b c)) (acc.1.get (GaCfg.n b c)))
      (r.1, acc.2 || r.2)
    else acc) (m, false)

/-- What n events of one source cycle add: all of them in count mode, 1 in threshold mode when n exceeds the threshold (R434). -/
def addEvents (n mode thr : Nat) : Nat := if mode = 1 then n else if mode = 2 ∧ thr < n then 1 else 0

/-- What `cycles` source cycles of a constant occupancy add (R434). -/
def addOccupancy (cycles occ mode thr : Nat) : Nat :=
  if mode = 1 then (if 1 ≤ occ then cycles else 0) else if mode = 2 ∧ thr < occ then cycles else 0

def tileGauge (t : Fin 4) : Fin 5 := ⟨t.val, by omega⟩
def hubGauge : Fin 5 := 4
def coreGauge (c : Fin 10) : Fin 5 := if h : c.val < 8 then ⟨c.val / 2, by omega⟩ else 4
def coreInst (c : Fin 10) : Nat := if c.val < 8 then c.val % 2 else c.val - 8

/-! ## Events of the cores (R239, R240) -/

def eventCount (c : Core) (e : Nat) : Nat := (vget c.counts (ix 64 e)).toNat

/-- The lowest event with a non-zero count that a wait names (R240). -/
def waitHit (c : Core) (w : WaitSt) : Option Nat :=
  if w.anyEv then (List.range 64).find? fun e => c.evWait.getLsbD e && eventCount c e != 0
  else if eventCount c w.ev.toNat != 0 then some w.ev.toNat else none

/-- Write a general register; g0 discards (R233). -/
def Core.setG (c : Core) (rd : BitVec 5) (v : Word) : Core := if rd = 0 then c else { c with regs := vset c.regs (ix 32 rd.toNat) v }
/-- Read a general register; g0 reads zero. -/
def Core.g (c : Core) (r : BitVec 5) : Word := if r = 0 then 0 else vget c.regs (ix 32 r.toNat)

/-- End the wait when a named event has a count: consume one, write its number, go on, or halt at this
boundary (R240, Table TC-20). -/
def Core.wake (c : Core) : Core :=
  match c.st, c.wait with
  | .wait, some w =>
    match waitHit c w with
    | none => c
    | some e =>
      let c1 := { c with counts := vset c.counts (ix 64 e) (vget c.counts (ix 64 e) - 1), wait := none, st := if c.haltReq then .halted else .run, pc := c.pc + 4 }
      c1.setG w.rd (BitVec.ofNat 32 e)
  | _, _ => c

/-- The two cores of a gauge block (R436). -/
def blockCores (b : Fin 5) : List (Fin 10) := [ix 10 (2 * b.val), ix 10 (2 * b.val + 1)]

/-- One signal to an event of a core (R239, R240). A core whose function is not in service or that is in RESET takes none. What the signal
counts at a gauge (an overflow's record, the commit of a WAITEV it ends) may be a threshold event, which signals in turn; each of the 40
counters can meet its compare value once, so the depth given by `Mach.signal` is never used up. -/
def Mach.signalFuel : Nat → Mach → Fin 10 → Nat → Mach
  | 0, m, _, _ => m
  | n + 1, m, c, e =>
    let k := m.core c
    let after := fun (b : Fin 5) (r : Mach × Bool) => if r.2 then (blockCores b).foldl (fun acc x => Mach.signalFuel n acc x 3) r.1 else r.1
    if !m.up (coreFn c) || k.st == .reset then m
    else if eventCount k e = 255 then
      after hubGauge (((m.modCore c fun k => { k with evOvf := k.evOvf ||| BitVec.ofNat 64 (2 ^ e) }).recordBase Flt.evOverflow (srcCore c)
        [c.val, e] 0 false).gaugeCount hubGauge 0x87 none (addEvents 1))
    else
      let m1 := m.modCore c fun k => Core.wake { k with counts := vset k.counts (ix 64 e) (BitVec.ofNat 8 (eventCount k e + 1)) }
      if k.wait.isSome && (m1.core c).wait.isNone then after (coreGauge c) (m1.gaugeCount (coreGauge c) 0x04 (some (coreInst c)) (addEvents 1)) else m1

def Mach.signal (m : Mach) (c : Fin 10) (e : Nat) : Mach := Mach.signalFuel 41 m c e

/-- Signal an event to the core with a code; codes above 9 discard (R241). -/
def Mach.signalCode (m : Mach) (code e : Nat) : Mach := if h : code < 10 then m.signal ⟨code, h⟩ e else m

/-- Event 3 to both cores of a gauge block (R436). -/
def Mach.thresholdEvent (m : Mach) (b : Fin 5) (due : Bool) : Mach :=
  if due then (blockCores b).foldl (fun acc x => acc.signal x 3) m else m

/-- n events of one source cycle at a gauge block, and the threshold events they cause. -/
def Mach.gauge (m : Mach) (b : Fin 5) (code : Nat) (inst : Option Nat) (n : Nat) : Mach :=
  let r := m.gaugeCount b code inst (addEvents n)
  r.1.thresholdEvent b r.2

/-- One fault record, counted by the hub gauge (Table GA-1, 0x87). -/
def Mach.record (m : Mach) (code : Nat) (src : Src) (args : List Nat) (action : Nat := 0) (held : Bool := false) : Mach :=
  (m.recordBase code src args action held).gauge hubGauge 0x87 none 1

/-! ## Time (R3, R136) -/

/-- An island's cycles after dt TB ticks: f cycles in 960 ticks, f its frequency in MHz (R110, R111). -/
def Island.elapse (dt : Nat) (i : Island) : Island :=
  if i.stopped then i
  else
    let u := i.frac + (200 + 5 * i.code.toNat) * dt
    { i with cycles := (i.cycles + u / 960) % 2 ^ 64, frac := u % 960 }

/-- The island of an instance of CYCLES: tile offset k or hub island - 236 (Table GA-1). -/
def gaugeIsland (b : Fin 5) (inst : Nat) : Option (Fin 264) :=
  if b.val < 4 then (if inst < 59 then some (ix 264 (59 * b.val + inst)) else none)
  else if inst < 28 then some (ix 264 (236 + inst)) else none

/-- Stitches waiting in a unit's queues (Q_EXPRESS, Q_ROW). -/
def gaugeQueue (m : Mach) (t : Fin 4) (unit : Nat) : Nat × Nat :=
  let x := m.tile t
  let q := if unit = 0 then x.loaderQ else if unit = 1 then x.injectorQ else if unit < 6 then vget x.drainerQ (ix 4 (unit - 2))
    else if unit = 6 then x.veQ else if unit = 7 then x.xferQ else m.stash.queue
  if unit < 9 then (q.express.length, q.row.length) else (0, 0)

/-- Source cycles and the occupancy in them of a cycle-counted event of Table GA-1, from the machine before and after. -/
def gaugeSource (m m' : Mach) (b : Fin 5) (event inst : Nat) : Nat × Nat :=
  let d := fun (i : Fin 264) => (m'.isl i).cycles - (m.isl i).cycles
  if event = 0x01 then (match gaugeIsland b inst with | some i => (d i, 1) | none => (0, 0))
  else if event = 0x07 then
    if inst < 2 then
      let c : Fin 10 := if b.val < 4 then ix 10 (2 * b.val + inst) else ix 10 (8 + inst)
      if (m.core c).st == .wait then (d (coreIsland c), 1) else (0, 0)
    else (0, 0)
  else if b.val < 4 ∧ event = 0x50 then (d (ix 264 (59 * b.val + 57)), (gaugeQueue m (ix 4 b.val) inst).1)
  else if b.val < 4 ∧ event = 0x51 then (d (ix 264 (59 * b.val + 57)), (gaugeQueue m (ix 4 b.val) inst).2)
  else if b.val = 4 ∧ event = 0x86 then (d 240, m.get GlStatus.tensionCapped)
  else (0, 0)

/-- One counter's share of elapsed time. -/
def Mach.gaugeElapse (m0 m1 : Mach) (m : Mach) (b : Fin 5) (c : Fin 8) : Mach :=
  if !m.on (GaCtl.runF b) then m
  else
    let s := gaugeSource m0 m1 b (m.get (GaCfg.event b c)) (m.get (GaCfg.inst b c))
    let r := m.gaugeAdd b c (addOccupancy s.1 s.2 (m.get (GaCfg.mode b c)) (m.get (GaCfg.n b c)))
    r.1.thresholdEvent b r.2

/-- dt TB ticks pass: the TB count and every running island's cycle count advance, and the gauges that count cycles follow. -/
def Mach.elapse (m : Mach) (dt : Nat) : Mach :=
  if m.tbOn then
    let m1 := { m with tb := m.tb + BitVec.ofNat 64 dt, islands := m.islands.map (Island.elapse dt) }
    (List.range 40).foldl (fun acc k => Mach.gaugeElapse m m1 acc (ix 5 (k / 8)) (ix 8 (k % 8))) m1
  else m

/-- One TB tick, the block's idle step (log entry 6). -/
def Mach.tick (m : Mach) : Mach := m.elapse 1

/-- Carry time forward to a TB instant; it never steps back (R3). -/
def Mach.advanceTo (m : Mach) (t : Nat) : Mach := m.elapse (t - m.now)

/-! ## SECDED reads with their books -/

/-- Read hub SRAM: corrected words are written back and counted; uncorrectable words log HSR_UE and make the status POISON (R412). -/
def Mach.hubRead (m : Mach) (a n : Nat) : List Byte × Status × Mach :=
  let ces := m.hub.ces a n
  let chks := m.hub.chks a n
  let ues := m.hub.ues a n
  let m1 := ((m.bump FrHsrCeCount.count ces.length).bump FrHsrChkCount.count chks.length).bump FrHsrUeCount.count ues.length
  let m2 := ues.foldl (fun acc w => acc.record Flt.hsrUe (srcIsl (242 + 8 * w / 0x80000)) [8 * w]) m1
  (m.hub.read a n, if ues.isEmpty then .ok else .poison, m2.modHub fun h => h.repairAll (ces ++ chks))

/-- Write hub SRAM: a word written in part is read first, with the books of a read; an uncorrectable one is POISON to the writer (R412, R164;
log entry 62). -/
def Mach.hubWriteOpt (m : Mach) (a : Nat) (bs : List (Option Byte)) : Status × Mach :=
  let part := partWords a bs
  let m' := part.foldl (fun acc w => (acc.hubRead (8 * w) 8).2.2) m
  (if part.any m.hub.bad then .poison else .ok, m'.modHub fun h => h.writeOpt a bs)

/-! ## Stitch faults (R267) -/

/-- A record in the posting core's SFAULT queue, and event 1 to that core. -/
def Mach.stitchFault (m : Mach) (h : StitchHdr) (kind code : Nat) : Mach :=
  let entry : Word := BitVec.ofNat 32 (2 ^ 31 + kind * 2 ^ 27 + b2n h.express * 2 ^ 26 + code * 2 ^ 16 + h.tag.toNat)
  let m1 := m.modCore h.poster fun c =>
    if c.sfault.length < 8 then { c with sfault := c.sfault ++ [entry] } else { c with sfaultLost := if c.sfaultLost = 255 then 255 else c.sfaultLost + 1 }
  m1.signal h.poster 1

def bodyKind : Body → Nat
  | .load _ => 1 | .pass _ => 2 | .drain _ => 3 | .ve _ => 4 | .xfer _ => 5
  | .swapOut _ | .swapIn _ _ | .fetch _ | .store _ => 6
  | .run _ | .stop | .copy _ => 7
  | .send _ | .flush _ _ | .msgOther _ => 8

/-! ## Unit queues (R243, R244) -/

def Mach.unitQ (m : Mach) : UnitId → UnitQ
  | .loader t => (m.tile t).loaderQ
  | .injector t => (m.tile t).injectorQ
  | .drainer t a => vget (m.tile t).drainerQ a
  | .ve t => (m.tile t).veQ
  | .xfer t => (m.tile t).xferQ
  | .stash => m.stash.queue
  | .dza => m.dza.queue
  | .msg => m.msg.queue

def Mach.setQ (m : Mach) (u : UnitId) (q : UnitQ) : Mach :=
  match u with
  | .loader t => m.modTile t fun x => { x with loaderQ := q }
  | .injector t => m.modTile t fun x => { x with injectorQ := q }
  | .drainer t a => m.modTile t fun x => { x with drainerQ := vset x.drainerQ a q }
  | .ve t => m.modTile t fun x => { x with veQ := q }
  | .xfer t => m.modTile t fun x => { x with xferQ := q }
  | .stash => { m with stash := { m.stash with queue := q } }
  | .dza => { m with dza := { m.dza with queue := q } }
  | .msg => { m with msg := { m.msg with queue := q } }

def unitFn : UnitId → Fin 19
  | .loader t | .injector t | .drainer t _ | .ve t | .xfer t => tileFn t
  | .stash => fnStash | .dza => fnDza | .msg => fnMsg

def tileUnits (t : Fin 4) : List UnitId :=
  [.loader t, .injector t, .drainer t 0, .drainer t 1, .drainer t 2, .drainer t 3, .ve t, .xfer t]
def allUnits : List UnitId := ((List.range 4).flatMap fun t => tileUnits (ix 4 t)) ++ [.stash, .dza, .msg]

/-- The quadrant islands and the accumulator island of array a of tile t (Table IS-1). -/
def arrayIslands (t a : Nat) : List Nat := [59 * t + 4 * a, 59 * t + 4 * a + 1, 59 * t + 4 * a + 2, 59 * t + 4 * a + 3, 59 * t + 16 + a]

/-- The arrays that a matrix-engine stitch names. -/
def bodyArrays : Body → List Nat
  | .load p => (List.range 4).filter fun a => p.arrays.getLsbD a
  | .pass p => (List.range 4).filter fun a => p.arrays.getLsbD a
  | .drain p => [p.array.val]
  | _ => []

/-- The islands in which a stitch runs at its unit. -/
def stitchIslands (u : UnitId) (b : Body) : List Nat :=
  match u with
  | .loader t | .injector t | .drainer t _ => (bodyArrays b).flatMap (arrayIslands t.val)
  | .ve t => [59 * t.val + 52, 59 * t.val + 53, 59 * t.val + 54]
  | .xfer _ => []
  | .stash => [252, 253] | .dza => [248, 249, 250] | .msg => [251]

/-- Does a stitch run in an island, in either lane or in the express lane only? -/
def Mach.inStitch (m : Mach) (i : Nat) (expressOnly : Bool := false) : Bool :=
  allUnits.any fun u => (m.unitQ u).current.any fun r =>
    !r.done && (!expressOnly || r.stitch.hdr.express) && (stitchIslands u r.stitch.body).contains i

/-- A stitch boundary in some islands: a frequency change that waited for it takes effect (R115). -/
def Mach.takeCodes (m : Mach) (is : List Nat) : Mach :=
  { m with islands := Vector.ofFn fun i =>
      let x := m.isl i
      match x.next with | some c => if is.contains i.val then { x with code := c, next := none } else x | none => x }

/-- A stitch joins its lane's queue in arrival order. -/
def UnitQ.push (q : UnitQ) (s : Stitch) : UnitQ :=
  if s.hdr.express then { q with express := q.express ++ [s] } else { q with row := q.row ++ [s] }

/-- The oldest express stitch, else the oldest row-lane stitch (R244). -/
def UnitQ.head (q : UnitQ) : Option Stitch := match q.express with | s :: _ => some s | [] => q.row.head?
def UnitQ.dropHead (q : UnitQ) : UnitQ :=
  match q.express with | _ :: r => { q with express := r } | [] => { q with row := q.row.tail }

def Mach.pushStitch (m : Mach) (u : UnitId) (s : Stitch) : Mach := m.setQ u ((m.unitQ u).push s)
/-- A stitch begins at its unit; it takes the next number in start order. -/
def Mach.begin (m : Mach) (u : UnitId) (s : Stitch) (done : Bool := false) : Mach :=
  let q := m.unitQ u
  { m.setQ u { q with current := q.current ++ [{ stitch := s, seq := m.issue, start := m.now, done := done, overran := false }] } with
    issue := m.issue + 1 }

/-- The stitch with a number has had its last write granted (R246). -/
def Mach.finish (m : Mach) (u : UnitId) (seq : Nat) : Mach :=
  let q := m.unitQ u
  m.setQ u { q with current := q.current.map fun r => if r.seq = seq then { r with done := true } else r }

/-- A stitch in progress faults: it leaves its unit, which is a stitch boundary, and is reported (R115, R264, R267). -/
def Mach.failStitch (m : Mach) (u : UnitId) (seq : Nat) (h : StitchHdr) (kind code : Nat) : Mach :=
  let q := m.unitQ u
  ((m.takeCodes ((q.current.filter fun r => r.seq == seq).flatMap fun r => stitchIslands u r.stitch.body)).setQ u { q with current := q.current.filter fun r => r.seq != seq }).stitchFault h kind code

/-- The code of a VOID ending (R263, R267). -/
def codeVoid : Nat := 0x40

/-- Does a stitch at its unit break off the swatch test of instance k (R193, R222)? -/
def breaksTest (u : UnitId) (b : Body) (k : Nat) (x : SwatchSt) : Bool :=
  x.running && (match u with
    | .loader t | .injector t | .drainer t _ => decide (k < 16 ∧ k / 4 = t.val) && (bodyArrays b).any fun a => x.arrays.getLsbD a
    | .ve t => decide (k = 20 + t.val)
    | .xfer _ | .stash | .dza | .msg => false)

/-- A stitch for a block under test stops the test injection, and the test is ABANDONED (R193, R222, Table FR-5). -/
def Mach.breakTests (m : Mach) (u : UnitId) (b : Body) : Mach :=
  { m with swatch := m.swatch.map fun e => if breaksTest u b e.1 e.2 then (e.1, { e.2 with broken := true }) else e }

/-- A stitch reaches its unit: it starts when the unit is free and nothing waits, or joins its queue (R243, R244). A unit whose function
is not in service takes none (Table TC-9, DOWN). -/
def Mach.arrive (m : Mach) (u : UnitId) (s : Stitch) (idle : Bool) (start : Mach → Mach) : Mach :=
  if !m.up (unitFn u) then m
  else
    let m1 := m.breakTests u s.body
    if idle && (m1.unitQ u).head.isNone then start m1 else m1.pushStitch u s

/-- Is a single-stitch unit free (R244)? -/
def Mach.idle (m : Mach) (u : UnitId) : Bool := (m.unitQ u).current.all (·.done)

/-! ## Outcomes -/

/-- A command whose effect lies in the machine: always a next state. -/
def State.onM (s : State) (f : Mach → Mach) : Host.Outcome State Fault Refusal := .next { s with m := f s.m }

/-- A command that may start a cast-on or a re-cast, after which every link is as when it enables, and carries nothing (R138, R139). -/
def State.onCast (s : State) (f : Mach → Mach) : Host.Outcome State Fault Refusal :=
  if (f s.m).linkEpoch = s.m.linkEpoch then .next { s with m := f s.m } else .next { s with links := [], net := Net.reset, m := f s.m }

end Sys2Proof.Machine
end

