-- ==== Sys2Proof/Machine/Flags.lean ====
section
/-! DEFINITION. Arithmetic with its flags: rounding, FP32 and FP16 (R207, R218), integer saturation, and conversions between the formats
(R211-R213, Table VE-5). -/

namespace Sys2Proof.Machine

/-! ## Rounding -/

/-- Rounding modes of a stage word (Table VE-2): 0 nearest-even, 1 toward zero, 2 toward -infinity, 3 toward +infinity. -/
abbrev Rnd := Nat

/-- m / 2^sh rounded, for a value of the given sign. -/
def roundShift (mode : Rnd) (neg : Bool) (m sh : Nat) : Nat :=
  let d := m / 2 ^ sh
  let r := m % 2 ^ sh
  if r = 0 then d
  else if mode = 0 then (if 2 * r > 2 ^ sh ∨ (2 * r = 2 ^ sh ∧ d % 2 = 1) then d + 1 else d)
  else if mode = 1 then d
  else if mode = 2 then (if neg then d + 1 else d)
  else (if neg then d else d + 1)

/-- m * 2^e as a multiple of 2^q, rounded. -/
def roundAt (mode : Rnd) (neg : Bool) (m : Nat) (e q : Int) : Nat :=
  if q ≤ e then m * 2 ^ (e - q).toNat else roundShift mode neg m (q - e).toNat

/-- An integer divided by 2^sh and rounded. -/
def roundInt (mode : Rnd) (i : Int) (sh : Nat) : Int :=
  if i < 0 then -(roundShift mode true i.natAbs sh : Int) else (roundShift mode false i.natAbs sh : Int)

/-! ## FP32 (IEEE 754 binary32 with R218) -/

def nan32 : Word := 0x7FC00000
def inf32 (neg : Bool) : Word := if neg then 0xFF800000 else 0x7F800000
def max32 (neg : Bool) : Word := if neg then 0xFF7FFFFF else 0x7F7FFFFF
def zero32 (neg : Bool) : Word := if neg then 0x80000000 else 0

/-- What a floating operand is: NaN, an infinity, or (-1)^neg * m * 2^e. -/
inductive Fp where
  | nan
  | inf (neg : Bool)
  | fin (neg : Bool) (m : Nat) (e : Int)
deriving DecidableEq, Repr

/-- An FP32 operand; a subnormal reads as zero of its sign (R218). -/
def fp32 (w : Word) : Fp :=
  let neg := w.getLsbD 31
  let ex := bitsOf w.toNat 30 23
  let fr := bitsOf w.toNat 22 0
  if ex = 255 then (if fr = 0 then .inf neg else .nan)
  else if ex = 0 then .fin neg 0 0
  else .fin neg (2 ^ 23 + fr) ((ex : Int) - 150)

/-- An FP16 operand, subnormals exact. -/
def fp16 (h : Nat) : Fp :=
  let neg := bitsOf h 15 15 == 1
  let ex := bitsOf h 14 10
  let fr := bitsOf h 9 0
  if ex = 31 then (if fr = 0 then .inf neg else .nan)
  else if ex = 0 then .fin neg fr (-24)
  else .fin neg (1024 + fr) ((ex : Int) - 25)

/-- A result with what it raised: NaN made from no NaN, overflow, clamp (R207, R218). -/
structure FpOut where
  v : Word
  invalid : Bool
  overflow : Bool
  clamp : Bool
deriving DecidableEq, Repr

def FpOut.ok (w : Word) : FpOut := ⟨w, false, false, false⟩
def FpOut.nan : FpOut := ⟨nan32, false, false, false⟩
def FpOut.bad : FpOut := ⟨nan32, true, false, false⟩

/-- The exponent of the top bit of k * 2^q. -/
def topExp (k : Nat) (q : Int) : Int := (Nat.log2 k : Int) + q

/-- Round (-1)^neg * m * 2^e to FP32 (R207, R218). -/
def round32 (mode : Rnd) (sat neg : Bool) (m : Nat) (e : Int) : FpOut :=
  if m = 0 then .ok (zero32 neg)
  else
    let q := topExp m e - 23
    let k := roundAt mode neg m e q
    let t := topExp k q
    if t > 127 then
      if sat then ⟨max32 neg, false, true, true⟩
      else
        let toInf := mode = 0 ∨ (mode = 2 ∧ neg) ∨ (mode = 3 ∧ !neg)
        ⟨if toInf then inf32 neg else max32 neg, false, true, false⟩
    else if t < -126 then .ok (zero32 neg)
    else
      let frac := (if k ≥ 2 ^ 24 then k / 2 else k) - 2 ^ 23
      .ok (BitVec.ofNat 32 ((if neg then 2 ^ 31 else 0) + (t + 127).toNat * 2 ^ 23 + frac))

/-- A signed dyadic at a common exponent. -/
def dyInt (neg : Bool) (m : Nat) (e base : Int) : Int :=
  let v : Int := (m * 2 ^ (e - base).toNat : Nat)
  if neg then -v else v

/-- x * y + z, one rounding (R207). -/
def fma (mode : Rnd) (sat : Bool) (x y z : Word) : FpOut :=
  match fp32 x, fp32 y, fp32 z with
  | .nan, _, _ => .nan
  | _, .nan, _ => .nan
  | _, _, .nan => .nan
  | .inf sx, .inf sy, c => fmaInf (sx != sy) c
  | .inf sx, .fin sy m _, c => if m = 0 then .bad else fmaInf (sx != sy) c
  | .fin sx m _, .inf sy, c => if m = 0 then .bad else fmaInf (sx != sy) c
  | .fin _ _ _, .fin _ _ _, .inf sc => .ok (inf32 sc)
  | .fin sx mx ex, .fin sy my ey, .fin sz mz ez =>
    let sp := sx != sy
    let ep := ex + ey
    let base := if mx * my = 0 then ez else if mz = 0 then ep else min ep ez
    let sum := (if mx * my = 0 then 0 else dyInt sp (mx * my) ep base) + (if mz = 0 then 0 else dyInt sz mz ez base)
    if sum = 0 then
      .ok (zero32 (if mx * my = 0 ∧ mz = 0 ∧ sp = sz then sp else decide (mode = 2)))
    else round32 mode sat (decide (sum < 0)) sum.natAbs base
where
  fmaInf (neg : Bool) : Fp → FpOut
    | .inf sc => if sc = neg then .ok (inf32 neg) else .bad
    | _ => .ok (inf32 neg)

def one32 : Word := 0x3F800000
def fadd (mode : Rnd) (sat : Bool) (x y : Word) : FpOut := fma mode sat x one32 y
def fsub (mode : Rnd) (sat : Bool) (x y : Word) : FpOut :=
  match fp32 y with | .nan => .nan | _ => fma mode sat x one32 (y ^^^ 0x80000000)
/-- x * y: a zero product keeps the product's sign. -/
def fmul (mode : Rnd) (sat : Bool) (x y : Word) : FpOut := fma mode sat x y (zero32 (x.getLsbD 31 != y.getLsbD 31))

/-- Order of two operands that are not NaN: -1, 0, 1. -/
def fpCmp (x y : Fp) : Int :=
  match x, y with
  | .nan, _ => 0
  | _, .nan => 0
  | .inf a, .inf b => (if a = b then 0 else if a then -1 else 1)
  | .inf a, _ => (if a then -1 else 1)
  | _, .inf b => (if b then 1 else -1)
  | .fin sa ma ea, .fin sb mb eb =>
    let base := min ea eb
    let d := dyInt sa ma ea base - dyInt sb mb eb base
    if d < 0 then -1 else if d = 0 then 0 else 1

def isNan (w : Word) : Bool := fp32 w == .nan
/-- An operand as an operation reads it: subnormals are zero, a NaN is the one NaN (R218). -/
def flush (w : Word) : Word :=
  match fp32 w with | .nan => nan32 | .inf s => inf32 s | .fin s m _ => if m = 0 then zero32 s else w

/-- FMAX and FMIN (Table VE-3). Which zero of +0 and -0 comes out is left open (log entry 20). -/
def fmaxmin (big : Bool) (x y : Word) : Word :=
  if isNan x then flush y
  else if isNan y then flush x
  else
    let c := fpCmp (fp32 x) (fp32 y)
    if c = 0 then (if flush x = flush y then flush x else if Config.zeroChoice x y then flush x else flush y)
    else if (c = 1) = big then flush x else flush y

/-! ## Integers -/

def int32 (w : Word) : Int := w.toInt
/-- An exact integer result, wrapped or saturated (R207); the flag is a clamp. -/
def intOut (sat : Bool) (i : Int) : Word × Bool :=
  if sat then
    let c := clampInt (-2147483648) 2147483647 i
    (BitVec.ofInt 32 c.1, c.2)
  else (BitVec.ofInt 32 i, false)

/-! ## Conversions (R211, Table VE-5) -/

/-- An integer to FP32 (ITOF). -/
def itof (mode : Rnd) (w : Word) : Word := (round32 mode false (decide (int32 w < 0)) (int32 w).natAbs 0).v

/-- A floating value to an integer range, rounded and clamped; NaN gives 0 and counts as a clamp. -/
def toRange (mode : Rnd) (lo hi : Int) (x : Fp) : Int × Bool :=
  match x with
  | .nan => (0, true)
  | .inf s => (if s then lo else hi, true)
  | .fin s m e =>
    let k : Int := roundAt mode s m e 0
    clampInt lo hi (if s then -k else k)

/-- FP32 to INT32 (FTOI). -/
def ftoi (mode : Rnd) (w : Word) : Word × Bool :=
  let r := toRange mode (-2147483648) 2147483647 (fp32 w)
  (BitVec.ofInt 32 r.1, r.2)

/-- FP16 pattern of a value, nearest-even; the flags: overflow counted, and clamped (code O). -/
def toHalf (sat : Bool) (x : Fp) : Nat × Bool × Bool :=
  match x with
  | .nan => (0x7E00, false, false)
  | .inf s => ((if s then 0xFC00 else 0x7C00), false, false)
  | .fin s m e =>
    let sg := if s then 0x8000 else 0
    if m = 0 then (sg, false, false)
    else
      let t0 := topExp m e
      let q := max (t0 - 10) (-24)
      let k := roundAt 0 s m e q
      if k = 0 then (sg, false, false)
      else
        let t := topExp k q
        if t > 15 then (if sat then (sg + 0x7BFF, true, true) else (sg + 0x7C00, true, false))
        else if t < -14 then (sg + k, false, false)
        else
          let kk := if k ≥ 2048 then k / 2 else k
          (sg + (t + 15).toNat * 1024 + (kk - 1024), false, false)

/-- FP16 to FP32, exact; a NaN is the one NaN. -/
def halfTo32 (h : Nat) : Word :=
  match fp16 h with
  | .nan => nan32
  | .inf s => inf32 s
  | .fin s m e => (round32 0 false s m e).v

/-- An SF24 container's value m * 2^(E - 150) as FP32 (R211); the flag is the one overflow. -/
def sfTo32 (m : Int) (ex : Nat) : FpOut := round32 0 false (decide (m < 0)) m.natAbs ((ex : Int) - 150)

/-- A lane value as the converters see it: FP32 or INT32 (Table VE-1). -/
def laneFp (isInt : Bool) (w : Word) : Fp := if isInt then .fin (decide (int32 w < 0)) (int32 w).natAbs 0 else fp32 w

/-- A clamp of an integer lane, or its low bits (code S). -/
def intTo (sat : Bool) (bits : Nat) (lo hi : Int) (w : Word) : Nat × Bool :=
  if sat then let c := clampInt lo hi (int32 w); (wrap bits c.1, c.2) else (wrap bits (int32 w), false)

/-- One lane to a non-SF24 format (Table VE-4): pattern, counted, clamped. -/
def laneOut (fmt : Nat) (isInt sat : Bool) (w : Word) : Nat × Bool × Bool :=
  let ints := fun (bits : Nat) (lo hi : Int) =>
    if isInt then let r := intTo sat bits lo hi w; (r.1, r.2, r.2)
    else let r := toRange 0 lo hi (fp32 w); (wrap bits r.1, r.2, r.2)
  match fmt with
  | 0 => ints 4 (-8) 7
  | 1 => ints 8 (-128) 127
  | 2 => ints 16 (-32768) 32767
  | 3 => ints 32 (-2147483648) 2147483647
  | 4 => toHalf sat (laneFp isInt w)
  | 5 => if isInt then ((itof 0 w).toNat, false, false) else (w.toNat, false, false)
  | _ => ints 8 0 255

/-- Mantissa of a lane at block exponent E: x * 2^(150 - E), nearest-even, clamped; the flag is a clamp (R212). -/
def sfMant (x : Fp) (ex : Nat) : Int × Bool :=
  match x with
  | .nan => (0, true)
  | .inf s => (if s then -8388608 else 8388607, true)
  | .fin s m e =>
    let k : Int := roundAt 0 s m e ((ex : Int) - 150)
    clampInt (-8388608) 8388607 (if s then -k else k)

/-- The block exponent of a renormalised block (R212). -/
def sfExp (xs : List Fp) : Nat :=
  let tops := xs.filterMap fun x => match x with | .fin _ m e => if m = 0 then none else some (topExp m e) | _ => none
  if tops.isEmpty then (if xs.any (fun x => match x with | .inf _ => true | _ => false) then 255 else 127)
  else
    let e0 : Int := tops.foldl max (tops.headD 0) + 128
    let at23 := fun (e : Int) => xs.any fun x => match x with
      | .fin s m ex => m != 0 && roundAt 0 s m ex (e - 150) == 8388608
      | _ => false
    let e1 := if at23 e0 then e0 + 1 else e0
    (clampInt 0 255 e1).1.toNat

end Sys2Proof.Machine
end

