-- ==== Sys2Proof/Machine/Operands.lean ====
section
/-! DEFINITION. Operand forms: scratchpad addresses and line accesses (05_scratchpads.md), hub SRAM ranges, the address map with its
gates (Tables PA-4, PA-5, TC-1), and stitch descriptors (Tables TC-10 to TC-15, SK-5, DZ-2, HL-9). -/

namespace Sys2Proof.Machine

/-! ## Scratchpad addresses (R141-R147, R155) -/

def bankLines : Nat := 20480
def bankBytes : Nat := 1310720

/-- A region's first bank and number of banks under the tile's layout; `none` when the mode has no such region (Table SP-1). -/
def Sp.region (x : Sp) (r : Nat) : Option (Nat × Nat) :=
  if x.unified then (if r = 3 then some (0, 32) else none)
  else match r with
    | 0 => some (0, x.aFirst)
    | 1 => some (x.aFirst, x.pFirst - x.aFirst)
    | 2 => some (x.pFirst, 32 - x.pFirst)
    | _ => none

/-- Line L of a region of n banks from bank f: its bank and its line there (R144, R146). -/
def Sp.place (x : Sp) (f n l : Nat) : Nat × Nat :=
  if x.unified then (l % 32 ^^^ (l / 32) % 32 ^^^ (l / 1024) % 32 ^^^ (l / 32768) % 32, l / 32) else (f + l % n, l / n)

/-- Does the bank's lines carry row tags (R147, R151)? -/
def Sp.tagged (x : Sp) (bank : Nat) : Bool := x.unified || decide (x.aFirst ≤ bank)

/-- A line's number in the tile: bank * 20480 + line. -/
def lineNo (bank line : Nat) : Nat := bank * bankLines + line

/-- Table SP-2. -/
def neighbour (t : Fin 4) (reach : Nat) : Fin 4 := if reach = 1 then ix 4 (t.val ^^^ 1) else if reach = 2 then ix 4 (t.val ^^^ 2) else t

/-- A range of a tile's region. -/
structure SpLoc where
  tile : Fin 4
  region : Nat
  first : Nat
  banks : Nat
  off : Nat
deriving DecidableEq, Repr

/-- Where n bytes at an SP address, moved on by d bytes in its region, lie under the layout of the tile the reach field names (R142, R161, R166),
whether or not that tile is in service. Bits [27:26] are 0 in a valid address (log entry 10). -/
def Mach.spPlace (m : Mach) (t : Fin 4) (addr : Word) (n : Nat) (d : Nat := 0) : Option SpLoc :=
  let a := addr.toNat
  let reach := a / 2 ^ 30
  if reach = 3 then none
  else
    let tt := neighbour t reach
    match (m.tile tt).sp.region (bitsOf a 29 28) with
    | none => none
    | some (f, k) =>
      if bitsOf a 27 26 = 0 ∧ a % 2 ^ 26 + d + n ≤ k * bankBytes then some ⟨tt, bitsOf a 29 28, f, k, a % 2 ^ 26 + d⟩ else none

/-- Read an SP address: a tile that is not in service answers VOID (R155, R416). -/
def Mach.spLoc (m : Mach) (t : Fin 4) (addr : Word) (n : Nat) (d : Nat := 0) : Except Status SpLoc :=
  let reach := addr.toNat / 2 ^ 30
  if reach ≠ 3 ∧ !m.up (tileFn (neighbour t reach)) then .error (voidStatus (m.fn (tileFn (neighbour t reach))))
  else match m.spPlace t addr n d with
    | some l => .ok l
    | none => .error .error

/-- The record of an address that is not performed: SP_REACH or SP_RANGE at the requesting tile (R166). -/
def Mach.spRefuse (m : Mach) (t : Fin 4) (addr : Word) : Mach :=
  if addr.toNat / 2 ^ 30 = 3 then (m.flag (SpStatus.reach t)).record Flt.spReach (srcFn (tileFn t).val) []
  else (m.flag (SpStatus.range t)).record Flt.spRange (srcFn (tileFn t).val) []

/-- The tag of the current row, 0 while the pattern is stopped (R150). -/
def Mach.rowTag (m : Mach) : Nat := if m.on GlStatus.patternRunning then m.rowCount % 15 + 1 else 0

/-- The tag that a read of age a expects in the current row (R152). -/
def expectedTag (row a : Nat) : Nat := (row + 15 - a) % 15 + 1

/-! ## Line accesses (R149, R163-R165) -/

def noTag : Nat → BitVec 5 := fun _ => 0

/-- A bank under a march test gives way to an access (R158). -/
def Mach.stopMarch (m : Mach) (t : Fin 4) (bank : Nat) : Mach :=
  if (m.tile t).sp.marching = some bank then (m.modSp t fun x => { x with marching := none }).flag (SpStatus.stray t) else m

/-- Books of one word read: R163, R164. -/
def Mach.spWordRead (m : Mach) (t : Fin 4) (bank line w : Nat) : Mach :=
  match judge ((m.tile t).sp.mem.flip (8 * lineNo bank line + w)) with
  | .ok => m
  | .ce _ => (m.bump (SpCeCount.count t)).modSp t fun x => { x with writeback := x.writeback ++ [(bank, line, w)] }
  | .chk => (m.bump (SpChkCount.count t)).modSp t fun x => { x with writeback := x.writeback ++ [(bank, line, w)] }
  | .ue =>
    ((((((m.bump (SpUeCount.count t)).put (SpUeLast.bank t) bank).put (SpUeLast.line t) line).put (SpUeLast.word t) w).flag
      (SpUeLast.valid t)).flag (SpStatus.ue t)).record Flt.spUe (srcBank t bank) []

/-- The tag check of one line (R152, R165): fails, and the state with the failure recorded. Nothing is checked at age 15, in a region
without tags, or while no row is current (log entry 11). -/
def Mach.tagCheck (m : Mach) (t : Fin 4) (bank line age : Nat) (skewed : Bool) : Bool × Mach :=
  let x := (m.tile t).sp
  let e := (Tab.get noTag x.tags (lineNo bank line)).toNat
  let want := expectedTag m.rowCount age
  if age = 15 ∨ !x.tagged bank ∨ !m.on GlStatus.patternRunning then (false, m)
  else if e / 16 = 0 ∧ (e % 16 = 0 ∨ e % 16 = want) then (false, m)
  else
    let m1 := (m.bump (SpSkewCount.count t)).flag (SpStatus.skew t)
    if skewed then (true, m1)
    else
      let m2 := (((((m1.put (SpSkewLast.bank t) bank).put (SpSkewLast.line t) line).put (SpSkewLast.parity t) (e / 16)).put
        (SpSkewLast.expected t) want).put (SpSkewLast.found t) (e % 16)).flag (SpSkewLast.valid t)
      (true, m2.record (if e / 16 = 0 then Flt.schedSkew else Flt.tagParity) (srcBank t bank) [])

/-- What a read answers: status, bytes with their poison marks, and whether the stitch has met a failing line. -/
structure SpReply where
  status : Status
  data : List (Byte × Bool)
  skewed : Bool
deriving DecidableEq, Repr

/-- Bytes [lo, hi) of one line (R141, R149, R163-R165). -/
def Mach.bankRead (m : Mach) (t : Fin 4) (bank line lo hi age : Nat) (skewed : Bool) : SpReply × Mach :=
  let base := 64 * lineNo bank line
  let r := m.tagCheck t bank line age skewed
  let words := if lo < hi then (List.range ((hi - 1) / 8 - lo / 8 + 1)).map (· + lo / 8) else []
  let m2 := words.foldl (fun acc w => acc.spWordRead t bank line w) r.2
  let pz := r.1 && m.on (SpCtl.skewAction t)
  let mem := (m.tile t).sp.mem
  let data := (List.range (hi - lo)).map fun i => (mem.byte (base + lo + i), pz || mem.bad ((base + lo + i) / 8))
  (⟨if data.any (·.2) then .poison else .ok, data, skewed || r.1⟩, m2.gauge (tileGauge t) 0x30 (some bank) 1)

/-- The same for a stitch, a neighbour or the host, before which a march test of the bank stops (R158). -/
def Mach.lineRead (m : Mach) (t : Fin 4) (bank line lo hi age : Nat) (skewed : Bool) : SpReply × Mach :=
  (m.stopMarch t bank).bankRead t bank line lo hi age skewed

/-- The lines of n bytes at offset o: (bank, line, lo, hi). -/
def SpLoc.lines (m : Mach) (l : SpLoc) (n : Nat) : List (Nat × Nat × Nat × Nat) :=
  if n = 0 then []
  else (List.range ((l.off + n - 1) / 64 - l.off / 64 + 1)).map fun i =>
    let ln := l.off / 64 + i
    let p := (m.tile l.tile).sp.place l.first l.banks ln
    (p.1, p.2, Nat.max l.off (64 * ln) - 64 * ln, Nat.min (l.off + n) (64 * ln + 64) - 64 * ln)

/-- Read n bytes of a located range. -/
def Mach.locRead (m : Mach) (l : SpLoc) (n age : Nat) (skewed : Bool) : SpReply × Mach :=
  (l.lines m n).foldl (fun acc e =>
    let r := acc.2.lineRead l.tile e.1 e.2.1 e.2.2.1 e.2.2.2 age acc.1.skewed
    (⟨if r.1.status = .poison then .poison else acc.1.status, acc.1.data ++ r.1.data, r.1.skewed⟩, r.2)) (⟨.ok, [], skewed⟩, m)

/-! ## The skein and slot tables (Tables SK-1, SK-2) -/

def skEntry (s off : Nat) : Nat := 64 * s + off
def Mach.sk (m : Mach) (s off n : Nat) : Nat := m.hubNat (skEntry s off) n
def Mach.skState (m : Mach) (s : Nat) : Nat := m.sk s 0 1
def Mach.skFlag (m : Mach) (s bit : Nat) : Bool := (m.sk s 4 1 / 2 ^ bit) % 2 == 1

def skNone : Nat := 0
def skResident : Nat := 1
def skStashed : Nat := 2
def skOut : Nat := 3
def skIn : Nat := 4
def skSuspended : Nat := 5

def slotAddr (i : Nat) : Nat := 0x1800 + 16 * i
def Mach.slotSp (m : Mach) (i : Nat) : Word := BitVec.ofNat 32 (m.hubNat (slotAddr i) 4)

/-- The skeins in a step whose slot holds a poisoned byte that a read at a location answered (R304). -/
def Mach.struckBy (m : Mach) (l : SpLoc) (data : List (Byte × Bool)) : List Nat :=
  (List.range 96).filter fun s =>
    m.skState s == skResident && m.skFlag s 5 && decide (m.sk s 1 1 < 24) &&
    (match m.spPlace l.tile (m.slotSp (m.sk s 1 1)) (m.sk s 8 4) with
     | some k => k.region == l.region &&
       (List.range data.length).any fun i => (data.getD i (0, false)).2 && decide (k.off ≤ l.off + i ∧ l.off + i < k.off + m.sk s 8 4)
     | none => false)

/-- A stitch's read of n bytes at an SP address (R142, R152, R155, R161, R166). A poisoned reply notes the skeins whose state it was (R304). -/
def Mach.spRead (m : Mach) (t : Fin 4) (addr : Word) (n age : Nat) (skewed : Bool := false) (d : Nat := 0) :
    SpReply × Mach :=
  match m.spLoc t addr n d with
  | .error .error => (⟨.error, [], skewed⟩, m.spRefuse t addr)
  | .error st => (⟨st, [], skewed⟩, m)
  | .ok l =>
    let r := m.locRead l n age skewed
    (r.1, if r.1.status = .poison then { r.2 with struck := r.2.struck ++ m.struckBy l r.1.data } else r.2)

/-- A byte to write with its poison mark; `none` is a disabled byte. -/
abbrev WByte := Option (Byte × Bool)

/-- Write bytes from `lo` of one line with a tag (R141, R151, R159, R164): the writer's status and the state. A word written in part is read
first, with the books of a read (R141, R163; log entry 62). A word that holds a poisoned byte is stored with inverted check bits. -/
def Mach.lineWrite (m : Mach) (t : Fin 4) (bank line lo : Nat) (bs : List WByte) (tag : Nat) : Status × Mach :=
  let a := 64 * lineNo bank line + lo
  let enabled := bs.map fun b => b.map Prod.fst
  let part := partWords a enabled
  let m0 := part.foldl (fun acc w => acc.spWordRead t bank line (w % 8)) (m.stopMarch t bank)
  let touched := wordsOf a bs.length
  let pz := touched.filter fun w => (List.range bs.length).any fun i => (a + i) / 8 == w && (match bs.getD i none with | some (_, true) => true | _ => false)
  let m1 := m0.modSp t fun x =>
    { x with
      mem := (x.mem.writeOpt a enabled).poisonWords pz
      tags := if x.tagged bank then Tab.set noTag x.tags (lineNo bank line) (BitVec.ofNat 5 tag) else x.tags
      writeback := x.writeback.filter fun e => !(e.1 == bank && e.2.1 == line) }
  (if part.any (m.tile t).sp.mem.bad then .poison else .ok, m1.gauge (tileGauge t) 0x30 (some bank) 1)

/-- Write a located range. -/
def Mach.locWrite (m : Mach) (l : SpLoc) (bs : List WByte) (tag : Nat) : Status × Mach :=
  (l.lines m bs.length).foldl (fun acc e =>
    let start := acc.1.2
    let k := e.2.2.2 - e.2.2.1
    let r := acc.2.lineWrite l.tile e.1 e.2.1 e.2.2.1 ((bs.drop start).take k) tag
    ((if r.1 = .poison then .poison else acc.1.1, start + k), r.2)) ((Status.ok, 0), m) |> fun r => (r.1.1, r.2)

/-- Does the address name the W region of a tile in split mode? -/
def SpLoc.inW (m : Mach) (l : SpLoc) : Bool := !(m.tile l.tile).sp.unified && l.region == 0

/-- A stitch's write at an SP address, with the current row's tag (R151, R155, R156, R166). A stitch that may not write W gets ERROR there
(log entry 12). -/
def Mach.spWrite (m : Mach) (t : Fin 4) (addr : Word) (bs : List WByte) (wOk : Bool := false) (d : Nat := 0) :
    Status × Mach :=
  match m.spLoc t addr bs.length d with
  | .error .error => (.error, m.spRefuse t addr)
  | .error st => (st, m)
  | .ok l => if l.inW m && !wOk then (.error, m) else m.locWrite l bs m.rowTag

/-- Does an address meet R155, as a unit's own range check asks before any access? Reach 3 and a neighbour out of service are met later,
as replies (R161, R166). Nothing is logged. -/
def Mach.spInRange (m : Mach) (t : Fin 4) (addr : Word) (n : Nat) (d : Nat := 0) : Bool :=
  decide (addr.toNat / 2 ^ 30 = 3) || (match m.spLoc t addr n d with | .error .error => false | _ => true)

/-- The values of w-byte words in a byte string, with poison. -/
def chunk (w : Nat) : Nat → List (Byte × Bool) → List (Nat × Bool)
  | 0, _ => []
  | k + 1, bs => (leNat ((bs.take w).map Prod.fst), (bs.take w).any (·.2)) :: chunk w k (bs.drop w)

/-! ## Hub SRAM ranges (R9) -/

def hubBytes : Nat := 0x200000
def hubOk (a n : Nat) : Bool := decide (a + n ≤ hubBytes)

/-! ## The address map (R9-R13, R17, R18) -/

/-- The block of a register-map address and the function that gates it (Tables PA-4, PA-5); the windows of a tile, of the
DZA problem memory (R337) and of hub SRAM carry the offset in them. -/
inductive Target where
  | reg (gate : Option (Fin 19))
  | spWindow (t : Fin 4) (off : Nat)
  | problemWindow (off : Nat)
  | hubWindow (off : Nat)
  | unassigned
deriving DecidableEq, Repr

def target (a : Nat) : Target :=
  if a < 0x50000 then
    if 0x800 ≤ a ∧ a < 0x900 then .reg (some 16) else if 0x900 ≤ a ∧ a < 0xA00 then .reg (some 17) else .reg none
  else if a < 0x100000 then .unassigned
  else if a < 0x500000 then
    let t := a / 0x100000 - 1
    let x := a % 0x100000
    if x < 0x50000 then .reg (some (ix 19 t)) else if x < 0x80000 then .unassigned else .spWindow (ix 4 t) (x - 0x80000)
  else if a < 0x580000 then .reg (some fnDza)
  else if a < 0x600000 then .problemWindow (a - 0x580000)
  else if a < 0x780000 then .reg none
  else if a < 0x800000 then .reg (some fnMsg)
  else if a < 0x900000 then .reg (some fnStash)
  else if a < 0xB00000 then .hubWindow (a - 0x900000)
  else .unassigned

def targetGate : Target → Option (Fin 19)
  | .reg g => g
  | .spWindow t _ => some (tileFn t)
  | .problemWindow _ => some fnDza
  | _ => none

/-- May an access path reach an address now (R13, R17, R18)? -/
def Mach.reaches (m : Mach) (a : Nat) : Bool :=
  (match targetGate (target a) with | none => true | some f => m.up f) &&
  (m.phase != phRetention || decide (a < 0x10000 ∨ (0x20000 ≤ a ∧ a < 0x40000)))

/-- Is an access path itself in service (R17, R18)? -/
def Mach.pathUp (m : Mach) : Path → Bool
  | .pcie => m.linkD0 && m.up fnPcie
  | .spi => m.up fnSpi
  | .usb => m.up fnUsb
  | .core c => m.up (coreFn c)

/-- Does a window access obey R11 for its path? -/
def windowOk (p : Path) (off len : Nat) (whole : Bool) : Bool :=
  match p with
  | .pcie => decide (1 ≤ len ∧ len ≤ 256 ∧ off % 4096 + len ≤ 4096)
  | _ => decide (len = 4 ∧ off % 4 = 0) && whole

/-! ## Descriptors -/

def wfld (w : Word) (hi lo : Nat) : Nat := bitsOf w.toNat hi lo
def wbits (n : Nat) (w : Word) (lo : Nat) : BitVec n := BitVec.ofNat n (w.toNat / 2 ^ lo)
def wbit (w : Word) (i : Nat) : Bool := w.getLsbD i

/-- The 16 words of 64 bytes. -/
def words16 (bs : List Byte) : List Word := (List.range 16).map fun i => BitVec.ofNat 32 (leNat ((bs.drop (4 * i)).take 4))

/-- Table TC-10, posted by a core. -/
def parseHdr (w : List Word) (c : Fin 10) : StitchHdr :=
  let w0 := w.getD 0 0
  { express := wbit w0 4, doneEn := wbit w0 5, doneEvent := wbits 6 w0 6, doneCore := wbits 4 w0 12, tag := wbits 16 w0 16,
    budget := wbits 12 (w.getD 1 0) 0, poster := c }

/-- Table TC-11. -/
def parseLoad (w : List Word) : LoadP :=
  let w3 := w.getD 3 0
  { src := w.getD 2 0, stride := wbits 16 w3 0, arrays := wbits 4 w3 16, transposed := wbit w3 20, int4 := wbit w3 21, useCtl := wbit w3 22,
    age := wbits 4 w3 23, accMode := wbits 8 (w.getD 4 0) 0 }

/-- Table TC-12. -/
def parsePass (w : List Word) : PassP :=
  let w3 := w.getD 3 0; let w4 := w.getD 4 0; let w5 := w.getD 5 0
  { src := w.getD 2 0, vecStride := wbits 16 w3 0, arrayStride := wbits 16 w3 16, nVec := wbits 10 w4 0, cHist := wbits 9 w4 10,
    rowBase := wbits 6 w4 19, accShift := wbits 4 w4 25, half := wbit w4 29, accAdd := wbit w4 30, reseed := wbit w4 31,
    arrays := wbits 4 w5 0, cMode := wbit w5 4, swap := wbit w5 5, afmt := wbits 2 w5 6, age := wbits 4 w5 8 }

/-- Table TC-13. -/
def parseDrain (w : List Word) : DrainP :=
  let w4 := w.getD 4 0; let w5 := w.getD 5 0; let w6 := w.getD 6 0
  { rq := w.getD 2 0, dst := w.getD 3 0, dstStride := wbits 16 w4 0, posBase := wbits 16 w4 16, topkDst := wbits 21 w5 0, k := wbits 5 w5 21,
    topkStart := wbit w5 26, topkEnd := wbit w5 27, noStore := wbit w5 28, clear := wbit w5 29, array := ix 4 (wfld w6 1 0),
    half := wbit w6 2, rowBase := wbits 6 w6 3, nRows := wbits 7 w6 9, ofmt := wbits 3 w6 16, age := wbits 4 w6 19 }

/-- Table TC-14. -/
def parseVe (w : List Word) : VeP :=
  let w2 := w.getD 2 0
  let si := fun n => let x := w.getD (4 + 2 * n) 0
    ({ src := w.getD (3 + 2 * n) 0, stride := wbits 16 x 0, fmt := wbits 3 x 16, age := wbits 4 x 19 } : StreamIn)
  let so := fun n => let x := w.getD (10 + 2 * n) 0
    ({ dst := w.getD (9 + 2 * n) 0, stride := wbits 16 x 0, fmt := wbits 3 x 16, isInt := wbit x 19, sat := wbit x 20, exp := wbits 2 x 21 } : StreamOut)
  { chain := ix 64 (wfld w2 5 0), ocm := wbit w2 6, nBeatsM1 := wbits 10 w2 7, inMask := wbits 3 w2 17, outMask := wbits 2 w2 20,
    s0 := si 0, s1 := si 1, s2 := si 2, o0 := so 0, o1 := so 1 }

/-- Table TC-15. -/
def parseXfer (w : List Word) : XferP :=
  let w4 := w.getD 4 0; let w5 := w.getD 5 0
  { src := w.getD 2 0, dst := w.getD 3 0, nLinesM1 := wbits 12 w4 0, age := wbits 4 w4 12, weightWrite := wbit w4 16, srcHub := wbit w4 17,
    dstHub := wbit w4 18, srcStride := wbits 16 w5 0, dstStride := wbits 16 w5 16 }

/-- FETCH and STORE of Table SK-5. -/
def parseBlock (w : List Word) : BlockP :=
  let w2 := w.getD 2 0; let w5 := w.getD 5 0
  { tiles := wbits 4 w2 16, age := wbits 4 w2 20, weightWrite := wbit w2 24, sp := w.getD 3 0, stash := w.getD 4 0, nBlocksM1 := wbits 16 w5 0,
    tileStride := wbits 16 w5 16 }

/-- RUN of Table DZ-2. -/
def parseRun (w : List Word) : RunP :=
  let w2 := w.getD 2 0; let w7 := w.getD 7 0; let w8 := w.getD 8 0
  { init := wbits 2 w2 4, check := wbit w2 6, penalty := wbit w2 7, replicasM1 := wbits 5 w2 8, exchEvery := wbits 8 w2 13,
    traceEvery := wbits 8 w2 21, traceReset := wbit w2 29, nSweeps := wbits 24 (w.getD 3 0) 0, active := w.getD 5 0 ++ w.getD 4 0,
    resDst := wbits 21 (w.getD 6 0) 0, traceBase := wbits 21 w7 0, traceSize := wbits 4 w7 21, penWeight := wbits 11 w8 0,
    endEvent := wbits 6 w8 16, endCore := wbits 4 w8 22, endEn := wbit w8 26 }

/-- COPY of Table DZ-2. -/
def parseCopy (w : List Word) : CopyP :=
  { nLinesM1 := wbits 9 (w.getD 3 0) 0, src := wbits 21 (w.getD 4 0) 0, dst := wbits 23 (w.getD 5 0) 0 }

/-- SEND of Table HL-9. -/
def parseSend (w : List Word) : SendP :=
  let w2 := w.getD 2 0; let w3 := w.getD 3 0
  { type := wbits 8 w2 4, skein := wbits 8 w2 12, tsNow := wbit w2 20, frameTs := wbit w2 21, rings := wbits 16 w3 0, usb := wbit w3 16,
    src := wbits 21 (w.getD 4 0) 0, length := wbits 12 (w.getD 5 0) 0, timestamp := w.getD 7 0 ++ w.getD 6 0 }

/-- The body of a descriptor by its kind and op; `none` is INVALID (Tables TC-10, SK-5, DZ-2). An unlisted MSG op reaches the unit, which
faults it with MG_OP (Table HL-17; log entry 13). -/
def parseBody (w : List Word) : Option Body :=
  let kind := wfld (w.getD 0 0) 3 0
  let w2 := w.getD 2 0
  let op := wfld w2 3 0
  match kind with
  | 1 => some (.load (parseLoad w))
  | 2 => some (.pass (parsePass w))
  | 3 => some (.drain (parseDrain w))
  | 4 => some (.ve (parseVe w))
  | 5 => some (.xfer (parseXfer w))
  | 6 =>
    if op = 1 then some (.swapOut (wbits 7 w2 4)) else if op = 2 then some (.swapIn (wbits 7 w2 4) (wbits 5 w2 11))
    else if op = 3 then some (.fetch (parseBlock w)) else if op = 4 then some (.store (parseBlock w)) else none
  | 7 => if op = 1 then some (.run (parseRun w)) else if op = 2 then some .stop else if op = 3 then some (.copy (parseCopy w)) else none
  | 8 =>
    if op = 1 then some (.send (parseSend w)) else if op = 2 then some (.flush (wbits 16 (w.getD 3 0) 0) (wbit (w.getD 3 0) 16))
    else some (.msgOther (BitVec.ofNat 4 op))
  | _ => none

/-- A 64-byte descriptor posted by a core. -/
def parseStitch (bs : List Byte) (c : Fin 10) : Option Stitch :=
  (parseBody (words16 bs)).map fun b => ⟨parseHdr (words16 bs) c, b⟩

end Sys2Proof.Machine
end

