-- ==== Sys2Proof/Machine/Crypto.lean ====
section
/-! DEFINITION. The check codes that the spec names: CRC-32C, CRC-8, SHA-256 (FIPS 180-4) and ECDSA P-256 signature verification
(FIPS 186-4), R81, R84, R107, R303, R383, R402. -/

namespace Sys2Proof.Machine

/-! ## CRCs (Table SC-4; 12, SPI) -/

/-- One bit of a reflected CRC-32C step. -/
def crc32cBit (c : BitVec 32) : BitVec 32 := if c.getLsbD 0 then (c >>> 1) ^^^ 0x82F63B78 else c >>> 1
def crc32cByte (c : BitVec 32) (b : Byte) : BitVec 32 := Nat.repeat crc32cBit 8 (c ^^^ b.setWidth 32)
/-- CRC-32C: reflected polynomial 0x1EDC6F41, initial value and final inversion 0xFFFFFFFF. -/
def crc32c (bs : List Byte) : Word := (bs.foldl crc32cByte 0xFFFFFFFF) ^^^ 0xFFFFFFFF

/-- One bit of the SPI CRC-8, most significant first (R383). -/
def crc8Bit (c : Byte) : Byte := if c.getLsbD 7 then (c <<< 1) ^^^ 0x07 else c <<< 1
def crc8 (bs : List Byte) : Byte := bs.foldl (fun c b => Nat.repeat crc8Bit 8 (c ^^^ b)) 0

/-! ## SHA-256 (FIPS 180-4) -/

/-- The largest r below 2^k with r^e at most n, by its bits from the top. -/
def rootBits (e n : Nat) : Nat → Nat → Nat
  | 0, r => r
  | k + 1, r => rootBits e n k (if (r + 2 ^ k) ^ e ≤ n then r + 2 ^ k else r)

/-- The first 32 fractional bits of the e-th root of n. -/
def rootFraction (e n : Nat) : Word := BitVec.ofNat 32 (rootBits e (n * 2 ^ (32 * e)) 40 0)

/-- The primes below 312: the 64 smallest. -/
def shaPrimes : List Nat := (List.range 312).filter fun n => 2 ≤ n && (List.range n).all fun d => d < 2 || n % d != 0

/-- The round constants: fractional bits of the cube roots of the primes (FIPS 180-4, 4.2.2). -/
def shaKeys : List Word := shaPrimes.map (rootFraction 3)

/-- The eight working words in the standard's order, a first. -/
abbrev ShaWords := List Word

/-- The initial hash: fractional bits of the square roots of the first eight primes (FIPS 180-4, 5.3.3). -/
def shaInit : ShaWords := (shaPrimes.take 8).map (rootFraction 2)

/-- The exclusive or of x turned right by each amount. -/
def turns (x : Word) (ns : List Nat) : Word := ns.foldl (fun acc n => acc ^^^ x.rotateRight n) 0

/-- One round with a constant and a schedule word added up in kw. -/
def shaRound (s : ShaWords) (kw : Word) : ShaWords :=
  match s with
  | [a, b, c, d, e, f, g, h] =>
    let pick := g ^^^ (e &&& (f ^^^ g))
    let vote := (a &&& b) ||| (c &&& (a ||| b))
    let t := h + turns e [6, 11, 25] + pick + kw
    [t + turns a [2, 13, 22] + vote, a, b, c, d + t, e, f, g]
  | _ => s

/-- Sixteen schedule words give way to the next one; the oldest is used up (FIPS 180-4, 6.2.2). -/
def shaSlide (w : List Word) : List Word :=
  let old := w.getD 1 0
  let late := w.getD 14 0
  w.drop 1 ++ [w.getD 0 0 + w.getD 9 0 + (turns old [7, 18] ^^^ (old >>> 3)) + (turns late [17, 19] ^^^ (late >>> 10))]

/-- The rounds of a block: each takes the oldest schedule word. -/
def shaRounds : List Word → List Word → ShaWords → ShaWords
  | [], _, s => s
  | k :: ks, w, s => shaRounds ks (shaSlide w) (shaRound s (k + w.getD 0 0))

/-- The value of bytes, big-endian. -/
def beNat (bs : List Byte) : Nat := bs.foldl (fun v b => v * 256 + b.toNat) 0

/-- Pieces of n bytes. -/
def chunks (n : Nat) : Nat → List Byte → List (List Byte)
  | 0, _ => []
  | k + 1, bs => bs.take n :: chunks n k (bs.drop n)

/-- A block of 64 bytes is mixed into the hash. -/
def shaMix (s : ShaWords) (block : List Byte) : ShaWords :=
  List.zipWith (· + ·) s (shaRounds shaKeys ((chunks 4 16 block).map fun w => BitVec.ofNat 32 (beNat w)) s)

/-- The message with its end mark and its length in bits, a whole number of blocks (FIPS 180-4, 5.1.1). -/
def shaPadded (bs : List Byte) : List Byte :=
  let zeros := roundUp (bs.length + 9) 64 - (bs.length + 9)
  bs ++ 0x80 :: List.replicate zeros 0 ++ (leBytes 8 (8 * bs.length)).reverse

/-- SHA-256, as a big-endian number. -/
def sha256 (bs : List Byte) : Nat :=
  let p := shaPadded bs
  ((chunks 64 (p.length / 64) p).foldl shaMix shaInit).foldl (fun v x => v * 2 ^ 32 + x.toNat) 0

/-! ## ECDSA P-256 (FIPS 186-4) -/

def p256p : Nat := 0xffffffff00000001000000000000000000000000ffffffffffffffffffffffff
def p256n : Nat := 0xffffffff00000000ffffffffffffffffbce6faada7179e84f3b9cac2fc632551
def p256b : Nat := 0x5ac635d8aa3a93e7b3ebbd55769886bc651d06b0cc53b0f63bce3c3e27d2604b
def p256g : Nat × Nat :=
  (0x6b17d1f2e12c4247f8bce6e563a440f277037d812deb33a0f4a13945d898c296,
   0x4fe342e2fe1a7f9b8ee7eb4a7c0f9e162bce33576b315ececbb6406837bf51f5)

/-- b to the e modulo m, by the low `fuel` bits of e. -/
def powMod (m : Nat) : Nat → Nat → Nat → Nat
  | 0, _, _ => 1
  | fuel + 1, b, e =>
    let r := powMod m fuel (b * b % m) (e / 2)
    if e % 2 = 1 then r * b % m else r

/-- Inverse modulo a prime. -/
def invMod (m a : Nat) : Nat := powMod m 256 (a % m) (m - 2)

/-- A curve point; `none` is the point at infinity. -/
abbrev EcPoint := Option (Nat × Nat)

def ecAdd (a b : EcPoint) : EcPoint :=
  match a, b with
  | none, q => q
  | q, none => q
  | some (x1, y1), some (x2, y2) =>
    let p := p256p
    if x1 = x2 ∧ (y1 + y2) % p = 0 then none
    else
      let l := if x1 = x2 then (3 * x1 * x1 + (p - 3)) * invMod p (2 * y1) % p else (y2 + p - y1) * invMod p (x2 + p - x1) % p
      let x3 := (l * l + 2 * p - x1 - x2) % p
      some (x3, (l * (x1 + p - x3) + p - y1) % p)

/-- k times a point, by the low `fuel` bits of k. -/
def ecMul : Nat → Nat → EcPoint → EcPoint
  | 0, _, _ => none
  | fuel + 1, k, q =>
    let r := ecMul fuel (k / 2) (ecAdd q q)
    if k % 2 = 1 then ecAdd r q else r

/-- Signature (r, s) of digest z under key q (R81). -/
def ecdsaOk (qx qy z r s : Nat) : Bool :=
  let p := p256p
  let n := p256n
  if qx < p ∧ qy < p ∧ (qy * qy) % p = (qx * qx * qx + (p - 3) * qx + p256b) % p ∧ 1 ≤ r ∧ r < n ∧ 1 ≤ s ∧ s < n then
    let w := invMod n s
    match ecAdd (ecMul 256 (z * w % n) (some p256g)) (ecMul 256 (r * w % n) (some (qx, qy))) with
    | some (x, _) => x % n == r
    | none => false
  else false

end Sys2Proof.Machine
end

