-- ==== Sys2Proof/Machine/PcieConfig.lean ====
section
/-! DEFINITION. Configuration space of the PCI Express endpoint (12_host_links_messages.md R373, R376, Tables HL-1, HL-2): its capabilities and no
other, power states, and Advanced Error Reporting with the header log. Places, and the bits PCI Express itself defines: log entry 8. -/

namespace Sys2Proof.Machine

/-! ## Layout -/

def cfgCommand : Nat := 0x04
def cfgPmCtl : Nat := 0x44
def cfgDevCtl : Nat := 0x68
def cfgLinkCtl : Nat := 0x70
def cfgDevCtl2 : Nat := 0x88
def cfgAerStatus : Nat := 0x104
def cfgAerMask : Nat := 0x108
def cfgAerSeverity : Nat := 0x10C
def cfgAerCtl : Nat := 0x118
def cfgHeaderLog : Nat := 0x11C
/-- Offset of the PTM control register. -/
def cfgPtmCtl : Nat := 0x158

/-- A configuration word: bits that always read as they stand, bits that hold what is written, bits that a 1 clears. -/
structure CfgReg where
  ro : Word
  rw : Word
  w1c : Word
deriving DecidableEq, Repr

/-- The uncorrectable errors of AER. -/
def aerErrors : Word := 0x0017F010
/-- The correctable errors of AER. -/
def aerCorrectable : Word := 0x000031C1

/-- Bits of a word that the chip fixes and Table HL-1 does not give. -/
def cfgChip (off : Nat) (bits : Word) : Word := Config.pcieConfigWord off &&& bits

/-- Configuration space. A word of no header field and of no capability that Table HL-1 names reads 0 (R373). -/
def cfgReg (off : Nat) : CfgReg :=
  match off with
  -- the header: identity, BAR0 of 16 MiB, BAR2 of 64 MiB with 64 bits, no other BAR, no interrupt pin
  | 0x00 => ⟨0x5309#16 ++ Config.pcieVendor, 0, 0⟩
  | 0x04 => ⟨0x00100000, 0x00000546, 0xF9000000⟩
  | 0x08 => ⟨0x12000000 ||| cfgChip 0x08 0xFF, 0, 0⟩
  | 0x0C => ⟨0, 0xFF, 0⟩
  | 0x10 => ⟨0, 0xFF000000, 0⟩
  | 0x18 => ⟨0xC, 0xFC000000, 0⟩
  | 0x1C => ⟨0, 0xFFFFFFFF, 0⟩
  | 0x2C => ⟨Config.pcieSubsystem, 0, 0⟩
  | 0x34 => ⟨0x40, 0, 0⟩
  | 0x3C => ⟨0, 0xFF, 0⟩
  -- power management: D0 and D3hot, no internal reset between them
  | 0x40 => ⟨0x00035001, 0, 0⟩
  | 0x44 => ⟨0x8, 0x3, 0⟩
  -- MSI-X: 32 vectors, table and pending bits in BAR2
  | 0x50 => ⟨0x001F6011, 0xC0000000, 0⟩
  | 0x54 => ⟨0x00200002, 0, 0⟩
  | 0x58 => ⟨0x00201002, 0, 0⟩
  -- PCI Express: payload 128 or 256 B, no reset of functions, 16 GT/s, x4, ASPM L1, timeout ranges A and B
  | 0x60 => ⟨0x00020010, 0, 0⟩
  | 0x64 => ⟨0x00008001 ||| cfgChip 0x64 0xFC0, 0, 0⟩
  | 0x68 => ⟨0, 0x0000702F, 0x000F0000⟩
  | 0x6C => ⟨0x00400844 ||| cfgChip 0x6C 0xFF07F000, 0, 0⟩
  | 0x70 => ⟨cfgChip 0x70 0x10000000, 0x000002CA, 0⟩
  | 0x84 => ⟨0x3, 0, 0⟩
  | 0x88 => ⟨0, 0xF, 0⟩
  | 0x8C => ⟨0x1E, 0, 0⟩
  | 0x90 => ⟨cfgChip 0x90 0x001F0000, 0x0000FFBF, 0⟩
  -- AER with header log, no ECRC
  | 0x100 => ⟨0x15020001, 0, 0⟩
  | 0x104 => ⟨0, 0, aerErrors⟩
  | 0x108 => ⟨0, aerErrors, 0⟩
  | 0x10C => ⟨0, aerErrors, 0⟩
  | 0x110 => ⟨0, 0, aerCorrectable⟩
  | 0x114 => ⟨0, aerCorrectable, 0⟩
  -- PTM: requester
  | 0x150 => ⟨0x1601001F, 0, 0⟩
  | 0x154 => ⟨0x1, 0, 0⟩
  | 0x158 => ⟨0, 0x0000FF01, 0⟩
  -- L1 substates: L1.1 through ASPM, no L1.2
  | 0x160 => ⟨0x0001001E, 0, 0⟩
  | 0x164 => ⟨0x18, 0, 0⟩
  | 0x168 => ⟨0, 0x8, 0⟩
  | _ => ⟨0, 0, 0⟩

/-! ## Reads and writes -/

/-- Bits that follow the link, the outstanding requests and the first error: speed and width, transactions pending, AER's pointer and header. -/
def Mach.cfgLive (m : Mach) (off : Nat) : Word :=
  if cfgAerCtl ≤ off ∧ off < cfgHeaderLog + 16 then m.cfgWord off
  else if off = cfgLinkCtl then BitVec.ofNat 32 (m.get HlPcieStat.speed * 2 ^ 16 + m.get HlPcieStat.width * 2 ^ 20)
  else if off = cfgDevCtl then BitVec.ofNat 32 (b2n (m.msg.reading != 0) * 2 ^ 21)
  else 0

/-- What a configuration read returns. -/
def Mach.cfgRead (m : Mach) (off : Nat) : Word :=
  let r := cfgReg off
  r.ro ||| (m.cfgWord off &&& (r.rw ||| r.w1c)) ||| m.cfgLive off

def Mach.putCfg (m : Mach) (off : Nat) (w : Word) : Mach := { m with host := { m.host with cfg := Tab.set cfgReset m.host.cfg off w } }

/-- Set bits of a stored configuration word. -/
def Mach.orCfg (m : Mach) (off : Nat) (w : Word) : Mach := m.putCfg off (m.cfgWord off ||| w)

/-- A field keeps its value when a power state or a timeout range is written that the endpoint does not have. -/
def cfgKept (off : Nat) (old v : Word) : Word :=
  if off = cfgPmCtl then (if bitsOf v.toNat 1 0 = 1 ∨ bitsOf v.toNat 1 0 = 2 then putBits v 1 0 (bitsOf old.toNat 1 0) else v)
  else if off = cfgDevCtl2 then (if bitsOf v.toNat 3 0 ∈ [0, 1, 2, 5, 6] then v else putBits v 3 0 (bitsOf old.toNat 3 0))
  else v

/-- What a word stores after a write. -/
def cfgStored (off : Nat) (old v : Word) : Word :=
  let r := cfgReg off
  (old &&& ~~~r.rw &&& ~~~(r.w1c &&& v)) ||| (cfgKept off old v &&& r.rw)

def Mach.cfgStore (m : Mach) (off : Nat) (v : Word) : Mach := m.putCfg off (cfgStored off (m.cfgWord off) v)

/-! ## Error reporting (R376) -/

/-- How a memory read of the device ends without its data. -/
inductive ReadFail where
  | timeout | ur | ca | poisoned
deriving DecidableEq, Repr

/-- `MSG_RINGr_STAT.cause`. -/
def ReadFail.cause : ReadFail → Nat
  | .timeout => 1 | .ur => 2 | .ca => 2 | .poisoned => 3
/-- The sticky bit of `HL_PCIE_STAT`. -/
def ReadFail.sticky : ReadFail → Fld
  | .timeout => HlPcieStat.cplTmo | .ur => HlPcieStat.caUrRx | .ca => HlPcieStat.caUrRx | .poisoned => HlPcieStat.poisonedRx
/-- Bit of AER's uncorrectable error registers. -/
def ReadFail.aerBit : ReadFail → Nat
  | .timeout => 14 | .ur => 20 | .ca => 15 | .poisoned => 12
/-- Bits of the header's status word. A poisoned completion sets the master's bit where parity errors are answered. -/
def ReadFail.status (f : ReadFail) (parity : Bool) : Word :=
  match f with
  | .timeout => 0
  | .ur => 0x20000000
  | .ca => 0x10000000
  | .poisoned => if parity then 0x81000000 else 0x80000000

/-- Four words of the header log. -/
def Mach.logHeader (m : Mach) : Mach :=
  (List.range 4).foldl (fun acc k => let r := acc.fresh; r.2.putCfg (cfgHeaderLog + 4 * k) (r.1.setWidth 32)) m

/-- Report an error that AER does not mask: by its severity in the device status and, where enabled, as a message; the first one with its
pointer and the header of its packet, whose bits the spec does not give (log entry 8). -/
def Mach.aerSignal (m : Mach) (bit : Nat) (first : Bool) : Mach :=
  let fatal := (m.cfgWord cfgAerSeverity).getLsbD bit
  let k := b2n fatal
  let m1 := m.orCfg cfgDevCtl (BitVec.ofNat 32 (2 ^ (17 + k)))
  let m2 := if first then (m1.putCfg cfgAerCtl (BitVec.ofNat 32 bit)).logHeader else m1
  let serr := (m2.cfgWord cfgCommand).getLsbD 8
  if serr || (m2.cfgWord cfgDevCtl).getLsbD (1 + k) then
    let m3 := if serr then m2.orCfg cfgCommand 0x40000000 else m2
    { m3 with host := { m3.host with errSent := m3.host.errSent ++ [fatal] } }
  else m2

/-- Report a read that failed through AER. -/
def Mach.aerReport (m : Mach) (f : ReadFail) : Mach :=
  let mask := m.cfgWord cfgAerMask
  let first := m.cfgWord cfgAerStatus &&& ~~~mask == 0
  let m1 := (m.orCfg cfgCommand (f.status ((m.cfgWord cfgCommand).getLsbD 6))).orCfg cfgAerStatus (BitVec.ofNat 32 (2 ^ f.aerBit))
  if mask.getLsbD f.aerBit then m1 else m1.aerSignal f.aerBit first

end Sys2Proof.Machine
end

