-- ==== Sys2Proof/Machine/Messages.lean ====
section
/-! DEFINITION. The message engine: PROD_WRITE, RING_ENABLE, RING_DISABLE, MESSAGE_DELIVERY, BUFFER_CLOSE_TIMER, INT_TIMER, HOLD_EXPIRY,
COMPLETION, COMPLETION_TIMEOUT, SEND, FLUSH and the endpoint reset of R398 (12_host_links_messages.md R376, R385-R404). -/

namespace Sys2Proof.Machine

/-! ## Host memory -/

/-- Bytes that the device writes to host memory. -/
def Mach.hostWrite (m : Mach) (a : Nat) (bs : List Byte) : Mach := { m with host := { m.host with mem := Memory.write zeroByte m.host.mem a bs } }

/-! ## Destinations: rings 0-15, 16 = EP2 IN -/

def usbDest : Nat := 16
def destNo : Dest → Nat
  | .ring r => r.val
  | .usb => usbDest

def noBuf : Nat → Buf := fun _ => { bytes := [], scopes := [], places := [], due := false }
def Mach.buf (m : Mach) (d : Nat) : Buf := Tab.get noBuf m.msg.bufs d
def Mach.setBuf (m : Mach) (d : Nat) (b : Buf) : Mach := { m with msg := { m.msg with bufs := Tab.set noBuf m.msg.bufs d b } }
/-- Is a buffer open? -/
def Buf.isOpen (b : Buf) : Bool := !b.scopes.isEmpty

def Mach.ringStopped (m : Mach) (r : Nat) : Bool := m.msg.stopped.getLsbD r
/-- `MSG_RINGr_STAT.running`. -/
def Mach.ringRunning (m : Mach) (r : Nat) : Bool := m.on (MsgRingCtl.enable r) && !m.ringStopped r
/-- Descriptors in device (R389). -/
def Mach.inDevice (m : Mach) (r : Nat) : Nat := (m.get (MsgRingProd.prod r) + 65536 - m.get (MsgRingDone.doneTail r)) % 65536
/-- Ring size N (Table HL-12). -/
def Mach.ringSize (m : Mach) (r : Nat) : Nat := 2 ^ m.get (MsgRingCtl.sizeLog2 r)
def Mach.ringBase (m : Mach) (r : Nat) : Nat := m.pair (MsgRingBaseLo.reg r) / 64 * 64
/-- Address of the descriptor with index i (R389). -/
def Mach.descAddr (m : Mach) (r i : Nat) : Nat := m.ringBase r + 16 * (i % m.ringSize r)

def scopeOf (skein : Nat) : Nat := if skein < 96 then skein else 256

/-- A message lost at a destination: its count and the gap owed to its scope (R391). -/
def Mach.countDrop (m : Mach) (d scope : Nat) : Mach :=
  let m1 := if d = usbDest then m.bumpMod MsgUsbDrop.count else m.bumpMod (MsgRingDrop.count d)
  let m2 : Mach := { m1 with msg := { m1.msg with gap := if m1.msg.gap.contains (d, scope) then m1.msg.gap else m1.msg.gap ++ [(d, scope)] } }
  m2.gauge hubGauge 0x83 none 1

/-- The first waiting message of a destination, in framing order. -/
def Mach.waitingFor (m : Mach) (d : Nat) : Option Msg := m.msg.staged.find? fun x => x.dests.getLsbD d

/-- The staged messages once the first one waiting for d has been served there. -/
def servedAt (d : Nat) : List Msg → List Msg
  | [] => []
  | x :: xs =>
    if x.dests.getLsbD d then
      let y := { x with dests := x.dests &&& ~~~(BitVec.ofNat 17 (2 ^ d)) }
      if y.dests = 0 then xs else y :: xs
    else x :: servedAt d xs

def Mach.serve (m : Mach) (d : Nat) : Mach := { m with msg := { m.msg with staged := servedAt d m.msg.staged } }

/-- Drop the first message that waits for d (R391). -/
def Mach.dropWaiting (m : Mach) (d : Nat) : Mach :=
  match m.waitingFor d with
  | none => m
  | some x => (m.countDrop d (scopeOf x.skein)).serve d

/-- Drop every message that waits for d. -/
def Mach.dropAllWaiting (m : Mach) (d : Nat) : Mach := Nat.repeat (fun a => Mach.dropWaiting a d) m.msg.staged.length m

/-- Drop the messages of an open buffer. -/
def Mach.dropBuf (m : Mach) (d : Nat) : Mach :=
  ((m.buf d).scopes.foldl (fun acc sc => acc.countDrop d sc) m).setBuf d (noBuf d)

/-! ## Closing buffers (R390) -/

/-- The ring's vector (R375, Table HL-16). -/
def Mach.ringVector (m : Mach) (r : Nat) : Nat := Nat.max 1 (m.get (MsgRingInt.vector r))

def noCloses : Nat → Nat := fun _ => 0
def Mach.closes (m : Mach) (r : Nat) : Nat := Tab.get noCloses m.msg.closes r
def Mach.setCloses (m : Mach) (r n : Nat) : Mach := { m with msg := { m.msg with closes := Tab.set noCloses m.msg.closes r n } }

/-- A close counts toward the ring's interrupt (R390). -/
def Mach.countClose (m : Mach) (r : Nat) : Mach :=
  let n := m.get (MsgRingInt.intCount r)
  let k := m.closes r + 1
  if 0 < n ∧ n ≤ k then (m.setCloses r 0).raiseVector (m.ringVector r) else m.setCloses r k

/-- Write the status block (Table HL-11). -/
def Mach.writeStatus (m : Mach) (r : Nat) : Mach :=
  m.hostWrite (m.pair (MsgRingStatusLo.reg r) / 16 * 16)
    (leBytes 2 (m.get (MsgRingDone.doneTail r)) ++ leBytes 2 0 ++ leBytes 4 (m.get (MsgRingDrop.count r)) ++ leBytes 8 m.now)

def noDesc : Nat → DWord := fun _ => 0
def Mach.forgetDesc (m : Mach) (r : Nat) : Mach := { m with msg := { m.msg with descs := Tab.erase m.msg.descs r } }
def Mach.hasDesc (m : Mach) (r : Nat) : Bool := m.msg.descs.any fun e => e.1 == r

/-- Close a ring's open buffer: data, descriptor bytes 0x08-0x0F, status block, then the interrupt. While no memory request may be issued it
is only marked (R377). -/
def Mach.closeRing (m : Mach) (r : Nat) (byTimer : Bool) : Mach :=
  let b := m.buf r
  if !b.isOpen then m
  else if !m.bme then m.setBuf r { b with due := true }
  else
    let i := m.get (MsgRingDone.doneTail r)
    let m1 := m.hostWrite (Tab.get noDesc m.msg.descs r).toNat b.bytes
    let m2 := m1.hostWrite (m.descAddr r i + 8) (leBytes 2 b.bytes.length ++ leBytes 2 b.scopes.length ++ leBytes 2 (2 * b2n byTimer) ++ leBytes 2 0)
    let m3 := ((m2.put (MsgRingDone.doneTail r) (i + 1)).forgetDesc r).setBuf r (noBuf r)
    (m3.writeStatus r).countClose r

/-- Close the open buffer of EP2 IN: it becomes ready (R392). -/
def Mach.closeUsb (m : Mach) : Mach :=
  let b := m.buf usbDest
  if b.isOpen then ({ m with msg := { m.msg with usbReady := m.msg.usbReady ++ [b] } } : Mach).setBuf usbDest (noBuf usbDest) else m

def Mach.closeDest (m : Mach) (d : Nat) (byTimer : Bool) : Mach := if d = usbDest then m.closeUsb else m.closeRing d byTimer

/-! ## Room (R391, R392) -/

def foot (len : Nat) : Nat := roundUp (36 + roundUp len 4) 8

/-- Does a message fit the open buffer? -/
def Buf.fits (b : Buf) (n : Nat) : Bool := b.isOpen && !b.due && decide (b.bytes.length + n ≤ 4096)

def Mach.usbReadyForIn (m : Mach) : Bool := m.up fnUsb && m.on HlUsbStat.configured && !m.on HlUsbStat.suspended

/-- Can a destination take a message of a footprint? -/
def Mach.hasRoom (m : Mach) (d n : Nat) : Bool :=
  let b := m.buf d
  if d = usbDest then m.usbReadyForIn && (b.fits n || decide (m.msg.usbReady.length + b2n b.isOpen < 4))
  else m.ringRunning d && m.bme && (b.fits n || decide (b2n b.isOpen < m.inDevice d))

/-- A destination's policy is DROP. -/
def Mach.policyDrop (m : Mach) (d : Nat) : Bool := if d = usbDest then m.on MsgUsbCfg.policy else m.on (MsgRingCtl.policy d)

/-! ## Framing (R385-R387, R393) -/

def destsOf (x : BitVec 17) : List Nat := (List.range 17).filter fun d => x.getLsbD d

/-- A message's place in staging: offset and footprint. -/
def Msg.place (x : Msg) : Nat × Nat := (x.src, foot x.length)
/-- The places of staging in use: of messages still to be delivered, and of those in buffers not yet closed or, for EP2 IN, not yet sent (R392,
R393; log entry 34). -/
def Mach.stageUse (m : Mach) : List (Nat × Nat) :=
  (m.msg.staged.map Msg.place ++ m.msg.bufs.flatMap (·.2.places) ++ m.msg.usbReady.flatMap (·.places)).eraseDups
def Mach.stageUsed (m : Mach) : Nat := (m.stageUse.map (·.2)).foldl (· + ·) 0

/-- The first place in staging with n free bytes (R393; placement: log entry 34). -/
def Mach.stagePlace (m : Mach) (n : Nat) : Option Nat :=
  let base := m.get MsgStage.base / 4096 * 4096
  let stop := Nat.min (base + 1024 * m.get MsgStage.sizeKib) hubBytes
  let use := m.stageUse
  (base :: use.map fun u => u.1 + u.2).find? fun a => decide (a + n ≤ stop) && use.all fun u => decide (a + n ≤ u.1 ∨ u.1 + u.2 ≤ a)

/-- The next number of a scope, and the state with it taken (R386). -/
def Mach.takeSeq (m : Mach) (skein : Nat) : Nat × Mach :=
  if skein < 96 then
    let s := m.hubNat (64 * skein + 0x14) 4
    (s, m.hubPut (64 * skein + 0x14) 4 (s + 1))
  else (m.get MsgDevSeq.seq, m.bumpMod MsgDevSeq.seq)

/-- Frame a message and stage it for its destinations. With function 0x06 out of service nothing is framed. -/
def Mach.frame (m : Mach) (type skein flags : Nat) (ts : DWord) (payload : List Byte) (dests : BitVec 17) : Mach :=
  if !m.up fnMsg then m
  else
    let q0 := m.takeSeq skein
    let q := (q0.1, q0.2.gauge hubGauge 0x82 none 1)
    let model := if skein < 96 then m.hubNat (64 * skein + 2) 2 else 0xFFFF
    if dests = 0 then q.2
    else
      match q.2.stagePlace (foot payload.length) with
      | none =>
        let m1 := (q.2.bumpMod MsgStageDrop.count).flag MsgStatus.stageFull
        let g := (destsOf dests).map fun d => (d, scopeOf skein)
        ({ m1 with msg := { m1.msg with gap := m1.msg.gap ++ g.filter fun e => !m1.msg.gap.contains e } } : Mach).gauge hubGauge 0x83 none g.length
      | some a =>
        let x : Msg := { type := type, skein := skein, flags := flags, seq := BitVec.ofNat 32 q.1, modelId := model, ts := ts,
                         length := payload.length, src := a, dests := dests }
        let m1 := q.2.hubWrite a (payload ++ List.replicate (roundUp payload.length 4 - payload.length) 0)
        let m2 : Mach := { m1 with msg := { m1.msg with staged := m1.msg.staged ++ [x] } }
        -- a destination that has no room and drops, drops at once, once nothing else waits there before it
        (destsOf dests).foldl (fun acc d =>
          if acc.policyDrop d ∧ !acc.hasRoom d (foot payload.length) then acc.dropAllWaiting d else acc) m2

def Mach.sysDest (m : Mach) : BitVec 17 := BitVec.ofNat 17 (m.get MsgSysDest.rings + 65536 * m.get MsgSysDest.usb)

/-- A device EVENT (R387, Table HL-8). -/
def Mach.event (m : Mach) (code skein a0 a1 a2 : Nat) (dests : BitVec 17) : Mach :=
  m.frame 7 skein 4 m.tb (leBytes 2 code ++ leBytes 2 0 ++ leBytes 4 a0 ++ leBytes 4 a1 ++ leBytes 4 a2) dests

/-- STATE_LOST (Table HL-7). -/
def Mach.stateLostMsg (m : Mach) (skein reason steps block : Nat) : Mach :=
  m.frame 9 skein 4 m.tb (leBytes 1 reason ++ leBytes 3 0 ++ leBytes 8 steps ++ leBytes 4 block) m.sysDest

/-- EVENT PHASE (R387). -/
def Mach.phaseEvent (m : Mach) : Mach := m.event 4 0xFF m.phase 0 0 m.sysDest

/-! ## Delivery (R385, R390, R402) -/

/-- The bytes of a message at a destination (Table HL-6), and the state after its staged payload was read. -/
def Mach.msgBytes (m : Mach) (x : Msg) (d : Nat) : List Byte × Status × Mach :=
  let r := m.hubRead x.src (roundUp x.length 4)
  let gap := m.msg.gap.contains (d, scopeOf x.skein)
  let h := leBytes 2 0x5356 ++ leBytes 1 x.type ++ leBytes 1 x.skein ++ leBytes 2 (x.flags + 2 * b2n gap) ++ leBytes 2 x.length ++
    leBytes 4 x.seq.toNat ++ leBytes 2 x.modelId ++ leBytes 1 d ++ leBytes 1 0 ++ leBytes 8 x.ts.toNat ++ leBytes 4 0
  let body := h ++ leBytes 4 (crc32c h).toNat ++ r.1 ++ leBytes 4 (if x.length = 0 then 0 else (crc32c r.1).toNat)
  (body ++ List.replicate (foot x.length - body.length) 0, r.2.1, r.2.2)

/-- The message is lost to staging: dropped at every destination still to be served (R402). -/
def Mach.loseStaged (m : Mach) (x : Msg) : Mach :=
  let m1 := (m.flag MsgStatus.ue).record Flt.msgUe (srcFn 6) []
  let m2 := (destsOf x.dests).foldl (fun acc d => acc.countDrop d (scopeOf x.skein)) m1
  { m2 with msg := { m2.msg with staged := m2.msg.staged.erase x } }

def Mach.coalesceOf (m : Mach) (d : Nat) : Nat := if d = usbDest then m.get MsgUsbCfg.coalesce else m.get (MsgRingInt.coalesce d)

/-- Pack the message into the open (or a new) buffer of d. -/
def Mach.pack (m : Mach) (d : Nat) (x : Msg) : Mach :=
  let r := m.msgBytes x d
  if r.2.1 ≠ .ok then r.2.2.loseStaged x
  else
    let m1 := r.2.2
    let b := m1.buf d
    let m2 := (m1.setBuf d { b with bytes := b.bytes ++ r.1, scopes := b.scopes ++ [scopeOf x.skein], places := b.places ++ [x.place] }).serve d
    let m3 : Mach := { m2 with msg := { m2.msg with gap := m2.msg.gap.erase (d, scopeOf x.skein) } }
    if m3.coalesceOf d = 0 then m3.closeDest d false else m3

/-- No room: the policy applies (R391). -/
def Mach.applyPolicy (m : Mach) (d : Nat) : Mach := if m.policyDrop d then m.dropWaiting d else m

/-- MESSAGE_DELIVERY: the oldest waiting message of a destination is packed. A ring first needs its next descriptor read (R376, R390). -/
def Mach.deliver (m : Mach) (d : Nat) : Mach :=
  if !m.up fnMsg then m
  else
    match m.waitingFor d with
    | none => m
    | some x =>
      let n := foot x.length
      if !m.hasRoom d n then m.applyPolicy d
      else if (m.buf d).fits n then m.pack d x
      else
        let m1 := m.closeDest d false
        if d = usbDest then m1.pack d x
        else if m1.hasDesc d then m1.pack d x
        else { m1 with msg := { m1.msg with reading := m1.msg.reading ||| BitVec.ofNat 16 (2 ^ d) } }

def execMessageDelivery (d : Dest) (s : State) : Host.Outcome State Fault Refusal := s.onM fun m => m.deliver (destNo d)

/-- BUFFER_CLOSE_TIMER: `coalesce` µs have passed since the buffer's first message (R390). -/
def execBufferCloseTimer (d : Dest) (s : State) : Host.Outcome State Fault Refusal :=
  s.onM fun m => if m.coalesceOf (destNo d) = 0 then m else m.closeDest (destNo d) true

/-- INT_TIMER: `int_timer` µs have passed since the oldest unsignalled close (R390). 0 in int_count or int_timer means none. -/
def Mach.intTimer (m : Mach) (r : Nat) : Mach :=
  if 0 < m.closes r ∧ 0 < m.get (MsgRingInt.intTimer r) ∧ 0 < m.get (MsgRingInt.intCount r) then (m.setCloses r 0).raiseVector (m.ringVector r) else m

def execIntTimer (ring : Fin 16) (s : State) : Host.Outcome State Fault Refusal := s.onM fun m => m.intTimer ring.val

/-- HOLD_EXPIRY: a held message has waited hold_ms without room (R391). -/
def Mach.holdExpiry (m : Mach) (d : Nat) : Mach :=
  match m.waitingFor d with
  | none => m
  | some x => if m.hasRoom d (foot x.length) then m else m.dropWaiting d

def execHoldExpiry (d : Dest) (s : State) : Host.Outcome State Fault Refusal := s.onM fun m => m.holdExpiry (destNo d)

/-! ## Ring control (R395, R396, R401) -/

/-- Stop a ring with a cause: HL_RING_ERROR, EVENT RING_ERROR to the other destinations, held messages and the open buffer dropped (R401). -/
def Mach.stopRing (m : Mach) (r cause : Nat) : Mach :=
  let m1 := (((m.flag (MsgRingStat.error r)).put (MsgRingStat.cause r) cause).flag MsgStatus.ringError).record Flt.hlRingError (srcFn 6) []
  let bit := BitVec.ofNat 16 (2 ^ r)
  let m2 : Mach := { m1 with msg := { m1.msg with stopped := m1.msg.stopped ||| bit, reading := m1.msg.reading &&& ~~~bit } }
  let m3 := ((m2.dropAllWaiting r).dropBuf r).forgetDesc r
  m3.event 3 0xFF r cause 0 (m3.sysDest &&& ~~~(BitVec.ofNat 17 (2 ^ r)))

/-- A write of MSG_RINGr_PROD (R389, R395). -/
def Mach.prodWrite (m : Mach) (r prod : Nat) : Mach :=
  if (prod + 65536 - m.get (MsgRingDone.doneTail r)) % 65536 ≤ m.ringSize r - 1 then m.put (MsgRingProd.prod r) prod else m.stopRing r 4

/-- Return every descriptor in device (R396). -/
def Mach.returnDescs (m : Mach) (r : Nat) : Mach :=
  let d := m.get (MsgRingDone.doneTail r)
  let m1 := if m.bme then (List.range (m.inDevice r)).foldl (fun acc k => acc.hostWrite (acc.descAddr r (d + k) + 8) (leBytes 4 0 ++ leBytes 2 1 ++ leBytes 2 0)) m
            else m
  let m2 := m1.put (MsgRingDone.doneTail r) (m1.get (MsgRingProd.prod r))
  if m2.bme then m2.writeStatus r else m2

/-- Forget a ring's outstanding read and its stop. -/
def Mach.clearRing (m : Mach) (r : Nat) : Mach :=
  let bit := BitVec.ofNat 16 (2 ^ r)
  (({ m with msg := { m.msg with stopped := m.msg.stopped &&& ~~~bit, reading := m.msg.reading &&& ~~~bit } } : Mach).forgetDesc r)

/-- Clearing enable (R396). Where no memory request may be issued the open buffer is dropped. -/
def Mach.disableRing (m : Mach) (r : Nat) : Mach :=
  if !m.on (MsgRingCtl.enable r) then m
  else
    let m1 := if m.bme then m.closeRing r false else m.dropBuf r
    (((m1.returnDescs r).clearRing r).dropAllWaiting r).put (MsgRingCtl.enable r) 0

/-- Setting enable: delivery resumes from the kept indices (R396). -/
def Mach.enableRing (m : Mach) (r : Nat) : Mach := if m.on (MsgRingCtl.enable r) then m else (m.clearRing r).put (MsgRingCtl.enable r) 1

/-- May a path write a MSG register now? -/
def Mach.msgOpen (m : Mach) (p : Path) : Bool := m.pathUp p && m.reaches 0x780000

def execProdWrite (p : Path) (ring : Fin 16) (prod : BitVec 16) (s : State) : Host.Outcome State Fault Refusal :=
  s.onM fun m => if m.msgOpen p then m.prodWrite ring.val prod.toNat else m
def execRingEnable (p : Path) (ring : Fin 16) (s : State) : Host.Outcome State Fault Refusal :=
  s.onM fun m => if m.msgOpen p then m.enableRing ring.val else m
def execRingDisable (p : Path) (ring : Fin 16) (s : State) : Host.Outcome State Fault Refusal :=
  s.onM fun m => if m.msgOpen p then m.disableRing ring.val else m

/-- The end of a ring's descriptor read: the buffer address, or a failure, which is never retried: AER reports it, HL_PCIE_STAT holds its bit,
and the ring stops (R376, R401). -/
def Mach.readEnd (m : Mach) (r : Nat) (x : DWord ⊕ ReadFail) : Mach :=
  if !m.msg.reading.getLsbD r then m
  else
    let m1 : Mach := { m with msg := { m.msg with reading := m.msg.reading &&& ~~~(BitVec.ofNat 16 (2 ^ r)) } }
    match x with
    | .inl a =>
      let m2 := m1.forgetDesc r
      { m2 with msg := { m2.msg with descs := Tab.insert m2.msg.descs r (BitVec.ofNat 64 (a.toNat / 4096 * 4096)) } }
    | .inr f => ((m1.aerReport f).flag f.sticky).stopRing r f.cause

def execCompletion (ring : Fin 16) (status : CplStatus) (s : State) : Host.Outcome State Fault Refusal :=
  s.onM fun m => m.readEnd ring.val (match status with | .ok a => .inl a | .ur => .inr .ur | .ca => .inr .ca | .poisoned => .inr .poisoned)
def execCompletionTimeout (ring : Fin 16) (s : State) : Host.Outcome State Fault Refusal := s.onM fun m => m.readEnd ring.val (.inr .timeout)

/-- Buffers marked while no memory request could be issued close when one may (R377). -/
def Mach.closeDue (m : Mach) : Mach := (List.range 16).foldl (fun acc r => if (acc.buf r).due then acc.closeRing r false else acc) m

/-! ## Resets of the links and of MSG (R397-R399) -/

/-- One ring at an endpoint reset: disabled without write-back, and what it holds is dropped (R398). -/
def Mach.resetRing (m : Mach) (r : Nat) : Mach :=
  let m1 := ((m.dropAllWaiting r).dropBuf r).put (MsgRingCtl.enable r) 0
  ((m1.clearRing r).setCloses r 0).put (MsgRingDone.doneTail r) (m1.get (MsgRingProd.prod r))

/-- The endpoint is reset and the link is down (R398). -/
def Mach.endpointReset (m : Mach) : Mach :=
  let m1 := (List.range 16).foldl Mach.resetRing m
  let m2 : Mach := { m1 with host := { m1.host with linkUp := false, cfg := [], msixTable := [], pba := 0 } }
  ((m2.flag HlPcieStat.linkReset).put HlPcieStat.speed 0).put HlPcieStat.width 0

/-- Close every open buffer and publish done_tail on every enabled ring (R397, R405). -/
def Mach.settleRings (m : Mach) : Mach :=
  let m1 := (List.range 16).foldl (fun acc r =>
    if acc.on (MsgRingCtl.enable r) ∧ acc.bme then (acc.closeRing r false).writeStatus r else acc) m
  m1.closeUsb

/-- Every waiting and staged message is dropped and counted. -/
def Mach.dropStaged (m : Mach) : Mach := (List.range 17).foldl (fun acc d => (acc.dropAllWaiting d).dropBuf d) m

/-- Ready buffers of EP2 IN are dropped and counted (R399). -/
def Mach.dropUsbReady (m : Mach) : Mach :=
  let m1 := (m.msg.usbReady.flatMap (·.scopes)).foldl (fun acc sc => acc.countDrop usbDest sc) m
  { m1 with msg := { m1.msg with usbReady := [] } }

/-- FENCE of function 0x06 (R397). -/
def Mach.msgFence (m : Mach) : Mach := (m.settleRings.dropStaged).dropUsbReady

/-! ## The MSG stitch (R388, R404) -/

/-- Record a MSG stitch fault (R404). -/
def Mach.msgFault (m : Mach) (h : StitchHdr) (op code : Nat) : Mach :=
  (((((m.put MsgFaultLast.lane (b2n h.express)).put MsgFaultLast.op op).put MsgFaultLast.code code).flag MsgFaultLast.valid).flag
    MsgStatus.fault).stitchFault h 8 code

/-- The fault of a SEND, in the order of Table HL-17; the payload's code and its ECC are looked at once the range is known good. -/
def Mach.sendCode (m : Mach) (p : SendP) : Option Nat :=
  let t := p.type.toNat
  let n := p.length.toNat
  let rangeOk := decide (n ≤ 4056 ∧ p.src.toNat % 4 = 0) && hubOk p.src.toNat n
  let ev := leNat ((m.hub.read p.src.toNat n).take 2)
  if t = 0 ∨ 8 < t ∨ (t = 7 ∧ rangeOk ∧ ev < 0x100) then some 1
  else if !rangeOk then some 2
  else if p.rings = 0 ∧ !p.usb then some 3
  else if 95 < p.skein.toNat ∧ p.skein ≠ 0xFF then some 4
  else if !(m.hub.ues p.src.toNat n).isEmpty then some 5
  else none

/-- Start a SEND. -/
def Mach.startSend (m : Mach) (h : StitchHdr) (p : SendP) : Mach :=
  let n := p.length.toNat
  match m.sendCode p with
  | some 5 => (m.hubRead p.src.toNat n).2.2.msgFault h 1 5
  | some c => m.msgFault h 1 c
  | none =>
    let r := m.hubRead p.src.toNat n
    let m1 := r.2.2.begin .msg ⟨h, .send p⟩ true
    m1.frame p.type.toNat p.skein.toNat (b2n p.frameTs) (if p.tsNow then m1.tb else p.timestamp) r.1
      (BitVec.ofNat 17 (p.rings.toNat + 65536 * b2n p.usb))

/-- Start a FLUSH: every open buffer of the named destinations closes. -/
def Mach.startFlush (m : Mach) (h : StitchHdr) (rings : BitVec 16) (usb : Bool) : Mach :=
  let m1 := (List.range 16).foldl (fun acc r => if rings.getLsbD r then acc.closeRing r false else acc) m
  (if usb then m1.closeUsb else m1).begin .msg ⟨h, .flush rings usb⟩ true

/-- An unlisted op (Table HL-17). -/
def Mach.startMsgOther (m : Mach) (h : StitchHdr) (op : BitVec 4) : Mach := m.msgFault h op.toNat 6

def execSend (h : StitchHdr) (p : SendP) (s : State) : Host.Outcome State Fault Refusal :=
  s.onM fun m => m.arrive .msg ⟨h, .send p⟩ (m.idle .msg) fun m => m.startSend h p
def execFlush (h : StitchHdr) (rings : BitVec 16) (usb : Bool) (s : State) : Host.Outcome State Fault Refusal :=
  s.onM fun m => m.arrive .msg ⟨h, .flush rings usb⟩ (m.idle .msg) fun m => m.startFlush h rings usb

end Sys2Proof.Machine
end

