-- ==== Sys2Proof/Machine/SkeinState.lean ====
section
/-! DEFINITION. The skein table's fields, the stash die's blocks, and the loss of a skein's state (09_skeins.md R273, R283, R299, R303, R304). -/

namespace Sys2Proof.Machine

/-! ## Fields of the tables in hub SRAM (Tables SK-1, SK-2) -/

def Mach.skPut (m : Mach) (s off n v : Nat) : Mach := m.hubPut (skEntry s off) n v
def Mach.skSetFlag (m : Mach) (s bit : Nat) (v : Bool) : Mach :=
  let f := m.sk s 4 1
  m.skPut s 4 1 (if v then (if (f / 2 ^ bit) % 2 = 1 then f else f + 2 ^ bit) else (if (f / 2 ^ bit) % 2 = 1 then f - 2 ^ bit else f))
/-- Count, holding at the field's largest value. -/
def Mach.skBump (m : Mach) (s off n : Nat) : Mach := m.skPut s off n (Nat.min (m.sk s off n + 1) (2 ^ (8 * n) - 1))

def Mach.slotBytes (m : Mach) (i : Nat) : Nat := m.hubNat (slotAddr i + 4) 4
def Mach.slotUse (m : Mach) (i : Nat) : SlotUse := vget m.stash.slots (ix 24 i)
def Mach.setSlot (m : Mach) (i : Nat) (u : SlotUse) : Mach := { m with stash := { m.stash with slots := vset m.stash.slots (ix 24 i) u } }
def Mach.stashPresent (m : Mach) : Bool := m.on GlCaps.stashPresent

/-! ## The stash die (R283, R303) -/

def blockBytes : Nat := 256
def crcGood : Nat → Nat := fun _ => 0
def Mach.stashRead (m : Mach) (a n : Nat) : List Byte := Memory.read zeroByte m.stash.mem a n
/-- Write bytes with a good (0) or failing (2) CRC of their block. -/
def Mach.stashWrite (m : Mach) (a : Nat) (bs : List Byte) (crc : Nat := 0) : Mach :=
  { m with stash := { m.stash with mem := Memory.write zeroByte m.stash.mem a bs, crc := Tab.set crcGood m.stash.crc (a / blockBytes) crc } }
/-- Zero a range of whole blocks, with valid CRCs. -/
def Mach.stashZero (m : Mach) (a n : Nat) : Mach :=
  { m with stash := { m.stash with
      mem := m.stash.mem.filter fun e => !(a ≤ e.1 && e.1 < a + n)
      crc := m.stash.crc.filter fun e => !(a / blockBytes ≤ e.1 && e.1 < (a + n) / blockBytes) } }

/-- Check a block's CRC at a read: good or not after the one retry, which is counted when it matches. -/
def Mach.crcRead (m : Mach) (block : Nat) : Bool × Mach :=
  match Tab.get crcGood m.stash.crc block with
  | 0 => (true, m)
  | 1 => (true, { (m.bump StashRetryCount.count) with stash := { m.stash with crc := Tab.set crcGood m.stash.crc block 0 } })
  | _ => (false, m)

/-- A skein's state area (Table SK-4). -/
def stateArea (s t : Nat) : Nat := s * 0x400000 + t * 0x100000
def overhangArea (t : Nat) : Nat := 0x18000000 + t * 0x1000000

/-- Start of a model's overhang area in tile t's part, and its length (R284). -/
def Mach.modelArea (m : Mach) (model t : Nat) : Option (Nat × Nat) :=
  (m.cast.models.find? fun p => p.model == model).map fun p => (p.overhang.getD t (0, 0)).map (overhangArea t + ·) id

/-- The placed model whose overhang area holds a stash address. -/
def Mach.overhangModel (m : Mach) (a : Nat) : Option Nat :=
  (m.cast.models.find? fun p => (List.range 4).any fun t =>
    match p.overhang[t]? with | some (o, n) => decide (overhangArea t + o ≤ a ∧ a < overhangArea t + o + n) | none => false).map (·.model)

/-! ## Losing and restarting a state (R279, R299, R303, R304) -/

/-- Zero n bytes at an SP address of a tile, with tag 0. -/
def Mach.spZero (m : Mach) (t : Fin 4) (addr : Word) (n : Nat) : Mach :=
  match m.spPlace t addr n with
  | none => m
  | some l => (m.locWrite l (List.replicate n (some (0, false))) 0).2

/-- Zero the slot of a resident skein in every tile. -/
def Mach.zeroSlot (m : Mach) (s : Nat) : Mach :=
  let i := m.sk s 1 1
  if 24 ≤ i then m else (List.range 4).foldl (fun acc t => acc.spZero (ix 4 t) (m.slotSp i) (m.sk s 8 4)) m
def Mach.zeroState (m : Mach) (s : Nat) : Mach := (List.range 4).foldl (fun acc t => acc.stashZero (stateArea s t) (m.sk s 8 4)) m

/-- The skein's state is lost: it restarts cold in its slot and STATE_LOST is sent (Table SK-8). -/
def Mach.loseState (m : Mach) (s reason : Nat) (block : Option Nat) : Mach :=
  let steps := m.sk s 0x18 8
  let m1 := (m.zeroSlot s).skPut s 0x18 8 0
  let m2 := if reason = 1 then (m1.zeroState s).skPut s 0x0E 2 0 else m1
  let m3 := (((m2.skSetFlag s 5 false).skBump s 0x30 4).bump StashLostCount.count).flag StashStatus.lost
  let m4 := (((m3.put StashLostLast.reason reason).put StashLostLast.skein s).put StashLostLast.block (block.getD 0)).flag StashLostLast.valid
  m4.stateLostMsg s reason steps (block.getD 0xFFFFFFFF)

/-- What a stitch command leaves behind it: each skein whose state a step's read found uncorrectable restarts cold with STATE_LOST reason 3
(R304), once. -/
def Mach.settle (m : Mach) : Mach :=
  match m.struck with
  | [] => m
  | ss => ss.eraseDups.foldl (fun acc s => acc.loseState s 3 none) { m with struck := [] }

/-- A stitch's work that reads scratchpads: none is struck before it, and what it strikes is settled when it ends. -/
def Mach.settled (m : Mach) (work : Mach → Mach) : Mach := (work { m with struck := [] }).settle

end Sys2Proof.Machine
end

