-- ==== Sys2Proof/Machine/Scratchpad.lean ====
section
/-! DEFINITION. Scratchpad commands: BANK_GRANT, SP_READ, SP_WRITE, CORRECTED_WRITEBACK, SCRUB_READ, SP_WINDOW_ACCESS
(05_scratchpads.md). -/

namespace Sys2Proof.Machine

/-! ## Arbitration (R148, Table SP-3) -/

/-- Priority of a requester, smallest first; array order and local before neighbour break ties. -/
def reqPrio : Requester → Nat
  | .injection a => a.val
  | .shadowLoad => 4
  | .drainWrite => 5
  | .veRead => 6
  | .veWrite => 7
  | .expressLocal => 8
  | .expressNeighbour => 9
  | .rowLocal => 10
  | .rowNeighbour => 11
  | .stashTraffic => 12
  | .window => 13
  | .scrubber => 14
  | .march => 15

/-- Key of a requester's consecutive losses at a bank. -/
def lostKey (bank : Nat) (r : Requester) : Nat := bank * 32 + reqPrio r
def noLoss : Nat → Nat := fun _ => 0

/-- The requester with the smallest priority number. -/
def bestOf : List Requester → Option Requester
  | [] => none
  | r :: rs => match bestOf rs with | none => some r | some b => some (if reqPrio b < reqPrio r then b else r)

/-- The requester granted in a bank cycle: one that has lost 4,096 times goes first (R148). -/
def grantee (x : Sp) (bank : Nat) (rs : List Requester) : Option Requester :=
  match bestOf (rs.filter fun r => decide (4096 ≤ Tab.get noLoss x.lost (lostKey bank r))) with
  | some r => some r
  | none => bestOf rs

/-- Is the grant an age override: an aged requester one that has lost 4,096 times? -/
def overrides (x : Sp) (bank : Nat) (g : Requester) : Bool :=
  decide (4096 ≤ Tab.get noLoss x.lost (lostKey bank g))

/-- One bank cycle: one grant, a loss for every other requester; a march test stops
for a stitch, neighbour or host access (R148, R158). -/
def Mach.bankGrant (m : Mach) (t : Fin 4) (bank : Fin 32) (rs : List Requester) : Mach :=
  let x := (m.tile t).sp
  match grantee x bank.val rs with
  | none => m
  | some g =>
    let lost := rs.filter (· != g)
    let m1 := m.modSp t fun x =>
      { x with lost := lost.foldl (fun l r => Tab.set noLoss l (lostKey bank.val r) (Nat.min (Tab.get noLoss l (lostKey bank.val r) + 1) 4096))
                 (Tab.set noLoss x.lost (lostKey bank.val g) 0) }
    let m2 := if overrides x bank.val g then ((m1.bump (SpAgeCount.count t)).gauge (tileGauge t) 0x32 (some bank.val) 1) else m1
    let m3 := if g = .march ∨ g = .scrubber then m2 else m2.stopMarch t bank.val
    (m3.gauge (tileGauge t) 0x30 (some bank.val) 1).gauge (tileGauge t) 0x31 (some bank.val) lost.length

def execBankGrant (t : Fin 4) (bank : Fin 32) (requests : List Requester) (s : State) : Host.Outcome State Fault Refusal :=
  s.onM fun m => m.bankGrant t bank requests

/-! ## Line accesses -/

/-- A granted read of a stitch of tile t: the reply waits at the requester (R141, R152, R163-R166). -/
def execSpRead (t : Fin 4) (addr : Word) (len : Fin 65) (age : BitVec 4) (s : State) : Host.Outcome State Fault Refusal :=
  s.onM fun m => m.settled fun m =>
    let r := m.spRead t addr len.val age.toNat
    r.2.modSp t fun x => { x with replyData := r.1.data.map Prod.fst, replyStatus := r.1.status }

/-- A granted write of a stitch of tile t; W is written only by a stitch that the pattern marks as a weight write (R141, R151, R156, R164,
R166). -/
def execSpWrite (t : Fin 4) (addr : Word) (bytes : List (Option Byte)) (s : State) (weightWrite : Bool := false) : Host.Outcome State Fault Refusal :=
  s.onM fun m =>
    let r := m.spWrite t addr (bytes.map fun b => b.map fun v => (v, false)) weightWrite
    r.2.modSp t fun x => { x with replyData := [], replyStatus := r.1 }

/-! ## Repair and scrubbing (R159, R163) -/

/-- The bank's next free cycle writes back its oldest corrected word; one that a write has overtaken is gone from the list. -/
def Mach.writeBack (m : Mach) (t : Fin 4) (bank : Nat) : Mach :=
  match (m.tile t).sp.writeback.find? fun e => e.1 == bank with
  | none => m
  | some e => m.modSp t fun x => { x with mem := x.mem.repair (8 * lineNo bank e.2.1 + e.2.2), writeback := x.writeback.erase e }

def execCorrectedWriteback (t : Fin 4) (bank : Fin 32) (s : State) : Host.Outcome State Fault Refusal :=
  s.onM fun m => m.writeBack t bank.val

def zeroPos : Nat → Nat := fun _ => 0

/-- The scrubber reads the bank's next line while `SP_CTL.scrub_en` is 1; the tag is not checked. -/
def Mach.scrub (m : Mach) (t : Fin 4) (bank : Nat) : Mach :=
  if m.on (SpCtl.scrubEn t) then
    let l := Tab.get zeroPos (m.tile t).sp.scrubPos bank
    let m1 := (m.bankRead t bank l 0 64 15 true).2
    m1.modSp t fun x => { x with scrubPos := Tab.set zeroPos x.scrubPos bank ((l + 1) % bankLines) }
  else m

def execScrubRead (t : Fin 4) (bank : Fin 32) (s : State) : Host.Outcome State Fault Refusal := s.onM fun m => m.scrub t bank.val

/-! ## The data window (R11, R12, R156, R162, R168, R170) -/

/-- The region and its offset that window offset x reaches; `none` beyond the region's end. A region code that the mode lacks acts as
the first region (Table SP-8). -/
def Mach.windowLoc (m : Mach) (t : Fin 4) (x n : Nat) : Option SpLoc :=
  let sp := (m.tile t).sp
  let code := m.get (SpWinPage.region t)
  let r := match sp.region code with | some _ => code | none => if sp.unified then 3 else 0
  match sp.region r with
  | none => none
  | some (f, k) =>
    let off := m.get (SpWinPage.page t) * 524288 + x
    if off + n ≤ k * bankBytes then some ⟨t, r, f, k, off⟩ else none

/-- A window read: bytes and status; zeros for an access that breaks R11 (R170). -/
def Mach.windowRead (m : Mach) (p : Path) (t : Fin 4) (off len : Nat) : List Byte × Status × Mach :=
  if windowOk p off len true then
    match m.windowLoc t off len with
    | none => (List.replicate len 0, .ok, m)
    | some l => let r := m.locRead l len 15 true; (r.1.data.map Prod.fst, r.1.status, r.2)
  else (List.replicate len 0, .ok, m)

/-- May a window write reach W now (R156)? -/
def Mach.wProtected (m : Mach) (l : SpLoc) : Bool := l.inW m && (m.phase == phRunning || m.phase == phIdle)

/-- A window write, with tag 0 (R151). -/
def Mach.windowWrite (m : Mach) (p : Path) (t : Fin 4) (off : Nat) (bs : List (Option Byte)) : Status × Mach :=
  if windowOk p off bs.length (bs.all Option.isSome) then
    match m.windowLoc t off bs.length with
    | none => (.ok, m)
    | some l => if m.wProtected l then (.ok, m.flag (SpStatus.wProtect t)) else m.locWrite l (bs.map fun b => b.map fun v => (v, false)) 0
  else (.ok, m)

/-- The reply bytes (and, on PCI Express, status) of a path's last read. The USB control path carries the
status behind the value (Table HL-4); a core's goes to the load that awaits it (R232). -/
def Mach.pathReply (m : Mach) (p : Path) (bs : List Byte) (st : Status := .ok) : Mach :=
  match p with
  | .pcie => { m with host := { m.host with pcieReply := bs, pcieStatus := st } }
  | .spi => { m with host := { m.host with spiReply := bs } }
  | .usb => { m with host := { m.host with usbReply := (bs ++ [0, 0, 0, 0]).take 4 ++ [BitVec.ofNat 8 st.code, 0, 0, 0] } }
  | .core c => m.modCore c fun k => { k with devLoad := k.devLoad.map fun d => { d with value := BitVec.ofNat 32 (leNat (bs.take 4)), status := st } }

/-- n bytes of a value, most significant first. -/
def beBytes (n v : Nat) : List Byte := (leBytes n v).reverse
def spiRead : Byte := 0x0B

/-- What a READ frame of SPI returns behind its pending bytes; the CRC-8 covers command, address and data (Table HL-5). -/
def spiFrame (a v status : Nat) : List Byte :=
  0xA5 :: (beBytes 4 v ++ [BitVec.ofNat 8 status, crc8 (spiRead :: (beBytes 3 a ++ beBytes 4 v))])

/-- The reply to a read at an address of the map: a path's reply, which SPI frames. -/
def Mach.wordReply (m : Mach) (p : Path) (a : Nat) (bs : List Byte) (st : Status := .ok) : Mach :=
  match p with
  | .spi => m.pathReply .spi (spiFrame a (leNat bs) st.code)
  | _ => m.pathReply p bs st

/-- In FAILED a host window write to W in split mode is performed (R156), also while the tile's function is down (log entry 83). -/
def Mach.failedW (m : Mach) (t : Fin 4) (off n : Nat) : Bool :=
  m.phase == phFailed && (match m.windowLoc t off n with | some l => l.inW m | none => false)

/-- Does a path's write of n bytes reach its block now (R13, R156)? -/
def Mach.writeReaches (m : Mach) (a n : Nat) : Bool :=
  m.reaches a || (match target a with | .spWindow t off => m.failedW t off n | _ => false)

def execSpWindowAccess (p : Path) (t : Fin 4) (off : BitVec 19) (op : WinOp) (s : State) : Host.Outcome State Fault Refusal :=
  s.onM fun m =>
    let base := 0x180000 + 0x100000 * t.val
    match op with
    | .read n =>
      if m.pathUp p && m.reaches base then let r := m.windowRead p t off.toNat n; r.2.2.wordReply p (base + off.toNat) r.1 r.2.1
      else m.wordReply p (base + off.toNat) (List.replicate n 0)
    | .write bs => if m.pathUp p && m.writeReaches (base + off.toNat) bs.length then (m.windowWrite p t off.toNat bs).2 else m

end Sys2Proof.Machine
end

