-- ==== Sys2Proof/Machine/Annealer.lean ====
section
/-! DEFINITION. Dzidakan annealer commands: RUN, STOP, COPY, SWEEP_END, RUN_END, PROBLEM_WINDOW_WRITE (10_dzidakan_annealer.md). -/

namespace Sys2Proof.Machine

/-! ## Problem memory (R308-R313, Table DZ-1) -/

def dzFields : Nat := 0x400000
def dzInit : Nat := 0x408000
def dzGroups : Nat := 0x410000
def dzCouplers : Nat := 0x480000
def spins : Nat := 16384

/-- The rows of Table DZ-1: base and length. -/
def dzRows : List (Nat × Nat) := [(0, 0x400000), (dzFields, 0x8000), (dzInit, 0x800), (dzGroups, 0x8000), (dzCouplers, 0x80000)]
def dzAssigned (a : Nat) : Bool := dzRows.any fun r => decide (r.1 ≤ a ∧ a < r.1 + r.2)
/-- Does [a, a + n) touch the group map or the coupler area (R313)? -/
def dzTouchesIndex (a n : Nat) : Bool :=
  n != 0 && ([(dzGroups, 0x8000), (dzCouplers, 0x80000)] : List (Nat × Nat)).any fun r => decide (r.1 < a + n ∧ a < r.1 + r.2)

/-- Write problem memory: unassigned addresses discard; a write performed to the group map or the coupler area clears checked (R309,
R313). -/
def Mach.dzWrite (m : Mach) (a : Nat) (bs : List (Option Byte)) : Mach :=
  let ok := (List.range bs.length).map fun i => if dzAssigned (a + i) then bs.getD i none else none
  let m1 := { m with dza := { m.dza with mem := m.dza.mem.writeOpt a ok } }
  if dzTouchesIndex a bs.length && ok.any Option.isSome then m1.put DzStatus.checked 0 else m1

def colour (k : Nat) : Nat := (k % 8 + k / 8) % 2

/-- Field h of a spin (Table DZ-1). -/
def dzH (mem : EccMem) (i : Nat) : Int := signed 12 (mem.nat (dzFields + 2 * i) 2)
/-- Group and membership of a spin (R312). -/
def dzGroup (mem : EccMem) (i : Nat) : Option Nat :=
  let w := mem.nat (dzGroups + 2 * i) 2
  if bitsOf w 15 15 = 1 then some (bitsOf w 11 0) else none
/-- Intra-block coupling of two offsets of block k. -/
def dzJ (mem : EccMem) (k a b : Nat) : Int :=
  if a = b then 0 else signed 8 (mem.nat (k * 0x10000 + 256 * Nat.min a b + Nat.max a b) 1)

/-- A valid coupler: its entry, spins and weight (R311). -/
structure Coupler where
  entry : Nat
  i : Nat
  j : Nat
  w : Int
deriving DecidableEq, Repr

def dzCouplerList (mem : EccMem) : List Coupler :=
  (List.range 65536).filterMap fun n =>
    let v := mem.nat (dzCouplers + 8 * n) 8
    if bitsOf v 63 63 = 1 then some ⟨n, bitsOf v 13 0, bitsOf v 29 16, signed 8 (bitsOf v 39 32)⟩ else none

/-- The problem as a run sees it: problem memory, valid couplers, active blocks, penalty weight or 0 (R310, R320). -/
structure Problem where
  mem : EccMem
  cs : List Coupler
  active : BitVec 64
  pen : Nat
deriving DecidableEq, Repr

def Problem.isActive (q : Problem) (i : Nat) : Bool := q.active.getLsbD (i / 256)
/-- The group of a spin of an active block. -/
def Problem.group (q : Problem) (i : Nat) : Option Nat := if q.isActive i then dzGroup q.mem i else none
def Problem.h (q : Problem) (i : Nat) : Int := dzH q.mem i + (if (q.group i).isSome then (q.pen : Int) else 0)
/-- J_eff (R310), with the penalty of two members of one group (R320). -/
def Problem.j (q : Problem) (i j : Nat) : Int :=
  (if i / 256 = j / 256 then
      dzJ q.mem (i / 256) (i % 256) (j % 256) -
        (if i ≠ j ∧ (q.group i).isSome ∧ q.group i = q.group j then 2 * (q.pen : Int) else 0)
    else (q.cs.filter fun c => (c.i == i && c.j == j) || (c.i == j && c.j == i)).foldl (fun acc c => acc + c.w) 0)

/-- Local field u_i (R310). -/
def Problem.u (q : Problem) (x : BitVec 16384) (i : Nat) : Int :=
  let own := (List.range 256).foldl (fun acc o =>
    let s := i / 256 * 256 + o
    if s ≠ i ∧ x.getLsbD s then acc + q.j i s else acc) (0 : Int)
  let far := q.cs.foldl (fun acc c =>
    if c.i = i ∧ x.getLsbD c.j then acc + c.w else if c.j = i ∧ x.getLsbD c.i then acc + c.w else acc) (0 : Int)
  q.h i + own + far

/-- The energy from scratch (R310). -/
def Problem.energy (q : Problem) (x : BitVec 16384) : Int :=
  (List.range spins).foldl (fun acc i =>
    if x.getLsbD i then
      let pairs := (List.range (i % 256)).foldl (fun s o =>
        let j := i / 256 * 256 + o
        if x.getLsbD j then s + q.j j i else s) (0 : Int)
      acc - q.h i - pairs
    else acc) (0 : Int) -
  q.cs.foldl (fun s c => if x.getLsbD c.i ∧ x.getLsbD c.j then s + c.w else s) (0 : Int)

/-- Members of group g in the block of a spin, ascending. -/
def blockMembers (mem : EccMem) (k g : Nat) : List Nat := ((List.range 256).map (256 * k + ·)).filter fun i => dzGroup mem i == some g

/-- The groups that have a member in a block, ascending. -/
def blockGroups (mem : EccMem) (k : Nat) : List Nat :=
  (List.range 4096).filter fun g => (List.range 256).any fun o => dzGroup mem (256 * k + o) == some g

def activeBlocks (active : BitVec 64) : List Nat := (List.range 64).filter fun k => active.getLsbD k
def colourBlocks (active : BitVec 64) (c : Nat) : List Nat := (activeBlocks active).filter fun k => colour k == c
/-- A block's unit: its index among the active blocks of its colour, modulo 16 (R317). -/
def unitOf (active : BitVec 64) (k : Nat) : Nat := ((colourBlocks active (colour k)).countP fun b => decide (b < k)) % 16

/-- The check of R313: kind and index of the first offending item, couplers first. -/
def dzCheck (mem : EccMem) (active : BitVec 64) : Option (Nat × Nat) :=
  match (dzCouplerList mem).find? fun c => colour (c.i / 256) == colour (c.j / 256) with
  | some c => some (1, c.entry)
  | none =>
    (List.range 4096).findSome? fun g =>
      let ms := (List.range spins).filter fun i => dzGroup mem i == some g
      if !ms.any fun i => active.getLsbD (i / 256) then none
      else if ms.any fun i => i / 256 != ms.headD 0 / 256 then some (2, g)
      else if ms.length < 2 ∨ 64 < ms.length then some (3, g)
      else none

/-! ## Random source (R318, R321) -/

def xorshift (x : Word) : Word :=
  let a := x ^^^ (x <<< 13)
  let b := a ^^^ (a >>> 17)
  b ^^^ (b <<< 5)

def orOne (x : Word) : Word := if x = 0 then 1 else x
def genSeed (seed : Word) (r u : Nat) : Word := orOne (seed ^^^ BitVec.ofNat 32 ((32 * u + r + 1) * 0x9E3779B9))

/-- atanh(a / b) in units of 2^-96, from its series. -/
def atanhFix (a b : Nat) : Nat :=
  ((List.range 40).foldl (fun (acc : Nat × Nat) k => (acc.1 + acc.2 / (2 * k + 1), acc.2 * (a * a) / (b * b))) (0, 2 ^ 96 * a / b)).1

/-- L(r) = -ln((r + 0.5) / 65,536) = 17 ln 2 - ln(2r + 1), to nearest FP32 (R318). -/
def logL (r : Nat) : Word :=
  let v := 2 * r + 1
  let k := Nat.log2 v
  let f := 2 * atanhFix (v - 2 ^ k) (v + 2 ^ k)
  (round32 0 false false ((17 - k) * (2 * atanhFix 1 3) - f) (-96)).v

/-- An integer as FP32, nearest-even. -/
def intTo32 (i : Int) : Word := (round32 0 false (decide (i < 0)) i.natAbs 0).v

/-- Accept a move of energy dE at a temperature (R318). -/
def accepts (beta : Nat) (dE : Int) (r16 : Nat) : Bool :=
  decide (dE ≤ 0) ||
    (match fp16 beta with
     | .fin s mm e => fpCmp (fp32 (round32 0 false s (mm * dE.natAbs) e).v) (fp32 (logL r16)) < 0
     | _ => false)

/-! ## Replicas (R316-R320) -/

def setBit (x : BitVec 16384) (i : Nat) (b : Bool) : BitVec 16384 :=
  if b then x ||| ((1 : BitVec 16384) <<< i) else x &&& ~~~((1 : BitVec 16384) <<< i)

/-- A replica being swept, with its accepted moves. -/
structure Sweep where
  conf : BitVec 16384
  energy : Int
  gens : Vector Word 16
  moves : Nat
deriving DecidableEq, Repr

def Sweep.move (s : Sweep) (g : Vector Word 16) (ok : Bool) (conf : BitVec 16384) (dE : Int) : Sweep :=
  if ok then { conf := conf, energy := s.energy + dE, gens := g, moves := s.moves + 1 } else { s with gens := g }

/-- Visit spin i (R318, R319): a flip, or in paired mode a pair move. -/
def visit (q : Problem) (paired : Bool) (beta u : Nat) (s : Sweep) (i : Nat) : Sweep :=
  let g := xorshift (vget s.gens (ix 16 u))
  let gens := vset s.gens (ix 16 u) g
  let r16 := g.toNat / 65536
  match (if paired then q.group i else none) with
  | none =>
    let dE := if s.conf.getLsbD i then q.u s.conf i else -(q.u s.conf i)
    s.move gens (accepts beta dE r16) (setBit s.conf i (!s.conf.getLsbD i)) dE
  | some grp =>
    if s.conf.getLsbD i then { s with gens := gens }
    else
      match (blockMembers q.mem (i / 256) grp).find? fun a => s.conf.getLsbD a with
      | none => { s with gens := gens }
      | some a =>
        let dE := q.u s.conf a - q.u s.conf i + q.j a i
        s.move gens (accepts beta dE r16) (setBit (setBit s.conf a false) i true) dE

/-- One sweep of a replica: colour 0, then colour 1, blocks ascending, spins in offset order (R317). -/
def sweepReplica (q : Problem) (paired : Bool) (beta : Nat) (s : Sweep) : Sweep :=
  (colourBlocks q.active 0 ++ colourBlocks q.active 1).foldl (fun s k =>
    (List.range 256).foldl (fun s o => visit q paired beta (unitOf q.active k) s (256 * k + o)) s) s

/-- Repair every group of an active block: its lowest 1 stays, or its lowest member becomes 1 (R316). The count of repaired groups. -/
def repairGroups (mem : EccMem) (active : BitVec 64) (x : BitVec 16384) : BitVec 16384 × Nat :=
  (activeBlocks active).foldl (fun acc k =>
    (blockGroups mem k).foldl (fun acc g =>
      let ms := blockMembers mem k g
      let keep := (ms.find? fun i => acc.1.getLsbD i).getD (ms.headD 0)
      let y := ms.foldl (fun y i => setBit y i (i == keep)) acc.1
      (y, acc.2 + b2n (y != acc.1))) acc) (x, 0)

def activeMask (active : BitVec 64) (x : BitVec 16384) : BitVec 16384 :=
  (List.range 64).foldl (fun y k => if active.getLsbD k then y else (List.range 256).foldl (fun y o => setBit y (256 * k + o) false) y) x

/-- The initial configuration of Table DZ-1. -/
def initialConf (mem : EccMem) : BitVec 16384 := BitVec.ofNat 16384 (mem.nat dzInit 2048)

/-- A random configuration: bit 31 of one step of each active spin's unit, in spin order (R316). -/
def randomConf (active : BitVec 64) (gens : Vector Word 16) : BitVec 16384 × Vector Word 16 :=
  (activeBlocks active).foldl (fun acc k =>
    let u := ix 16 (unitOf active k)
    (List.range 256).foldl (fun (acc : BitVec 16384 × Vector Word 16) o =>
      let g := xorshift (vget acc.2 u)
      (setBit acc.1 (256 * k + o) (g.getLsbD 31), vset acc.2 u g)) acc) (0, gens)

/-- Replica r at the start of a run (R316), and how many groups were repaired. -/
def startReplica (q : Problem) (p : RunP) (seed : Word) (used r : Nat) (x : Replica) : Replica × Nat :=
  let gens := Vector.ofFn fun u : Fin 16 => genSeed seed r u.val
  let fin := fun (y : BitVec 16384) (g : Vector Word 16) =>
    let rp := if p.penalty then (y, 0) else repairGroups q.mem q.active y
    ({ conf := rp.1, energy := q.energy rp.1, gens := g, slot := r }, rp.2)
  if p.init.toNat = 2 then let c := randomConf q.active gens; fin c.1 c.2
  else if p.init.toNat = 1 ∨ used ≤ r then fin (activeMask q.active (initialConf q.mem)) gens
  else let y := activeMask q.active x.conf; ({ x with conf := y, energy := q.energy y }, 0)

/-! ## Errors in the problem memory (R339) -/

/-- Does a range hold the word at a byte address? -/
def inRange (lo n a : Nat) : Bool := decide (lo ≤ a ∧ a < lo + n)

/-- Words of the group map and the coupler area, which the check reads (R313). -/
def checkReads (a : Nat) : Bool := inRange dzGroups 0x8000 a || inRange dzCouplers 0x80000 a

/-- Words of an active block's J that hold a byte above the diagonal; the others are never read (R310). -/
def jReads (active : BitVec 64) (a : Nat) : Bool := inRange 0 0x400000 a && active.getLsbD (a / 0x10000) && decide (a % 0x10000 / 256 < a % 256 + 7)

/-- Words of the fields h of an active block. -/
def hReads (active : BitVec 64) (a : Nat) : Bool := inRange dzFields 0x8000 a && active.getLsbD ((a - dzFields) / 512)

/-- Words that a sweep reads: couplings, couplers and the groups of active blocks; the fields are tracked in the lanes (R318, R319). -/
def sweepReads (active : BitVec 64) (a : Nat) : Bool :=
  jReads active a || inRange dzCouplers 0x80000 a || (inRange dzGroups 0x8000 a && active.getLsbD ((a - dzGroups) / 512))

/-- Words that an init reads, which builds fields and energies from scratch; the initial configuration where a replica takes it (R316). -/
def initReads (active : BitVec 64) (conf : Bool) (a : Nat) : Bool :=
  sweepReads active a || hReads active a || (conf && inRange dzInit 0x800 a && active.getLsbD ((a - dzInit) / 32))

/-- The words with wrong bits among those read. -/
def Mach.dzBad (m : Mach) (reads : Nat → Bool) : List (Nat × BitVec 72) := m.dza.mem.flips.filter fun e => reads (8 * e.1)

/-- Books of an uncorrectable word. -/
def Mach.dzUe (m : Mach) (lane : Bool) (w : Nat) : Mach :=
  (((((m.bump DzUeCount.count).put DzUeLast.lane (b2n lane)).put DzUeLast.word w).flag DzUeLast.valid).flag DzStatus.ue).record Flt.dzUe (srcIsl 248) []

/-- The write-back of a corrected word. -/
def Mach.dzRepair (m : Mach) (lane : Bool) (w : Nat) : Mach :=
  if lane then { m with dza := { m.dza with laneFlips := m.dza.laneFlips.filter fun e => e.1 != w } }
  else { m with dza := { m.dza with mem := m.dza.mem.repair w } }

/-- Meet the words of a read of the problem memory or of the lane states: count, repair, log; is one uncorrectable? -/
def Mach.dzMeet (m : Mach) (lane : Bool) (ws : List (Nat × BitVec 72)) : Bool × Mach :=
  ws.foldl (fun acc e =>
    match judge e.2 with
    | .ok => acc
    | .ce _ => (acc.1, (acc.2.bump DzCeCount.count).dzRepair lane e.1)
    | .chk => (acc.1, (acc.2.bump DzChkCount.count).dzRepair lane e.1)
    | .ue => (true, acc.2.dzUe lane e.1)) (false, m)

/-- Meet the words of the problem memory that are read, and the lane states where they are. -/
def Mach.dzMeetRun (m : Mach) (reads : Nat → Bool) (lanes : Bool) : Bool × Mach :=
  let x := m.dzMeet false (m.dzBad reads)
  let y := if lanes then x.2.dzMeet true x.2.dza.laneFlips else (false, x.2)
  (x.1 || y.1, y.2)

/-! ## Faults (R340, Table DZ-6) -/

def dzBusy : Nat := 1
def dzRange : Nat := 2
def dzBeta : Nat := 3
def dzProblem : Nat := 4
def dzNoState : Nat := 5

def Mach.dzNote (m : Mach) (express : Bool) (op code : Nat) : Mach :=
  (((m.put DzFaultLast.lane (b2n express)).put DzFaultLast.op op).put DzFaultLast.code code).flag DzFaultLast.valid

def Mach.dzFault (m : Mach) (h : StitchHdr) (op code : Nat) : Mach := (m.dzNote h.express op code).stitchFault h 7 code

/-- β of a slot as latched from `DZ_BETAn`. -/
def Mach.betaOf (m : Mach) (s : Nat) : BitVec 16 :=
  BitVec.ofNat 16 (if s % 2 = 0 then m.get (DzBeta.lo (s / 2)) else m.get (DzBeta.hi (s / 2)))

/-- A slot below R may not hold a negative value or NaN (Table DZ-5). -/
def betaOk (b : BitVec 16) : Bool := !b.getLsbD 15 && fp16 b.toNat != .nan

/-- Why a RUN faults before acceptance (R315, R331). -/
def runCheck (m : Mach) (p : RunP) : Option Nat :=
  let r := p.replicasM1.toNat + 1
  if m.dza.run.isSome then some dzBusy
  else if p.init.toNat = 3 ∨ p.nSweeps = 0 ∨ p.active = 0 ∨ 8 < p.traceSize.toNat ∨ p.traceBase.toNat % 32 ≠ 0 ∨
    !hubOk p.traceBase.toNat (512 * 2 ^ p.traceSize.toNat) ∨ p.resDst.toNat % 64 ≠ 0 ∨ !hubOk p.resDst.toNat 2432 ∨
    (p.penalty ∧ p.penWeight = 0) ∨ (p.endEn ∧ (p.endEvent.toNat < 8 ∨ 9 < p.endCore.toNat)) then some dzRange
  else if !(List.range r).all fun s => betaOk (m.betaOf s) then some dzBeta
  else if p.init.toNat = 0 ∧ !m.on DzStatus.statesValid then some dzNoState
  else none

def runProblem (mem : EccMem) (p : RunP) : Problem :=
  { mem := mem, cs := dzCouplerList mem, active := p.active, pen := if p.penalty then p.penWeight.toNat else 0 }

/-- The run ends with an outcome; its result waits for RUN_END. -/
def Mach.endRun (m : Mach) (outcome : Nat) : Mach := { m with dza := { m.dza with run := m.dza.run.map fun r => { r with ended := some outcome } } }

/-- An uncorrectable word ends the run at once (R339). -/
def Mach.poisonRun (m : Mach) : Mach := (m.put DzStatus.statesValid 0).endRun 3

/-- Replicas and counters at the start of a checked run (R316). -/
def Mach.initRun (m : Mach) (p : RunP) (seed : Word) : Mach :=
  let q := runProblem m.dza.mem p
  let n := p.replicasM1.toNat + 1
  let st := (List.range 32).map fun r => if r < n then startReplica q p seed m.dza.used r (vget m.dza.reps (ix 32 r)) else (vget m.dza.reps (ix 32 r), 0)
  let reps := Vector.ofFn fun r : Fin 32 => (st.getD r.val (Replica.reset, 0)).1
  let rep := (st.map (·.2)).foldl (· + ·) 0
  let run := m.dza.run.map fun x => { x with repaired := rep }
  let m1 := { m with dza := { m.dza with reps := reps, used := n, run := run } }
  let m2 := if p.init.toNat = 0 then m1 else m1.put DzSweep.count 0
  m2.flag DzStatus.statesValid

/-- A RUN is accepted (R315, R321, R325, R332): its parameters are latched, the check runs where due, and the replicas start. -/
def Mach.acceptRun (m : Mach) (h : StitchHdr) (p : RunP) : Mach :=
  let f := m.fresh
  let ent := m.on DzCtl.seedSrc
  let seed : Word := if ent then f.1.setWidth 32 else m.reg DzSeed.reg
  let m0 := if ent then f.2 else m
  let sameRing := p.traceBase.toNat == m.dza.traceBase && p.traceSize.toNat == m.dza.traceSize && !p.traceReset
  let m1 := ((m0.setReg DzSeedUsed.reg seed).begin .dza ⟨h, .run p⟩ true).flag DzStatus.runActive
  let m2 := if sameRing then m1 else (m1.put DzTraceStat.index 0).put DzTraceLap.lap 0
  let run : DzRun :=
    { hdr := h, p := p, betas := Vector.ofFn fun s : Fin 32 => m.betaOf s.val, driftStop := m.on DzCtl.driftStop, sweeps := 0, exchanges := 0,
      moves := 0, repaired := 0, exchAcc := 0, exchSinceAcc := 0, exchSinceAtt := 0, movesSince := 0, traced := false, ended := none }
  let d : Dza :=
    { m2.dza with
      run := some run, stopReq := false, exchGen := orOne (seed ^^^ 0x5A5A5A5A), traceBase := p.traceBase.toNat, traceSize := p.traceSize.toNat,
      traceSeq := if sameRing then m2.dza.traceSeq else 0 }
  let m3 := { m2 with dza := d }
  let due := p.check || !m.on DzStatus.checked
  let mt := if due then m3.dzMeetRun checkReads false else (false, m3)
  if mt.1 then mt.2.poisonRun
  else
    match (if due then dzCheck mt.2.dza.mem p.active else none) with
    | some bad =>
      ((((((mt.2.put DzCheckLast.kind bad.1).put DzCheckLast.index bad.2).flag DzCheckLast.valid).put DzStatus.checked 0).flag DzStatus.problem).dzNote
        h.express 1 dzProblem).record Flt.dzProblem (srcIsl 248) [] |>.endRun 4
    | none =>
      -- init 1 and init 2 write the lane states anew
      let keep := p.init.toNat = 0
      let m4 := mt.2.flag DzStatus.checked
      let m5 : Mach := if keep then m4 else { m4 with dza := { m4.dza with laneFlips := [] } }
      let x := m5.dzMeetRun (initReads p.active (p.init.toNat = 1 ∨ keep ∧ m5.dza.used < p.replicasM1.toNat + 1)) keep
      if x.1 then x.2.poisonRun else x.2.initRun p seed

/-- A RUN starts at the unit. -/
def Mach.startRun (m : Mach) (h : StitchHdr) (p : RunP) : Mach :=
  match runCheck m p with
  | some code => m.dzFault h 1 code
  | none => m.acceptRun h p

/-- A STOP registers its request; without a run it completes without effect (R330). -/
def Mach.startStop (m : Mach) (h : StitchHdr) : Mach :=
  let m1 := m.begin .dza ⟨h, .stop⟩ true
  if m.dza.run.isSome then { m1 with dza := { m1.dza with stopReq := true } } else m1

def copyCheck (m : Mach) (p : CopyP) : Option Nat :=
  let n := 64 * (p.nLinesM1.toNat + 1)
  if m.dza.run.isSome then some dzBusy
  else if p.src.toNat % 64 ≠ 0 ∨ p.dst.toNat % 64 ≠ 0 ∨ !hubOk p.src.toNat n ∨
    !dzRows.any (fun r => decide (r.1 ≤ p.dst.toNat ∧ p.dst.toNat + n ≤ r.1 + r.2)) then some dzRange
  else none

/-- A COPY writes its lines (R329). Uncorrectable source words stay so in the problem memory. -/
def Mach.startCopy (m : Mach) (h : StitchHdr) (p : CopyP) : Mach :=
  match copyCheck m p with
  | some code => m.dzFault h 3 code
  | none =>
    let n := 64 * (p.nLinesM1.toNat + 1)
    let bad := m.hub.ues p.src.toNat n
    let r := m.hubRead p.src.toNat n
    let m1 := (r.2.2.begin .dza ⟨h, .copy p⟩ true).dzWrite p.dst.toNat (r.1.map some)
    { m1 with dza := { m1.dza with mem := m1.dza.mem.poisonWords (bad.map fun w => w - p.src.toNat / 8 + p.dst.toNat / 8) } }

/-- The annealer's unit takes a stitch unless a swatch test runs (R334). -/
def Mach.dzIdle (m : Mach) : Bool := m.idle .dza && !m.on DzStatus.swatchActive

def execRun (h : StitchHdr) (p : RunP) (s : State) : Host.Outcome State Fault Refusal :=
  s.onM fun m => m.arrive .dza ⟨h, .run p⟩ m.dzIdle fun m => m.startRun h p
def execStop (h : StitchHdr) (s : State) : Host.Outcome State Fault Refusal :=
  s.onM fun m => m.arrive .dza ⟨h, .stop⟩ m.dzIdle fun m => m.startStop h
def execCopy (h : StitchHdr) (p : CopyP) (s : State) : Host.Outcome State Fault Refusal :=
  s.onM fun m => m.arrive .dza ⟨h, .copy p⟩ m.dzIdle fun m => m.startCopy h p

/-! ## After each sweep (R322-R326, R338) -/

/-- Sweep every replica once (R317, R322). -/
def Mach.sweepAll (m : Mach) (r : DzRun) : Mach :=
  let q := runProblem m.dza.mem r.p
  let n := r.p.replicasM1.toNat + 1
  let out := (List.range 32).map fun k =>
    let x := vget m.dza.reps (ix 32 k)
    if k < n then
      let s := sweepReplica q (!r.p.penalty) (vget r.betas (ix 32 x.slot)).toNat { conf := x.conf, energy := x.energy, gens := x.gens, moves := 0 }
      ({ x with conf := s.conf, energy := s.energy, gens := s.gens }, s.moves)
    else (x, 0)
  let mv := (out.map (·.2)).foldl (· + ·) 0
  let m1 := { m with dza := { m.dza with
    reps := Vector.ofFn fun k : Fin 32 => (out.getD k.val (Replica.reset, 0)).1
    run := some { r with sweeps := r.sweeps + 1, moves := r.moves + mv, movesSince := r.movesSince + mv, traced := false } } }
  (m1.bumpMod DzSweep.count).gauge hubGauge 0x80 none n

/-- Compare tracked energies with recomputed ones (R324, R338). -/
def Mach.recompute (m : Mach) (r : DzRun) : Mach :=
  let q := runProblem m.dza.mem r.p
  (List.range (r.p.replicasM1.toNat + 1)).foldl (fun acc k =>
    let x := vget acc.dza.reps (ix 32 k)
    let e := q.energy x.conf
    if x.energy = e then acc
    else
      let d := (clampInt (-8388608) 8388607 (x.energy - e)).1
      let a1 := (((((acc.bump DzDriftCount.count).put DzDriftLast.replica k).put DzDriftLast.diff (wrap 24 d)).flag DzDriftLast.valid).flag
        DzStatus.drift).record Flt.dzDrift (srcIsl 248) []
      let a2 := { a1 with dza := { a1.dza with reps := vset a1.dza.reps (ix 32 k) { x with energy := e } } }
      if r.driftStop then a2.endRun 2 else a2) m

/-- The replica among 0 to R - 1 that holds a slot. -/
def slotHolder (d : Dza) (n s : Nat) : Option (Fin 32) :=
  ((List.range n).find? fun k => (vget d.reps (ix 32 k)).slot == s).map fun k => ix 32 k

/-- D = (β_a - β_b)(E_a - E_b) in FP32 and its acceptance (R323; log entry 26). -/
def exchAccepts (ba bb : BitVec 16) (ea eb : Int) (r16 : Nat) : Bool :=
  let d := (fmul 0 false (fsub 0 false (halfTo32 ba.toNat) (halfTo32 bb.toNat)).v (intTo32 (ea - eb))).v
  if isNan d then false
  else decide (0 ≤ fpCmp (fp32 d) (fp32 0)) || decide (fpCmp (fp32 (d ^^^ 0x80000000)) (fp32 (logL r16)) < 0)

/-- One exchange over the pairs of its parity (R323). -/
def Mach.exchange (m : Mach) (r : DzRun) : Mach :=
  let n := r.p.replicasM1.toNat + 1
  let pairs := (List.range 32).filter fun a => a % 2 == r.exchanges % 2 && decide (a + 1 < n)
  let m1 := pairs.foldl (fun acc a =>
    match slotHolder acc.dza n a, slotHolder acc.dza n (a + 1) with
    | some ra, some rb =>
      let g := xorshift acc.dza.exchGen
      let xa := vget acc.dza.reps ra
      let xb := vget acc.dza.reps rb
      let ok := exchAccepts (vget r.betas (ix 32 a)) (vget r.betas (ix 32 (a + 1))) xa.energy xb.energy (g.toNat / 65536)
      let reps := if ok then vset (vset acc.dza.reps ra { xa with slot := a + 1 }) rb { xb with slot := a } else acc.dza.reps
      let run := acc.dza.run.map fun y =>
        { y with exchAcc := y.exchAcc + b2n ok, exchSinceAcc := y.exchSinceAcc + b2n ok, exchSinceAtt := y.exchSinceAtt + 1 }
      let a1 := { acc with dza := { acc.dza with exchGen := g, reps := reps, run := run } }
      if ok then a1.gauge hubGauge 0x81 none 1 else a1
    | _, _ => acc) m
  { m1 with dza := { m1.dza with run := m1.dza.run.map fun y => { y with exchanges := y.exchanges + 1 } } }

/-- The lowest tracked energy among replicas 0 to R - 1 and the lowest replica that has it. -/
def bestReplica (d : Dza) (n : Nat) : Nat × Int :=
  (List.range n).foldl (fun acc k => let e := (vget d.reps (ix 32 k)).energy; if e < acc.2 then (k, e) else acc) (0, (vget d.reps 0).energy)

def sat32 (n : Nat) : Nat := Nat.min n 0xFFFFFFFF

/-- A trace entry (R325, Table DZ-3). -/
def Mach.traceEntry (m : Mach) : Mach :=
  match m.dza.run with
  | none => m
  | some r =>
    let idx := m.get DzTraceStat.index
    let best := (bestReplica m.dza (r.p.replicasM1.toNat + 1)).2
    let bytes := leBytes 4 m.dza.traceSeq.toNat ++ leBytes 4 (m.get DzSweep.count) ++ leBytes 8 m.now ++ leBytes 8 (wrap 64 best) ++
      leBytes 2 r.exchSinceAcc ++ leBytes 2 r.exchSinceAtt ++ leBytes 4 (sat32 r.movesSince)
    let m1 := m.hubWrite (m.dza.traceBase + 32 * idx) bytes
    let next := (idx + 1) % (16 * 2 ^ m.dza.traceSize)
    let m2 := m1.put DzTraceStat.index next
    let m3 := if next = 0 then m2.bumpMod DzTraceLap.lap else m2
    { m3 with dza := { m3.dza with
      traceSeq := m3.dza.traceSeq + 1
      run := some { r with exchSinceAcc := 0, exchSinceAtt := 0, movesSince := 0, traced := true } } }

/-- Apply a step while the run goes on. -/
def Mach.whileRuns (m : Mach) (f : DzRun → Mach → Mach) : Mach :=
  match m.dza.run with
  | some r => if r.ended.isNone then f r m else m
  | none => m

/-- SWEEP_END: one sweep of every replica and what follows it, in the order of R324. -/
def Mach.sweepEnd (m : Mach) : Mach :=
  m.whileRuns fun r0 m =>
    let mt := m.dzMeetRun (sweepReads r0.p.active) true
    if mt.1 then mt.2.poisonRun
    else
      let m1 := mt.2.sweepAll r0
      let m2 := m1.whileRuns fun r m =>
        if m.get DzSweep.count % 1024 = 0 then
          let x := m.dzMeetRun (hReads r.p.active) false
          if x.1 then x.2.poisonRun else x.2.recompute r
        else m
      let m3 := m2.whileRuns fun r m => if 0 < r.p.exchEvery.toNat ∧ r.sweeps % r.p.exchEvery.toNat = 0 then m.exchange r else m
      let m4 := m3.whileRuns fun r m => if 0 < r.p.traceEvery.toNat ∧ r.sweeps % r.p.traceEvery.toNat = 0 then m.traceEntry else m
      m4.whileRuns fun r m => if m.dza.stopReq then m.endRun 1 else if r.sweeps = r.p.nSweeps.toNat then m.endRun 0 else m

def execSweepEnd (s : State) : Host.Outcome State Fault Refusal := s.onM Mach.sweepEnd

/-! ## The end of a run (R326, Table DZ-4) -/

/-- Groups of a configuration that do not hold exactly one 1 (R320). -/
def brokenGroups (mem : EccMem) (active : BitVec 64) (x : BitVec 16384) : Nat :=
  ((activeBlocks active).map fun k => (blockGroups mem k).countP fun g => (blockMembers mem k g).countP (fun i => x.getLsbD i) != 1).foldl (· + ·) 0

/-- The result block. Without valid states the energies, replicas and configuration are 0 (R315, R339). -/
def resultBytes (m : Mach) (r : DzRun) (outcome : Nat) : List Byte :=
  let n := r.p.replicasM1.toNat + 1
  let valid := m.on DzStatus.statesValid || outcome == 3
  let best := bestReplica m.dza n
  let bx := vget m.dza.reps (ix 32 best.1)
  let holder := fun s => slotHolder m.dza n s
  let z := fun (v : Nat) => if valid then v else 0
  ([BitVec.ofNat 8 outcome, BitVec.ofNat 8 n] : List Byte) ++ leBytes 2 r.hdr.tag.toNat ++ leBytes 4 r.sweeps ++ leBytes 8 (z (wrap 64 best.2)) ++
    ([BitVec.ofNat 8 (z best.1), BitVec.ofNat 8 (z bx.slot)] : List Byte) ++ leBytes 2 r.repaired ++
    leBytes 2 (if r.p.penalty ∧ valid then brokenGroups m.dza.mem r.p.active bx.conf else 0) ++ leBytes 2 0 ++ leBytes 4 (sat32 r.moves) ++
    leBytes 4 r.exchAcc ++ leBytes 8 m.now ++ leBytes 24 0 ++
    ((List.range 32).flatMap fun s =>
      leBytes 8 (match holder s with | some k => if s < n then z (wrap 64 (vget m.dza.reps k).energy) else 0 | none => 0)) ++
    ((List.range 32).map fun s => if s < n then (match holder s with | some k => BitVec.ofNat 8 (z k.val) | none => (0xFF : Byte)) else (0xFF : Byte)) ++
    leBytes 32 0 ++ leBytes 2048 (z bx.conf.toNat)

/-- RUN_END: a final trace entry where due, the result block, run_active clear, the end event (R326, R336). -/
def Mach.runEnd (m : Mach) : Mach :=
  match m.dza.run with
  | none => m
  | some r =>
    match r.ended with
    | none => m
    | some o =>
      let m1 := if 0 < r.p.traceEvery.toNat ∧ 0 < r.sweeps ∧ !r.traced then m.traceEntry else m
      let m2 := m1.hubWrite r.p.resDst.toNat (resultBytes m1 r o)
      let m3 := ({ m2 with dza := { m2.dza with run := none, stopReq := false } }).put DzStatus.runActive 0
      if r.p.endEn then m3.signalCode r.p.endCore.toNat r.p.endEvent.toNat else m3

def execRunEnd (s : State) : Host.Outcome State Fault Refusal := s.onM Mach.runEnd

/-! ## The problem window (R333, R337) -/

/-- The problem address of a window offset (Table DZ-8: pages 10 to 15 act as 9). -/
def Mach.dzWindow (m : Mach) (off : Nat) : Nat := Nat.min (m.get DzWinPage.page) 9 * 0x80000 + off

def Mach.problemRead (m : Mach) (p : Path) (off len : Nat) : List Byte × Status × Mach :=
  if windowOk p off len true then
    let a := m.dzWindow off
    let mt := m.dzMeet false (m.dza.mem.flips.filter fun e => (wordsOf a len).contains e.1)
    (m.dza.mem.read a len, if mt.1 then .poison else .ok, mt.2)
  else (List.replicate len 0, .ok, m)

/-- A write through the window; a word of it written in part is read first, with the books of a read (log entry 62). -/
def Mach.problemWrite (m : Mach) (p : Path) (off : Nat) (bs : List (Option Byte)) : Mach :=
  if windowOk p off bs.length (bs.all Option.isSome) then
    if m.dza.run.isSome then m.flag DzStatus.writeDenied
    else
      let a := m.dzWindow off
      (m.dzMeet false (m.dza.mem.flips.filter fun e => (partWords a bs).contains e.1)).2.dzWrite a bs
  else m

/-! ## Accesses during the swatch test (R334) -/

/-- Does an access to an address of the map wait for the end of the annealer's swatch test? -/
def Mach.dzWaits (m : Mach) (a : Nat) : Bool := m.on DzStatus.swatchActive && decide (0x500000 ≤ a ∧ a < 0x600000)

/-- The access waits. -/
def Mach.dzHold (m : Mach) (p : Path) (a : Nat) (op : WinOp) : Mach := { m with dza := { m.dza with held := m.dza.held ++ [⟨p, a, op⟩] } }

/-- Accesses that waited when the annealer left service are answered as those that meet it then: VOID for a core, zeros for a host (R13, R416). -/
def Mach.voidHeld (m : Mach) : Mach :=
  m.dza.held.foldl (fun acc e =>
    match e.op, e.p with
    | .read _, .core c => acc.modCore c fun k => { k with devLoad := k.devLoad.map fun d => { d with status := voidStatus (m.fn fnDza) } }
    | .read n, p => acc.wordReply p e.a (List.replicate n 0) .ok
    | .write _, _ => acc) { m with dza := { m.dza with held := [] } }

def execProblemWindowWrite (p : Path) (off : BitVec 19) (bytes : List (Option Byte)) (s : State) : Host.Outcome State Fault Refusal :=
  s.onM fun m =>
    if m.pathUp p && m.reaches 0x580000 then
      (if m.dzWaits 0x580000 then m.dzHold p (0x580000 + off.toNat) (.write bytes) else m.problemWrite p off.toNat bytes)
    else m

end Sys2Proof.Machine
end

