-- ==== Sys2Proof/Machine/Network.lean ====
section
/-! DEFINITION. The links between islands and what they carry: which links exist, flits and credits, the routers' routes and arbitration,
outstanding requests and their one reply, and what CUT and REJOIN do to them (04_islands_and_links.md R116-R121, R131, R135; 13 Table FR-6). -/

namespace Sys2Proof.Machine

/-! ## Which links exist (Table IS-5) -/

def classCode : FlitClass → Nat
  | .request => 0 | .reply => 1 | .stash => 2 | .message => 3

/-- The key of a link and class, by island numbers. -/
def keyOf (src dst : Nat) (c : FlitClass) : Nat := (src * 264 + dst) * 4 + classCode c
def linkKey (src dst : Fin 264) (c : FlitClass) : Nat := keyOf src.val dst.val c
/-- The source and destination of a key. -/
def linkSrc (k : Nat) : Nat := k / 4 / 264
def linkDst (k : Nat) : Nat := k / 4 % 264

/-- The stream links of a tile by island offset, each in one direction (log entry 81): a quadrant to the next one east, a quadrant to its
accumulator, a bank to a quadrant, an accumulator to a bank. -/
def streamLink (a b : Nat) : Bool :=
  (decide (a < 16 ∧ b < 16 ∧ b = a + 1) && a / 4 == b / 4) ||
  (decide (a < 16 ∧ 16 ≤ b ∧ b < 20) && a / 4 == b - 16) ||
  decide (20 ≤ a ∧ a < 52 ∧ b < 16) ||
  decide (16 ≤ a ∧ a < 20 ∧ 20 ≤ b ∧ b < 52)

def isRouter (i : Nat) : Bool := i == 236 || isTrt i

/-- Is there a link direction from src to dst for a class? -/
def linkExists (src dst : Nat) (c : FlitClass) : Bool :=
  if src < 236 ∧ dst < 236 then
    if src / 59 = dst / 59 then
      (src != dst && (isTrt src || isTrt dst)) || (c == .request && streamLink (src % 59) (dst % 59))
    else isTrt src && isTrt dst && (dst / 59 == (src / 59) ^^^ 1 || dst / 59 == (src / 59) ^^^ 2)
  else if src = 236 then isTrt dst || decide (236 < dst)
  else if dst = 236 then isTrt src || decide (236 < src)
  else false

/-- Is an island inside a function: a tile's router is none, since it keeps forwarding (R417). -/
def insideFn (f i : Nat) : Bool := islandFn i == some (ix 19 f) && !isTrt i

/-- Do an island's links run: it belongs to no function, or its function serves or is in FENCE or DRAIN (R131, R138)? -/
def Mach.linked (m : Mach) (i : Nat) : Bool :=
  match islandFn i with
  | none => true
  | some f => isTrt i || m.up f || (match m.frc.cur with | some r => r.fn == f.val && r.step == .fence | none => false)

/-- Does a link run: both islands clocked, and their functions' links not cut? -/
def Mach.linkOpen (m : Mach) (src dst : Fin 264) : Bool :=
  m.phase != phReset && !(m.isl src).stopped && !(m.isl dst).stopped && m.linked src.val && m.linked dst.val

/-! ## Flits (Table IS-4, R135) -/

def quarter (x : BitVec 128) (q : Nat) : Word := (x >>> (32 * q)).setWidth 32
/-- The even-parity bits of a payload, one over each 32-bit quarter. -/
def evenParity (x : BitVec 128) : BitVec 4 :=
  BitVec.ofNat 4 ((List.range 4).foldl (fun acc q => acc + popcount (quarter x q) % 2 * 2 ^ q) 0)
def flitParityOk (f : Flit) : Bool := f.parity == evenParity f.payload

def flitField (f : Flit) (hi lo : Nat) : Nat := bitsOf f.payload.toNat hi lo
def flitClass (f : Flit) : Nat := flitField f 127 126
def flitDest (f : Flit) : Nat := flitField f 125 117
def flitSrc (f : Flit) : Nat := flitField f 116 108
def flitTag (f : Flit) : BitVec 8 := BitVec.ofNat 8 (flitField f 107 100)
def flitData (f : Flit) : Nat := flitField f 93 89
def flitStatus (f : Flit) : Nat := flitField f 88 86
/-- The request that a head flit of the request class makes, and that a reply answers: 256 * island + tag. -/
def requestOf (f : Flit) : Nat := 256 * flitSrc f + (flitTag f).toNat
def answeredBy (f : Flit) : Nat := 256 * flitDest f + (flitTag f).toNat

/-- A reply's status code (Table IS-4). -/
def statusOf (n : Nat) : Status :=
  match n with | 0 => .ok | 1 => .error | 2 => .voidReset | 3 => .voidOff | _ => .poison

/-- A reply's head flit with status POISON; a parity error that it carries stays. -/
def poisonHead (f : Flit) : Flit :=
  let p := (f.payload &&& ~~~(BitVec.ofNat 128 (7 * 2 ^ 86))) ||| BitVec.ofNat 128 (Status.poison.code * 2 ^ 86)
  { f with payload := p, parity := f.parity ^^^ evenParity f.payload ^^^ evenParity p }

/-! ## Flits and credits on one link (R116, R117, R121) -/

def linkReset : Nat → Link := fun _ => Link.reset
def linkOf (ls : Tab Link) (k : Nat) : Link := Tab.get linkReset ls k
def putLink (ls : Tab Link) (k : Nat) (l : Link) : Tab Link := Tab.set linkReset ls k l

/-- The data flits that follow once a flit has gone. -/
def Link.after (l : Link) (f : Flit) : Nat := if f.head then flitData f else l.owed - 1

/-- A sender spends a credit on a flit. -/
def Link.send (l : Link) (f : Flit) : Link :=
  { l with credits := l.credits - 1, inFlight := l.inFlight ++ [f], owed := l.after f, voiding := false }

/-- A flit is discarded at the sender's closed port; no credit is spent. -/
def Link.discard (l : Link) (f : Flit) : Link := { l with owed := l.after f, voiding := l.after f != 0 }

/-- The oldest flit in flight reaches the receiver: it becomes visible, or it is discarded and its slot's credit starts back. A doomed flit goes
without a credit, since CUT has restored it (R131). -/
def Link.arrive (l : Link) : Link :=
  match l.inFlight with
  | [] => l
  | f :: rest =>
    if 0 < l.doomed then { l with inFlight := rest, doomed := l.doomed - 1 }
    else if f.head then
      (if flitParityOk f then { l with inFlight := rest, fifo := l.fifo ++ [⟨f, false⟩], dropping := false }
       else { l with inFlight := rest, returning := l.returning + 1, dropping := true })
    else if l.dropping then { l with inFlight := rest, returning := l.returning + 1 }
    else { l with inFlight := rest, fifo := l.fifo ++ [⟨f, !flitParityOk f⟩] }

/-- Does the arrival find a head flit with wrong parity? -/
def Link.badHead (l : Link) : Bool :=
  match l.inFlight with | f :: _ => l.doomed == 0 && f.head && !flitParityOk f | [] => false

/-- The receiver takes its oldest visible flit: the slot is free, its credit on the way. -/
def Link.take (l : Link) : Link :=
  match l.fifo with
  | [] => l
  | _ :: rest => { l with fifo := rest, returning := l.returning + 1 }

/-- A credit reaches the sender. -/
def Link.back (l : Link) : Link := if 0 < l.returning then { l with credits := l.credits + 1, returning := l.returning - 1 } else l

/-- Every flit delivered and every credit returned (R132). -/
def Link.quiet (l : Link) : Bool := l.credits == 8 && l.inFlight.isEmpty && l.fifo.isEmpty && l.returning == 0

/-! ## Outstanding requests (R119, R120, R134, R135) -/

def noneHeld : Nat → Nat := fun _ => 0
def noTaking : Nat → Taking := fun _ => { left := 0, who := 0 }

def Request.who (r : Request) : Nat := 256 * r.src + r.tag.toNat
def Net.find (n : Net) (who : Nat) : Option Request := n.reqs.find? fun r => r.who == who
def Net.modReq (n : Net) (who : Nat) (f : Request → Request) : Net := { n with reqs := n.reqs.map fun r => if r.who = who then f r else r }

/-- A request gets its reply and is no longer outstanding. -/
def Net.answer (n : Net) (r : Request) (st : Status) (data : List (BitVec 128)) : Net :=
  { n with reqs := n.reqs.filter fun x => x.who != r.who
           answers := (n.answers.filter fun a => a.1 != r.src) ++ [(r.src, { tag := r.tag, status := st, data := data })] }

/-- A VOID reply; a request that is not outstanding gets none. -/
def Net.void (n : Net) (who : Nat) (st : Status) : Net :=
  match n.find who with
  | some r => n.answer r st []
  | none => n

/-- May an island issue a request: fewer than 256 of its requests are outstanding, and none with this tag? -/
def Net.mayAsk (n : Net) (src : Nat) (tag : BitVec 8) : Bool :=
  n.reqs.all (fun r => !(r.src == src && r.tag == tag)) && decide ((n.reqs.filter fun r => r.src == src).length < 256)

def Net.issue (n : Net) (f : Flit) : Net :=
  { n with reqs := n.reqs ++ [{ src := flitSrc f, tag := flitTag f, dst := flitDest f, inside := false, poisoned := false, replied := false,
                                status := .ok, data := [] }] }

/-- May an island send this reply: it has taken the request and not replied to it yet? -/
def Net.mayReply (n : Net) (src : Nat) (f : Flit) : Bool :=
  match n.find (answeredBy f) with
  | some r => r.dst == src && r.inside && !r.replied
  | none => false

/-- A flit taken by an endpoint from its router: a request's head is inside its target, a bad data flit of it makes its reply POISON; a reply is
sunk into the room reserved for it, and reaches its requester whole, with POISON when a data flit of it is bad. -/
def Net.takeFlit (n : Net) (k dst : Nat) (c : FlitClass) (x : RxFlit) : Net :=
  let t := Tab.get noTaking n.taking k
  let who := if x.flit.head then (if c = .request then requestOf x.flit else answeredBy x.flit) else t.who
  let left := if x.flit.head then flitData x.flit else t.left - 1
  let n1 : Net := { n with taking := Tab.set noTaking n.taking k (if left = 0 then noTaking k else { left := left, who := who }) }
  match c with
  | .request =>
    if x.flit.head then n1.modReq who fun r => if r.dst = dst then { r with inside := true } else r
    else if x.poisoned then n1.modReq who fun r => { r with poisoned := true } else n1
  | .reply =>
    let n2 := n1.modReq who fun r =>
      if r.src ≠ dst then r
      else if x.flit.head then { r with status := statusOf (flitStatus x.flit), data := [] }
      else { r with status := if x.poisoned then .poison else r.status, data := r.data ++ [x.flit.payload] }
    (match n2.find who with
     | some r => if r.src = dst ∧ left = 0 then n2.answer r r.status r.data else n2
     | none => n2)
  | .stash | .message => n1

/-- A packet that a router takes for itself: addressed to it, or to no island. -/
def Net.sink (n : Net) (k : Nat) (x : RxFlit) : Net :=
  let left := if x.flit.head then flitData x.flit else (Tab.get noTaking n.taking k).left - 1
  { n with taking := Tab.set noTaking n.taking k { left := left, who := 0 } }

/-! ## Routers (R118) -/

/-- Where a router sends a packet for an island: x first and then y between tiles, the tile's uplink to the hub. -/
def nextHop (r d : Nat) : Option Nat :=
  if 263 < d ∨ d = r then none
  else if r = 236 then some (if d < 236 then 59 * (d / 59) + 57 else d)
  else
    let t := r / 59
    if 236 ≤ d then some 236
    else if d / 59 = t then some d
    else if d / 59 % 2 ≠ t % 2 then some (59 * (t ^^^ 1) + 57)
    else some (59 * (t ^^^ 2) + 57)

/-- The islands at an input port of a router: x, y, uplink and local of a tile router; the four tiles and local of the hub router. -/
def portIslands (r p : Nat) : List Nat :=
  if r = 236 then (if p < 4 then [59 * p + 57] else (List.range 27).map (· + 237))
  else
    let t := r / 59
    match p with
    | 0 => [59 * (t ^^^ 1) + 57]
    | 1 => [59 * (t ^^^ 2) + 57]
    | 2 => [236]
    | 3 => ((List.range 59).filter (· != 57)).map (· + 59 * t)
    | _ => []

def portOf (r i : Nat) : Nat := ((List.range 5).find? fun p => (portIslands r p).contains i).getD 0

/-- A list begun at position k. -/
def rotate {α : Type} (k : Nat) (l : List α) : List α := l.drop k ++ l.take k

/-- The packet being forwarded at an output goes on, or was cut short at the input: no flit of it is there or to come. -/
def cutShort (ls : Tab Link) (i r : Nat) (c : FlitClass) : Bool :=
  let l := linkOf ls (keyOf i r c)
  match l.fifo with
  | x :: _ => x.flit.head
  | [] => l.inFlight.isEmpty && l.owed == 0

/-- Does an input hold at its front a packet for an output? -/
def frontFor (ls : Tab Link) (i r n : Nat) (c : FlitClass) : Bool :=
  match (linkOf ls (keyOf i r c)).fifo with
  | x :: _ => x.flit.head && nextHop r (flitDest x.flit) == some n
  | [] => false

/-- The input that an output takes from next, within a class: the one whose packet is under way, else round-robin over the input ports, and over
the islands of the local port (log entry 81). -/
def Net.input (nt : Net) (ls : Tab Link) (r n : Nat) (c : FlitClass) : Option Nat :=
  let k := keyOf r n c
  let h := Tab.get noneHeld nt.holder k
  if h ≠ 0 ∧ 0 < (linkOf ls k).owed ∧ !cutShort ls (h - 1) r c then
    (if (linkOf ls (keyOf (h - 1) r c)).fifo.isEmpty then none else some (h - 1))
  else
    (rotate (Tab.get noneHeld nt.nextPort k) (List.range 5)).findSome? fun p =>
      let is := portIslands r p
      (if is.length = 1 then is else rotate (Tab.get noneHeld nt.nextLocal k) is).find? fun i => frontFor ls i r n c

/-- Is a router's port to an island closed to this flit: the island's links do not run, its packet is being discarded there, or it is a new
request to a function in FENCE from outside the function (Table FR-6)? -/
def Mach.portShut (m : Mach) (r n : Nat) (c : FlitClass) (l : Link) (f : Flit) : Bool :=
  match islandFn n with
  | none => false
  | some g =>
    !isTrt n && (!m.linkOpen (ix 264 r) (ix 264 n) || (!f.head && l.voiding) ||
      (f.head && c == .request && !m.up g && !insideFn g.val (flitSrc f)))

/-- Could an output forward in a class now, and from which input? -/
def grantIn (s : State) (r n : Nat) (c : FlitClass) : Option Nat :=
  let l := linkOf s.links (keyOf r n c)
  match s.net.input s.links r n c with
  | none => none
  | some i =>
    match (linkOf s.links (keyOf i r c)).fifo with
    | [] => none
    | x :: _ => if s.m.portShut r n c l x.flit || (s.m.linkOpen (ix 264 r) (ix 264 n) && decide (0 < l.credits)) then some i else none

/-- The classes below reply, in the order of their round-robin. -/
def otherClasses : List FlitClass := [.request, .stash, .message]

/-- What an output of a router forwards next: the reply class wins; the others take turns. -/
def grantAt (s : State) (r n : Nat) : Option (FlitClass × Nat) :=
  (FlitClass.reply :: rotate (Tab.get noneHeld s.net.nextClass (r * 264 + n)) otherClasses).findSome? fun c =>
    (grantIn s r n c).map fun i => (c, i)

/-- The round-robin positions after a packet's head has been granted. -/
def Net.turn (nt : Net) (r n : Nat) (c : FlitClass) (i : Nat) : Net :=
  let k := keyOf r n c
  let p := portOf r i
  let is := portIslands r p
  let n1 : Net := { nt with nextPort := Tab.set noneHeld nt.nextPort k ((p + 1) % 5) }
  let n2 : Net := if is.length = 1 then n1 else { n1 with nextLocal := Tab.set noneHeld n1.nextLocal k ((is.findIdx (· == i) + 1) % is.length) }
  if c = .reply then n2
  else { n2 with nextClass := Tab.set noneHeld n2.nextClass (r * 264 + n) ((otherClasses.findIdx (· == c) + 1) % 3) }

/-! ## What the gauges count of the routers' ports (R434, R437, Table GA-1) -/

def classes : List FlitClass := [.request, .reply, .stash, .message]

/-- The router of a gauge block. -/
def gaugeRouter (b : Fin 5) : Nat := if b.val < 4 then 59 * b.val + 57 else 236

/-- Flits that the receivers at an input port of a router hold in a class (FIFO_OCC). -/
def portOccupancy (s : State) (r p : Nat) (c : FlitClass) : Nat :=
  ((portIslands r p).map fun i => (linkOf s.links (keyOf i r c)).fifo.length).foldl (· + ·) 0

/-- Does a flit at an output port of a router wait for a credit of a class (CREDIT_WAIT)? -/
def creditWaits (s : State) (r p : Nat) (c : FlitClass) : Bool :=
  (portIslands r p).any fun n => (linkOf s.links (keyOf r n c)).credits == 0 && (s.net.input s.links r n c).isSome

/-- The occupancy of a port event at an instance, 4p + class. -/
def portEvent (s : State) (b : Fin 5) (event inst : Nat) : Nat :=
  if 16 ≤ inst then 0
  else
    let c := classes.getD (inst % 4) .request
    if event = 0x52 then portOccupancy s (gaugeRouter b) (inst / 4) c
    else if event = 0x41 then b2n (creditWaits s (gaugeRouter b) (inst / 4) c)
    else 0

/-- One counter's share of the cycles that its router has run between s and m. -/
def portGauge (s : State) (m0 m : Mach) (b : Fin 5) (c : Fin 8) : Mach :=
  let event := m.get (GaCfg.event b c)
  if (event = 0x52 ∨ event = 0x41) ∧ m.on (GaCtl.runF b) then
    let r : Fin 264 := ix 264 (gaugeRouter b)
    let cycles := (m0.isl r).cycles - (s.m.isl r).cycles
    let x := m.gaugeAdd b c (addOccupancy cycles (portEvent s b event (m.get (GaCfg.inst b c))) (m.get (GaCfg.mode b c)) (m.get (GaCfg.n b c)))
    x.1.thresholdEvent b x.2
  else m

/-- A machine after s with the port events of the time that has passed counted. -/
def State.lapsed (s : State) (m : Mach) : Mach := (List.range 40).foldl (fun acc k => portGauge s m acc (ix 5 (k / 8)) (ix 8 (k % 8))) m

/-- A command in which time passes. -/
def State.onTime (s : State) (f : Mach → Mach) : Host.Outcome State Fault Refusal := s.onM fun m => s.lapsed (f m)
/-- A command in which time passes and which may start a cast-on or a re-cast; these reset the links, and a cast-on the gauges. -/
def State.onTimeCast (s : State) (f : Mach → Mach) : Host.Outcome State Fault Refusal :=
  s.onCast fun m => let m1 := f m; if m1.linkEpoch = m.linkEpoch then s.lapsed m1 else m1

/-! ## CUT and REJOIN (R131, Table FR-6) -/

/-- One link at CUT: into the function its FIFO is emptied, flits in flight are doomed and the credits are 8; out of it flits that it wrote are
still delivered; a link inside the function is as after reset. -/
def cutLink (f : Nat) (k : Nat) (l : Link) : Link :=
  let a := insideFn f (linkSrc k)
  let b := insideFn f (linkDst k)
  if a && b then Link.reset
  else if b then { Link.reset with inFlight := l.inFlight, doomed := l.inFlight.length, owed := l.owed, voiding := l.owed != 0 }
  else if a then { l with owed := 0 }
  else l

/-- One link at REJOIN: doomed flits have arrived, and the function's links start with credits for every free slot. -/
def rejoinLink (f : Nat) (k : Nat) (l : Link) : Link :=
  if insideFn f (linkDst k) then { l with inFlight := l.inFlight.drop l.doomed, doomed := 0 }
  else if insideFn f (linkSrc k) then { l with credits := l.credits + l.returning, returning := 0 }
  else l

/-- Every link changed, in canonical form. -/
def mapLinks (g : Nat → Link → Link) (ls : Tab Link) : Tab Link :=
  (ls.map fun e => (e.1, g e.1 e.2)).filter fun e => e.2 != Link.reset

def cutLinks (f : Nat) (ls : Tab Link) : Tab Link := mapLinks (cutLink f) ls
def rejoinLinks (f : Nat) (ls : Tab Link) : Tab Link := mapLinks (rejoinLink f) ls

/-- The requests whose heads lie on the links into a function. -/
def discardedHeads (f : Nat) (ls : Tab Link) : List Nat :=
  (ls.filter fun e => insideFn f (linkDst e.1) && e.1 % 4 == 0).flatMap fun e =>
    ((e.2.fifo.map (·.flit)) ++ e.2.inFlight).filterMap fun x => if x.head then some (requestOf x) else none

/-- Replies of a function that were not whole when it was cut. -/
def partReplies (f : Nat) (ls : Tab Link) (nt : Net) : List Nat :=
  (ls.filter fun e => insideFn f (linkSrc e.1) && e.1 % 4 == 1 && decide (0 < e.2.owed)).map fun e => Tab.get noneHeld nt.sending e.1

/-- Does CUT of a function answer a request with VOID: it is inside the function without a whole reply, it is discarded on its way in, or the
function issued it? -/
def voidedAtCut (f : Nat) (ls : Tab Link) (nt : Net) (r : Request) : Bool :=
  insideFn f r.src ||
  (insideFn f r.dst && ((r.inside && !r.replied) || (discardedHeads f ls).contains r.who || (partReplies f ls nt).contains r.who))

def Net.cut (nt : Net) (f : Nat) (ls : Tab Link) (st : Status) : Net :=
  let n1 := (nt.reqs.filter (voidedAtCut f ls nt)).foldl (fun acc r => acc.answer r st []) nt
  { n1 with taking := n1.taking.filter fun e => !insideFn f (linkDst e.1), sending := n1.sending.filter fun e => !insideFn f (linkSrc e.1) }

end Sys2Proof.Machine
end

