-- ==== Sys2Proof/Machine/Nvm.lean ====
section
/-! DEFINITION. NVM operations and the lifeline store: NVM_READ, PROGRAM, ERASE, NVM_OP_COMPLETE, LL_WRITE, LL_READ, DELETE, LL_OP_COMPLETE
(03_cast_on.md R92-R98, R103, R104, R446, R455, R456). -/

namespace Sys2Proof.Machine

/-! ## The flash -/

def Mach.flashRead (m : Mach) (a n : Nat) : List Byte := Memory.read erasedByte m.flash.bytes a n
def Mach.flashNat (m : Mach) (a n : Nat) : Nat := leNat (m.flashRead a n)
def Mach.flashPut (m : Mach) (a : Nat) (bs : List Byte) : Mach :=
  { m with flash := { m.flash with bytes := Memory.write erasedByte m.flash.bytes a bs } }
/-- Programming clears bits only; erasing sets them (log entry 31). -/
def Mach.flashProgram (m : Mach) (a : Nat) (bs : List Byte) : Mach := m.flashPut a (List.zipWith (· &&& ·) (m.flashRead a bs.length) bs)
def Mach.flashErase (m : Mach) (a n : Nat) : Mach :=
  { m with flash := { m.flash with bytes := m.flash.bytes.filter fun e => !(a ≤ e.1 && e.1 < a + n) } }

/-- n free bytes: values that the spec leaves open (R104). -/
def Mach.freshBytes (m : Mach) : Nat → List Byte × Mach
  | 0 => ([], m)
  | n + 1 => let r := m.fresh; let t := r.2.freshBytes n; (r.1.setWidth 8 :: t.1, t.2)

/-- Flash size in use (R72, R455); 0 before it is known. -/
def Mach.flashSize (m : Mach) : Nat := let k := m.get CoNvmInfo.sizeLog2; if k = 0 then 0 else 2 ^ k
def lifelineBytes : Nat := 0x100000
def Mach.llBase (m : Mach) : Nat := m.flashSize - lifelineBytes
/-- The single-line fallback of R455. -/
def Mach.nvmFallback (m : Mach) : Bool := !m.on CoNvmInfo.probed
/-- The data buffer of NVM and lifeline operations in hub SRAM (R108). -/
def nvmBuffer : Nat := 0x1FF000

/-! ## Lifeline records (Tables CO-8, CO-9) -/

structure LlRec where
  key : Nat
  len : Nat
  seq : Nat
  sector : Nat
  addr : Nat
deriving DecidableEq, Repr

/-- What a scan of one sector finds: its header (seq, erase count) if valid, its valid records, where its free space begins, and
whether a check failed. -/
structure LlSector where
  header : Option (Nat × Nat)
  recs : List LlRec
  free : Nat
  corrupt : Bool
deriving DecidableEq, Repr

def llMagic : Nat := 0x53564C46
def llCommit : Nat := 0x53564C43
def padded (len : Nat) : Nat := 16 + roundUp len 16

/-- Records of a sector from offset p on; at most `fuel` of them. -/
def Mach.llScanFrom (m : Mach) (sector : Nat) : Nat → Nat → LlSector → LlSector
  | 0, p, acc => { acc with free := p }
  | fuel + 1, p, acc =>
    let a := m.llBase + 4096 * sector + p
    if 4096 < p + 16 then { acc with free := 4096 }
    else if m.flashRead a 16 = List.replicate 16 0xFF then { acc with free := p }
    else
      let key := m.flashNat a 2
      let len := m.flashNat (a + 2) 2
      if 4000 < len ∨ 4096 < p + padded len then { acc with free := 4096, corrupt := true }
      else
        let ok := m.flashNat (a + 12) 4 = llCommit ∧ m.flashNat (a + 8) 4 = (crc32c (m.flashRead a 8 ++ m.flashRead (a + 16) len)).toNat
        m.llScanFrom sector fuel (p + padded len)
          (if ok then { acc with recs := acc.recs ++ [⟨key, len, m.flashNat (a + 4) 4, sector, a⟩] } else { acc with corrupt := true })

/-- Scan one sector (R94, R107). -/
def Mach.llSector (m : Mach) (i : Nat) : LlSector :=
  let a := m.llBase + 4096 * i
  if m.flashNat a 4 = llMagic ∧ m.flashNat (a + 0x1C) 4 = (crc32c (m.flashRead a 28)).toNat then
    m.llScanFrom i 254 32 ⟨some (m.flashNat (a + 4) 4, m.flashNat (a + 8) 4), [], 4096, false⟩
  else ⟨none, [], 4096, m.flashRead a 4096 != List.replicate 4096 0xFF⟩

/-- The whole store. -/
def Mach.llScan (m : Mach) : List LlSector := (List.range 256).map m.llSector
def llRecs (ss : List LlSector) : List LlRec := ss.flatMap (·.recs)

/-- The valid record of a key with the highest seq (R93). -/
def llCurrent (ss : List LlSector) (key : Nat) : Option LlRec :=
  (llRecs ss).foldl (fun acc r => if r.key = key then (match acc with | none => some r | some b => if b.seq < r.seq then some r else some b) else acc) none

/-- The payload of a present key. -/
def Mach.llGet (m : Mach) (key : Nat) : Option (List Byte) :=
  match llCurrent m.llScan key with
  | some r => if r.len = 0 then none else some (m.flashRead (r.addr + 16) r.len)
  | none => none

/-- Is a record current (R93)? A deletion, the current record of an absent key, is one too. -/
def llLive (ss : List LlSector) (r : LlRec) : Bool := llCurrent ss r.key == some r

def llSectorLive (ss : List LlSector) (i : Nat) : List LlRec := ((ss.getD i ⟨none, [], 0, false⟩).recs).filter (llLive ss)

/-- Erased sectors and sectors with room for a record. -/
def llFree (ss : List LlSector) : Nat :=
  ss.countP fun s => match s.header with | some _ => decide (s.free + 16 ≤ 4096) | none => !s.corrupt

def nextSeq (ss : List LlSector) : Nat := (llRecs ss).foldl (fun a r => Nat.max a r.seq) 0 + 1

/-- Write one record at the free space of a sector, its commit word last (R92). -/
def Mach.llAppend (m : Mach) (sector off seq key : Nat) (data : List Byte) : Mach :=
  let a := m.llBase + 4096 * sector + off
  let h := leBytes 2 key ++ leBytes 2 data.length ++ leBytes 4 seq
  let body := h ++ leBytes 4 (crc32c (h ++ data)).toNat
  ((m.flashProgram a body).flashProgram (a + 16) data).flashProgram (a + 12) (leBytes 4 llCommit)

/-- An erase count that was found or written: CO_LL_WEAR, and LL_WORN once per cast-on when it has reached the endurance limit (R98). -/
def Mach.noteWear (m : Mach) (count : Nat) : Mach :=
  let m1 := if m.get CoLlWear.maxErase < count then m.put CoLlWear.maxErase count else m
  if m1.get CoLlCfg.endurance * 1000 ≤ count ∧ !m1.cast.wornLogged then
    ({ m1 with cast := { m1.cast with wornLogged := true } } : Mach).record Flt.llWorn (srcFn 0x12) []
  else m1

/-- The books of a scan of the store: LL_CORRUPT once per sector per cast-on, erase counts, free sectors (R98, R107). -/
def Mach.noteScan (m : Mach) (ss : List LlSector) : Mach :=
  let bad := (List.range 256).filter fun i => (ss.getD i ⟨none, [], 0, false⟩).corrupt && !m.cast.corruptLogged.contains i
  let m1 := bad.foldl (fun acc _ => acc.record Flt.llCorrupt (srcIsl 263) []) { m with cast := { m.cast with corruptLogged := m.cast.corruptLogged ++ bad } }
  ((ss.filterMap fun s => s.header.map Prod.snd).foldl Mach.noteWear m1).put CoLlStat.freeSectors (llFree ss)

/-- Open a sector: erase it, then write its header (R94, R98). -/
def Mach.llOpen (m : Mach) (ss : List LlSector) (i : Nat) : Mach :=
  let a := m.llBase + 4096 * i
  let sq := ss.foldl (fun acc s => match s.header with | some h => Nat.max acc h.1 | none => acc) 0 + 1
  let ec := (match (ss.getD i ⟨none, [], 0, false⟩).header with | some h => h.2 | none => 0) + 1
  let h := leBytes 4 llMagic ++ leBytes 4 sq ++ leBytes 4 ec ++ leBytes 16 0
  ((m.flashErase a 4096).flashProgram a (h ++ leBytes 4 (crc32c h).toNat)).noteWear ec

/-- The most recently opened sector with room for n bytes. -/
def llOpenWith (ss : List LlSector) (n : Nat) : Option Nat :=
  ((List.range 256).foldl (fun acc i =>
    match (ss.getD i ⟨none, [], 4096, false⟩) with
    | ⟨some h, _, free, _⟩ => if decide (free + n ≤ 4096) && (match acc with | none => true | some b => decide (b.2 < h.1)) then some (i, h.1) else acc
    | _ => acc) (none : Option (Nat × Nat))).map Prod.fst

/-- The sector to open: no current record, lowest erase count, lowest number (R446). -/
def llVictim (ss : List LlSector) : Option Nat :=
  ((List.range 256).foldl (fun acc i =>
    if (llSectorLive ss i).isEmpty then
      let ec := match (ss.getD i ⟨none, [], 0, false⟩).header with | some h => h.2 | none => 0
      (match acc with | none => some (i, ec) | some b => if ec < b.2 then some (i, ec) else some b)
    else acc) (none : Option (Nat × Nat))).map Prod.fst

def llBytes (rs : List LlRec) : Nat := (rs.map fun r => padded r.len).foldl (· + ·) 0

/-- When one sector without current records is left, the sector with the fewest current bytes is copied into it (R94). -/
def Mach.llGather (m : Mach) (ss : List LlSector) (target need : Nat) : Mach :=
  let clean := (List.range 256).countP fun i => (llSectorLive ss i).isEmpty
  if 1 < clean then m
  else
    match (List.range 256).foldl (fun acc i =>
      let b := llBytes (llSectorLive ss i)
      if i ≠ target ∧ 0 < b ∧ b + need ≤ 4064 then (match acc with | none => some (i, b) | some x => if b < x.2 then some (i, b) else some x) else acc)
      (none : Option (Nat × Nat)) with
    | none => m
    | some (i, _) =>
      (llSectorLive ss i).foldl (fun (acc : Mach) r =>
        let s := acc.llScan
        acc.llAppend target (s.getD target ⟨none, [], 32, false⟩).free (nextSeq s) r.key (acc.flashRead (r.addr + 16) r.len)) m

/-- Store a record; `none` when no sector can take it. -/
def Mach.llStore (m : Mach) (key : Nat) (data : List Byte) : Option Mach :=
  let ss := m.llScan
  let need := padded data.length
  match llOpenWith ss need with
  | some i => some (m.llAppend i (ss.getD i ⟨none, [], 32, false⟩).free (nextSeq ss) key data)
  | none =>
    match llVictim ss with
    | none => none
    | some i =>
      let m1 := (m.llOpen ss i).llGather ss i need
      let s1 := m1.llScan
      some (m1.llAppend i (s1.getD i ⟨none, [], 32, false⟩).free (nextSeq s1) key data)

/-- Would the write keep the limits of R95? -/
def llFits (ss : List LlSector) (key len : Nat) : Bool :=
  let keys := ((llRecs ss).map (·.key)).eraseDups.filter (· != key)
  let cur := keys.filterMap (llCurrent ss)
  decide (llBytes cur + padded len ≤ 768 * 1024 ∧ (cur.countP (·.len != 0)) + (if len = 0 then 0 else 1) ≤ 4096)

/-! ## The lifeline writer -/

def llOk : Nat := 0
def llNotFound : Nat := 1
def llKeyDenied : Nat := 2
def llFull : Nat := 3
def llFlashError : Nat := 4
def llBusy : Nat := 5
def llAborted : Nat := 6
def llDown : Nat := 7

/-- Perform a lifeline operation: result code and state (R92-R95). A WRITE or DELETE that keeps R95's limits but finds no sector to take
its record ends with FULL: DESIGN CHOICE, the spec names no result for it (log entry 78). -/
def Mach.llPerform (m : Mach) (o : LlOp) : Nat × Mach :=
  if m.nvmFallback then (llFlashError, m)
  else
    let ss := m.llScan
    let present := match llCurrent ss o.key with | some r => r.len != 0 | none => false
    match o.op with
    | 1 =>
      if !llFits ss o.key o.data.length then (llFull, m)
      else match m.llStore o.key o.data with | some m' => (llOk, m') | none => (llFull, m)
    | 2 =>
      match m.llGet o.key with
      | none => (llNotFound, m)
      | some bs => (llOk, (m.hubWrite nvmBuffer bs).put CoLlStat.length bs.length)
    | _ =>
      if !present then (llNotFound, m)
      else match m.llStore o.key [] with | some m' => (llOk, m') | none => (llFull, m)

/-- A lifeline write that firmware or the device asks for (R103); a DELETE writes a record as well (R93). -/
def WriterOp.prior : WriterOp → Bool
  | .ll o => o.op != 2 && (o.device || o.firmware)
  | .nvm _ => false

/-- The operation that the writer takes next, and those that still wait: the oldest, except that while the pattern runs a host NVM
operation lets every lifeline write of firmware or the device go first (R103). -/
def nextOp (running : Bool) (ws : List WriterOp) : Option (WriterOp × List WriterOp) :=
  match ws with
  | [] => none
  | .ll o :: rest => some (.ll o, rest)
  | .nvm o :: rest =>
    match (if running && !o.firmware then rest.find? WriterOp.prior else none) with
    | some x => some (x, .nvm o :: rest.erase x)
    | none => some (.nvm o, rest)

/-- The writer, which serves one operation at a time, takes the next one while function 0x12 serves (R98, R103). -/
def Mach.writerNext (m : Mach) : Mach :=
  if m.nvm.isSome || m.ll.isSome || !m.up fnNvm then m
  else
    match nextOp (m.on GlStatus.patternRunning) m.waiting with
    | none => m
    | some (.nvm o, rest) => { m with nvm := some o, waiting := rest }
    | some (.ll o, rest) => { m with ll := some o, waiting := rest }

/-- An accepted operation waits for the writer. -/
def Mach.submit (m : Mach) (o : WriterOp) : Mach := ({ m with waiting := m.waiting ++ [o] } : Mach).writerNext

/-- The device asks for a lifeline write of its own (R96). -/
def Mach.llDevice (m : Mach) (key : Nat) (data : List Byte) : Mach :=
  m.submit (.ll { op := 1, key := key, data := data, device := true, firmware := false })

/-- Result and busy of a requested operation that ends. -/
def Mach.llResult (m : Mach) (r : Nat) : Mach := (m.put CoLlStat.result r).put CoLlStat.busy 0

/-- LL_OP_COMPLETE. The store is scanned first, so that the index exists although a cast-on failed before step 13, and what the scan finds is
noted (R107, R455). Without a correct flash operation the result is FLASH_ERROR and nothing is committed. -/
def Mach.llComplete (m : Mach) (flashOk : Bool) : Mach :=
  match m.ll with
  | none => m
  | some o =>
    let idle : Mach := { m with ll := none }
    let m0 := if m.nvmFallback then idle else idle.noteScan idle.llScan
    let r := if flashOk then m0.llPerform o else (llFlashError, m0)
    let m1 := if o.device then r.2 else r.2.llResult r.1
    (m1.put CoLlStat.freeSectors (llFree m1.llScan)).writerNext

def execLlOpComplete (flashOk : Bool) (s : State) : Host.Outcome State Fault Refusal := s.onM fun m => m.llComplete flashOk

/-- Who may write a key (R96). -/
def keyAllowed (p : Path) (key : Nat) : Bool :=
  match p with
  | .core _ => decide (0x1000 ≤ key ∧ key ≤ 0x7FFF)
  | _ => decide (0x8000 ≤ key ∧ key ≤ 0xFFFE)

/-- The result with which R103 ends a request at once, if any. -/
def Mach.nvmRefusal (m : Mach) (busy down : Nat) : Option Nat :=
  if m.phase = phCasting ∨ m.phase = phRecasting ∨ m.fn fnNvm = .frogging then some busy
  else if !m.up fnNvm then some down
  else none

/-- Does a tending core make the access? -/
def byCore : Path → Bool
  | .core _ => true
  | .pcie | .spi | .usb => false

/-- A requested lifeline operation (R92-R96, R103, R455, R456). DESIGN CHOICE (log entry 78): KEY_DENIED, and FULL for a length above
4,000, come before the FLASH_ERROR that the fallback of R455 gives; the spec does not rank them. -/
def Mach.llRequest (m : Mach) (p : Path) (op key len : Nat) : Mach :=
  if m.on CoLlStat.busy then m.flag CoStatus.reqIgnored
  else
    match m.nvmRefusal llBusy llDown with
    | some r => m.llResult r
    | none =>
      if op ≠ 2 ∧ !keyAllowed p key then m.llResult llKeyDenied
      else if op = 1 ∧ 4000 < len then m.llResult llFull
      else if m.nvmFallback then m.llResult llFlashError
      else
        let r := if op = 1 then m.hubRead nvmBuffer len else ([], .ok, m)
        if r.2.1 ≠ .ok then r.2.2.llResult llFlashError
        else
          let m1 := (r.2.2.put CoLlStat.result 0).put CoLlStat.busy 1
          m1.submit (.ll { op := op, key := key, data := r.1, device := false, firmware := byCore p })

/-- The fields of a CO_LL_CTL write and its op. -/
def Mach.llCtl (m : Mach) (p : Path) (key len op : Nat) : Mach :=
  let m1 := (m.put CoLlCtl.key key).put CoLlCtl.length len
  if 1 ≤ op ∧ op ≤ 3 then m1.llRequest p op key len else m1

/-! ## NVM operations -/

def nvOk : Nat := 0
def nvProtected : Nat := 1
def nvBusy : Nat := 2
def nvFlashError : Nat := 3
def nvRange : Nat := 4
def nvAborted : Nat := 5
def nvDown : Nat := 6

def Mach.nvmResult (m : Mach) (r : Nat) : Mach := (m.put CoNvmStat.result r).put CoNvmStat.busy 0

/-- Does a range touch what R99 protects while the phase is RUNNING or IDLE? -/
def Mach.nvmProtected (m : Mach) (a n : Nat) : Bool :=
  (m.phase == phRunning || m.phase == phIdle) &&
  (decide (m.llBase < a + n) ||
   (m.cast.loaded && decide (m.cast.base < a + n ∧ a < roundUp (m.cast.base + m.cast.length) 0x10000)))

/-- Bytes an operation covers. -/
def nvmLen (op len : Nat) : Nat := if op = 3 then 4096 else if op = 4 then 65536 else len

/-- A requested NVM operation (R99, R103, R455, R456). An ERASE whose address is not aligned to its size ends with RANGE: DESIGN CHOICE,
Table CO-16 says only that it must be aligned (log entry 78). -/
def Mach.nvmRequest (m : Mach) (p : Path) (op addr len : Nat) : Mach :=
  if m.on CoNvmStat.busy then m.flag CoStatus.reqIgnored
  else
    match m.nvmRefusal nvBusy nvDown with
    | some r => m.nvmResult r
    | none =>
      let n := nvmLen op len
      if m.flashSize < addr + n ∨ (3 ≤ op ∧ addr % n ≠ 0) then m.nvmResult nvRange
      else if op ≠ 1 ∧ m.nvmProtected addr n then m.nvmResult nvProtected
      else
        let r := if op = 2 then m.hubRead nvmBuffer n else ([], .ok, m)
        if r.2.1 ≠ .ok then r.2.2.nvmResult nvFlashError
        else
          let m1 := (r.2.2.put CoNvmStat.result 0).put CoNvmStat.busy 1
          m1.submit (.nvm { op := op, addr := addr, len := n, data := r.1, firmware := byCore p })

/-- The fields of a CO_NVM_CTL write and its op. -/
def Mach.nvmCtl (m : Mach) (p : Path) (lenM1 op : Nat) : Mach :=
  let m1 := m.put CoNvmCtl.lenM1 lenM1
  if 1 ≤ op ∧ op ≤ 4 then m1.nvmRequest p op (m1.reg CoNvmAddr.reg).toNat (lenM1 + 1) else m1

/-- May a path write a CO register now? -/
def Mach.coOpen (m : Mach) (p : Path) : Bool := m.pathUp p && m.reaches 0x10000

def execNvmRead (p : Path) (lenM1 : BitVec 12) (s : State) : Host.Outcome State Fault Refusal :=
  s.onM fun m => if m.coOpen p then m.nvmCtl p lenM1.toNat 1 else m
def execProgram (p : Path) (lenM1 : BitVec 12) (s : State) : Host.Outcome State Fault Refusal :=
  s.onM fun m => if m.coOpen p then m.nvmCtl p lenM1.toNat 2 else m
def execErase4KiB (p : Path) (s : State) : Host.Outcome State Fault Refusal :=
  s.onM fun m => if m.coOpen p then m.nvmCtl p (m.get CoNvmCtl.lenM1) 3 else m
def execErase64KiB (p : Path) (s : State) : Host.Outcome State Fault Refusal :=
  s.onM fun m => if m.coOpen p then m.nvmCtl p (m.get CoNvmCtl.lenM1) 4 else m

/-- What a PROGRAM or ERASE that is cut or fails leaves: some of the bits programmed, or any bytes at all (R104). -/
def Mach.nvmPartial (m : Mach) (o : NvmOp) : Mach :=
  if o.op = 2 then
    let r := m.freshBytes o.len
    r.2.flashProgram o.addr (List.zipWith (· ||| ·) o.data r.1)
  else if 3 ≤ o.op then
    let r := m.freshBytes o.len
    r.2.flashPut o.addr r.1
  else m

/-- NVM_OP_COMPLETE: the operation in progress ends (R98). -/
def Mach.nvmComplete (m : Mach) (flashOk : Bool) : Mach :=
  match m.nvm with
  | none => m
  | some o =>
    let m0 : Mach := { m with nvm := none }
    let m1 :=
      if flashOk then
        (match o.op with
         | 1 => m0.hubWrite nvmBuffer (m0.flashRead o.addr o.len)
         | 2 => m0.flashProgram o.addr o.data
         | _ => m0.flashErase o.addr o.len).nvmResult nvOk
      else (m0.nvmPartial o).nvmResult nvFlashError
    m1.writerNext

def execNvmOpComplete (flashOk : Bool) (s : State) : Host.Outcome State Fault Refusal := s.onM fun m => m.nvmComplete flashOk

def execLlWrite (p : Path) (key : BitVec 16) (length : BitVec 12) (s : State) : Host.Outcome State Fault Refusal :=
  s.onM fun m => if m.coOpen p then m.llCtl p key.toNat length.toNat 1 else m
/-- LL_READ writes the key field; the length field is left (the operation ignores it). -/
def execLlRead (p : Path) (key : BitVec 16) (s : State) : Host.Outcome State Fault Refusal :=
  s.onM fun m => if m.coOpen p then m.llCtl p key.toNat (m.get CoLlCtl.length) 2 else m
def execDelete (p : Path) (key : BitVec 16) (s : State) : Host.Outcome State Fault Refusal :=
  s.onM fun m => if m.coOpen p then m.llCtl p key.toNat (m.get CoLlCtl.length) 3 else m

/-- A sector whose erase was cut holds any bytes with which its header fails its check (R94, R104). -/
def Mach.eraseCut (m : Mach) (i : Nat) : Mach :=
  let a := m.llBase + 4096 * i
  let r := m.freshBytes 4096
  let m1 := r.2.flashPut a r.1
  if (m1.llSector i).header.isSome then m1.flashPut a [~~~(BitVec.ofNat 8 llMagic)] else m1

/-- Some bits of a record that was being appended to a sector are programmed, its commit word is not (R92, R104). -/
def Mach.recordCut (m : Mach) (i len : Nat) : Mach :=
  let a := m.llBase + 4096 * i + (m.llSector i).free
  let r := m.freshBytes (12 + len)
  (r.2.flashProgram a (r.1.take 12)).flashProgram (a + 16) (r.1.drop 12)

/-- A lifeline write that is cut (R104). With room in an open sector the cut falls into the record; else, as a free value says, before
the sector's erase, into it, or into the record that follows it (log entry 33). -/
def Mach.llPartial (m : Mach) (o : LlOp) : Mach :=
  if o.op = 2 ∨ m.nvmFallback then m
  else
    let ss := m.llScan
    let need := padded o.data.length
    match llOpenWith ss need, llVictim ss with
    | some i, _ => m.recordCut i o.data.length
    | none, none => m
    | none, some i =>
      let k := m.freshBelow 3
      if k.1 = 0 then k.2
      else if k.1 = 1 then k.2.eraseCut i
      else ((k.2.llOpen ss i).llGather ss i need).recordCut i o.data.length

/-- A lifeline write of the device's own (R96). -/
def WriterOp.ofDevice : WriterOp → Bool
  | .ll o => o.device
  | .nvm _ => false

/-- R104: operations in progress and waiting end with ABORTED; the device's own lifeline writes are kept through a frog only. -/
def Mach.abortNvm (m : Mach) (keepDevice : Bool) : Mach :=
  let m1 := match m.nvm with | some o => ({ m with nvm := none } : Mach).nvmPartial o | none => m
  let m2 := if m.nvm.isSome || m1.on CoNvmStat.busy then m1.nvmResult nvAborted else m1
  let m3 := if m2.on CoLlStat.busy then m2.llResult llAborted else m2
  let m4 := match m3.ll with | some o => m3.llPartial o | none => m3
  let mine := ((m3.ll.toList.map WriterOp.ll) ++ m3.waiting).filter WriterOp.ofDevice
  { m4 with ll := none, waiting := if keepDevice then mine else [] }

end Sys2Proof.Machine
end

