-- ==== Sys2Proof/Machine/Skeins.lean ====
section
/-! DEFINITION. Skeins and the stash die: SWAP_OUT, SWAP_IN, FETCH, STORE, STASH_BLOCK_GRANT, SWAP_COMPLETE, STASH_WINDOW_ACCESS,
HUB_SRAM_HOST_WRITE, OVERHANG_REWRITE_END, and the creation and restart of skeins (09_skeins.md). -/

namespace Sys2Proof.Machine

/-! ## Swaps (R285-R288) -/

/-- Blocks of a skein's state. -/
def Mach.swapBlocks (m : Mach) (s : Nat) : Nat := 4 * (m.sk s 8 4 / blockBytes)
/-- Blocks of channel c among n. -/
def channelBlocks (n c : Nat) : Nat := (n + 1 - c) / 2

/-- The fault of a swap stitch (R285, R305). -/
def Mach.swapCode (m : Mach) (b : Body) : Option Nat :=
  match b with
  | .swapOut s =>
    if !m.stashPresent then some 5
    else if 96 ≤ s.toNat ∨ m.skState s.toNat ≠ skResident ∨ m.skFlag s.toNat 5 then some 1 else none
  | .swapIn s i =>
    if !m.stashPresent then some 5
    else if 96 ≤ s.toNat ∨ m.skState s.toNat ≠ skStashed then some 1
    else if 24 ≤ i.toNat ∨ m.slotUse i.toNat ≠ .free ∨ m.stash.unusable.getLsbD i.toNat ∨ m.slotBytes i.toNat < m.sk s.toNat 8 4 then some 2
    else none
  | _ => none

/-- May the stitch at the head of the STASH queue start, or fault, now? A swap waits there for a token (R285). -/
def Mach.stashReady (m : Mach) (b : Body) : Bool :=
  match b with
  | .swapOut _ | .swapIn _ _ => (m.swapCode b).isSome || decide (m.stash.swaps.length < 4)
  | _ => true

/-- Accept a swap: the slot counts as moving, a token is taken (R286). -/
def Mach.acceptSwap (m : Mach) (h : StitchHdr) (b : Body) (out : Bool) (s slot : Nat) : Mach :=
  let sw : Swap := { out := out, skein := s, slot := slot, moved := Vector.replicate 2 0, lost := none, hdr := h, seq := m.issue }
  let m1 := (((m.begin .stash ⟨h, b⟩).skPut s 0 1 (if out then skOut else skIn)).setSlot slot .moving)
  { m1 with stash := { m1.stash with swaps := m1.stash.swaps ++ [sw] } }

def Mach.startSwap (m : Mach) (h : StitchHdr) (b : Body) : Mach :=
  match m.swapCode b with
  | some c => m.stitchFault h 6 c
  | none =>
    match b with
    | .swapOut s => m.acceptSwap h b true s.toNat (m.sk s.toNat 1 1)
    | .swapIn s i => m.acceptSwap h b false s.toNat i.toNat
    | _ => m

def Mach.endSwap (m : Mach) (w : Swap) : Mach := { m with stash := { m.stash with swaps := m.stash.swaps.filter fun x => x.seq != w.seq } }
def Mach.modSwap (m : Mach) (w : Swap) (f : Swap → Swap) : Mach :=
  { m with stash := { m.stash with swaps := m.stash.swaps.map fun x => if x.seq = w.seq then f x else x } }

/-- One block of a swap: tile, byte offset in the tile's state. -/
def Mach.swapBlock (m : Mach) (w : Swap) (c : Nat) : Fin 4 × Nat :=
  let n := 2 * vget w.moved (ix 2 c) + c
  let per := m.sk w.skein 8 4 / blockBytes
  (ix 4 (n / per), (n % per) * blockBytes)

/-- Is the tile of a swap's next block over a channel in service? A swap leaves OUT or IN only as Table SK-3 lists, so its blocks of a tile that
is being frogged wait for the tile (R277; log entry 86). -/
def Mach.swapOpen (m : Mach) (w : Swap) (c : Nat) : Bool := m.up (tileFn (m.swapBlock w c).1)

/-- One more block of a swap has moved over channel c. -/
def Mach.swapMoved (m : Mach) (w : Swap) (c : Nat) : Mach :=
  m.modSwap w fun y => { y with moved := vset y.moved (ix 2 c) (vget y.moved (ix 2 c) + 1) }

/-- Move one block of a swap over channel c (R303, R304). A block of a tile that is not in service has nothing to read or to write: the device
meets one only where it runs a swap to its end. -/
def Mach.moveSwap (m : Mach) (w : Swap) (c : Nat) : Mach :=
  let x := m.swapBlock w c
  let a := stateArea w.skein x.1.val + x.2
  let addr := m.slotSp w.slot
  if w.out then
    let r := m.spRead x.1 addr blockBytes 15 true x.2
    if r.1.status = .poison then
      -- R304: the skein stays RESIDENT and restarts cold in its slot
      let m1 := ((r.2.endSwap w).setSlot w.slot .occupied).skPut w.skein 0 1 skResident
      (m1.loseState w.skein 3 none).failStitch .stash w.seq w.hdr 6 6
    else if r.1.status = .ok then (r.2.stashWrite a (r.1.data.map Prod.fst)).swapMoved w c
    else r.2.swapMoved w c
  else
    let k := m.crcRead (a / blockBytes)
    if k.1 then (k.2.spWrite x.1 addr ((k.2.stashRead a blockBytes).map fun b => some (b, false)) true x.2).2.swapMoved w c
    else k.2.modSwap w fun y => { y with lost := some ((a - stateArea w.skein 0) / blockBytes) }

/-- Has a swap moved all it will move? -/
def Mach.swapDone (m : Mach) (w : Swap) : Bool :=
  w.lost.isSome || (List.range 2).all fun c => channelBlocks (m.swapBlocks w.skein) c ≤ vget w.moved (ix 2 c)

/-- A swap completes: slot, token, swap_count and state change together (R286, R290, R303). -/
def Mach.completeSwap (m : Mach) (w : Swap) : Mach :=
  let s := w.skein
  let m1 := ((m.endSwap w).bump StashSwapCount.count).skBump s 0x38 4
  let m2 :=
    if w.out then ((m1.setSlot w.slot .free).skPut s 0 1 skStashed).skPut s 1 1 0xFF
    else ((m1.setSlot w.slot .occupied).skPut s 0 1 skResident).skPut s 1 1 w.slot
  let m3 := match w.lost with
    | some b => (m2.record Flt.stashCrc { fn := 5, island := 252, skein := s } []).loseState s 1 (some b)
    | none => m2
  let m4 := if !w.out ∧ m3.sk s 0x0E 2 ≠ 0 then m3.skSetFlag s 2 true else m3
  (m4.finish .stash w.seq).gauge hubGauge 0x85 none 1

def Mach.swapComplete (m : Mach) (s : Nat) : Mach :=
  match m.stash.swaps.find? fun w => w.skein == s with
  | some w => if m.swapDone w then m.completeSwap w else m
  | none => m

def execSwapComplete (skein : Fin 96) (s : State) : Host.Outcome State Fault Refusal := s.onM fun m => m.swapComplete skein.val

/-- All swaps in flight run to their end (R47, R88): the rest of every block moves, then they complete. A block of a tile that is out of service is
passed over (log entry 86). -/
def Mach.finishSwaps (m : Mach) : Mach :=
  m.stash.swaps.foldl (fun acc w =>
    let one := fun (c : Nat) (x : Mach) =>
      match x.stash.swaps.find? fun y => y.seq == w.seq with
      | some y => if y.lost.isNone ∧ vget y.moved (ix 2 c) < channelBlocks (x.swapBlocks y.skein) c then x.moveSwap y c else x
      | none => x
    let n := acc.swapBlocks w.skein
    (Nat.repeat (one 1) n (Nat.repeat (one 0) n acc)).swapComplete w.skein) m

/-! ## FETCH and STORE (R289, R303) -/

def tilesOf (b : BitVec 4) : List (Fin 4) := (List.range 4).filterMap fun t => if b.getLsbD t then some (ix 4 t) else none
def blkCount (p : BlockP) : Nat := p.nBlocksM1.toNat + 1
/-- Stash address of a tile's run: the k-th named tile. -/
def blkBase (p : BlockP) (k : Nat) : Nat := p.stash.toNat + k * p.tileStride.toNat * 0x10000

def inOverhang (a n : Nat) : Bool := decide (0x18000000 ≤ a ∧ a + n ≤ 0x1C000000)
def inRings (a n : Nat) : Bool := decide (0x30000000 ≤ a ∧ a + n ≤ 0x40000000)

/-- The fault of a FETCH or STORE (R289, R303, R305). -/
def Mach.blockCode (m : Mach) (store : Bool) (p : BlockP) : Option Nat :=
  let n := blkCount p * blockBytes
  let ts := tilesOf p.tiles
  let rangeOk := !ts.isEmpty && p.sp.toNat / 2 ^ 30 == 0 && p.sp.toNat % 64 == 0 && p.stash.toNat % blockBytes == 0 &&
    ((List.range ts.length).all fun k => inRings (blkBase p k) n || (!store && inOverhang (blkBase p k) n)) &&
    (ts.all fun t => match m.spLoc t p.sp n with | .ok l => store || p.weightWrite || !l.inW m | .error e => e != .error)
  if !m.stashPresent then some 5
  else if !rangeOk then some 3
  else if !store ∧ (List.range ts.length).any (fun k => match m.overhangModel (blkBase p k) with | some x => m.stash.rewriting.contains x | none => false) then some 4
  else none

def Mach.startBlocks (m : Mach) (store : Bool) (h : StitchHdr) (p : BlockP) : Mach :=
  match m.blockCode store p with
  | some c => m.stitchFault h 6 c
  | none =>
    let r : BlockRun := { store := store, hdr := h, p := p, seq := m.issue, moved := Vector.replicate 2 0, skewed := false }
    let m1 := m.begin .stash ⟨h, if store then .store p else .fetch p⟩
    { m1 with stash := { m1.stash with blocks := m1.stash.blocks ++ [r] } }

def Mach.endBlocks (m : Mach) (r : BlockRun) : Mach := { m with stash := { m.stash with blocks := m.stash.blocks.filter fun x => x.seq != r.seq } }
def BlockRun.total (r : BlockRun) : Nat := (tilesOf r.p.tiles).length * blkCount r.p

/-- A block moved: when it was the last, the stitch's last write has been granted. -/
def Mach.blockMoved (m : Mach) (r : BlockRun) (c : Nat) : Mach :=
  let r' := { r with moved := vset r.moved (ix 2 c) (vget r.moved (ix 2 c) + 1) }
  if vget r'.moved 0 + vget r'.moved 1 = r.total then (m.endBlocks r).finish .stash r.seq
  else { m with stash := { m.stash with blocks := m.stash.blocks.map fun x => if x.seq = r.seq then r' else x } }

/-- Move one block of a FETCH or STORE over channel c. -/
def Mach.moveBlock (m : Mach) (r : BlockRun) (c : Nat) : Mach :=
  let n := 2 * vget r.moved (ix 2 c) + c
  let k := n / blkCount r.p
  let d := (n % blkCount r.p) * blockBytes
  let t := (tilesOf r.p.tiles).getD k 0
  let a := blkBase r.p k + d
  if r.store then
    let x := m.spRead t r.p.sp blockBytes r.p.age.toNat r.skewed d
    let r := { r with skewed := x.1.skewed }
    if x.1.status = .ok ∨ x.1.status = .poison then
      (x.2.stashWrite a (x.1.data.map Prod.fst) (if x.1.status = .poison then 2 else 0)).blockMoved r c
    else (x.2.endBlocks r).failStitch .stash r.seq r.hdr 6 (if x.1.status = .error then 3 else codeVoid)
  else
    let q := m.crcRead (a / blockBytes)
    if !q.1 ∧ inOverhang a blockBytes then
      let m1 := ((q.2.record Flt.ohCrc { fn := 5, island := 252 } []).flag StashStatus.ohCrc).endBlocks r
      let m2 := match m1.overhangModel a with
        | some x => { m1 with stash := { m1.stash with rewriting := if m1.stash.rewriting.contains x then m1.stash.rewriting else m1.stash.rewriting ++ [x] } }
        | none => m1
      m2.failStitch .stash r.seq r.hdr 6 4
    else
      let m1 := if q.1 then q.2 else q.2.record Flt.stashCrc { fn := 5, island := 252 } []
      let w := m1.spWrite t r.p.sp ((m1.stashRead a blockBytes).map fun b => some (b, !q.1)) r.p.weightWrite d
      if w.1 = .ok ∨ w.1 = .poison then w.2.blockMoved r c
      else (w.2.endBlocks r).failStitch .stash r.seq r.hdr 6 (if w.1 = .error then 3 else codeVoid)

/-! ## The blocks of the BAR2 stash window (R374) -/

def Mach.stashWindowBase (m : Mach) : Nat := 0x30000000 + m.get HlStashPage.page * 0x2000000

/-- The blocks that n bytes from a touch. -/
def blocksOf (a n : Nat) : List Nat := if n = 0 then [] else (List.range ((a + n - 1) / blockBytes - a / blockBytes + 1)).map (· + a / blockBytes)

def winSize : WinOp → Nat
  | .read n => n
  | .write bs => bs.length
def WinRun.blocks (r : WinRun) : List Nat := blocksOf r.a (winSize r.op)

/-- The CRC of a block that a window access reads: STASH_CRC is logged when it fails twice. -/
def Mach.checkBlock (m : Mach) (b : Nat) : Bool × Mach :=
  let r := m.crcRead b
  if r.1 then r else (false, r.2.record Flt.stashCrc { fn := 5, island := 252 } [])

/-- One block of a window access: a read checks its CRC; a write of the whole block gives it a new one, a write of a part is performed only where
the block's CRC holds. Answers whether the block was good. -/
def Mach.windowBlock (m : Mach) (r : WinRun) (b : Nat) : Bool × Mach :=
  match r.op with
  | .read _ => m.checkBlock b
  | .write bs =>
    let lo := Nat.max r.a (blockBytes * b)
    let part := (bs.drop (lo - r.a)).take (blockBytes * (b + 1) - lo)
    if part.all Option.isNone then (true, m)
    else
      let q := if part.length = blockBytes ∧ part.all Option.isSome then (true, m) else m.checkBlock b
      if q.1 then
        (true, { q.2 with stash := { q.2.stash with mem := Memory.writeOpt zeroByte q.2.stash.mem lo part, crc := Tab.set crcGood q.2.stash.crc b 0 } })
      else q

/-- The reply of a window read whose blocks have been served: Poisoned when a block failed. -/
def Mach.windowReply (m : Mach) (r : WinRun) : Mach :=
  match r.op with
  | .read n => m.pathReply .pcie (m.stashRead r.a n) (if r.bad then .poison else .ok)
  | .write _ => m

/-- Every block of an access at once. -/
def Mach.windowAll (m : Mach) (r : WinRun) : Mach :=
  let x := r.blocks.foldl (fun (acc : Bool × Mach) b => let y := acc.2.windowBlock r b; (acc.1 || !y.1, y.2)) (r.bad, m)
  x.2.windowReply { r with bad := x.1 }

/-- Serve the next block of a waiting access over channel c; the last one answers it. -/
def Mach.moveWindow (m : Mach) (r : WinRun) (c : Nat) : Mach :=
  let y := m.windowBlock r (r.blocks.getD (2 * vget r.moved (ix 2 c) + c) 0)
  let r' := { r with moved := vset r.moved (ix 2 c) (vget r.moved (ix 2 c) + 1), bad := r.bad || !y.1 }
  let others := fun (w : List WinRun) => w.filter fun x => x.seq != r.seq
  if vget r'.moved 0 + vget r'.moved 1 = r.blocks.length then
    ({ y.2 with stash := { y.2.stash with windows := others y.2.stash.windows } } : Mach).windowReply r'
  else { y.2 with stash := { y.2.stash with windows := y.2.stash.windows.map fun x => if x.seq = r.seq then r' else x } }

/-- Window accesses that wait when the stash stops serving are answered as ones that come later would be: reads with zeros. -/
def Mach.dropWindows (m : Mach) : Mach :=
  m.stash.windows.foldl (fun acc r => match r.op with | .read n => acc.pathReply .pcie (List.replicate n 0) | .write _ => acc)
    { m with stash := { m.stash with windows := [] } }

/-! ## STASH_BLOCK_GRANT (R288) -/

/-- Traffic that has a block for channel c: priority, arrival number, and the move. -/
def Mach.stashTraffic (m : Mach) (c : Nat) : List (Nat × Nat × (Mach → Mach)) :=
  (m.stash.swaps.filterMap fun w =>
    if w.lost.isNone ∧ vget w.moved (ix 2 c) < channelBlocks (m.swapBlocks w.skein) c ∧ m.swapOpen w c then
      some (if w.out then 4 else 2, w.seq, fun m => m.moveSwap w c) else none) ++
  (m.stash.blocks.filterMap fun r =>
    if vget r.moved (ix 2 c) < channelBlocks r.total c then
      some (if r.store then 5 else if r.hdr.express then 1 else 3, r.seq, fun m => m.moveBlock r c) else none) ++
  (m.stash.windows.filterMap fun r =>
    if vget r.moved (ix 2 c) < channelBlocks r.blocks.length c then some (5, r.seq, fun m => m.moveWindow r c) else none)

/-- The granted traffic: smallest priority, then earliest arrival. -/
def firstTraffic : List (Nat × Nat × (Mach → Mach)) → Option (Nat × Nat × (Mach → Mach))
  | [] => none
  | x :: xs => match firstTraffic xs with
    | none => some x
    | some y => some (if y.1 < x.1 ∨ (y.1 = x.1 ∧ y.2.1 < x.2.1) then y else x)

def Mach.stashGrant (m : Mach) (c : Nat) : Mach :=
  if !m.up fnStash then m
  else match firstTraffic (m.stashTraffic c) with
    | some t => (m.settled t.2.2).gauge hubGauge 0x84 (some c) 1
    | none => m

def execStashBlockGrant (channel : Fin 2) (s : State) : Host.Outcome State Fault Refusal := s.onM fun m => m.stashGrant channel.val

def execSwapOut (h : StitchHdr) (skein : BitVec 7) (s : State) : Host.Outcome State Fault Refusal :=
  s.onM fun m => m.arrive .stash ⟨h, .swapOut skein⟩ (m.stashReady (.swapOut skein)) fun m => m.startSwap h (.swapOut skein)
def execSwapIn (h : StitchHdr) (skein : BitVec 7) (slot : BitVec 5) (s : State) : Host.Outcome State Fault Refusal :=
  s.onM fun m => m.arrive .stash ⟨h, .swapIn skein slot⟩ (m.stashReady (.swapIn skein slot)) fun m => m.startSwap h (.swapIn skein slot)
def execFetch (h : StitchHdr) (p : BlockP) (s : State) : Host.Outcome State Fault Refusal :=
  s.onM fun m => m.arrive .stash ⟨h, .fetch p⟩ true fun m => m.startBlocks false h p
def execStore (h : StitchHdr) (p : BlockP) (s : State) : Host.Outcome State Fault Refusal :=
  s.onM fun m => m.arrive .stash ⟨h, .store p⟩ true fun m => m.startBlocks true h p

/-! ## STASH_WINDOW_ACCESS (R374) -/

/-- Is a window access open to the host now? -/
def Mach.stashOpen (m : Mach) : Bool := m.pathUp .pcie && m.up fnStash && m.phase != phRetention && m.stashPresent

/-- An access of the host through the BAR2 window. While no other traffic asks for the channels its blocks are granted with it; beside other
traffic it waits for STASH_BLOCK_GRANT (log entry 86). A read that is not open answers zeros, a write that is not is discarded (R11, R18). -/
def Mach.stashWindow (m : Mach) (off : Nat) (op : WinOp) : Mach :=
  let r : WinRun := { a := m.stashWindowBase + off, op := op, seq := m.issue, moved := Vector.replicate 2 0, bad := false }
  if m.stashOpen ∧ windowOk .pcie off (winSize op) true then
    if m.stash.swaps.isEmpty ∧ m.stash.blocks.isEmpty ∧ m.stash.windows.isEmpty then m.windowAll r
    else { m with issue := m.issue + 1, stash := { m.stash with windows := m.stash.windows ++ [r] } }
  else
    match op with
    | .read n => m.pathReply .pcie (List.replicate n 0)
    | .write _ => m

def execStashWindowAccess (off : BitVec 25) (op : WinOp) (s : State) : Host.Outcome State Fault Refusal := s.onM fun m => m.stashWindow off.toNat op

/-! ## Host writes to hub SRAM (R274, R400) -/

/-- Phases in which the skein table is protected from the host. -/
def Mach.tableProtected (m : Mach) : Bool := m.phase == phCasting || m.phase == phRunning || m.phase == phRecasting || m.phase == phIdle

def skeinTop : Nat := 0x1990

/-- Write bytes that come over a path: a host's bytes in the protected range are discarded (R274). -/
def Mach.hubPathWrite (m : Mach) (p : Path) (off : Nat) (bs : List (Option Byte)) : Status × Mach :=
  let host : Bool := match p with | .core _ => false | _ => true
  if host && m.tableProtected && (List.range bs.length).any (fun i => decide (off + i < skeinTop) && (bs.getD i none).isSome) then
    (m.flag StashStatus.tableWp).hubWriteOpt off ((List.range bs.length).map fun i => if off + i < skeinTop then none else bs.getD i none)
  else m.hubWriteOpt off bs

/-- May a path reach the hub SRAM window now? -/
def Mach.hubOpen (m : Mach) (p : Path) : Bool := m.pathUp p && m.reaches 0x900000

def Mach.hubHostWrite (m : Mach) (p : Path) (off : Nat) (bs : List (Option Byte)) : Mach :=
  if m.hubOpen p && windowOk p off bs.length (bs.all Option.isSome) && hubOk off bs.length then (m.hubPathWrite p off bs).2 else m

/-- A path's read of the hub SRAM window; zeros where the path's function, the window or R11 does not let it. -/
def Mach.hubHostRead (m : Mach) (p : Path) (off len : Nat) : Mach :=
  if m.hubOpen p && windowOk p off len true && hubOk off len then
    let r := m.hubRead off len
    r.2.2.wordReply p (0x900000 + off) r.1 r.2.1
  else m.wordReply p (0x900000 + off) (List.replicate len 0)

def Mach.hubHost (m : Mach) (p : Path) (off : Nat) : WinOp → Mach
  | .read n => m.hubHostRead p off n
  | .write bs => m.hubHostWrite p off bs

def execHubSramHostWrite (p : Path) (off : BitVec 21) (op : WinOp) (s : State) : Host.Outcome State Fault Refusal :=
  s.onM fun m => m.hubHost p off.toNat op

/-! ## Creation (R275, R297, R306) -/

/-- Slots out of range, empty or overlapping another (R275). -/
def Mach.unusableSlots (m : Mach) : BitVec 24 :=
  let rng := fun i => let a := (m.slotSp i).toNat; (a / 2 ^ 28, a % 2 ^ 26, a % 2 ^ 26 + m.slotBytes i)
  let regionOk := fun (t : Nat) (a : Word) => (a.toNat / 2 ^ 28 == 2 || a.toNat / 2 ^ 28 == 3) && (m.spPlace (ix 4 t) a 0).isSome
  let bad := fun i =>
    m.slotBytes i == 0 || m.slotBytes i % 256 != 0 || (m.slotSp i).toNat % 64 != 0 ||
    !((List.range 4).all fun t => regionOk t (m.slotSp i) && (m.spPlace (ix 4 t) (m.slotSp i) (m.slotBytes i)).isSome) ||
    (List.range 24).any fun j => j != i && m.slotBytes j != 0 && (rng i).1 == (rng j).1 && decide ((rng i).2.1 < (rng j).2.2 ∧ (rng j).2.1 < (rng i).2.2)
  BitVec.ofNat 24 ((List.range 24).foldl (fun acc i => if bad i then acc + 2 ^ i else acc) 0)

/-- The limits of Table SK-7 for an entry. -/
def Mach.skLimits (m : Mach) (s : Nat) : Bool :=
  let n := m.sk s 8 4
  let hop := m.sk s 6 1
  decide (n % 256 = 0 ∧ n ≤ 0x100000 ∧ 1 ≤ hop ∧ hop ≤ 16 ∧ m.sk s 7 1 < hop ∧ 1 ≤ m.sk s 0x10 2 ∧ m.sk s 0x10 2 ≤ 1024)

/-- Does frame_src name no ring, or a running capture ring of the skein's hop and phase (R370)? -/
def Mach.frameSrcOk (m : Mach) (s : Nat) : Bool :=
  let r := m.sk s 0x0C 2
  r == 0xFFFF || (decide (r < 16) && m.ae.running.getLsbD r && !m.on (AeRingCtl.dir r) && m.sk s 6 1 == m.get (AeRingCtl.hopM1 r) + 1 &&
    m.sk s 7 1 == m.get (AeRingCtl.phase r))

/-- Clear a skein's runtime fields, except slot and state (R306). -/
def Mach.clearRuntime (m : Mach) (s : Nat) : Mach :=
  (((m.skPut s 0x0E 2 0).hubWrite (skEntry s 0x14) (List.replicate 0x28 0)).skSetFlag s 2 false).skSetFlag s 5 false

/-- Skeins of step 16, one after the other. `refused`: models refused in this cast-on. R87 logs SKEIN_NOT_CREATED for each skein that no stash
leaves without a place, R86 names no such record for the skeins of a refused model: a skein under both is not logged (DESIGN CHOICE, log
entry 78). -/
def Mach.createSkein (m : Mach) (refused : List Nat) (s : Nat) : Mach :=
  let model := m.sk s 2 2
  let slot := m.sk s 1 1
  let placed := m.cast.models.any fun p => p.model == model
  let laid := m.cast.models.any fun p => p.model == model && p.overhang.any fun o => o.2 != 0
  let not := (m.skPut s 0 1 skNone)
  if model = 0xFFFF ∨ refused.contains model then not
  else if !placed ∨ !m.skLimits s ∨ !m.frameSrcOk s ∨ (slot = 0xFF ∧ !m.stashPresent) ∨
      (slot ≠ 0xFF ∧ (24 ≤ slot ∨ m.stash.unusable.getLsbD slot ∨ m.slotUse slot ≠ .free ∨ m.slotBytes slot < m.sk s 8 4)) then
    not.record Flt.skeinNotCreated { skein := s } []
  else
    let m1 := (m.clearRuntime s).skSetFlag s 3 laid
    if slot = 0xFF then (m1.skPut s 0 1 skStashed).zeroState s
    else ((m1.skPut s 0 1 skResident).setSlot slot .occupied).zeroSlot s

/-- Step 16: slots and skeins (R275, R306). An image without a SKEIN_TABLE record names no skein (log entry 35). -/
def Mach.createSkeins (m : Mach) (hasTable : Bool) (refused : List Nat) : Mach :=
  let m0 : Mach := { m with stash := { m.stash with slots := Vector.replicate 24 .free, unusable := m.unusableSlots, swaps := [], blocks := [] } }
  if hasTable then (List.range 96).foldl (fun acc s => acc.createSkein refused s) m0
  else (List.range 96).foldl (fun acc s => acc.skPut s 0 1 skNone) m0

/-- RECAST: every skein keeps its state and steps from its first fresh frame (R301). A re-cast ends a pending update, and with it the SUSPENDED
state of the skeins that waited for its switch. -/
def Mach.keepSkeins (m : Mach) : Mach :=
  (List.range 96).foldl (fun acc s =>
    let x := if acc.skState s = skSuspended then acc.skPut s 0 1 (if acc.sk s 1 1 = 0xFF then skStashed else skResident) else acc
    if acc.skState s = skNone then acc else ((x.skPut s 0x0E 2 0).skSetFlag s 2 false).skSetFlag s 5 false) m

end Sys2Proof.Machine
end

