-- ==== Sys2Proof/Machine/Audio.lean ====
section
/-! DEFINITION. The audio edge: SAMPLE, FRAME_EVENT, PLAYBACK_FRAME, GAIN_CHANGE, SNAP, ACD_SWATCH_TEST, ACD_SWATCH_END, PDM_STUCK,
PDM_STUCK_CLEARED, TDM_SYNC_LOST, TDM_SYNC_REGAINED, TDM_RATE, BIAS_FAULT, AUDIO_MICROFRAME (11_audio_edge.md, 12 R380). -/

namespace Sys2Proof.Machine

/-! ## Channels and domains (Table AE-1) -/

/-- Domain of a capture channel. -/
def capDomain (ch : Nat) : Nat := if ch < 16 then 0 else if ch < 48 then 1 else if ch < 112 then 2 + (ch - 48) / 16 else 6
/-- Domain of an output channel. -/
def outDomain (ch : Nat) : Nat := if ch < 8 then 0 else if ch < 72 then 2 + (ch - 8) / 16 else 6
def domainFn (d : Nat) : Fin 19 := if d = 6 then fnUsb else ix 19 (10 + d)
/-- Does a channel number of the ring's direction exist? -/
def chanExists (play : Bool) (ch : Nat) : Bool := decide (if play then ch < 80 else ch < 120)

/-- A register with static fields, as it is in effect: a write while the domain's function is not in service waits for REJOIN (R363). -/
def Mach.aeReg (m : Mach) (a : Nat) : Word := match m.ae.eff.find? fun e => e.1 == a with | some e => e.2 | none => m.reg a

/-- Slots of a TDM port's format (Table AE-6); 3 acts as 0. -/
def Mach.tdmSlots (m : Mach) (p : Nat) : Nat := match m.get (AeTdmCtl.format p) with | 1 => 16 | 2 => 2 | _ => 8
def Mach.tdmSlave (m : Mach) (p : Nat) : Bool := !(m.aeReg (AeTdmCtl.reg p)).getLsbD 0
/-- Is the domain clocked by AMCLK_IN (R344)? -/
def Mach.onAmclk (m : Mach) (d : Nat) : Bool := decide (d < 6) && (m.aeReg AeClksel.reg).getLsbD d && !(decide (2 ≤ d) && m.tdmSlave (d - 2))
/-- Is the domain without its clock: it selects AMCLK_IN, which is absent (R61, R357)? -/
def Mach.clockGone (m : Mach) (d : Nat) : Bool := m.onAmclk d && !m.pw.amclk
/-- Do the USB audio streams run: configured, not suspended, with the streaming interfaces that FAILED lacks (R379, R399, Table HL-3)? -/
def Mach.usbStreams (m : Mach) : Bool := m.on HlUsbStat.configured && !m.on HlUsbStat.suspended && !m.on HlUsbStat.degraded
/-- Does the domain pass through the ASRC (R345)? -/
def Mach.asrcIn (m : Mach) (d : Nat) : Bool := decide (d = 6) || m.onAmclk d || (decide (2 ≤ d) && m.tdmSlave (d - 2))

/-! ### The pins (R351, R368, R369) -/

/-- A TDM port whose function is out of service drives DOUT low. -/
def Mach.doutOn (m : Mach) (p : Nat) : Bool := m.up (domainFn (2 + p))
/-- Does a master port drive BCLK and FSYNC with its clock? Otherwise it drives them low: out of service, or on an AMCLK_IN that is lost. -/
def Mach.bclkOn (m : Mach) (p : Nat) : Bool := !m.tdmSlave p && m.up (domainFn (2 + p)) && !m.clockGone (2 + p)
/-- Does PDM_CLKn toggle? Otherwise it is driven low. -/
def Mach.pdmClkOn (m : Mach) (n : Nat) : Bool := m.up fnPdm && (m.get AePdmCtl.clkEn).testBit n && !m.clockGone 1

/-- A PDM line's clock (AE_PDM_MAPk). -/
def Mach.pdmClk (m : Mach) (line : Nat) : Nat := bitsOf (m.reg (AePdmMap.reg (line / 8))).toNat (4 * (line % 8) + 2) (4 * (line % 8))
/-- Table AE-5: 48 kHz is allowed with div 0 and 1 only. -/
def Mach.pdmOk (m : Mach) : Bool := m.on AePdmCtl.rate || decide (m.get AePdmCtl.div ≤ 1)

/-- A capture channel's rate bit: 1 = 16 kHz. -/
def Mach.capRate (m : Mach) (ch : Nat) : Nat := if ch < 16 then m.get AeAcdCtl.rate else if ch < 48 then m.get AePdmCtl.rate else 0
def Mach.outRate (m : Mach) (ch : Nat) : Nat := if ch < 8 then m.get AeAcdCtl.rate else 0
/-- Sample period in TB ticks (R345). -/
def periodOf (rate : Nat) : Nat := if rate = 1 then 60000 else 20000

/-- Is a capture channel missing now (R357, R365, R368, R399)? -/
def Mach.chanMissing (m : Mach) (ch : Nat) : Bool :=
  let d := capDomain ch
  !m.up (domainFn d) || (m.clockGone d) ||
  (if d = 0 then m.ae.swatch || !(m.get AeAcdCtl.inEn).testBit ch || (m.get AeAcdStat.failed).testBit ch
   else if d = 1 then
     let i := ch - 16
     !m.pdmOk || m.ae.stuck.getLsbD i || !(m.get AePdmCtl.lineEn).testBit (i / 2) || !m.pdmClkOn (m.pdmClk (i / 2))
   else if d < 6 then
     let p := d - 2
     let s := (ch - 48) % 16
     (m.tdmSlave p && m.ae.syncLost.getLsbD p) || (m.asrcIn d && m.ae.rateBad.getLsbD p) || decide (m.tdmSlots p ≤ s) || !(m.get (AeTdmCtl.rxEn p)).testBit s
   else !m.usbStreams || !m.on HlUsbStat.playActive || decide (m.get MsgUsbCfg.playChM1 < ch - 112))

/-! ## Rings (R354, R355, R358, R370) -/

def Mach.ringHop (m : Mach) (r : Nat) : Nat := m.get (AeRingCtl.hopM1 r) + 1
def Mach.ringLead (m : Mach) (r : Nat) : Nat := m.get (AeRingCtl.leadM1 r) + 1
def Mach.ringDepth (m : Mach) (r : Nat) : Nat := m.get (AeRingCtl.depthM1 r) + 1
def Mach.ringPlay (m : Mach) (r : Nat) : Bool := m.on (AeRingCtl.dir r)
def Mach.rowTicks (m : Mach) : Nat := 480000 * m.cast.rowPeriod
/-- Samples per frame S. -/
def Mach.ringS (m : Mach) (r : Nat) : Nat := (if m.on (AeRingCtl.rate r) then 8 else 24) * m.ringHop r * m.cast.rowPeriod
/-- The ring's channels, ascending. -/
def Mach.ringChans (m : Mach) (r : Nat) : List Nat :=
  (List.range 120).filter fun ch => chanExists (m.ringPlay r) ch && (m.reg (AeRingCh.reg r (ch / 32))).getLsbD (ch % 32)
def Mach.ringStride (m : Mach) (r : Nat) : Nat := roundUp (4 * m.ringS r) 64
def Mach.slotSize (m : Mach) (r : Nat) : Nat := 64 + (m.ringChans r).length * m.ringStride r
def Mach.slotAt (m : Mach) (r f : Nat) : Nat := m.get (AeRingBase.base r) + (f % m.ringDepth r) * m.slotSize r
/-- A ring's range in hub SRAM. -/
def Mach.ringRange (m : Mach) (r : Nat) : Nat × Nat := (m.get (AeRingBase.base r), m.get (AeRingBase.base r) + m.ringDepth r * m.slotSize r)
def overlaps (a b : Nat × Nat) : Bool := decide (a.1 < b.2 ∧ b.1 < a.2)
def Mach.stageRange (m : Mach) : Nat × Nat :=
  let b := m.get MsgStage.base / 4096 * 4096
  (b, b + 1024 * m.get MsgStage.sizeKib)
def Mach.inboxBase (m : Mach) : Nat := m.get MsgUsbInbox.base / 4096 * 4096
def Mach.inboxSlots (m : Mach) : Nat := Nat.max 1 (m.get MsgUsbInbox.slotsM1) + 1
def Mach.inboxRange (m : Mach) : Nat × Nat := (m.inboxBase, m.inboxBase + 4160 * m.inboxSlots)

/-- Why an enabled ring may not start (Table AE-8, R364); 0 = it may. Several reasons at once give the lowest code (log entry 36). -/
def Mach.ringReason (m : Mach) (r : Nat) : Nat :=
  let chs := m.ringChans r
  let rng := m.ringRange r
  let others := (List.range 16).any fun q => q != r && m.on (AeRingCtl.enable q) && overlaps rng (m.ringRange q)
  if others ∨ overlaps rng m.stageRange ∨ overlaps rng m.inboxRange then 1
  else if rng.1 % 64 ≠ 0 ∨ rng.1 < 0x2000 ∨ 0x1DE800 < rng.2 then 2
  else if chs.any fun ch => (if m.ringPlay r then m.outRate ch else m.capRate ch) != m.get (AeRingCtl.rate r) then 3
  else if chs.isEmpty then 4
  else if m.ringDepth r < 2 ∨ m.ringHop r ≤ m.get (AeRingCtl.phase r) ∨
      (m.ringPlay r ∧ m.ringDepth r < (m.ringLead r + m.ringHop r - 1) / m.ringHop r + 1) then 5
  else 0

/-- Step 4 of R370: check every enabled ring. -/
def Mach.checkRings (m : Mach) : Mach :=
  (List.range 16).foldl (fun acc r =>
    let code := acc.ringReason r
    let a0 := (acc.put (AeRingStat.reason r) 0).put (AeRingStat.running r) 0
    let bit := BitVec.ofNat 16 (2 ^ r)
    if !acc.on (AeRingCtl.enable r) then { a0 with ae := { a0.ae with running := a0.ae.running &&& ~~~bit } }
    else if code = 0 then
      let a1 := a0.put (AeRingStat.running r) 1
      { a1 with ae := { a1.ae with running := a1.ae.running ||| bit } }
    else
      let a1 := ((a0.put (AeRingStat.reason r) code).flag AeStatus.ringBad).record Flt.aeRingBad (srcIsl 262) []
      { a1 with ae := { a1.ae with running := a1.ae.running &&& ~~~bit } }) m

/-- Capture starts in every domain (R370, R367); frames are numbered from the pattern's new start. -/
def Mach.startCapture (m : Mach) : Mach :=
  { m with ae := { m.ae with
      capturing := true, capStart := Vector.replicate 7 m.now, frames := Vector.replicate 16 0, played := Vector.replicate 16 0,
      playing := Vector.replicate 16 none, miss := [], clip := [], early := [] } }

/-- Frames are numbered afresh when the pattern starts (R354). What capture took in before, within the same command, no SAMPLE has brought
(log entry 87). -/
def Mach.restartFrames (m : Mach) : Mach :=
  { m with ae := { m.ae with frames := Vector.replicate 16 0, played := Vector.replicate 16 0, playing := Vector.replicate 16 none,
                             miss := [], clip := [], early := [], blind := m.now } }

/-! ## Capture (R352-R357) -/

/-- The TB tick at which row n begins; rows run on from the current one. -/
def Mach.rowTick (m : Mach) (n : Nat) : Nat := m.rowStart + n * m.rowTicks - m.rowCount * m.rowTicks

/-- The frame and position of a grid instant in a capture ring: the first frame whose row begins at or after it (R354). -/
def Mach.framePos (m : Mach) (r g : Nat) : Option (Nat × Nat) :=
  let p := periodOf (m.get (AeRingCtl.rate r))
  let t0 := m.rowTick 0
  let k := (g - t0 + m.rowTicks - 1) / m.rowTicks
  let h := m.ringHop r
  let ph := m.get (AeRingCtl.phase r)
  let f := if k ≤ ph then 0 else (k - ph + h - 1) / h
  let back := (m.rowTick (f * h + ph) - g) / p
  if back < m.ringS r then some (f, m.ringS r - 1 - back) else none

def frameKey (r f : Nat) : Nat := r * 2 ^ 32 + f % 2 ^ 32
def noMask : Nat → BitVec 128 := fun _ => 0
def notEarly : Nat → Bool := fun _ => false

/-- Write one sample of position i of a capture ring, with its missing, clipped and early marks. -/
def Mach.putSample (m : Mach) (r f i j : Nat) (v : Word) (missing clipped early : Bool) : Mach :=
  let bit := BitVec.ofNat 128 (2 ^ i)
  let k := frameKey r f
  let m1 := m.hubWrite (m.slotAt r f + 64 + i * m.ringStride r + 4 * j) (leBytes 4 (if missing then 0 else v.toNat))
  { m1 with ae := { m1.ae with
      miss := if missing then Tab.set noMask m1.ae.miss k (Tab.get noMask m1.ae.miss k ||| bit) else m1.ae.miss
      clip := if clipped then Tab.set noMask m1.ae.clip k (Tab.get noMask m1.ae.clip k ||| bit) else m1.ae.clip
      early := if early then Tab.set notEarly m1.ae.early k true else m1.ae.early } }

def noGrid : Nat → Nat := fun _ => 0
def Mach.gridOf (m : Mach) (ch : Nat) : Nat := Tab.get noGrid m.ae.grid ch

/-- Capture rings that run and hold a channel, with the channel's position. -/
def Mach.ringsOf (m : Mach) (ch : Nat) : List (Nat × Nat) :=
  (List.range 16).filterMap fun r =>
    if m.ae.running.getLsbD r && !m.ringPlay r then
      match (m.ringChans r).findIdx? (· == ch) with | some i => some (r, i) | none => none
    else none

/-- Magnitude of a sample as a 24-bit value from bits [31:8] (R353). -/
def magnitude24 (v : Word) : Nat := (signed 24 (v.toNat / 256)).natAbs

/-- The books of one captured word of a channel: clipped, and counted so (R353). -/
def Mach.clipBook (m : Mach) (ch : Nat) (v : Word) (valid : Bool) : Bool × Mach :=
  if valid && decide (m.get AeCtl.clipThr ≤ magnitude24 v) then
    (true, ((m.bump AeClipCount.count).flag AeStatus.clip).setReg (AeClip.reg (ch / 32)) (m.reg (AeClip.reg (ch / 32)) ||| BitVec.ofNat 32 (2 ^ (ch % 32))))
  else (false, m)

/-- Positions of frame f from instant `a` up to (not including) instant `b` that got no sample: written as missing. Instants at which capture ran
within the command that started the pattern had a sample, whose value is free (log entry 87). -/
def Mach.fillMissing (m : Mach) (r i f a b start ch : Nat) : Mach :=
  (List.range (m.ringS r)).foldl (fun acc j =>
    let p := periodOf (m.get (AeRingCtl.rate r))
    let last := m.rowTick (f * m.ringHop r + m.get (AeRingCtl.phase r))
    let g := last - (m.ringS r - 1 - j) * p
    if a ≤ g ∧ g < b then
      if start ≤ g ∧ g < acc.ae.blind ∧ !acc.chanMissing ch then
        let x := acc.fresh
        let c := x.2.clipBook ch (x.1.setWidth 32) true
        c.2.putSample r f i j (x.1.setWidth 32) false c.1 false
      else acc.putSample r f i j 0 true false (decide (g < start))
    else acc) m

/-- The bits of a TDM word of its port's length, from the first bit sent (R350, R352). -/
def Mach.tdmMask (m : Mach) (p : Nat) : Word := match m.get (AeTdmCtl.word p) with | 0 => 0xFFFF0000 | 1 => 0xFFFFFF00 | _ => 0xFFFFFFFF

/-- The conditioned word of a source word (R352, R380): unchanged when no high-pass, converter or gain lies in its path, else a value that
the spec's filters do not state (log entry 37); a 24-bit source leaves bits [7:0] at 0, a TDM word is left-justified. -/
def Mach.condition (m : Mach) (ch : Nat) (v : Word) : Word × Mach :=
  let d := capDomain ch
  let hp := if d = 0 then m.get AeAcdCtl.hp else if d = 1 then m.get AePdmCtl.hp else if d < 6 then m.get (AeTdmCtl.hp (d - 2)) else 0
  let mask : Word := if d = 6 then 0xFFFFFF00
    else if 2 ≤ d then m.tdmMask (d - 2) else 0xFFFFFFFF
  let muted := d == 6 && m.host.mutes.getLsbD (ch - 112)
  if muted then (0, m)
  else if hp = 0 ∧ !m.asrcIn d then (v &&& mask, m)
  else let r := m.fresh; (r.1.setWidth 32 &&& mask, r.2)

/-- Native samples of a domain in one sample period of the grid, in millionths: one on the derived clock; beside it within the range that the
converter tracks, by the port's measured deviation or, where none is measured, by a free one (R345, R360; log entry 38). -/
def Mach.nativeStep (m : Mach) (d : Nat) : Nat × Mach :=
  if !m.asrcIn d then (1000000, m)
  else if 2 ≤ d ∧ d < 6 then ((1000000 + signed 16 (vget m.ae.ppm (ix 4 (d - 2))).toNat).toNat, m)
  else let r := m.freshBelow 2001; (999000 + r.1, r.2)

/-- The samples of a domain that the counter takes in up to a grid instant, once per instant (R360): one, and at the first after a start of
capture those before it (log entry 87). USB samples are counted as they come. -/
def Mach.countSample (m : Mach) (d g p : Nat) : Mach :=
  if d ≠ 6 ∧ vget m.ae.counted (ix 7 d) < g then
    let start := vget m.ae.capStart (ix 7 d)
    let before := if vget m.ae.counted (ix 7 d) < start then roundUp (Nat.min m.ae.blind g) p / p - roundUp start p / p else 0
    let s := m.nativeStep d
    let n := vget s.2.ae.native (ix 7 d) + (1 + before) * s.1
    let m1 := s.2.put (AeCnt.count d) ((s.2.get (AeCnt.count d) + n / 1000000) % 2 ^ 32)
    { m1 with ae := { m1.ae with
        counted := vset m1.ae.counted (ix 7 d) g, native := vset m1.ae.native (ix 7 d) (n % 1000000)
        lastTick := if n < 1000000 then m1.ae.lastTick else vset m1.ae.lastTick (ix 7 d) m1.tb } }
  else m

/-- One USB sample is counted (R360). -/
def Mach.countUsb (m : Mach) : Mach :=
  let m1 := m.bumpMod (AeCnt.count 6)
  { m1 with ae := { m1.ae with lastTick := vset m1.ae.lastTick 6 m1.tb } }

/-- SAMPLE: the channel's next sample reaches its grid instant, the first at or after now that the channel has not used. -/
def Mach.sample (m : Mach) (ch : Nat) (value : Word) : Mach :=
  let d := capDomain ch
  if !m.ae.capturing ∨ !m.up (domainFn d) ∨ m.clockGone d then m
  else
    let p := periodOf (m.capRate ch)
    let g := roundUp (Nat.max (m.gridOf ch) m.now) p
    let g0 := m.gridOf ch
    let m1 := (m.advanceTo g).countSample d g p
    let c := m1.condition ch value
    let miss := m1.chanMissing ch
    let start := vget m1.ae.capStart (ix 7 d)
    let early := decide (g < start)
    let k := c.2.clipBook ch c.1 (!miss && !early)
    let m3 := (k.2.ringsOf ch).foldl (fun acc ri =>
      match acc.framePos ri.1 g with
      | some (f, j) => (acc.fillMissing ri.1 ri.2 f g0 g start ch).putSample ri.1 f ri.2 j c.1 (miss || early) k.1 early
      | none => acc) k.2
    { m3 with ae := { m3.ae with grid := Tab.set noGrid m3.ae.grid ch (g + p) } }

def execSample (ch : Fin 120) (value : Word) (s : State) : Host.Outcome State Fault Refusal := s.onTime fun m => m.sample ch.val value

/-- A frame joins a skein's backlog (R280, R281, R294). -/
def Mach.frameToSkein (m : Mach) (s : Nat) : Mach :=
  let st := m.skState s
  if st = skSuspended then m.skBump s 0x34 4
  else
    let b := m.sk s 0x0E 2
    let m1 := if m.sk s 0x10 2 ≤ b then m.skBump s 0x34 4 else m.skPut s 0x0E 2 (b + 1)
    if m.skFlag s 5 then m1.record Flt.stepLate { skein := s } [] else m1

/-- Skeins that a capture ring feeds (R356). -/
def Mach.feeds (m : Mach) (r s : Nat) : Bool := m.sk s 0x0C 2 == r && m.skState s != skNone && decide (m.skState s ≤ skSuspended)

/-- FRAME_EVENT: the next capture frame of a ring whose row has begun is closed (R355, R356). -/
def Mach.frameEvent (m : Mach) (r : Nat) : Mach :=
  let f := vget m.ae.frames (ix 16 r)
  let n := f * m.ringHop r + m.get (AeRingCtl.phase r)
  if !m.ae.capturing ∨ !m.on GlStatus.patternRunning ∨ !m.ae.running.getLsbD r ∨ m.ringPlay r ∨ m.rowCount < n then m
  else
    let last := m.rowTick n
    let p := periodOf (m.get (AeRingCtl.rate r))
    let chs := m.ringChans r
    -- channels that brought no sample to the last instants of the frame
    let m1 := (List.range chs.length).foldl (fun acc i =>
      let ch := chs.getD i 0
      acc.fillMissing r i f (acc.gridOf ch) (last + p) (vget acc.ae.capStart (ix 7 (capDomain ch))) ch) m
    let m2 := chs.foldl (fun acc ch =>
      if acc.gridOf ch < last + p then { acc with ae := { acc.ae with grid := Tab.set noGrid acc.ae.grid ch (last + p) } } else acc) m1
    let k := frameKey r f
    let asrc := chs.any fun ch => m2.asrcIn (capDomain ch)
    let hdr := leBytes 4 f ++ leBytes 1 chs.length ++ leBytes 1 (m2.get (AeRingCtl.rate r)) ++ leBytes 2 (m2.ringS r) ++ leBytes 8 last ++
      leBytes 8 m2.now ++ leBytes 16 (Tab.get noMask m2.ae.miss k).toNat ++ leBytes 16 (Tab.get noMask m2.ae.clip k).toNat ++
      leBytes 4 (b2n asrc + 2 * b2n (Tab.get notEarly m2.ae.early k)) ++ leBytes 4 0
    let m3 := m2.hubWrite (m2.slotAt r f) hdr
    let m4 : Mach := { m3 with ae := { m3.ae with
        frames := vset m3.ae.frames (ix 16 r) (f + 1), miss := Tab.erase m3.ae.miss k, clip := Tab.erase m3.ae.clip k, early := Tab.erase m3.ae.early k } }
    let m5 := (List.range 10).foldl (fun acc c => if (acc.get (AeRingEvt.cores r)).testBit c then acc.signalCode c (acc.get (AeRingEvt.event r)) else acc) m4
    (List.range 96).foldl (fun acc s => if acc.feeds r s then acc.frameToSkein s else acc) m5

def execFrameEvent (ring : Fin 16) (s : State) : Host.Outcome State Fault Refusal := s.onM fun m => m.frameEvent ring.val

/-! ## Playback (R358, R359) -/

/-- May an output channel sound? -/
def Mach.outOn (m : Mach) (ch : Nat) : Bool :=
  let d := outDomain ch
  m.up (domainFn d) && !(m.clockGone d) &&
  (if d = 0 then (m.get AeAcdOut.outEn).testBit ch && !m.ae.swatch
   else if d < 6 then decide ((ch - 8) % 16 < m.tdmSlots (d - 2))
   else m.usbStreams)

/-- A sample under a gain between k/64 and (k + 1)/64: the spec states a linear ramp, not its end points or its rounding (log entry 37). -/
def Mach.rampWord (m : Mach) (k : Nat) (w : Word) : Word × Mach :=
  let r := m.freshBelow 65
  (BitVec.ofInt 32 (Int.tdiv (w.toInt * ((64 * k + r.1 : Nat) : Int)) 4096), r.2)

/-- Samples under a gain that rises to 1 or falls to 0 with n samples of its ramp of 64 left (R359). -/
def Mach.gainWords (m : Mach) (up : Bool) : Nat → List Word → List Word × Mach
  | _, [] => ([], m)
  | 0, ws => (if up then ws else ws.map fun _ => 0, m)
  | n + 1, w :: ws =>
    let f := m.rampWord (if up then 63 - n else n) w
    let t := Mach.gainWords f.2 up n ws
    (f.1 :: t.1, t.2)

def noOut : Nat → List Word := fun _ => []
def noRamp : Nat → Nat := fun _ => 0
/-- Is a channel also held by a running playback ring of a lower number? -/
def Mach.heldBelow (m : Mach) (r ch : Nat) : Bool := (List.range r).any fun q => m.ae.running.getLsbD q && m.ringPlay q && (m.ringChans q).contains ch

/-- The bits of an output word that leave the pin (R350). -/
def Mach.outMask (m : Mach) (ch : Nat) : Word := if 2 ≤ outDomain ch ∧ outDomain ch < 6 then m.tdmMask (outDomain ch - 2) else 0xFFFFFFFF

def Mach.sounds (m : Mach) (ch : Nat) : Bool := m.ae.sound.getLsbD ch

/-- An output channel plays `head`, and then `ws` under its gain, with `left` samples of a ramp to go. -/
def Mach.playWords (m : Mach) (ch : Nat) (head ws : List Word) (left : Nat) (on : Bool) : Mach :=
  let r := m.gainWords on left ws
  let bit := BitVec.ofNat 80 (2 ^ ch)
  { r.2 with ae := { r.2.ae with
      out := Tab.set noOut r.2.ae.out ch (head ++ r.1.map (· &&& m.outMask ch)), ramp := Tab.set noRamp r.2.ae.ramp ch (left - ws.length)
      sound := if on then r.2.ae.sound ||| bit else r.2.ae.sound &&& ~~~bit } }

/-- One output channel takes its samples of a frame; one that starts, stops, mutes or unmutes there ramps (R359). -/
def Mach.playChan (m : Mach) (ch : Nat) (ws : List Word) (on : Bool) : Mach :=
  let m1 := m.playWords ch [] ws (if on != m.sounds ch then 64 else Tab.get noRamp m.ae.ramp ch) on
  { m1 with ae := { m1.ae with raw := Tab.set noOut m1.ae.raw ch ws } }

/-- How many samples of the frame in play have left their grid instants (R358); those of the USB stream leave when they are fetched. -/
def Mach.playedOf (m : Mach) (ch : Nat) : Nat :=
  if 72 ≤ ch then 0
  else match (List.range 16).find? fun q => m.ae.running.getLsbD q && m.ringPlay q && (m.ringChans q).contains ch with
    | some r =>
      let t0 := m.rowTick ((vget m.ae.played (ix 16 r) - 1) * m.ringHop r + m.get (AeRingCtl.phase r) + m.ringLead r)
      if m.now < t0 then 0 else Nat.min (m.ringS r) ((m.now - t0) / periodOf (m.get (AeRingCtl.rate r)) + 1)
    | none => 0

/-- A channel's stream is gone: it plays nothing. -/
def Mach.clearOut (m : Mach) (ch : Nat) : Mach :=
  { m with ae := { m.ae with
      raw := Tab.erase m.ae.raw ch, out := Tab.erase m.ae.out ch, ramp := Tab.erase m.ae.ramp ch
      sound := m.ae.sound &&& ~~~(BitVec.ofNat 80 (2 ^ ch)) } }

/-- A channel's gain turns at the next sample (R359, R363). -/
def Mach.regain (m : Mach) (ch : Nat) (on : Bool) : Mach :=
  if m.sounds ch == on then m
  else
    let k := m.playedOf ch
    m.playWords ch ((Tab.get noOut m.ae.out ch).take k) ((Tab.get noOut m.ae.raw ch).drop k) 64 on

/-- Every channel in play mutes or unmutes as it now may sound. -/
def Mach.refreshOuts (m : Mach) : Mach := m.ae.raw.foldl (fun acc e => acc.regain e.1 (acc.outOn e.1)) m

/-- The outputs of a domain fall silent with its function or its clock: no gain is left to ramp (R369). -/
def Mach.silence (m : Mach) (d : Nat) : Mach :=
  (m.ae.raw.filter fun e => outDomain e.1 == d).foldl (fun acc e =>
    let k := acc.playedOf e.1
    acc.playWords e.1 ((Tab.get noOut acc.ae.out e.1).take k) ((Tab.get noOut acc.ae.raw e.1).drop k) 0 false) m

/-- Capture and playback stop; every output that sounds ramps to zero (R359, R367). Past the frame in play the samples under the ramp come
from nothing that the spec names: they are free (log entry 37). -/
def Mach.stopCapture (m : Mach) : Mach :=
  let m1 := (m.ae.raw.filter fun e => m.sounds e.1).foldl (fun acc e =>
    let k := acc.playedOf e.1
    let rest := (Tab.get noOut acc.ae.raw e.1).drop k
    let more := (List.range (64 - rest.length)).foldl (fun (x : List Word × Mach) _ => let f := x.2.fresh; (x.1 ++ [f.1.setWidth 32], f.2)) ([], acc)
    more.2.playWords e.1 ((Tab.get noOut acc.ae.out e.1).take k) (rest ++ more.1) 64 false) m
  { m1 with ae := { m1.ae with capturing := false, playing := Vector.replicate 16 none, raw := [], ramp := [], sound := 0 } }

/-- PLAYBACK_FRAME: at the start of row n + e the ring's next frame is read and plays, or zeros do. -/
def Mach.playbackFrame (m : Mach) (r : Nat) : Mach :=
  let f := vget m.ae.played (ix 16 r)
  let n := f * m.ringHop r + m.get (AeRingCtl.phase r) + m.ringLead r
  if !m.ae.capturing ∨ !m.on GlStatus.patternRunning ∨ !m.ae.running.getLsbD r ∨ !m.ringPlay r ∨ m.rowCount < n then m
  else
    let a := m.slotAt r f
    let hd := m.hubRead a 4
    let ok := leNat hd.1 == f % 2 ^ 32 && hd.2.1 == .ok
    let m1 := if ok then hd.2.2 else ((hd.2.2.bump AeUnderrunCount.count).flag AeStatus.underrun).record Flt.aeUnderrun (srcIsl 262) []
    let chs := m1.ringChans r
    let m2 := (List.range chs.length).foldl (fun acc i =>
      let ch := chs.getD i 0
      if acc.heldBelow r ch then acc
      else if !ok then acc.playChan ch (List.replicate (acc.ringS r) 0) (acc.outOn ch)
      else
        let b := a + 64 + i * acc.ringStride r
        let words := (List.range (acc.ringS r)).map fun j => if acc.hub.bad ((b + 4 * j) / 8) then (0 : Word) else BitVec.ofNat 32 (acc.hubNat (b + 4 * j) 4)
        ((acc.hubRead b (4 * acc.ringS r)).2.2).playChan ch words (acc.outOn ch)) m1
    { m2 with ae := { m2.ae with played := vset m2.ae.played (ix 16 r) (f + 1), playing := vset m2.ae.playing (ix 16 r) (some { frame := f, ok := ok }) } }

def execPlaybackFrame (ring : Fin 16) (s : State) : Host.Outcome State Fault Refusal := s.onM fun m => m.playbackFrame ring.val

/-! ## Gains, snapshots, the ACD swatch test -/

/-- A gain code as it acts: 29-31 act as 28. -/
def Mach.gainCode (m : Mach) (i : Nat) : Nat := Nat.min 28 (bitsOf (m.reg (AeAcdGain.reg (i / 4))).toNat (8 * (i % 4) + 4) (8 * (i % 4)))

def execGainChange (input : Fin 16) (s : State) : Host.Outcome State Fault Refusal :=
  s.onM fun m => { m with ae := { m.ae with gains := vset m.ae.gains input (BitVec.ofNat 5 (m.gainCode input.val)) } }

/-- AE_SNAP.snap latches every domain's count and the tick of its last increment (R361). -/
def Mach.snap (m : Mach) : Mach :=
  let m1 := (List.range 7).foldl (fun acc d => acc.putPair (AeTsLo.reg d) (vget m.ae.lastTick (ix 7 d)).toNat) m
  { m1 with ae := { m1.ae with snapCount := Vector.ofFn fun d => some (m.reg (AeCnt.reg d)) } }

/-- May a path write an AE register now? -/
def Mach.aeOpen (m : Mach) (p : Path) : Bool := m.pathUp p && m.reaches 0x600000

def execSnap (p : Path) (s : State) : Host.Outcome State Fault Refusal := s.onM fun m => if m.aeOpen p then m.snap else m

/-- AE_ACD_CTL.swatch (R365): during the test AOUT0-AOUT7 are muted. -/
def Mach.acdSwatch (m : Mach) : Mach :=
  if m.ae.swatch ∨ !m.up fnAcd then m
  else
    (({ m with ae := { m.ae with swatch := true } } : Mach).put AeAcdStat.swatchBusy 1).refreshOuts

def execAcdSwatchTest (p : Path) (s : State) : Host.Outcome State Fault Refusal := s.onM fun m => if m.aeOpen p then m.acdSwatch else m

/-- The result of an ACD swatch test (Table AE-9). -/
def Mach.acdResult (m : Mach) (failed : BitVec 16) : Mach :=
  let m1 := m.put AeAcdStat.failed failed.toNat
  if failed = 0 then m1 else m1.record Flt.acdSwatch (srcIsl 262) []

def Mach.acdSwatchEnd (m : Mach) (failed : BitVec 16) : Mach :=
  if m.ae.swatch then (({ m with ae := { m.ae with swatch := false } } : Mach).put AeAcdStat.swatchBusy 0).acdResult failed |>.refreshOuts else m

def execAcdSwatchEnd (failed : BitVec 16) (s : State) : Host.Outcome State Fault Refusal := s.onM fun m => m.acdSwatchEnd failed

/-! ## Failures (R368) -/

def Mach.setStuck (m : Mach) (i : Fin 32) (v : Bool) : Mach :=
  let bit := BitVec.ofNat 32 (2 ^ i.val)
  let w := if v then m.ae.stuck ||| bit else m.ae.stuck &&& ~~~bit
  ({ m with ae := { m.ae with stuck := w } } : Mach).setReg AePdmStuck.reg w

def Mach.pdmStuck (m : Mach) (i : Fin 32) : Mach :=
  if !m.up fnPdm ∨ m.ae.stuck.getLsbD i.val then m
  else ((m.setStuck i true).flag AeStatus.stuck).record Flt.pdmStuck (srcIsl 257) []

def execPdmStuck (mic : Fin 32) (s : State) : Host.Outcome State Fault Refusal := s.onM fun m => m.pdmStuck mic
def execPdmStuckCleared (mic : Fin 32) (s : State) : Host.Outcome State Fault Refusal := s.onM fun m => m.setStuck mic false

def tdmFn (p : Fin 4) : Fin 19 := ⟨12 + p.val, by omega⟩
def tdmBit (p : Fin 4) : BitVec 4 := BitVec.ofNat 4 (2 ^ p.val)

def Mach.tdmSyncLost (m : Mach) (p : Fin 4) : Mach :=
  if !m.up (tdmFn p) ∨ !m.tdmSlave p.val ∨ m.ae.syncLost.getLsbD p.val then m
  else
    let m1 : Mach := { m with ae := { m.ae with syncLost := m.ae.syncLost ||| tdmBit p } }
    ((m1.bump AeSyncCount.count).flag AeStatus.syncLost).record Flt.tdmSyncLost (srcIsl (258 + p.val)) []

def execTdmSyncLost (port : Fin 4) (s : State) : Host.Outcome State Fault Refusal := s.onM fun m => m.tdmSyncLost port

/-- Four FSYNCs at correct spacing: both conditions end (Table AE-9). -/
def Mach.tdmSyncBack (m : Mach) (p : Fin 4) : Mach :=
  if !m.up (tdmFn p) then m
  else
    { m with ae := { m.ae with syncLost := m.ae.syncLost &&& ~~~(tdmBit p), rateBad := m.ae.rateBad &&& ~~~(tdmBit p) } }

def execTdmSyncRegained (port : Fin 4) (s : State) : Host.Outcome State Fault Refusal := s.onM fun m => m.tdmSyncBack port

/-- The ASRC of a port measures a deviation; beyond ±1,000 ppm the port is out of range. -/
def Mach.tdmRate (m : Mach) (p : Fin 4) (ppm : BitVec 16) : Mach :=
  if !m.up (tdmFn p) ∨ !m.asrcIn (2 + p.val) then m
  else
    let m1 := ({ m with ae := { m.ae with ppm := vset m.ae.ppm p ppm } } : Mach).put (AeTdmStat.ppm p.val) ppm.toNat
    if (signed 16 ppm.toNat).natAbs ≤ 1000 ∨ m1.ae.rateBad.getLsbD p.val then m1
    else
      let m2 : Mach := { m1 with ae := { m1.ae with rateBad := m1.ae.rateBad ||| tdmBit p } }
      (m2.flag AeStatus.syncLost).record Flt.tdmRate (srcIsl (258 + p.val)) []

def execTdmRate (port : Fin 4) (ppm : BitVec 16) (s : State) : Host.Outcome State Fault Refusal := s.onM fun m => m.tdmRate port ppm

/-- A bias output at its current limit is switched off. -/
def Mach.biasFault (m : Mach) (n : Fin 2) : Mach :=
  let en := if n = 0 then AeAcdCtl.bias0En else AeAcdCtl.bias1En
  let fl := if n = 0 then AeAcdStat.bias0Fault else AeAcdStat.bias1Fault
  if !m.on en then m else (((m.put en 0).put fl 1).flag AeStatus.biasFault).record Flt.biasFault (srcIsl 262) []

def execBiasFault (n : Fin 2) (s : State) : Host.Outcome State Fault Refusal := s.onM fun m => m.biasFault n

/-! ## USB audio (R380) -/

/-- Six samples of every channel of the playback stream, channel by channel within each sample. -/
def Mach.usbPlay (m : Mach) (samples : List Word) : Mach :=
  let n := m.get MsgUsbCfg.playChM1 + 1
  (List.range 6).foldl (fun acc k => (List.range n).foldl (fun a i => a.sample (112 + i) (samples.getD (k * n + i) 0)) acc |>.countUsb) m

/-- The capture stream: the next six samples of each output channel of domain 6, through the converter; zeros where nothing plays. -/
def Mach.usbCapture (m : Mach) : Mach :=
  let n := m.get MsgUsbCfg.capChM1 + 1
  let r := (List.range 6).foldl (fun acc k => (List.range n).foldl (fun a i =>
    let w := (Tab.get noOut a.2.ae.out (72 + i)).getD k 0
    let o := if w = 0 ∨ a.2.host.mutes.getLsbD (8 + i) then ((0 : Word), a.2) else let f := a.2.fresh; (f.1.setWidth 32 &&& 0xFFFFFF00, f.2)
    (a.1 ++ [o.1], o.2)) acc) (([] : List Word), m)
  let m1 := (List.range n).foldl (fun acc i =>
    { acc with ae := { acc.ae with
        out := Tab.set noOut acc.ae.out (72 + i) ((Tab.get noOut acc.ae.out (72 + i)).drop 6)
        raw := Tab.set noOut acc.ae.raw (72 + i) ((Tab.get noOut acc.ae.raw (72 + i)).drop 6) } }) r.2
  { m1 with host := { m1.host with usbIn := r.1 } }

/-- AUDIO_MICROFRAME: carried while the stream's alternate setting is 1 and the device is configured and not suspended. -/
def Mach.microframe (m : Mach) (capture : Bool) (samples : List Word) : Mach :=
  let live := m.up fnUsb && m.usbStreams
  if capture then (if live && m.on HlUsbStat.capActive then m.usbCapture else m)
  else if live && m.on HlUsbStat.playActive then m.usbPlay samples else m

def execAudioMicroframe (capture : Bool) (samples : List Word) (s : State) : Host.Outcome State Fault Refusal :=
  s.onTime fun m => m.microframe capture samples

end Sys2Proof.Machine
end

