-- ==== Sys2Proof/Machine/CoreDecode.lean ====
section
/-! DEFINITION. The tending-core instruction words of Tables TC-3 to TC-5: the decoder, total on all words (`none` is the ILLEGAL of R233),
and an encoder. -/

namespace Sys2Proof.Machine

/-- Bits [lo + n - 1 : lo] of an instruction word. -/
def ifield (n : Nat) (w : Word) (lo : Nat) : BitVec n := BitVec.ofNat n (w.toNat / 2 ^ lo)

/-- Format R (Table TC-3): the ALU functions of Table TC-5; bits [10:6] are 0. -/
def decodeAlu (c : Fin 10) (rd ra rb z : BitVec 5) (fn : BitVec 6) : Option Instr :=
  if z ≠ 0 then none
  else match fn.toNat with
  | 0x00 => some (.add c rd ra rb) | 0x01 => some (.sub c rd ra rb) | 0x02 => some (.and c rd ra rb) | 0x03 => some (.or c rd ra rb)
  | 0x04 => some (.xor c rd ra rb) | 0x05 => some (.sll c rd ra rb) | 0x06 => some (.srl c rd ra rb) | 0x07 => some (.sra c rd ra rb)
  | 0x08 => some (.slt c rd ra rb) | 0x09 => some (.sltu c rd ra rb) | 0x0A => some (.min c rd ra rb) | 0x0B => some (.max c rd ra rb)
  | 0x0C => some (.minu c rd ra rb) | 0x0D => some (.maxu c rd ra rb)
  | 0x0E => if rb = 0 then some (.clz c rd ra) else none
  | 0x10 => some (.mul c rd ra rb) | 0x11 => some (.mulh c rd ra rb) | 0x12 => some (.mulhu c rd ra rb)
  | _ => none

/-- A shift by an immediate: imm[15:5] is 0 (Table TC-4). -/
def shiftImm (imm : BitVec 16) (f : BitVec 5 → Instr) : Option Instr := if imm.toNat < 32 then some (f (imm.setWidth 5)) else none

/-- The instruction a word stands for, run by core c (R233, Tables TC-3 to TC-5). -/
def decodeCore (c : Fin 10) (w : Word) : Option Instr :=
  let op := (ifield 6 w 26).toNat
  let f1 := ifield 5 w 21
  let f2 := ifield 5 w 16
  let imm := ifield 16 w 0
  let ev := ifield 6 w 10
  let d := ifield 10 w 0
  match op with
  | 0x00 => decodeAlu c f1 f2 (ifield 5 w 11) (ifield 5 w 6) (ifield 6 w 0)
  | 0x01 => some (.addi c f1 f2 imm) | 0x02 => some (.andi c f1 f2 imm) | 0x03 => some (.ori c f1 f2 imm) | 0x04 => some (.xori c f1 f2 imm)
  | 0x05 => some (.slti c f1 f2 imm) | 0x06 => some (.sltiu c f1 f2 imm)
  | 0x07 => shiftImm imm (.slli c f1 f2) | 0x08 => shiftImm imm (.srli c f1 f2) | 0x09 => shiftImm imm (.srai c f1 f2)
  | 0x0A => if f2 = 0 then some (.lui c f1 imm) else none
  | 0x10 => some (.lw c f1 f2 imm) | 0x11 => some (.lh c f1 f2 imm) | 0x12 => some (.lhu c f1 f2 imm) | 0x13 => some (.lb c f1 f2 imm)
  | 0x14 => some (.lbu c f1 f2 imm) | 0x15 => some (.sw c f1 f2 imm) | 0x16 => some (.sh c f1 f2 imm) | 0x17 => some (.sb c f1 f2 imm)
  | 0x18 => some (.beq c f1 f2 imm) | 0x19 => some (.bne c f1 f2 imm) | 0x1A => some (.blt c f1 f2 imm) | 0x1B => some (.bge c f1 f2 imm)
  | 0x1C => some (.bltu c f1 f2 imm) | 0x1D => some (.bgeu c f1 f2 imm)
  | 0x1E => some (.jal c (ifield 26 w 0)) | 0x1F => some (.jalr c f1 f2 imm)
  | 0x20 => if ev = 0 then some (.post c f1 f2 d) else none
  | 0x21 => if 8 ≤ ev.toNat ∧ f1 = 0 ∧ f2 = 0 ∧ d.toNat < 16 then some (.sigev c ev (d.setWidth 4)) else none
  | 0x22 => if d = 0 then some (.waitev c f1 f2 ev false) else if d = 1 ∧ ev = 0 then some (.waitev c f1 f2 0 true) else none
  | 0x23 => if f2 = 0 ∧ imm = 0 then some (.rowend c f1) else none
  | 0x24 => if f2 = 0 ∧ d = 0 then some (.evcnt c f1 ev) else none
  | 0x25 => if ifield 26 w 0 = 0 then some (.fence c) else none
  | 0x28 => if f2 = 0 then some (.csrr c f1 imm) else none
  | 0x29 => if f1 = 0 then some (.csrw c f2 imm) else none
  | 0x2A => if f1 = 0 then some (.csrs c f2 imm) else none
  | 0x2B => if f1 = 0 then some (.csrc c f2 imm) else none
  | 0x30 => some (.trap c imm)
  | 0x31 => if ifield 26 w 0 = 0 then some (.tret c) else none
  | 0x32 => if ifield 26 w 0 = 0 then some (.brk c) else none
  | _ => none

/-! ## The encoder -/

def encR (fn : Nat) (rd ra rb : BitVec 5) : Word := BitVec.ofNat 32 (rd.toNat * 2 ^ 21 + ra.toNat * 2 ^ 16 + rb.toNat * 2 ^ 11 + fn)
def encI (op : Nat) (rd ra : BitVec 5) (imm : BitVec 16) : Word :=
  BitVec.ofNat 32 (op * 2 ^ 26 + rd.toNat * 2 ^ 21 + ra.toNat * 2 ^ 16 + imm.toNat)
def encJ (op : Nat) (off : BitVec 26) : Word := BitVec.ofNat 32 (op * 2 ^ 26 + off.toNat)
def encD (op : Nat) (rd ra : BitVec 5) (ev : BitVec 6) (imm : Nat) : Word :=
  BitVec.ofNat 32 (op * 2 ^ 26 + rd.toNat * 2 ^ 21 + ra.toNat * 2 ^ 16 + ev.toNat * 2 ^ 10 + imm)

/-- The word of a tending-core instruction (Tables TC-3 to TC-5); `none` for every other command. -/
def encodeCore : Instr → Option Word
  | .add _ rd ra rb => some (encR 0x00 rd ra rb) | .sub _ rd ra rb => some (encR 0x01 rd ra rb)
  | .and _ rd ra rb => some (encR 0x02 rd ra rb) | .or _ rd ra rb => some (encR 0x03 rd ra rb)
  | .xor _ rd ra rb => some (encR 0x04 rd ra rb) | .sll _ rd ra rb => some (encR 0x05 rd ra rb)
  | .srl _ rd ra rb => some (encR 0x06 rd ra rb) | .sra _ rd ra rb => some (encR 0x07 rd ra rb)
  | .slt _ rd ra rb => some (encR 0x08 rd ra rb) | .sltu _ rd ra rb => some (encR 0x09 rd ra rb)
  | .min _ rd ra rb => some (encR 0x0A rd ra rb) | .max _ rd ra rb => some (encR 0x0B rd ra rb)
  | .minu _ rd ra rb => some (encR 0x0C rd ra rb) | .maxu _ rd ra rb => some (encR 0x0D rd ra rb)
  | .clz _ rd ra => some (encR 0x0E rd ra 0)
  | .mul _ rd ra rb => some (encR 0x10 rd ra rb) | .mulh _ rd ra rb => some (encR 0x11 rd ra rb)
  | .mulhu _ rd ra rb => some (encR 0x12 rd ra rb)
  | .addi _ rd ra i => some (encI 0x01 rd ra i) | .andi _ rd ra i => some (encI 0x02 rd ra i)
  | .ori _ rd ra i => some (encI 0x03 rd ra i) | .xori _ rd ra i => some (encI 0x04 rd ra i)
  | .slti _ rd ra i => some (encI 0x05 rd ra i) | .sltiu _ rd ra i => some (encI 0x06 rd ra i)
  | .slli _ rd ra s => some (encI 0x07 rd ra (s.setWidth 16)) | .srli _ rd ra s => some (encI 0x08 rd ra (s.setWidth 16))
  | .srai _ rd ra s => some (encI 0x09 rd ra (s.setWidth 16))
  | .lui _ rd i => some (encI 0x0A rd 0 i)
  | .lw _ rd ra i => some (encI 0x10 rd ra i) | .lh _ rd ra i => some (encI 0x11 rd ra i) | .lhu _ rd ra i => some (encI 0x12 rd ra i)
  | .lb _ rd ra i => some (encI 0x13 rd ra i) | .lbu _ rd ra i => some (encI 0x14 rd ra i)
  | .sw _ rd ra i => some (encI 0x15 rd ra i) | .sh _ rd ra i => some (encI 0x16 rd ra i) | .sb _ rd ra i => some (encI 0x17 rd ra i)
  | .beq _ ra rb o => some (encI 0x18 ra rb o) | .bne _ ra rb o => some (encI 0x19 ra rb o) | .blt _ ra rb o => some (encI 0x1A ra rb o)
  | .bge _ ra rb o => some (encI 0x1B ra rb o) | .bltu _ ra rb o => some (encI 0x1C ra rb o) | .bgeu _ ra rb o => some (encI 0x1D ra rb o)
  | .jal _ o => some (encJ 0x1E o) | .jalr _ rd ra i => some (encI 0x1F rd ra i)
  | .post _ rd ra i => some (encD 0x20 rd ra 0 i.toNat)
  | .sigev _ ev t => some (encD 0x21 0 0 ev t.toNat)
  | .waitev _ rd ra ev any => some (encD 0x22 rd ra ev (b2n any))
  | .rowend _ rd => some (encD 0x23 rd 0 0 0)
  | .evcnt _ rd ev => some (encD 0x24 rd 0 ev 0)
  | .fence _ => some (encJ 0x25 0)
  | .csrr _ rd n => some (encI 0x28 rd 0 n) | .csrw _ ra n => some (encI 0x29 0 ra n)
  | .csrs _ ra n => some (encI 0x2A 0 ra n) | .csrc _ ra n => some (encI 0x2B 0 ra n)
  | .trap _ i => some (encI 0x30 0 0 i) | .tret _ => some (encJ 0x31 0) | .brk _ => some (encJ 0x32 0)
  | _ => none

end Sys2Proof.Machine
end

