-- ==== Sys2Proof/Machine/Csr.lean ====
section
/-! DEFINITION. A tending core's memories, control and status registers and debug port (08_tending_cores.md R253, R255, R262, R266, R272). -/

namespace Sys2Proof.Machine

/-! ## IMEM and DMEM (R230, R266) -/

def imemBytes : Nat := 0x10000
def dmemBase : Nat := 0x10000
def dmemBytes : Nat := 0x8000
def sdmBase : Nat := 0x40000
def sdmBytes : Nat := 0x40000
def mapBase : Nat := 0x10000000

def Mach.coreMem (m : Mach) (c : Fin 10) (data : Bool) : EccMem := if data then (m.core c).dmem else (m.core c).imem
def Mach.modCoreMem (m : Mach) (c : Fin 10) (data : Bool) (f : EccMem → EccMem) : Mach :=
  m.modCore c fun k => if data then { k with dmem := f k.dmem } else { k with imem := f k.imem }

/-- The books of an uncorrectable word (R266; R237 for a latent one). -/
def Mach.coreUe (m : Mach) (c : Fin 10) (data latent : Bool) (word : Nat) : Mach :=
  let m1 := if latent then m.bump (TcLatentCount.count c) else m.bump (TcUeCount.count c)
  let m2 := (((m1.put (TcUeLast.mem c) (b2n data)).put (TcUeLast.latent c) (b2n latent)).put (TcUeLast.word c) word).flag (TcUeLast.valid c)
  m2.record (if latent then Flt.latentUe else Flt.tcUe) (srcCore c) [8 * word]

/-- Read n bytes that lie in one 64-bit word: corrected, written back and counted; the flag says uncorrectable. -/
def Mach.coreRead (m : Mach) (c : Fin 10) (data : Bool) (a n : Nat) (latent : Bool := false) : List Byte × Bool × Mach :=
  let x := m.coreMem c data
  match judge (x.flip (a / 8)) with
  | .ok => (x.read a n, false, m)
  | .ce _ => (x.read a n, false, (m.bump (TcCeCount.count c)).modCoreMem c data fun y => y.repair (a / 8))
  | .chk => (x.read a n, false, (m.bump (TcChkCount.count c)).modCoreMem c data fun y => y.repair (a / 8))
  | .ue => (x.read a n, true, m.coreUe c data latent (a / 8))

/-- Write fewer than 8 bytes of one 64-bit word: the word is read first, with the books of a read; the flag says that it was uncorrectable
(R266, R164; log entry 62). -/
def Mach.coreWrite (m : Mach) (c : Fin 10) (data : Bool) (a : Nat) (bs : List Byte) : Bool × Mach :=
  let r := m.coreRead c data (8 * (a / 8)) 8
  (r.2.1, r.2.2.modCoreMem c data fun y => y.write a bs)

/-! ## Control and status registers (Table TC-16) -/

/-- Row count modulo 2^28 and the current tag, as SP_ROW holds them (Table SP-8). -/
def Mach.rowWord (m : Mach) : Word := BitVec.ofNat 32 (m.rowCount % 2 ^ 28 * 16 + m.rowTag)

/-- Is a number a CSR of Table TC-16? -/
def csrKnown (n : Nat) : Bool :=
  decide (n ≤ 6) || decide (0x10 ≤ n ∧ n ≤ 0x14) || decide (0x20 ≤ n ∧ n ≤ 0x25) || n == 0x30 || n == 0x31

def coreTileCode (c : Fin 10) : Nat := if c.val < 8 then c.val / 2 else 0xF

def Core.statusWord (k : Core) : Word := BitVec.ofNat 32 (b2n k.inTrap + 2 * b2n k.sigLost + 4 * b2n (k.evOvf != 0))
/-- EV_NZ. -/
def Core.nonZero (k : Core) : Nat := (List.range 64).foldl (fun a e => if eventCount k e != 0 then a + 2 ^ e else a) 0
/-- CYCLE: island cycles since the core left reset. -/
def Mach.coreCycles (m : Mach) (c : Fin 10) : Nat := ((m.isl (coreIsland c)).cycles + 2 ^ 64 - (m.core c).cycleBase) % 2 ^ 64

/-- A CSR's live value. -/
def Mach.csrValue (m : Mach) (c : Fin 10) (n : Nat) : Word :=
  let k := m.core c
  match n with
  | 0x00 => BitVec.ofNat 32 (coreTileCode c * 16 + c.val)
  | 0x01 => k.statusWord
  | 0x02 => k.epc
  | 0x03 => k.cause
  | 0x04 => k.tval
  | 0x05 => k.tvec
  | 0x06 => k.scratch
  | 0x10 => BitVec.ofNat 32 (m.coreCycles c)
  | 0x11 => BitVec.ofNat 32 (m.coreCycles c / 2 ^ 32)
  | 0x12 => m.tb.setWidth 32
  | 0x13 => (m.tb >>> 32).setWidth 32
  | 0x14 => m.rowWord
  | 0x20 => k.evWait.setWidth 32
  | 0x21 => (k.evWait >>> 32).setWidth 32
  | 0x22 => BitVec.ofNat 32 k.nonZero
  | 0x23 => BitVec.ofNat 32 (k.nonZero / 2 ^ 32)
  | 0x24 => k.evOvf.setWidth 32
  | 0x25 => (k.evOvf >>> 32).setWidth 32
  | 0x30 => k.sfault.headD 0
  | 0x31 => k.sfaultLost.setWidth 32
  | _ => 0

/-- The low CSRs of the 64-bit pairs. -/
def csrLow (n : Nat) : Bool := n == 0x10 || n == 0x12 || n == 0x20 || n == 0x22 || n == 0x24
def csrHigh (n : Nat) : Bool := n == 0x11 || n == 0x13 || n == 0x21 || n == 0x23 || n == 0x25

/-- The latch of low CSR n: CSRR of the core itself has one, and each access path has its own at the debug port (R7, R255). -/
def latchKey (p : Option Path) (n : Nat) : Nat :=
  n + 0x1000 * (match p with | none => 0 | some .pcie => 1 | some .spi => 2 | some .usb => 3 | some (.core d) => 4 + d.val)

/-- Read a CSR: a low word latches its high partner, a high word uses the latch up, SFAULT loses its oldest record (R255, R7, R267). -/
def Mach.csrRead (m : Mach) (c : Fin 10) (n : Nat) (p : Option Path := none) : Word × Mach :=
  let k := m.core c
  if csrLow n then
    (m.csrValue c n, m.modCore c fun k =>
      { k with latches := Tab.insert (Tab.erase k.latches (latchKey p n)) (latchKey p n) (m.csrValue c (n + 1)) })
  else if csrHigh n then
    match k.latches.find? fun e => e.1 == latchKey p (n - 1) with
    | some e => (e.2, m.modCore c fun k => { k with latches := Tab.erase k.latches (latchKey p (n - 1)) })
    | none => (m.csrValue c n, m)
  else if n = 0x30 then (m.csrValue c n, m.modCore c fun k => { k with sfault := k.sfault.tail })
  else (m.csrValue c n, m)

/-- Replace the low or the high half of a 64-bit quantity. -/
def putHalf (q : DWord) (high : Bool) (v : Word) : DWord := if high then v ++ q.setWidth 32 else (q >>> 32).setWidth 32 ++ v

/-- Set the RW content of a CSR; RO and W1C content keeps its value. -/
def Core.csrSet (k : Core) (n : Nat) (v : Word) : Core :=
  match n with
  | 0x02 => { k with epc := v }
  | 0x03 => { k with cause := v }
  | 0x04 => { k with tval := v }
  | 0x05 => { k with tvec := v &&& 0xFFFFFFFC }
  | 0x06 => { k with scratch := v }
  | 0x20 => { k with evWait := putHalf k.evWait false v }
  | 0x21 => { k with evWait := putHalf k.evWait true v }
  | _ => k

/-- Clear W1C content with a 1 (R255). -/
def Core.csrClear (k : Core) (n : Nat) (v : Word) : Core :=
  match n with
  | 0x01 => { k with sigLost := k.sigLost && !v.getLsbD 1, evOvf := if v.getLsbD 2 then 0 else k.evOvf }
  | 0x24 => { k with evOvf := k.evOvf &&& ~~~(putHalf 0 false v) }
  | 0x25 => { k with evOvf := k.evOvf &&& ~~~(putHalf 0 true v) }
  | _ => k

/-- CSRW. -/
def Mach.csrWrite (m : Mach) (c : Fin 10) (n : Nat) (v : Word) : Mach := m.modCore c fun k => (k.csrSet n v).csrClear n v

/-! ## The debug port (R261, R262, R272) -/

/-- The code of TC_STAT.state (Table TC-20). -/
def CoreSt.code : CoreSt → Nat
  | .reset => 0 | .run => 1 | .wait => 2 | .halted => 3 | .stopped => 4

def Mach.dbgSpace (m : Mach) (c : Fin 10) : Nat := m.get (TcDbgAddr.space c)
/-- The word number at TC_DBG_ADDR: byte address / 4, or a register or CSR number. -/
def Mach.dbgWord (m : Mach) (c : Fin 10) : Nat := m.get (TcDbgAddr.addr c)

/-- May the access go ahead? -/
def Mach.dbgOk (m : Mach) (c : Fin 10) (write : Bool) : Bool :=
  let n := m.dbgWord c
  let st := (m.core c).st
  match m.dbgSpace c with
  | 0 => decide (4 * n < imemBytes) &&
      (!write || ((st == .halted || st == .reset) && !(Config.sigRequired && (m.phase == phRunning || m.phase == phIdle))))
  | 1 => decide (4 * n < dmemBytes)
  | 2 => st == .halted && decide (n < 32)
  | _ => st == .halted && csrKnown n

/-- The address moves on after each data access when autoinc is 1. -/
def Mach.dbgNext (m : Mach) (c : Fin 10) : Mach := if m.on (TcDbgAddr.autoinc c) then m.put (TcDbgAddr.addr c) (m.dbgWord c + 1) else m

def Mach.dbgRead (m : Mach) (p : Path) (c : Fin 10) : Word × Mach :=
  let n := m.dbgWord c
  if !m.dbgOk c false then (0, (m.flag (TcStat.dbgDenied c)).dbgNext c)
  else
    match m.dbgSpace c with
    | 2 => ((m.core c).g (BitVec.ofNat 5 n), m.dbgNext c)
    | 3 => let r := m.csrRead c n (some p); (r.1, r.2.dbgNext c)
    | s =>
      let r := m.coreRead c (s == 1) (4 * n) 4
      (if r.2.1 then 0 else BitVec.ofNat 32 (leNat r.1), r.2.2.dbgNext c)

/-- A debug write; one to IMEM invalidates the BTB (R262). -/
def Mach.dbgWrite (m : Mach) (c : Fin 10) (v : Word) : Mach :=
  let n := m.dbgWord c
  if !m.dbgOk c true then (m.flag (TcStat.dbgDenied c)).dbgNext c
  else
    match m.dbgSpace c with
    | 2 => (m.modCore c fun k => k.setG (BitVec.ofNat 5 n) v).dbgNext c
    | 3 => (m.csrWrite c n v).dbgNext c
    | 1 => (m.coreWrite c true (4 * n) (leBytes 4 v.toNat)).2.dbgNext c
    | _ => ((m.coreWrite c false (4 * n) (leBytes 4 v.toNat)).2.modCore c fun k => { k with btb := [] }).dbgNext c

end Sys2Proof.Machine
end

