-- ==== Sys2Proof/Machine/Matrix.lean ====
section
/-! DEFINITION. Matrix engine commands: LOAD, LOAD_COMPLETE, PASS, VECTOR_COMMIT, RESULT_PROMOTION, DRAIN (06_matrix_engine.md). -/

namespace Sys2Proof.Machine

/-! ## Faults (R196, Table MX-9) -/

def mxShadowBusy : Nat := 1
def mxNoWeights : Nat := 2
def mxRange : Nat := 3
def mxFormat : Nat := 4
def mxSpError : Nat := 5

/-- The arrays a mask names, ascending. -/
def arraysOf (mask : BitVec 4) : List (Fin 4) := (List.range 4).filterMap fun i => if mask.getLsbD i then some (ix 4 i) else none

/-- Books of an MX fault: `MX_FAULT_LAST` and its sticky bit (R196, Table MX-12). A VOID ending is not among Table MX-9's codes. -/
def Mach.mxNote (m : Mach) (t : Fin 4) (express : Bool) (kind array code : Nat) : Mach :=
  if code = codeVoid then m
  else
    let m1 := ((((m.put (MxFaultLast.lane t) (b2n express)).put (MxFaultLast.kind t) kind).put (MxFaultLast.array t) array).put
      (MxFaultLast.code t) code).flag (MxFaultLast.valid t)
    match code with
    | 1 => m1.flag (MxStatus.busyShadow t)
    | 2 => m1.flag (MxStatus.noWeights t)
    | 3 => m1.flag (MxStatus.range t)
    | 4 => m1.flag (MxStatus.format t)
    | _ => m1.flag (MxStatus.spError t)

/-- The fault code that a reply status brings (R196, R263): ERROR, or VOID of either kind. -/
def replyCode (spError : Nat) : Status → Option Nat
  | .error => some spError
  | .voidReset | .voidOff => some codeVoid
  | _ => none

/-! ## LFSRs (R178) -/

/-- One step of the 24-bit Galois LFSR, shifting right (log entry 21). -/
def lfsrStep (s : BitVec 24) : BitVec 24 := if s.getLsbD 0 then (s >>> 1) ^^^ 0xE10000 else s >>> 1

/-- The state of column c of array a after a reseed. -/
def lfsrSeed (seed a c : Nat) : BitVec 24 :=
  let v := BitVec.ofNat 24 (seed ^^^ (a * 512 + c) ^^^ 0x5A5A5A)
  if v = 0 then 1 else v

/-- Every column's state is listed: a reseed writes all 512. -/
def lfsrAll (seed a : Nat) : Tab (BitVec 24) := (List.range 512).map fun c => (c, lfsrSeed seed a c)

/-- Column c's state; one never seeded reads as the seed of reset. -/
def MxArray.lfsrAt (x : MxArray) (a c : Nat) : BitVec 24 := Tab.get (fun c => lfsrSeed 1 a c) x.lfsr c

/-! ## LOAD (R186-R188) -/

/-- The parts a load reads: 128 rows of 512 bytes, or 512 columns of 128 bytes (R186, R187). -/
def loadParts (p : LoadP) : Nat × Nat := if p.transposed then (512, 128) else (128, 512)

def loadCheck (m : Mach) (t : Fin 4) (p : LoadP) : Option Nat :=
  let arrs := arraysOf p.arrays
  let parts := loadParts p
  if arrs.isEmpty then some mxRange
  else if p.transposed ∧ p.int4 then some mxFormat
  else if !(List.range parts.1).all (fun i => m.spInRange t p.src parts.2 (i * p.stride.toNat * 64)) then some mxRange
  else if arrs.any (fun a => (vget (m.tile t).mx.arrays a).shadowState != .empty) then some mxShadowBusy
  else none

/-- A LOAD is rejected: no shadow changes (R187). -/
def Mach.loadFault (m : Mach) (t : Fin 4) (h : StitchHdr) (p : LoadP) (code : Nat) : Mach :=
  (m.mxNote t h.express 0 ((arraysOf p.arrays).headD 0).val code).stitchFault h 1 code

/-- A LOAD starts at the loader: accepted, its shadows are LOADING under the next epoch; or it faults (R187). -/
def Mach.startLoad (m : Mach) (t : Fin 4) (h : StitchHdr) (p : LoadP) : Mach :=
  match loadCheck m t p with
  | some code => m.loadFault t h p code
  | none =>
    let mode := if p.useCtl then BitVec.ofNat 8 (m.get (MxCtl.accMode t)) else p.accMode
    let m1 := (arraysOf p.arrays).foldl (fun acc a => acc.modArray t a fun x =>
      { x with shadowState := .loading, loadRows := 0,
               shadow := { cells := [], int4 := p.int4, srMode := mode, epoch := x.active.epoch + 1, poisoned := false } }) m
    (m1.begin (.loader t) ⟨h, .load p⟩).modMx t fun x => { x with loading := some { hdr := h, p := p, accMode := mode, seq := m.issue } }

/-- A LOAD reaches the loader: one that names an array whose shadow is not EMPTY is rejected as it arrives, also while the loader is busy
(R187, R195, Table MX-7). -/
def Mach.arriveLoad (m : Mach) (t : Fin 4) (h : StitchHdr) (p : LoadP) : Mach :=
  if m.up (tileFn t) && loadCheck m t p == some mxShadowBusy then (m.breakTests (.loader t) (.load p)).loadFault t h p mxShadowBusy
  else m.arrive (.loader t) ⟨h, .load p⟩ (m.idle (.loader t)) fun m => m.startLoad t h p

def execLoad (t : Fin 4) (h : StitchHdr) (p : LoadP) (s : State) : Host.Outcome State Fault Refusal := s.onM fun m => m.arriveLoad t h p

/-- Weight bytes in cell order from the parts in reading order (R186): cell (r, c) at 512 r + c. -/
def cellsOf (transposed : Bool) (bytes : List Byte) : Memory :=
  Memory.write zeroByte [] 0 (if transposed then (List.range 65536).map fun i => bytes.getD (128 * (i % 512) + i / 512) 0 else bytes)

/-- Read every part of a load, the last row or column first (R186, R188): bytes in part order, poisoned, first bad status. -/
def Mach.readParts (m : Mach) (t : Fin 4) (src : Word) (n size stride age : Nat) : List (Byte × Bool) × Option Status × Mach :=
  let r := (List.range n).reverse.foldl (fun (acc : (List (List (Byte × Bool)) × Option Status × Bool) × Mach) i =>
    match acc.1.2.1 with
    | some _ => acc
    | none =>
      let r := acc.2.spRead t src size age acc.1.2.2 (i * stride * 64)
      match r.1.status with
      | .ok | .poison => ((r.1.data :: acc.1.1, none, r.1.skewed), r.2)
      | st => ((acc.1.1, some st, r.1.skewed), r.2)) (([], none, false), m)
  (r.1.1.flatten, r.1.2.1, r.2)

/-- A PASS in progress ends with a fault: it commits no further vector (R196). -/
def Mach.passFault (m : Mach) (t : Fin 4) (r : PassRun) (code : Nat) : Mach :=
  ((m.modMx t fun x => { x with passes := x.passes.filter fun q => q.seq != r.seq }).mxNote t r.hdr.express 1
    ((arraysOf r.p.arrays).headD 0).val code).failStitch (.injector t) r.seq r.hdr 2 code

/-- A load faulted: a swapping pass that waits for its shadow finds it EMPTY (Table MX-6). -/
def Mach.loadLost (m : Mach) (t : Fin 4) (arrays : BitVec 4) : Mach :=
  ((m.tile t).mx.passes.filter fun r => r.p.swap && r.next == 0 && r.p.arrays &&& arrays != 0).foldl (fun acc r => acc.passFault t r mxNoWeights) m

/-- The load in progress completes every column: READY, or, when the SP answers ERROR or VOID, a fault that leaves EMPTY shadows
(R187, R196, R197). -/
def Mach.loadComplete (m : Mach) (t : Fin 4) : Mach :=
  match (m.tile t).mx.loading with
  | none => m
  | some l =>
    let parts := loadParts l.p
    let r := m.readParts t l.p.src parts.1 parts.2 l.p.stride.toNat l.p.age.toNat
    let m1 := (r.2.2.modMx t fun x => { x with loading := none }).gauge (tileGauge t) 0x13 none (parts.1 * parts.2 / 64)
    match r.2.1.bind (replyCode mxSpError) with
    | some code =>
      let m2 := (arraysOf l.p.arrays).foldl (fun acc a => acc.modArray t a fun x => { x with shadowState := .empty, loadRows := 0 }) m1
      ((m2.mxNote t l.hdr.express 0 ((arraysOf l.p.arrays).headD 0).val code).failStitch (.loader t) l.seq l.hdr 1 code).loadLost t l.p.arrays
    | none =>
      let cells := cellsOf l.p.transposed (r.1.map Prod.fst)
      let pz := r.1.any (·.2)
      let m2 := (arraysOf l.p.arrays).foldl (fun acc a => acc.modArray t a fun x =>
        { x with shadowState := .ready, loadRows := 128, shadow := { x.shadow with cells := cells, poisoned := pz } }) m1
      m2.finish (.loader t) l.seq

def execLoadComplete (t : Fin 4) (s : State) : Host.Outcome State Fault Refusal := s.onM fun m => m.settled fun m => m.loadComplete t

/-! ## Accumulator words (R179, R180, R198) -/

def accKey (half : Bool) (row col : Nat) : Nat := (b2n half * 64 + row) * 512 + col
def zeroAcc : Nat → BitVec 40 := fun _ => 0
def noFlips47 : Nat → BitVec 47 := fun _ => 0
def notBad : Nat → Bool := fun _ => false

def judge47 (f : BitVec 47) : Judge :=
  if f = 0 then .ok
  else if popcount f = 1 then
    match (List.range 40).find? fun i => f.getLsbD i with
    | some b => .ce b
    | none => .chk
  else .ue

def MxArray.word (x : MxArray) (k : Nat) : BitVec 40 := Tab.get zeroAcc x.acc k

/-- Replace a whole word: valid check bits and the given poison bit. -/
def MxArray.setWord (x : MxArray) (k : Nat) (v : BitVec 40) (pz : Bool) : MxArray :=
  { x with acc := Tab.set zeroAcc x.acc k v, accPoison := Tab.set notBad x.accPoison k pz, accFlips := Tab.set noFlips47 x.accFlips k 0 }

/-- Read a word with its checks: value and whether it counts as poisoned (R198). -/
def Mach.accRead (m : Mach) (t a : Fin 4) (k : Nat) : Int × Bool × Mach :=
  let x := vget (m.tile t).mx.arrays a
  let pz := Tab.get notBad x.accPoison k
  let w := x.word k
  match judge47 (Tab.get noFlips47 x.accFlips k) with
  | .ok => (w.toInt, pz, m)
  | .ce b =>
    let v := w ^^^ BitVec.ofNat 40 (2 ^ b)
    (v.toInt, pz, (m.bump (MxAccCeCount.count t)).modArray t a fun x => x.setWord k v pz)
  | .chk => (w.toInt, pz, (m.bump (MxAccChkCount.count t)).modArray t a fun x => x.setWord k w pz)
  | .ue =>
    (w.toInt, true,
      ((((((((m.bump (MxAccUeCount.count t)).put (MxAccUeLast.array t) a.val).put (MxAccUeLast.half t) (k / 32768)).put (MxAccUeLast.row t)
        (k / 512 % 64)).put (MxAccUeLast.column t) (k % 512)).flag (MxAccUeLast.valid t)).flag (MxStatus.accUe t)).record Flt.accUe
        (srcIsl (59 * t.val + 16 + a.val)) []))

def accLo : Int := -(2 ^ 39)
def accHi : Int := 2 ^ 39 - 1

/-- n saturations (R199). -/
def Mach.mxSat (m : Mach) (t : Fin 4) (n : Nat) : Mach := if n = 0 then m else (m.bump (MxSatCount.count t) n).flag (MxStatus.sat t)

/-- Promote one result (R179, R197-R199). A WRITE of a result beyond 40 bits is left open by the spec: a free value (log entry 22). -/
def Mach.promote (m : Mach) (t a : Fin 4) (add : Bool) (k : Nat) (v : Int) (nsat : Nat) (pz : Bool) : Mach :=
  let satPz := m.on (MxCtl.satPoison t)
  if add then
    let r := m.accRead t a k
    let c := clampInt accLo accHi (r.1 + v)
    let n := nsat + b2n c.2
    ((r.2.2.mxSat t n).modArray t a fun x => x.setWord k (BitVec.ofInt 40 c.1) (pz || r.2.1 || (satPz && n != 0)))
  else
    let pz' := pz || (satPz && nsat != 0)
    if accLo ≤ v ∧ v ≤ accHi then (m.mxSat t nsat).modArray t a fun x => x.setWord k (BitVec.ofInt 40 v) pz'
    else
      let f := (m.mxSat t nsat).fresh
      f.2.modArray t a fun x => x.setWord k (f.1.setWidth 40) pz'

/-! ## PASS (R173-R178, R180, R184, R185) -/

/-- The set a pass uses in one array: `none` for MX_NO_WEIGHTS (Table MX-9). -/
def MxArray.setFor (x : MxArray) (swap : Bool) : Option WeightSet :=
  if swap then (if x.shadowState = .empty then none else some x.shadow) else (if x.activeValid then some x.active else none)

/-- Lines of a vector (Table MX-3), C mode as INT8. -/
def vecLines (int4 : Bool) (afmt : Nat) : Nat := if int4 then (if afmt = 2 then 5 else 4) else (if afmt = 2 then 3 else 2)

/-- Tile rows a pass writes. -/
def passRows (p : PassP) : Nat := if p.cMode then (p.nVec.toNat - p.cHist.toNat + 3) / 4 else p.nVec.toNat

def passCheck (m : Mach) (t : Fin 4) (p : PassP) : Option Nat :=
  let arrs := arraysOf p.arrays
  let sets := arrs.map fun a => (vget (m.tile t).mx.arrays a).setFor p.swap
  let n := p.nVec.toNat
  if arrs.isEmpty then some mxRange
  else if sets.any Option.isNone then some mxNoWeights
  else
    let int4 := match sets.head?.join with | some w => w.int4 | none => false
    if sets.any (fun w => match w with | some w => w.int4 != int4 | none => true) ∨ p.afmt.toNat = 3 ∨
      (p.cMode ∧ (int4 ∨ p.afmt.toNat = 2)) then some mxFormat
    else if (if p.cMode then !decide (p.cHist.toNat + 1 ≤ n ∧ n ≤ p.cHist.toNat + 256) else !decide (1 ≤ n ∧ n ≤ 64)) then some mxRange
    else if 64 < p.rowBase.toNat + passRows p then some mxRange
    else if !(List.range arrs.length).all (fun k => (List.range n).all fun v =>
      m.spInRange t p.src (64 * vecLines int4 p.afmt.toNat) ((k * p.arrayStride.toNat + v * p.vecStride.toNat) * 64)) then some mxRange
    else none

/-- A PASS starts at the injectors of the arrays it names, or faults (R175, R190). -/
def Mach.startPass (m : Mach) (t : Fin 4) (h : StitchHdr) (p : PassP) : Mach :=
  match passCheck m t p with
  | some code => (m.mxNote t h.express 1 ((arraysOf p.arrays).headD 0).val code).stitchFault h 2 code
  | none =>
    (m.begin (.injector t) ⟨h, .pass p⟩).modMx t fun x =>
      { x with passes := x.passes ++ [{ hdr := h, p := p, seq := m.issue, next := 0, skewed := false, history := [] }] }

/-- Every array a pass names is free (R243). -/
def Mach.injectorsFree (m : Mach) (t : Fin 4) (arrays : BitVec 4) : Bool := (m.tile t).mx.passes.all fun r => r.p.arrays &&& arrays == 0

def execPass (t : Fin 4) (h : StitchHdr) (p : PassP) (s : State) : Host.Outcome State Fault Refusal :=
  s.onM fun m => m.arrive (.injector t) ⟨h, .pass p⟩ (m.injectorsFree t p.arrays) fun m => m.startPass t h p

/-- Elements of a vector in INT8 or UINT8, and its eight block exponents (Table MX-3). BF8 mantissas are signed (log entry 23). -/
def vecElems (afmt : Nat) (int4 : Bool) (bs : List Byte) : List Int × List Nat :=
  let n := if int4 then 256 else 128
  let el := (bs.take n).map fun b => if afmt = 1 then (b.toNat : Int) else b.toInt
  let ew := leNat ((bs.drop n).take 4)
  (el, (List.range 8).map fun j => if afmt = 2 then bitsOf ew (4 * j + 3) (4 * j) else 0)

/-- The product of cell (r, c) with a vector (Table MX-3). -/
def cellProduct (w : WeightSet) (a : List Int) (r c : Nat) : Int :=
  let b := (Tab.get zeroByte w.cells (512 * r + c)).toNat
  if w.int4 then signed 4 b * a.getD r 0 + signed 4 (b / 16) * a.getD (r + 128) 0 else signed 8 b * a.getD r 0

def sumInt (l : List Int) : Int := l.foldl (· + ·) 0

/-- The 20-bit sum of rows 16j to 16j + 15 of column c. -/
def chunkSum (w : WeightSet) (a : List Int) (c j : Nat) : Int := sumInt ((List.range 16).map fun i => cellProduct w a (16 * j + i) c)

def carryLo : Int := -(2 ^ 31)
def carryHi : Int := 2 ^ 31 - 1

/-- One chunk into the carry lane (R176): the lane and the saturations so far. -/
def carryAdd (acc : Int × Nat) (x : Int) : Int × Nat :=
  let r := clampInt carryLo carryHi (acc.1 + x)
  (r.1, acc.2 + b2n r.2)

/-- The random bits of a shift by d (R177). -/
def srBits (rot d : Nat) : Nat := if d > 24 then (rot % 2 ^ 24) * 2 ^ (d - 24) else rot % 2 ^ d
def srShift (v : Int) (d rot : Nat) : Int := (v + srBits rot d) / (2 ^ d : Int)

/-- Bring m back into 20 bits (R177). -/
def srNorm (rot : Nat) : Nat → Int × Nat → Int × Nat
  | 0, x => x
  | fuel + 1, (v, k) => if v < -(2 ^ 19) ∨ 2 ^ 19 - 1 < v then srNorm rot fuel (srShift v 1 rot, k + 1) else (v, k)

/-- Station j in SR mode (R177, R178): the state as it stands is rotated right by 3j; then it steps. -/
def srStation (st : BitVec 24 × Int × Nat) (j : Nat) (x : Int) (e : Nat) : BitVec 24 × Int × Nat :=
  let rot := (st.1.rotateRight (3 * j)).toNat
  let k := st.2.2
  let x' := if k ≤ e then x * (2 ^ (e - k) : Int) else srShift x (k - e) rot
  let r := srNorm rot 64 (st.2.1 + x', k)
  (lfsrStep st.1, r.1, r.2)

/-- Column c's result of one M-mode vector: value, saturations, next LFSR state. -/
def columnResult (w : WeightSet) (a : List Int) (e : List Nat) (shift : Nat) (st : BitVec 24) (c : Nat) : Int × Nat × BitVec 24 :=
  let chunks := (List.range 8).map fun j => (j, chunkSum w a c j, e.getD j 0)
  if w.srMode.getLsbD (c / 64) then
    let r := chunks.foldl (fun acc x => srStation acc x.1 x.2.1 x.2.2) (st, (0 : Int), 0)
    let f := clampInt accLo accHi (r.2.1 * (2 ^ (r.2.2 + shift) : Int))
    (f.1, b2n f.2, r.1)
  else
    let r := chunks.foldl (fun acc x => carryAdd acc (x.2.1 * (2 ^ x.2.2 : Int))) ((0 : Int), 0)
    (r.1 * (2 ^ shift : Int), r.2, st)

/-- Row r's output of a C-mode vector (R184): taps 0 to 511 on the samples v - j, newest first. -/
def convResult (w : WeightSet) (hist : List (List Int × Bool)) (shift r : Nat) : Int × Nat :=
  let term := fun j => signed 8 (Tab.get zeroByte w.cells (512 * r + j)).toNat * ((hist.getD j ([], false)).1.getD r 0)
  let c := (List.range 32).foldl (fun acc q => carryAdd acc (sumInt ((List.range 16).map fun i => term (16 * q + i)))) ((0 : Int), 0)
  (c.1 * (2 ^ shift : Int), c.2)

/-- The results of vector v in one array and the array with its LFSRs stepped. -/
def vectorResults (x : MxArray) (a : Nat) (p : PassP) (v : Nat) (el : List Int) (e : List Nat) (hist : List (List Int × Bool)) (pz : Bool) :
    List (Nat × Int × Nat × Bool) × MxArray :=
  let w := x.active
  if p.cMode then
    if v < p.cHist.toNat then ([], x)
    else
      let i := v - p.cHist.toNat
      let bad := w.poisoned || (hist.take 512).any (·.2)
      ((List.range 128).map fun r =>
        let c := convResult w hist p.accShift.toNat r
        (accKey p.half (p.rowBase.toNat + i / 4) (128 * (i % 4) + r), c.1, c.2, bad), x)
  else
    let cols := (List.range 512).map fun c => columnResult w el e p.accShift.toNat (x.lfsrAt a c) c
    ((List.range 512).zip cols |>.map fun q => (accKey p.half (p.rowBase.toNat + v) q.1, q.2.1, q.2.2.1, w.poisoned || pz),
      if w.srMode = 0 then x else { x with lfsr := (List.range 512).zip (cols.map fun c => c.2.2) })

/-- A first vector takes the shadow set as active (R189) and reseeds where asked (R178). -/
def MxArray.firstVector (x : MxArray) (a seed : Nat) (p : PassP) : MxArray :=
  let x1 := if p.swap then { x with active := x.shadow, activeValid := true, shadow := WeightSet.empty, shadowState := .empty, loadRows := 0 } else x
  if p.reseed then { x1 with lfsr := lfsrAll seed a } else x1

/-- Tile rows that vector v of a pass writes. -/
def vectorRow (p : PassP) (v : Nat) : Nat := p.rowBase.toNat + (if p.cMode then (v - p.cHist.toNat) / 4 else v)

/-- Must a pass wait for an earlier drain that has not read a row which the pass writes (R191)? -/
def Mach.accHeld (m : Mach) (t : Fin 4) (r : PassRun) : Bool :=
  (m.tile t).mx.drains.any fun d =>
    (arraysOf r.p.arrays).contains d.p.array && decide (d.seq < r.seq ∧ d.p.half = r.p.half ∧
      r.p.rowBase.toNat < d.p.rowBase.toNat + d.p.nRows.toNat ∧ d.p.rowBase.toNat + d.next < r.p.rowBase.toNat + passRows r.p)

/-- Is the injection held until a shadow load completes (R188)? -/
def Mach.shadowHeld (m : Mach) (t : Fin 4) (r : PassRun) : Bool :=
  r.p.swap && r.next == 0 && (arraysOf r.p.arrays).any fun a => (vget (m.tile t).mx.arrays a).shadowState == .loading

/-- What has been read of a vector: per named array its bytes and whether a line was poisoned; or the fault that ended it. -/
structure VecRead where
  fail : Option Nat
  skewed : Bool
  data : List (List Byte × Bool)
deriving DecidableEq, Repr

/-- Read the lines of a pass's next vector for every array it names, in array order. -/
def Mach.readVector (m : Mach) (t : Fin 4) (r : PassRun) : VecRead × Mach :=
  let arrs := arraysOf r.p.arrays
  (List.range arrs.length).zip arrs |>.foldl (fun (acc : VecRead × Mach) q =>
    match acc.1.fail with
    | some _ => acc
    | none =>
      let int4 := match (vget (m.tile t).mx.arrays q.2).setFor (r.p.swap && r.next == 0) with | some w => w.int4 | none => false
      let rd := acc.2.spRead t r.p.src (64 * vecLines int4 r.p.afmt.toNat) r.p.age.toNat acc.1.skewed
        ((q.1 * r.p.arrayStride.toNat + r.next * r.p.vecStride.toNat) * 64)
      match replyCode mxSpError rd.1.status with
      | some c => ({ acc.1 with fail := some c, skewed := rd.1.skewed }, rd.2)
      | none => (⟨none, rd.1.skewed, acc.1.data ++ [(rd.1.data.map Prod.fst, rd.1.status == .poison)]⟩, rd.2)) (⟨none, r.skewed, []⟩, m)

/-- One array injects its share of a committed vector: its results go on their way with the vector's tags (R173, R174). -/
def Mach.injectArray (m : Mach) (t : Fin 4) (r : PassRun) (seed : Nat) (lastV : Bool) (pos : Nat) (a : Fin 4) (d : List Byte × Bool) : Mach :=
  let x0 := vget (m.tile t).mx.arrays a
  let x := if r.next = 0 then x0.firstVector a.val seed r.p else x0
  let ve := vecElems r.p.afmt.toNat x.active.int4 d.1
  let vr := vectorResults x a.val r.p r.next ve.1 ve.2 ((ve.1, d.2) :: r.history.getD pos []) d.2
  (m.modMx t fun x =>
    { x with
      arrays := vset x.arrays a vr.2
      committed := x.committed ++ [{ seq := r.seq, array := a, accAdd := r.p.accAdd, results := vr.1, last := lastV }] }).gauge
    (tileGauge t) 0x10 (some a.val) 1

/-- The next vector of a pass is read, committed and injected whole, or its error ends the pass (R173, R196). -/
def Mach.commitVector (m : Mach) (t : Fin 4) (r : PassRun) : Mach :=
  let arrs := arraysOf r.p.arrays
  let rd := m.readVector t r
  match rd.1.fail with
  | some code => rd.2.passFault t r code
  | none =>
    let n := arrs.length
    let ends := decide (r.next + 1 = r.p.nVec.toNat)
    let m1 := ((List.range n).zip (arrs.zip rd.1.data)).foldl (fun acc q =>
      acc.injectArray t r (m.get (MxSrSeed.seed t)) (ends && q.1 + 1 == n) q.1 q.2.1 q.2.2) rd.2
    let hist := if r.p.cMode then
        ((List.range n).zip rd.1.data).map fun q => (((vecElems r.p.afmt.toNat false q.2.1).1, q.2.2) :: r.history.getD q.1 []).take 511
      else []
    let r1 := { r with next := r.next + 1, skewed := rd.1.skewed, history := hist }
    m1.modMx t fun x =>
      { x with passes := if ends then x.passes.filter (fun q => q.seq != r.seq) else x.passes.map fun q => if q.seq = r.seq then r1 else q }

/-! ## The drain (R181-R183, R191, R194, Tables MX-4, MX-5) -/

/-- A requantize table entry and whether its bytes were poisoned. -/
structure RqEntry where
  bias : Int
  mult : Int
  shift : Nat
  zp : Int
  bad : Bool
deriving DecidableEq, Repr

def rqEntry (e : Nat × Bool) : RqEntry :=
  { bias := signed 32 (bitsOf e.1 31 0), mult := signed 16 (bitsOf e.1 47 32), shift := bitsOf e.1 53 48, zp := signed 8 (bitsOf e.1 63 56), bad := e.2 }

/-- Bytes per value (Table MX-5). -/
def ofmtBytes (f : Nat) : Nat := match f with | 0 | 1 => 1 | 2 | 4 => 2 | _ => 4

/-- A drained value: its pattern, its 32-bit form for top-k, and its value scaled by 2^149, or none for NaN and infinities. -/
structure Drained where
  pattern : Nat
  wide : Word
  key : Int
deriving DecidableEq, Repr

def fpKey (x : Fp) : Int :=
  match x with
  | .nan => 0
  | .inf s => if s then -(2 ^ 400) else 2 ^ 400
  | .fin s m e => let v : Int := (m * 2 ^ (e + 149).toNat : Nat); if s then -v else v

/-- Requantize one accumulator value (R181). -/
def requant (f : Nat) (acc : Int) (q : RqEntry) : Drained :=
  let p := (acc + q.bias) * q.mult
  let ints := fun (bits : Nat) (lo hi : Int) =>
    let y := (if q.shift = 0 then p else (p + (2 ^ (q.shift - 1) : Int)) / (2 ^ q.shift : Int)) + q.zp
    let c := (clampInt lo hi y).1
    ({ pattern := wrap bits c, wide := BitVec.ofInt 32 c, key := c * 2 ^ 149 } : Drained)
  match f with
  | 0 => ints 8 (-128) 127
  | 1 => ints 8 0 255
  | 2 => ints 16 (-32768) 32767
  | 3 => ints 32 (-2147483648) 2147483647
  | 4 =>
    let h := (toHalf false (.fin (decide (p < 0)) p.natAbs (-(q.shift : Int)))).1
    { pattern := h, wide := halfTo32 h, key := fpKey (fp32 (halfTo32 h)) }
  | _ =>
    let w := (round32 0 false (decide (p < 0)) p.natAbs (-(q.shift : Int))).v
    { pattern := w.toNat, wide := w, key := fpKey (fp32 w) }

/-- Put a value into the sorted list: descending, on equal values the lower position first (R182). -/
def topInsert (e : TopEntry) : List TopEntry → List TopEntry
  | [] => [e]
  | x :: xs => if x.key < e.key ∨ (x.key = e.key ∧ e.pos < x.pos) then e :: x :: xs else x :: topInsert e xs

def TopRun.see (r : TopRun) (d : Drained) (pos source : Nat) (skip : Bool) : TopRun :=
  { r with
    seen := r.seen + 1
    entries := if skip then r.entries else (topInsert { key := d.key, value := d.wide, pos := pos, source := source } r.entries).take r.k }

/-- The 128-byte result (R183). -/
def TopRun.bytes (r : TopRun) : List Byte :=
  (List.range 16).flatMap fun i =>
    match r.entries[i]? with
    | some e => leBytes 4 e.value.toNat ++ leBytes 2 e.pos ++ [BitVec.ofNat 8 e.source, 1]
    | none => List.replicate 8 0

/-- Does the drain take part in a top-k run (R182)? -/
def joinsRun (m : Mach) (t : Fin 4) (p : DrainP) : Bool := p.topkStart || (m.tile t).mx.topk.isSome

def drainCheck (m : Mach) (t : Fin 4) (p : DrainP) : Option Nat :=
  let n := p.nRows.toNat
  let joins := joinsRun m t p
  let claimed := if p.topkStart then 0 else match (m.tile t).mx.topk with | some r => r.claimed | none => 0
  let size := 512 * ofmtBytes p.ofmt.toNat
  if 5 < p.ofmt.toNat then some mxFormat
  else if !decide (1 ≤ n ∧ n ≤ 64) ∨ 64 < p.rowBase.toNat + n then some mxRange
  else if p.topkStart ∧ !decide (1 ≤ p.k.toNat ∧ p.k.toNat ≤ 16) then some mxRange
  else if joins ∧ (65536 < p.posBase.toNat + 512 * n ∨ 65536 < claimed + 512 * n) then some mxRange
  else if joins ∧ p.topkEnd ∧ (p.topkDst.toNat % 128 ≠ 0 ∨ !hubOk p.topkDst.toNat 128) then some mxRange
  else if !m.spInRange t p.rq 4096 then some mxRange
  else if !p.noStore ∧ (p.dst.toNat % 64 ≠ 0 ∨
    !(List.range n).all fun i => m.spInRange t p.dst size (i * p.dstStride.toNat * 64)) then some mxRange
  else none

/-- Must a drain wait, before it reads its row i, for an earlier pass that has not written that row (R191)? -/
def Mach.drainHeld (m : Mach) (t : Fin 4) (seq : Nat) (p : DrainP) (i : Nat) : Bool :=
  let row := p.rowBase.toNat + i
  ((m.tile t).mx.passes.any fun r => (arraysOf r.p.arrays).contains p.array && decide (r.seq < seq ∧ r.p.half = p.half ∧
      vectorRow r.p r.next ≤ row ∧ row < r.p.rowBase.toNat + passRows r.p)) ||
  ((m.tile t).mx.committed.any fun c => decide (c.seq < seq) && c.array == p.array &&
    c.results.any fun e => decide (accKey p.half row 0 ≤ e.1 ∧ e.1 < accKey p.half (row + 1) 0))

/-- One tile row: read, requantize, feed top-k, clear. Answers the bytes to store and the run. -/
def Mach.drainRow (m : Mach) (t : Fin 4) (p : DrainP) (rq : List RqEntry) (i : Nat) (run : Option TopRun) :
    List (Byte × Bool) × Option TopRun × Mach :=
  let bytes := ofmtBytes p.ofmt.toNat
  (List.range 512).zip rq |>.foldl (fun (acc : List (Byte × Bool) × Option TopRun × Mach) q =>
    let k := accKey p.half (p.rowBase.toNat + i) q.1
    let r := acc.2.2.accRead t p.array k
    let bad := r.2.1 || q.2.bad
    let d := requant p.ofmt.toNat r.1 q.2
    let m1 := if p.clear then r.2.2.modArray t p.array fun x => x.setWord k 0 false else r.2.2
    (acc.1 ++ (leBytes bytes d.pattern).map fun b => (b, bad),
      acc.2.1.map fun x => x.see d (p.posBase.toNat + 512 * i + q.1) (4 * t.val + p.array.val) bad, m1)) ([], run, m)

/-- Is a drain one of the open top-k run (R182)? -/
def Mach.inTopRun (m : Mach) (t : Fin 4) (seq : Nat) : Bool := match (m.tile t).mx.topk with | some r => r.members.contains seq | none => false

/-- A drain leaves its unit's work; `drop` discards the top-k run it belonged to. -/
def Mach.drainOut (m : Mach) (t : Fin 4) (seq : Nat) (drop : Bool) : Mach :=
  m.modMx t fun x => { x with drains := x.drains.filter fun d => d.seq != seq, topk := if drop then none else x.topk }

/-- A drain in progress ends with a fault: no further row, and its top-k run is discarded (R196). -/
def Mach.drainFault (m : Mach) (t : Fin 4) (d : DrainRun) (code : Nat) : Mach :=
  ((m.drainOut t d.seq (m.inTopRun t d.seq)).mxNote t d.hdr.express 2 d.p.array.val code).failStitch (.drainer t d.p.array) d.seq d.hdr 3 code

/-- A drain has read its last row: the end of a top-k run is written to hub SRAM (R183). -/
def Mach.drainEnd (m : Mach) (t : Fin 4) (d : DrainRun) : Mach :=
  let ends := d.p.topkEnd && m.inTopRun t d.seq
  let m1 := match (m.tile t).mx.topk with
    | some run => if ends then m.hubWrite d.p.topkDst.toNat run.bytes else m
    | none => m
  (m1.drainOut t d.seq ends).finish (.drainer t d.p.array) d.seq

/-- The next tile row of a drain: the requantize table beside the row's words, then the row's values (R181, R182, R190, R197). Answers the
fault that ends the drain, if any. -/
def Mach.drainNext (m : Mach) (t : Fin 4) (d : DrainRun) : Option Nat × DrainRun × Mach :=
  let p := d.p
  let rd := m.spRead t p.rq 4096 p.age.toNat d.skewed
  let d1 := { d with next := d.next + 1, skewed := rd.1.skewed }
  match replyCode mxSpError rd.1.status with
  | some code => (some code, d, rd.2)
  | none =>
    let rq := (chunk 8 512 rd.1.data).map rqEntry
    if rq.any fun q => decide (47 < q.shift) then (some mxRange, d, rd.2)
    else
      let mine := rd.2.inTopRun t d.seq
      let row := rd.2.drainRow t p rq d.next (if mine then (rd.2.tile t).mx.topk else none)
      let m1 := (if mine then row.2.2.modMx t fun x => { x with topk := row.2.1 } else row.2.2).gauge (tileGauge t) 0x14 (some p.array.val) 1
      if p.noStore then (none, d1, m1)
      else
        let w := m1.spWrite t p.dst (row.1.map some) false (d.next * p.dstStride.toNat * 64)
        (replyCode mxSpError w.1, d1, w.2)

/-- A drain reads its rows in turn, until one must wait (R191) or the drain ends; each time it is found waiting counts ACC_HOLD. -/
def Mach.drainRows : Nat → Mach → Fin 4 → DrainRun → Mach
  | 0, m, t, d => m.drainEnd t d
  | n + 1, m, t, d =>
    if m.drainHeld t d.seq d.p d.next then
      (m.modMx t fun x => { x with drains := x.drains.map fun q => if q.seq = d.seq then d else q }).gauge (tileGauge t) 0x12 (some d.p.array.val) 1
    else
      let r := m.drainNext t d
      match r.1 with
      | some code => r.2.2.drainFault t d code
      | none => Mach.drainRows n r.2.2 t r.2.1

/-- A drain goes on as far as it can. -/
def Mach.drainRun (m : Mach) (t : Fin 4) (d : DrainRun) : Mach := Mach.drainRows (d.p.nRows.toNat - d.next) m t d

/-- A drain with topk_start that reaches its drainer discards the run that is open (R194; log entry 84). -/
def Mach.abandonRun (m : Mach) (t : Fin 4) (p : DrainP) : Mach :=
  if p.topkStart && (m.tile t).mx.topk.isSome then (m.modMx t fun x => { x with topk := none }).flag (MxStatus.topkAbandoned t) else m

/-- A drain joins the open top-k run, or the run it opens (R182, Table MX-8). -/
def joinRun (x : Option TopRun) (p : DrainP) (seq : Nat) : Option TopRun :=
  (if p.topkStart then some { k := p.k.toNat, seen := 0, claimed := 0, members := [], entries := [] } else x).map fun r =>
    { r with claimed := r.claimed + 512 * p.nRows.toNat, members := r.members ++ [seq] }

/-- A DRAIN starts at its drainer: it faults, with the run it belonged to discarded, or reads its rows as far as earlier passes let it
(R190, R191, R194, R196). -/
def Mach.startDrain (m : Mach) (t : Fin 4) (h : StitchHdr) (p : DrainP) : Mach :=
  let m0 := m.abandonRun t p
  match drainCheck m0 t p with
  | some code => ((m0.modMx t fun x => { x with topk := none }).mxNote t h.express 2 p.array.val code).stitchFault h 3 code
  | none =>
    let d : DrainRun := { hdr := h, p := p, seq := m.issue, next := 0, skewed := false }
    m0.settled fun m0 =>
      ((m0.begin (.drainer t p.array) ⟨h, .drain p⟩).modMx t fun x => { x with drains := x.drains ++ [d], topk := joinRun x.topk p d.seq }).drainRun t d

def execDrain (t : Fin 4) (h : StitchHdr) (p : DrainP) (s : State) : Host.Outcome State Fault Refusal :=
  s.onM fun m => m.arrive (.drainer t p.array) ⟨h, .drain p⟩ (m.idle (.drainer t p.array)) fun m => m.startDrain t h p

/-- A waiting drain of an array goes on where earlier passes have written its next rows. -/
def Mach.resumeDrain (m : Mach) (t a : Fin 4) : Mach :=
  match (m.tile t).mx.drains.find? fun d => d.p.array == a with
  | none => m
  | some d => m.drainRun t d

/-! ## Vector commits (R173, R188, R191) -/

/-- The holds of a pass: WSWAP_STALL while its shadow loads (R188), ACC_HOLD while an earlier drain reads its rows (R191). -/
def Mach.countHolds (m : Mach) (t : Fin 4) (r : PassRun) : Mach :=
  let count := fun (m : Mach) (code : Nat) => (arraysOf r.p.arrays).foldl (fun acc a => acc.gauge (tileGauge t) code (some a.val) 1) m
  let m1 := if m.shadowHeld t r then count (m.flag (MxStatus.wswapStall t)) 0x11 else m
  if m.accHeld t r then count m1 0x12 else m1

/-- Every held pass counts its hold, and the oldest pass that may inject commits its next vector. -/
def Mach.vectorCommit (m : Mach) (t : Fin 4) : Mach :=
  let m1 := (m.tile t).mx.passes.foldl (fun acc r => acc.countHolds t r) m
  match (m1.tile t).mx.passes.find? fun r => !m1.shadowHeld t r && !m1.accHeld t r with
  | some r => (arraysOf r.p.arrays).foldl (fun acc a => acc.resumeDrain t a) (m1.commitVector t r)
  | none => m1

def execVectorCommit (t : Fin 4) (s : State) : Host.Outcome State Fault Refusal := s.onM fun m => m.settled fun m => m.vectorCommit t

/-! ## Promotion (R173, R174, R179, R192) -/

/-- The oldest committed vector's results reach their words; the pass completes with its last vector (R246). -/
def Mach.promoteNext (m : Mach) (t : Fin 4) : Mach :=
  match (m.tile t).mx.committed with
  | [] => m
  | c :: rest =>
    let m1 := m.modMx t fun x => { x with committed := rest }
    let m2 := c.results.foldl (fun acc e => acc.promote t c.array c.accAdd e.1 e.2.1 e.2.2.1 e.2.2.2) m1
    let m3 := if c.last then m2.finish (.injector t) c.seq else m2
    m3.resumeDrain t c.array

def execResultPromotion (t : Fin 4) (s : State) : Host.Outcome State Fault Refusal := s.onM fun m => m.settled fun m => m.promoteNext t

end Sys2Proof.Machine
end

