-- ==== Sys2Proof/Machine/Vector.lean ====
section
/-! DEFINITION. Vector engine commands: VE, BEAT_ISSUE, TABLE_SWITCH, VE_OC_ACCESS (07_vector_engine.md). -/

namespace Sys2Proof.Machine

/-! ## Chains (R206, Tables VE-2, VE-3) -/

/-- A stage word. -/
structure Stage where
  op : Nat
  a : Nat
  b : Nat
  c : Nat
  dst : Nat
  rnd : Nat
  sat : Bool
  param : Nat
  imm : Nat
deriving DecidableEq, Repr

def parseStage (v : Nat) : Stage :=
  { op := bitsOf v 5 0, a := bitsOf v 11 6, b := bitsOf v 17 12, c := bitsOf v 23 18, dst := bitsOf v 29 24, rnd := bitsOf v 31 30,
    sat := bitsOf v 32 32 == 1, param := bitsOf v 39 33, imm := bitsOf v 63 40 }

def chainBase (n : Fin 64) : Nat := 0x3E000 + 128 * n.val

/-- The stages of a chain entry: to the first END, at most eight. -/
def chainStages (sdm : EccMem) (n : Fin 64) : List Stage :=
  ((List.range 8).map fun i => parseStage (sdm.nat (chainBase n + 8 * i) 8)).takeWhile fun s => s.op != 0

/-- Pointer n of the entry: base and step. -/
def chainPtr (sdm : EccMem) (n : Fin 64) (i : Nat) : Nat × Nat := (sdm.nat (chainBase n + 64 + 2 * i) 1, sdm.nat (chainBase n + 65 + 2 * i) 1)

/-- The slot that code i < 32 names in beat b (R204). -/
def slotOf (sdm : EccMem) (p : VeP) (i b : Nat) : Nat :=
  if p.ocm then ((chainPtr sdm p.chain i).1 + b * (chainPtr sdm p.chain i).2) % 256 else i

def opFunc : Nat := 0x16
def opRsum : Nat := 0x17
def opScan : Nat := 0x18

/-- The operands an op uses: a, b, c. -/
def opUses (op : Nat) : Bool × Bool × Bool :=
  if op = 0x05 ∨ op = 0x0C ∨ op = 0x13 ∨ op = opScan then (true, true, true)
  else if op = 0x01 ∨ op = 0x08 ∨ op = 0x14 ∨ op = 0x15 ∨ op = opFunc ∨ op = opRsum then (true, false, false)
  else (true, true, false)

/-- Does an op read the immediate as FP32 (Table VE-2)? Those whose operand a is FP32 (log entry 24). -/
def floatOp (s : Stage) : Bool :=
  decide (0x02 ≤ s.op ∧ s.op ≤ 0x08) || s.op == 0x15 || s.op == opFunc || s.op == opRsum || s.op == opScan ||
    (s.op == 0x12 && bitsOf s.param 3 3 == 0)

def immOf (s : Stage) : Word := if floatOp s then BitVec.ofNat 32 (s.imm * 256) else BitVec.ofInt 32 (signed 24 s.imm)

/-! ## Stream formats (R209, Table VE-4) -/

def beatBytes (fmt : Nat) : Nat := match fmt with | 0 => 32 | 1 | 7 => 64 | 2 | 4 => 128 | _ => 256

def veIns (p : VeP) : List (Nat × StreamIn) := [(0, p.s0), (1, p.s1), (2, p.s2)].filter fun s => p.inMask.getLsbD s.1
def veOuts (p : VeP) : List (Nat × StreamOut) := [(0, p.o0), (1, p.o1)].filter fun s => p.outMask.getLsbD s.1

/-! ## The checks before a stitch starts (R219, R226, Table VE-9) -/

def veChain : Nat := 1
def veRange : Nat := 2
def veFormat : Nat := 3
def veSpError : Nat := 4
def veNoTable : Nat := 5

def operandOk (used : Bool) (code : Nat) : Bool := !used || decide (code ≤ 0x27)

def stageOk (s : Stage) : Bool :=
  decide (s.op ≤ opScan) && operandOk (opUses s.op).1 s.a && operandOk (opUses s.op).2.1 s.b && operandOk (opUses s.op).2.2 s.c &&
    (decide (s.dst ≤ 0x20) || s.dst == 0x30 || s.dst == 0x31) && (s.op != opScan || decide (s.c < 0x20))

def tableBase (n : Nat) : Nat := n * 3104

/-- Is a function table usable: loaded, with a mode of Table VE-6? -/
def tableOk (m : Mach) (t : Fin 4) (n : Nat) : Bool :=
  (m.get (VeTblStat.loaded t)).testBit n && decide ((m.tile t).ve.tables.nat (tableBase n + 0x1C) 4 ≤ 2)

/-- The fault of a stitch before it reads anything: code and stage. -/
def veCheck (m : Mach) (t : Fin 4) (p : VeP) : Option (Nat × Nat) :=
  let st := chainStages (m.tile t).sdm p.chain
  let idx := (List.range st.length).zip st
  let n := p.nBeatsM1.toNat + 1
  match idx.find? fun s => !stageOk s.2 with
  | some s => some (veChain, s.1)
  | none =>
    if 1 < st.countP (fun s => s.op == opScan) ∨ 1 < st.countP (fun s => s.dst == 0x30) ∨ 1 < st.countP (fun s => s.dst == 0x31) then some (veChain, 0)
    else if (veOuts p).any fun o => !st.any fun s => s.dst == 0x30 + o.1 then some (veChain, 0)
    else if (veOuts p).any fun o => o.2.exp.toNat != 0 &&
      (o.2.fmt.toNat != 6 || !(veIns p).any fun i => i.1 + 1 == o.2.exp.toNat && i.2.fmt.toNat == 6) then some (veFormat, 0)
    else
      match idx.find? fun s => s.2.op == opFunc && !tableOk m t (s.2.param % 16) with
      | some s => some (veNoTable, s.1)
      | none =>
        let ok := fun (addr : Word) (fmt stride : Nat) =>
          decide (addr.toNat % 2 ^ 26 % Nat.max 64 (beatBytes fmt) = 0) &&
            (List.range n).all fun b => m.spInRange t addr (beatBytes fmt) (b * stride * 32)
        if (st.any fun s => s.op == opScan && !decide (1 ≤ s.param % 64 ∧ s.param % 64 ≤ 32)) then some (veRange, 0)
        else if (veIns p).any (fun i => !ok i.2.src i.2.fmt.toNat i.2.stride.toNat) ∨ (veOuts p).any (fun o => !ok o.2.dst o.2.fmt.toNat o.2.stride.toNat) then
          some (veRange, 0)
        else none

/-- Books of a VE fault (R226, Table VE-11); a VOID ending is not among Table VE-9's codes. -/
def Mach.veNote (m : Mach) (t : Fin 4) (express : Bool) (stage beat code : Nat) : Mach :=
  if code = codeVoid then m
  else
    ((((((m.put (VeFaultLast.lane t) (b2n express)).put (VeFaultLast.stage t) stage).put (VeFaultLast.beat t) beat).put (VeFaultLast.code t) code).flag
      (VeFaultLast.valid t)).flag (VeStatus.fault t))

/-! ## The operand store and the tables (R204, R224, R225) -/

def goodWord : Nat → Bool := fun _ => false

/-- Books of an uncorrectable word (R225). -/
def Mach.veUe (m : Mach) (t : Fin 4) (table : Bool) (w : Nat) : Mach :=
  (((((m.bump (VeUeCount.count t)).put (VeUeLast.table t) (b2n table)).put (VeUeLast.word t) w).flag (VeUeLast.valid t)).flag (VeStatus.ue t)).record
    Flt.veUe (srcIsl (59 * t.val + 52 + b2n table)) []

/-- Check words of the store or the tables as a read does: count, repair, log. -/
def Mach.veCheckWords (m : Mach) (t : Fin 4) (table : Bool) (a n : Nat) : Mach :=
  let mem := if table then (m.tile t).ve.tables else (m.tile t).ve.store
  let ces := mem.ces a n
  let chks := mem.chks a n
  let m1 := (m.bump (VeCeCount.count t) ces.length).bump (VeChkCount.count t) chks.length
  let m2 := (mem.ues a n).foldl (fun acc w => acc.veUe t table w) m1
  m2.modVe t fun v =>
    if table then { v with tables := v.tables.repairAll (ces ++ chks) } else { v with store := v.store.repairAll (ces ++ chks) }

/-- A lane: its word and its poison mark. -/
abbrev Lane := Word × Bool

/-- Read a slot: an uncorrectable word poisons every lane (R225). -/
def Mach.slotRead (m : Mach) (t : Fin 4) (slot : Nat) : List Lane × Mach :=
  let v := (m.tile t).ve
  let ue := !(v.store.ues (256 * slot) 256).isEmpty
  ((List.range 64).map fun i =>
    (BitVec.ofNat 32 (v.store.nat (256 * slot + 4 * i) 4), ue || Tab.get goodWord v.poison (32 * slot + i / 2)), m.veCheckWords t false (256 * slot) 256)

/-- Write a slot whole: clean words lose their poison (R224). -/
def Mach.slotWrite (m : Mach) (t : Fin 4) (slot : Nat) (ls : List Lane) : Mach :=
  m.modVe t fun v =>
    { v with
      store := v.store.write (256 * slot) (ls.flatMap fun l => leBytes 4 l.1.toNat)
      poison := (List.range 32).foldl (fun acc w =>
        Tab.set goodWord acc (32 * slot + w) ((ls.getD (2 * w) (0, false)).2 || (ls.getD (2 * w + 1) (0, false)).2)) v.poison }

/-! ## Function tables (R214, R215) -/

structure FnTable where
  x_lo : Word
  inv_w : Word
  x_hi : Word
  loSlope : Word
  loIcpt : Word
  hiSlope : Word
  hiIcpt : Word
  mode : Nat
deriving DecidableEq, Repr

def fnTable (mem : EccMem) (n : Nat) : FnTable :=
  let w := fun o => BitVec.ofNat 32 (mem.nat (tableBase n + o) 4)
  { x_lo := w 0, inv_w := w 4, x_hi := w 8, loSlope := w 0xC, loIcpt := w 0x10, hiSlope := w 0x14, hiIcpt := w 0x18, mode := (w 0x1C).toNat }

def fnCoef (mem : EccMem) (n i k : Nat) : Word := BitVec.ofNat 32 (mem.nat (tableBase n + 32 + 12 * i + 4 * k) 4)

/-- floor of a non-negative FP32, at most 255. -/
def floor255 (w : Word) : Nat :=
  match fp32 w with
  | .nan => 0
  | .inf s => if s then 0 else 255
  | .fin s m e => if s then 0 else Nat.min (roundAt 1 false m e 0) 255

/-- plain(x) of R215. -/
def fnPlain (mem : EccMem) (n : Nat) (sat : Bool) (x : Word) : FpOut :=
  let t := fnTable mem n
  if fpCmp (fp32 x) (fp32 t.x_lo) < 0 then fma 0 sat t.loSlope x t.loIcpt
  else if 0 < fpCmp (fp32 x) (fp32 t.x_hi) then fma 0 sat t.hiSlope x t.hiIcpt
  else
    let u := (fmul 0 false (fsub 0 false x t.x_lo).v t.inv_w).v
    let i := floor255 u
    let d := (fsub 0 false u (itof 0 (BitVec.ofNat 32 i))).v
    fma 0 sat (fma 0 false (fnCoef mem n i 2) d (fnCoef mem n i 1)).v d (fnCoef mem n i 0)

/-- y * 2^k with y's sign flipped when neg. -/
def scaleBy (sat neg : Bool) (y : Word) (k : Int) : FpOut :=
  match fp32 y with
  | .nan => .nan
  | .inf s => .ok (inf32 (s != neg))
  | .fin s m e => round32 0 sat (s != neg) m (e + k)

/-- FUNC (R215). -/
def fnEval (mem : EccMem) (n : Nat) (sat : Bool) (x : Word) : FpOut :=
  let mode := (fnTable mem n).mode
  let ex : Int := (bitsOf x.toNat 30 23 : Int) - 127
  let frac := x &&& 0x007FFFFF
  let r : FpOut :=
    match fp32 x with
    | .nan => .nan
    | .inf s => if mode = 0 then fnPlain mem n sat x else if mode = 1 then .ok (zero32 s) else if s then .nan else .ok Config.rsqrtInf
    | .fin s m _ =>
      if mode = 0 then fnPlain mem n sat x
      else if mode = 1 then (if m = 0 then .ok (inf32 s) else scaleBy sat s (fnPlain mem n false (0x3F800000 ||| frac)).v (-ex))
      else if s then .nan
      else if m = 0 then .ok (inf32 false)
      else if ex % 2 = 0 then scaleBy sat false (fnPlain mem n false (0x3F800000 ||| frac)).v (-(ex / 2))
      else scaleBy sat false (fnPlain mem n false (0x40000000 ||| frac)).v (-((ex - 1) / 2))
  { r with v := if isNan r.v then nan32 else r.v, invalid := isNan r.v && !isNan x }

/-! ## Stage arithmetic (Table VE-3, R207) -/

def cmpHolds (code : Nat) (a b : Word) (c : Int) : Bool :=
  match code with
  | 0 => c == 0 | 1 => c != 0 | 2 => decide (c < 0) | 3 => decide (c ≤ 0) | 4 => decide (0 < c) | 5 => decide (0 ≤ c)
  | _ => Config.cmpOther code a b

def cmpOp (param : Nat) (a b : Word) : Bool :=
  let code := param % 8
  if bitsOf param 3 3 = 1 then cmpHolds code a b (int32 a - int32 b)
  else if isNan a ∨ isNan b then (if code ≤ 5 then code == 1 else Config.cmpOther code a b)
  else cmpHolds code a b (fpCmp (fp32 a) (fp32 b))

def intR (r : Word × Bool) : FpOut := ⟨r.1, false, false, r.2⟩

/-- One lane of a stage other than FUNC, RSUM and SCAN. -/
def laneOp (s : Stage) (a b c : Word) : FpOut :=
  if s.op = 0x01 then .ok a
  else if s.op = 0x02 then fadd s.rnd s.sat a b
  else if s.op = 0x03 then fsub s.rnd s.sat a b
  else if s.op = 0x04 then fmul s.rnd s.sat a b
  else if s.op = 0x05 then fma s.rnd s.sat a b c
  else if s.op = 0x06 then .ok (fmaxmin true a b)
  else if s.op = 0x07 then .ok (fmaxmin false a b)
  else if s.op = 0x08 then
    (let x := flush a
     if isNan a then .ok nan32
     else if s.param = 1 then .ok (x ||| 0x80000000) else if s.param = 2 then .ok (x ^^^ 0x80000000) else .ok (x &&& 0x7FFFFFFF))
  else if s.op = 0x09 then intR (intOut s.sat (int32 a + int32 b))
  else if s.op = 0x0A then intR (intOut s.sat (int32 a - int32 b))
  else if s.op = 0x0B then intR (intOut s.sat (int32 a * int32 b))
  else if s.op = 0x0C then intR (intOut s.sat (int32 a * int32 b + int32 c))
  else if s.op = 0x0D then intR (intOut s.sat (int32 a * (2 ^ (b.toNat % 32) : Int)))
  else if s.op = 0x0E then intR (intOut s.sat (roundInt s.rnd (int32 a) (b.toNat % 32)))
  else if s.op = 0x0F then .ok (a &&& b)
  else if s.op = 0x10 then .ok (a ||| b)
  else if s.op = 0x11 then .ok (a ^^^ b)
  else if s.op = 0x12 then .ok (if cmpOp s.param a b then 0xFFFFFFFF else 0)
  else if s.op = 0x13 then .ok (if c ≠ 0 then a else b)
  else if s.op = 0x14 then .ok (itof s.rnd a)
  else intR (ftoi s.rnd a)

/-- What a stage raised over its lanes (R207, R218). -/
structure VeFlags where
  invalid : Nat
  overflow : Bool
  sat : Nat
deriving DecidableEq, Repr

def VeFlags.none : VeFlags := ⟨0, false, 0⟩
def VeFlags.of (rs : List FpOut) : VeFlags := ⟨rs.countP (·.invalid), rs.any (·.overflow), rs.countP (·.clamp)⟩

def Mach.veFlags (m : Mach) (t : Fin 4) (f : VeFlags) : Mach :=
  let m1 := if f.invalid = 0 then m else (m.bump (VeInvalidCount.count t) f.invalid).flag (VeStatus.invalid t)
  let m2 := if f.overflow then m1.flag (VeStatus.overflow t) else m1
  if f.sat = 0 then m2 else (m2.bump (VeSatCount.count t) f.sat).flag (VeStatus.sat t)

/-- Pairwise sums, one level of RSUM (R210). -/
def rsumLevel (sat : Bool) : List Word → List FpOut
  | a :: b :: r => fadd 0 sat a b :: rsumLevel sat r
  | _ => []

/-- All levels: the sum and every addition's outcome. -/
def rsum (sat : Bool) : Nat → List Word → Word × List FpOut
  | 0, ws => (ws.headD 0, [])
  | k + 1, ws => let l := rsumLevel sat ws; let r := rsum sat k (l.map (·.v)); (r.1, l ++ r.2)

/-- RSUM over 64 lanes, or over each half. -/
def rsumBeat (s : Stage) (ws : List Word) : List Word × List FpOut :=
  if s.param % 2 = 1 then
    let x := rsum s.sat 5 (ws.take 32); let y := rsum s.sat 5 (ws.drop 32)
    (List.replicate 32 x.1 ++ List.replicate 32 y.1, x.2 ++ y.2)
  else let x := rsum s.sat 6 ws; (List.replicate 64 x.1, x.2)

/-! ## SCAN (R216) -/

/-- One level of the parallel form: (p, q) pairs with the level before's values. -/
def scanLevel (rnd : Nat) (sat : Bool) (d : Nat) (xs : List (Word × Word)) : List (Word × Word × List FpOut) :=
  (List.range xs.length).map fun j =>
    let x := xs.getD j (0, 0)
    if j < d then (x.1, x.2, [])
    else
      let y := xs.getD (j - d) (0, 0)
      let p := fmul rnd sat x.1 y.1
      let q := fma rnd sat x.1 y.2 x.2
      (p.v, q.v, [p, q])

/-- The levels from distance d; the last element's outcomes are kept. -/
def scanUp (rnd : Nat) (sat : Bool) : Nat → Nat → List (Word × Word) → List FpOut → Word × List FpOut
  | 0, _, xs, fs => ((xs.getLastD (0, 0)).2, fs)
  | fuel + 1, d, xs, fs =>
    if d < xs.length then
      let l := scanLevel rnd sat d xs
      scanUp rnd sat fuel (2 * d) (l.map fun e => (e.1, e.2.1)) (fs ++ (l.getLastD (0, 0, [])).2.2)
    else ((xs.getLastD (0, 0)).2, fs)

/-- h_j of one lane from the block's (a, b) so far, oldest first, and the carry: parallel or serial; only beat j's own operations report. -/
def scanLane (rnd : Nat) (sat serial : Bool) (hin : Word) (ab : List (Word × Word)) : Word × List FpOut :=
  if serial then
    ab.foldl (fun acc e => let r := fma rnd sat e.1 acc.1 e.2; (r.v, [r])) (hin, [])
  else
    match ab with
    | [] => (hin, [])
    | (a0, b0) :: rest =>
      let q0 := fma rnd sat a0 hin b0
      scanUp rnd sat 6 1 ((0, q0.v) :: rest) (if rest.isEmpty then [q0] else [])

/-! ## One beat -/

/-- What a beat carries along its chain. -/
structure BeatEnv where
  prev : List Lane
  ins : List (List Lane)
  exps : List (List Nat)
  run : VeRun
deriving DecidableEq, Repr

def lanesOf (f : Nat → Word) : List Lane := (List.range 64).map fun i => (f i, false)

/-- An operand (Table VE-2). -/
def Mach.operand (m : Mach) (t : Fin 4) (env : BeatEnv) (s : Stage) (code : Nat) : List Lane × Mach :=
  if code < 0x20 then m.slotRead t (slotOf (m.tile t).sdm env.run.p code env.run.beat)
  else if code = 0x20 then (env.prev, m)
  else if code ≤ 0x23 then (env.ins.getD (code - 0x21) [], m)
  else if code = 0x24 then (lanesOf fun _ => immOf s, m)
  else if code = 0x25 then (lanesOf fun _ => 0, m)
  else if code = 0x26 then (lanesOf fun i => BitVec.ofNat 32 i, m)
  else (lanesOf fun _ => BitVec.ofNat 32 env.run.beat, m)

/-- The lanes of an SF24 stream of 64 containers: values, block exponents, blocks with differing exponents, overflows (R211, R213). -/
def sfLanes (cs : List (Nat × Bool)) (strict : Bool) : List Lane × List Nat × Bool × Nat :=
  let ex := fun blk => bitsOf (cs.getD (32 * blk) (0, false)).1 31 24
  let mis := fun blk => (List.range 32).any fun i => bitsOf (cs.getD (32 * blk + i) (0, false)).1 31 24 != ex blk
  let rs := (List.range 64).map fun i =>
    let c := cs.getD i (0, false)
    (sfTo32 (signed 24 c.1) (ex (i / 32)), c.2 || (strict && mis (i / 32)))
  (rs.map fun r => (r.1.v, r.2), [ex 0, ex 1], mis 0 || mis 1, rs.countP fun r => r.1.overflow)

/-- The lanes of a stream's bytes (R209, R211). -/
def streamLanes (fmt : Nat) (data : List (Byte × Bool)) : List Lane :=
  let ints := fun (w : Nat) => (chunk (w / 8) 64 data).map fun e => (BitVec.ofInt 32 (signed w e.1), e.2)
  match fmt with
  | 0 => (List.range 64).map fun i => let b := data.getD (i / 2) (0, false); (BitVec.ofInt 32 (signed 4 (b.1.toNat / 16 ^ (i % 2))), b.2)
  | 1 => ints 8
  | 2 => ints 16
  | 3 => ints 32
  | 4 => (chunk 2 64 data).map fun e => (halfTo32 e.1, e.2)
  | 5 => ints 32
  | _ => (chunk 1 64 data).map fun e => (BitVec.ofNat 32 e.1, e.2)

/-- Bytes of an output beat with poison, and what the conversion raised (R211, R212, R224). -/
def outBytes (o : StreamOut) (exps : List (List Nat)) (satPoison : Bool) (ls : List Lane) : List (Byte × Bool) × VeFlags :=
  if o.fmt.toNat = 6 then
    let blocks := (List.range 2).map fun blk =>
      let xs := (ls.drop (32 * blk)).take 32
      let fs := xs.map fun l => laneFp o.isInt l.1
      let ex := if o.exp.toNat = 0 then sfExp fs else (exps.getD (o.exp.toNat - 1) []).getD blk 0
      let ms := fs.map fun f => sfMant f ex
      let pz := xs.any (·.2) || (satPoison && ms.any (·.2))
      ((ms.flatMap fun q => leBytes 4 (wrap 24 q.1 + ex * 2 ^ 24)).map fun b => (b, pz), ms.countP (·.2))
    (blocks.flatMap (·.1), ⟨0, false, (blocks.map (·.2)).foldl (· + ·) 0⟩)
  else
    let rs := ls.map fun l => (laneOut o.fmt.toNat o.isInt o.sat l.1, l.2)
    let bad := fun (r : (Nat × Bool × Bool) × Bool) => r.2 || (satPoison && r.1.2.2)
    let fl : VeFlags := ⟨0, o.fmt.toNat == 4 && rs.any (·.1.2.1), rs.countP fun r => r.1.2.1⟩
    if o.fmt.toNat = 0 then
      ((List.range 32).map fun i =>
        let x := rs.getD (2 * i) ((0, false, false), false); let y := rs.getD (2 * i + 1) ((0, false, false), false)
        (BitVec.ofNat 8 (x.1.1 + 16 * y.1.1), bad x || bad y), fl)
    else (rs.flatMap fun r => (leBytes (beatBytes o.fmt.toNat / 64) r.1.1).map fun b => (b, bad r), fl)

/-- SCAN on one beat: the result lanes, the outcomes, and the run with its block advanced (R216, R224). -/
def Mach.scanStage (m : Mach) (t : Fin 4) (s : Stage) (run : VeRun) (a b : List Lane) : List Lane × List FpOut × VeRun × Mach :=
  let blockLen := Nat.max 1 (s.param % 64)
  let serial := s.param / 64 == 1
  let slot := slotOf (m.tile t).sdm run.p s.c (run.beat - run.scan.length)
  let cr := if run.scan.isEmpty then m.slotRead t slot else (run.carry, m)
  let beatAB : List (Word × Word × Bool) := (a.zip b).map fun e => (e.1.1, e.2.1, e.1.2 || e.2.2)
  let hist := run.scan ++ [beatAB]
  let outs := (List.range 64).map fun i =>
    let hin := cr.1.getD i (0, false)
    let ab := hist.map fun x => let e := x.getD i (0, 0, false); (e.1, e.2.1)
    let r := scanLane s.rnd s.sat serial hin.1 ab
    let pz := hin.2 || (hist.any fun x => (x.getD i (0, 0, false)).2.2) || (m.on (VeCtl.satPoison t) && r.2.any (·.clamp))
    ((r.1, pz), r.2)
  let lanes := outs.map (·.1)
  let kept := run.scan ++ [(beatAB.zip lanes).map fun e => (e.1.1, e.1.2.1, e.2.2)]
  let ends := decide (blockLen ≤ hist.length) || run.beat == run.p.nBeatsM1.toNat
  let m1 := if ends then cr.2.slotWrite t slot lanes else cr.2
  (lanes, outs.flatMap (·.2), if ends then { run with scan := [], carry := [] } else { run with scan := kept, carry := cr.1 }, m1)

/-- One stage of a beat: its result goes to the next stage and to its destination. A store's bad reply ends the stitch. -/
def Mach.runStage (m : Mach) (t : Fin 4) (env : BeatEnv) (s : Stage) : Option Nat × BeatEnv × Mach :=
  let satPz := m.on (VeCtl.satPoison t)
  let ra := m.operand t env s s.a
  let rb := if (opUses s.op).2.1 then ra.2.operand t env s s.b else (lanesOf fun _ => 0, ra.2)
  let rc := if (opUses s.op).2.2 && s.op != opScan then rb.2.operand t env s s.c else (lanesOf fun _ => 0, rb.2)
  let res : List Lane × VeFlags × VeRun × Mach :=
    if s.op = opScan then
      let r := rc.2.scanStage t s env.run ra.1 rb.1
      (r.1, VeFlags.of r.2.1, r.2.2.1, r.2.2.2)
    else if s.op = opRsum then
      let r := rsumBeat s (ra.1.map (·.1))
      let pz := ra.1.any (·.2) || (satPz && r.2.any (·.clamp))
      (r.1.map fun w => (w, pz), VeFlags.of r.2, env.run, rc.2)
    else if s.op = opFunc then
      let mem := (m.tile t).ve.tables
      let bad := !(mem.ues (tableBase (s.param % 16)) 3104).isEmpty
      let rs := ra.1.map fun l => (fnEval mem (s.param % 16) s.sat l.1, l.2 || bad)
      (rs.map fun r => (r.1.v, r.2 || (satPz && r.1.clamp)), VeFlags.of (rs.map (·.1)), env.run, rc.2)
    else
      let rs := (ra.1.zip (rb.1.zip rc.1)).map fun l => (laneOp s l.1.1 l.2.1.1 l.2.2.1, l.1.2 || l.2.1.2 || l.2.2.2)
      (rs.map fun r => (r.1.v, r.2 || (satPz && r.1.clamp)), VeFlags.of (rs.map (·.1)), env.run, rc.2)
  let m1 := res.2.2.2.veFlags t res.2.1
  let env1 := { env with prev := res.1, run := res.2.2.1 }
  if s.dst < 0x20 then (none, env1, m1.slotWrite t (slotOf (m.tile t).sdm env.run.p s.dst env.run.beat) res.1)
  else
    match (veOuts env.run.p).find? fun o => s.dst == 0x30 + o.1 with
    | none => (none, env1, m1)
    | some o =>
      let ob := outBytes o.2 env.exps satPz res.1
      let w := (m1.veFlags t ob.2).spWrite t o.2.dst (ob.1.map some) false (env.run.beat * o.2.stride.toNat * 32)
      (replyCode veSpError w.1, env1, w.2)

/-- Read the input streams of a beat. A stream not in use reads as free values (log entry 20). -/
def Mach.readStreams (m : Mach) (t : Fin 4) (run : VeRun) : Option Nat × List (List Lane) × List (List Nat) × VeRun × Mach :=
  let strict := m.on (VeCtl.sf24Strict t)
  [(0, run.p.s0), (1, run.p.s1), (2, run.p.s2)].foldl (fun (acc : Option Nat × List (List Lane) × List (List Nat) × VeRun × Mach) q =>
    match acc.1 with
    | some _ => acc
    | none =>
      let m0 := acc.2.2.2.2
      if run.p.inMask.getLsbD q.1 then
        let r := m0.spRead t q.2.src (beatBytes q.2.fmt.toNat) q.2.age.toNat acc.2.2.2.1.skewed (run.beat * q.2.stride.toNat * 32)
        let run1 := { acc.2.2.2.1 with skewed := r.1.skewed }
        match replyCode veSpError r.1.status with
        | some c => (some c, acc.2.1, acc.2.2.1, run1, r.2)
        | none =>
          if q.2.fmt.toNat = 6 then
            let s := sfLanes (chunk 4 64 r.1.data) strict
            let m1 := if s.2.2.1 then r.2.flag (VeStatus.sf24Mismatch t) else r.2
            (none, acc.2.1 ++ [s.1], acc.2.2.1 ++ [s.2.1], run1, m1.veFlags t ⟨0, decide (0 < s.2.2.2), s.2.2.2⟩)
          else (none, acc.2.1 ++ [streamLanes q.2.fmt.toNat r.1.data], acc.2.2.1 ++ [[]], run1, r.2)
      else
        (none, acc.2.1 ++ [lanesOf fun i => (Config.freeValue (m0.free + i)).setWidth 32], acc.2.2.1 ++ [[]], acc.2.2.2.1,
          { m0 with free := m0.free + 64 })) (none, [], [], run, m)

/-! ## Stitch boundaries (R220, R223) -/

/-- One debug access to the operand store (R223, R224, Table VE-12). A write covers half a word, which is read first (R225; log entry 62). -/
def Mach.ocServe (m : Mach) (t : Fin 4) (e : Nat × Option Word × Path) : Mach :=
  match e.2.1 with
  | some v => (m.veCheckWords t false (4 * e.1) 4).modVe t fun x => { x with store := x.store.write (4 * e.1) (leBytes 4 v.toNat) }
  | none =>
    let v := (m.tile t).ve
    let m1 := m.veCheckWords t false (4 * e.1) 4
    if Tab.get goodWord v.poison (e.1 / 2) || v.store.bad (e.1 / 2) then (m1.flag (VeStatus.ue t)).wordReply e.2.2 (VeOcData.reg t) (leBytes 4 0)
    else m1.wordReply e.2.2 (VeOcData.reg t) (v.store.read (4 * e.1) 4)

/-- Load a function table into its slot (R214). -/
def Mach.loadTable (m : Mach) (t : Fin 4) (n : Nat) (data : List Byte) : Mach :=
  (m.modVe t fun v => { v with tables := v.tables.write (tableBase n) data }).put (VeTblStat.loaded t) (m.get (VeTblStat.loaded t) ||| 2 ^ n)

/-- Staged tables replace the old ones (R220). -/
def Mach.switchTables (m : Mach) (t : Fin 4) : Mach :=
  (m.tile t).ve.staged.foldl (fun acc e => acc.loadTable t e.1 e.2) (m.modVe t fun x => { x with staged := [] })

/-- A stitch boundary: staged tables replace the old ones, and waiting debug accesses are served. -/
def Mach.veBoundary (m : Mach) (t : Fin 4) : Mach :=
  (m.tile t).ve.oc.foldl (fun acc e => acc.ocServe t e) ((m.switchTables t).modVe t fun x => { x with oc := [] })

/-! ## Stitches (R203, R226) -/

/-- Tables a chain uses are checked as the stitch starts (R225). -/
def Mach.checkTables (m : Mach) (t : Fin 4) (p : VeP) : Mach :=
  (List.range 16).foldl (fun acc n =>
    if (chainStages (m.tile t).sdm p.chain).any fun s => s.op == opFunc && s.param % 16 == n then acc.veCheckWords t true (tableBase n) 3104 else acc) m

/-- A VE stitch starts, or faults. -/
def Mach.startVe (m : Mach) (t : Fin 4) (h : StitchHdr) (p : VeP) : Mach :=
  let m0 := m.veBoundary t
  match veCheck m0 t p with
  | some c => (m0.veNote t h.express c.2 0 c.1).stitchFault h 4 c.1
  | none =>
    ((m0.begin (.ve t) ⟨h, .ve p⟩).checkTables t p).modVe t fun v =>
      { v with run := some { hdr := h, p := p, seq := m0.issue, beat := 0, skewed := false, scan := [], carry := [] } }

def execVe (t : Fin 4) (h : StitchHdr) (p : VeP) (s : State) : Host.Outcome State Fault Refusal :=
  s.onM fun m => m.arrive (.ve t) ⟨h, .ve p⟩ (m.idle (.ve t)) fun m => m.startVe t h p

/-- The stitch in progress ends with a fault at a stage (R226). -/
def Mach.veFail (m : Mach) (t : Fin 4) (run : VeRun) (stage code : Nat) : Mach :=
  (((m.modVe t fun v => { v with run := none }).veNote t run.hdr.express stage run.beat code).failStitch (.ve t) run.seq run.hdr 4 code).veBoundary t

/-- The next beat enters the chain and its outputs are written (R205, R208, R224). A beat that has been issued goes through its whole chain;
the first output write that is refused then ends the stitch (R226). -/
def Mach.beatIssue (m : Mach) (t : Fin 4) : Mach :=
  match (m.tile t).ve.run with
  | none => m
  | some run =>
    let rd := m.readStreams t run
    match rd.1 with
    | some code => rd.2.2.2.2.veFail t run 0 code
    | none =>
      let st := chainStages (m.tile t).sdm run.p.chain
      let env0 : BeatEnv := { prev := rd.2.1.headD [], ins := rd.2.1, exps := rd.2.2.1, run := rd.2.2.2.1 }
      let r := ((List.range st.length).zip st).foldl (fun (acc : Option (Nat × Nat) × BeatEnv × Mach) s =>
        let x := acc.2.2.runStage t acc.2.1 s.2
        (acc.1 <|> x.1.map fun c => (c, s.1), x.2.1, x.2.2)) (none, env0, rd.2.2.2.2)
      let m1 := r.2.2.gauge (tileGauge t) 0x20 none 1
      match r.1 with
      | some c => m1.veFail t run c.2 c.1
      | none =>
        if run.beat = run.p.nBeatsM1.toNat then ((m1.modVe t fun v => { v with run := none }).finish (.ve t) run.seq).veBoundary t
        else m1.modVe t fun v => { v with run := some { r.2.1.run with beat := run.beat + 1 } }

def execBeatIssue (t : Fin 4) (s : State) : Host.Outcome State Fault Refusal := s.onM fun m => m.settled fun m => m.beatIssue t

/-- TABLE_SWITCH: a stitch boundary while no stitch is in progress. -/
def execTableSwitch (t : Fin 4) (s : State) : Host.Outcome State Fault Refusal :=
  s.onM fun m => if (m.tile t).ve.run.isNone then m.veBoundary t else m

/-- VE_OC_ACCESS: served at once between stitches, else at the end of the one in progress (R223). -/
def execVeOcAccess (p : Path) (t : Fin 4) (write : Option Word) (s : State) : Host.Outcome State Fault Refusal :=
  s.onM fun m =>
    if m.pathUp p && m.reaches (VeOcData.reg t) then
      let e := (m.get (VeOcAddr.addr t), write, p)
      if (m.tile t).ve.run.isNone then m.ocServe t e else m.modVe t fun v => { v with oc := v.oc ++ [e] }
    else match write with | none => m.wordReply p (VeOcData.reg t) (leBytes 4 0) | some _ => m

end Sys2Proof.Machine
end

