-- ==== Sys2Proof/Machine/RegWrite.lean ====
section
/-! DEFINITION. What a write of one 32-bit word does at an address of the register map (R4, R5), except for the registers whose write
starts a cast-on, a power transition, a frog, a dump or an NVM operation (Machine/RegAccess.lean); and the 64-bit pairs of R7. -/

namespace Sys2Proof.Machine

/-! ## Field types (Table SC-3) -/

/-- A field after a write of v: RW sets, W1C clears, W1S sets bits, RO and WO keep nothing of it. -/
def FieldDesc.write (f : FieldDesc) (v old : Word) : Word :=
  match f.ty with
  | .rw => putBits old f.hi f.lo (bitsOf v.toNat f.hi f.lo)
  | .w1c => old &&& ~~~(v &&& maskOf f.hi f.lo)
  | .w1s => old ||| (v &&& maskOf f.hi f.lo)
  | .ro | .wo => old

/-- The word a register holds after a write of v over `old`, by its fields' types alone. -/
def typedWord (a : Nat) (old v : Word) : Word :=
  match findReg a with
  | none => old
  | some d => d.fields.foldl (fun w f => f.write v w) old

/-! ## Values that take effect as another (R44, R122, R127, R249, R394) -/

/-- Keep a field within [lo, hi], or at `low` when it lies below lo. -/
def clampField (w : Word) (f : Fld) (lo hi low : Nat) : Word :=
  let v := f.of w
  if v < lo then putBits w f.hi f.lo low else if hi < v then putBits w f.hi f.lo hi else w

def clampWord (a : Nat) (w : Word) : Word :=
  if a = GlTherm.reg then clampField w GlTherm.alert 0 114 0
  else if a = IsReplyTmo.reg then clampField w IsReplyTmo.units 4000 0xFFFFFF 4000
  else if a = IsTenCfg.reg then clampField w IsTenCfg.limit 10 600 10
  else if a = MsgUsbCfg.reg then
    let w1 := clampField (clampField w MsgUsbCfg.inboxEvent 8 63 8) MsgUsbCfg.holdMs 1 8 1
    if 9 < MsgUsbCfg.inboxCore.of w1 then putBits w1 MsgUsbCfg.inboxCore.hi MsgUsbCfg.inboxCore.lo 8 else w1
  else if a = MsgStage.reg then clampField w MsgStage.sizeKib 16 1024 16
  else if 0x780100 ≤ a ∧ a < 0x780500 ∧ a % 0x40 = 0 then
    let r := (a - 0x780100) / 0x40
    clampField (clampField w (MsgRingCtl.holdMs r) 1 8 1) (MsgRingCtl.sizeLog2 r) 4 16 4
  else if 0x600200 ≤ a ∧ a < 0x600400 ∧ (a - 0x600200) % 0x20 = 8 then clampField w (AeRingEvt.event ((a - 0x600200) / 0x20)) 8 63 8
  else w

/-! ## Static fields (R363) -/

/-- A phase in which every static field can be written. -/
def Mach.configPhase (m : Mach) : Bool := m.phase == phReset || m.phase == phCasting || m.phase == phRecasting || m.phase == phFailed
def Mach.domainFree (m : Mach) (d : Nat) : Bool := m.configPhase || !m.up (domainFn d)

/-- The bits of an address that a write may not change now. -/
def Mach.staticMask (m : Mach) (a : Nat) : Word :=
  let lock := fun (d : Nat) (mask : Word) => if m.domainFree d then (0 : Word) else mask
  if a = AeClksel.reg then (List.range 6).foldl (fun w d => w ||| lock d (BitVec.ofNat 32 (2 ^ d))) 0
  else if a = AeAcdCtl.reg then lock 0 0x3
  else if a = AeAcdOut.reg then lock 0 0x100
  else if a = AePdmCtl.reg then lock 1 0x33
  else if a = AePdmMap.reg 0 ∨ a = AePdmMap.reg 1 then lock 1 0xFFFFFFFF
  else if 0x600040 ≤ a ∧ a < 0x600080 ∧ a % 0x10 = 0 then lock (2 + (a - 0x600040) / 0x10) 0xFF
  else if 0x600200 ≤ a ∧ a < 0x600400 then (if m.configPhase then 0 else 0xFFFFFFFF)
  else if a = MsgStage.reg then (if m.configPhase then 0 else 0xFFFFFFFF)
  else if a = MsgUsbCfg.reg then lock 6 0x3F0000
  else 0

/-- Is every field of a register static, and every one of them locked? -/
def allStatic (a : Nat) (mask : Word) : Bool := (a == AeClksel.reg && mask == 0x3F) || mask == 0xFFFFFFFF

/-- The static fields of AE registers that belong to one domain's function, which a write may find out of service. -/
def staticBits (a : Nat) : Word :=
  if a = AeClksel.reg then 0x3F
  else if a = AeAcdCtl.reg then 0x3
  else if a = AeAcdOut.reg then 0x100
  else if a = AePdmCtl.reg then 0x33
  else if a = AePdmMap.reg 0 ∨ a = AePdmMap.reg 1 then 0xFFFFFFFF
  else if 0x600040 ≤ a ∧ a < 0x600080 ∧ a % 0x10 = 0 then 0xFF
  else 0

/-- Static fields written while their domain's function is not in service take effect at REJOIN: what is in effect is kept until then (R363). -/
def Mach.keepStatic (m : Mach) (a : Nat) : Mach :=
  if !m.configPhase && !(m.ae.eff.any fun e => e.1 == a) then { m with ae := { m.ae with eff := m.ae.eff ++ [(a, m.reg a)] } } else m

/-- The static fields of a domain take effect. -/
def Mach.releaseStatic (m : Mach) (d : Nat) : Mach :=
  let sel := fun (w : Word) =>
    let bit := BitVec.ofNat 32 (2 ^ d)
    (w &&& ~~~bit) ||| (m.reg AeClksel.reg &&& bit)
  let mine := fun (a : Nat) =>
    if d = 0 then a == AeAcdCtl.reg || a == AeAcdOut.reg
    else if d = 1 then a == AePdmCtl.reg || a == AePdmMap.reg 0 || a == AePdmMap.reg 1
    else a == AeTdmCtl.reg (d - 2)
  { m with ae := { m.ae with eff := (m.ae.eff.filter fun e => !mine e.1).map fun e => if e.1 = AeClksel.reg then (e.1, sel e.2) else e } }

/-- Store a word by its fields' types, its limits and R363: a write that would change a locked field, or that finds every field locked, is
denied (log entry 87). -/
def Mach.typedWrite (m : Mach) (a : Nat) (v : Word) : Mach :=
  let old := m.reg a
  let new := clampWord a (typedWord a old v)
  let mask := m.staticMask a
  let m1 := (if (new ^^^ old) &&& ~~~mask &&& staticBits a = 0 then m else m.keepStatic a).setReg a ((new &&& ~~~mask) ||| (old &&& mask))
  if ((new ^^^ old) &&& mask ≠ 0 ∨ allStatic a mask) ∧ 0x600000 ≤ a ∧ a < 0x700000 then m1.flag AeStatus.cfgDenied else m1

/-! ## Islands (R112, R128) -/

/-- Does R112's floor hold for an island: the phase is RUNNING, the pattern names it, and it is in service? -/
def Mach.scheduled (m : Mach) (i : Fin 264) : Bool :=
  m.phase == phRunning && (m.isl i).named && (match islandFn i.val with | some f => m.up f | none => true)

/-- The floor's code: 400 MHz. -/
def floorCode : Nat := 40

/-- A write of IS_ISL_CFG: none for islands 237 to 239; a cap that the floor raises is noted (R128). -/
def Mach.writeIslCfg (m : Mach) (a : Nat) (v : Word) : Mach :=
  let i : Fin 264 := ix 264 ((a - 0x21000) / 0x10)
  if 237 ≤ i.val ∧ i.val ≤ 239 then m
  else
    let m1 := m.typedWrite a v
    if m1.scheduled i ∧ m1.get (IsIslCfg.cap i) < floorCode then m1.flag (IsIslStat.capClamped i) else m1

/-! ## Gauges (R434, R449) -/

/-- Does a block have an event at an instance (Table GA-1)? -/
def gaugeHas (b event inst : Nat) : Bool :=
  let tile := decide (b < 4)
  if event = 0x01 then decide (inst < (if tile then 59 else 28))
  else if 0x02 ≤ event ∧ event ≤ 0x07 then decide (inst < 2)
  else if (0x10 ≤ event ∧ event ≤ 0x12) ∨ event = 0x14 then tile && decide (inst < 4)
  else if event = 0x13 ∨ event = 0x20 ∨ event = 0x21 then tile
  else if 0x30 ≤ event ∧ event ≤ 0x32 then tile && decide (inst < 32)
  else if event = 0x40 then decide (inst < 4)
  else if event = 0x41 ∨ event = 0x52 then decide (inst < 16)
  else if event = 0x50 ∨ event = 0x51 then tile && decide (inst < 9)
  else if event = 0x84 then !tile && decide (inst < 2)
  else !tile && decide (0x80 ≤ event ∧ event ≤ 0x87)

/-- A write of GA_CFG: a counter put to count what its block does not have sets bad_cfg. -/
def Mach.writeGaCfg (m : Mach) (b c : Nat) (v : Word) : Mach :=
  let m1 := m.typedWrite (GaCfg.reg b c) v
  let mode := m1.get (GaCfg.mode b c)
  if (mode = 1 ∨ mode = 2) ∧ !gaugeHas b (m1.get (GaCfg.event b c)) (m1.get (GaCfg.inst b c)) then m1.flag (GaStatus.badCfg b) else m1

/-- GA_CTL.clear: every counter, ovf_count and status bit of the block goes to zero. -/
def Mach.gaugeZero (m : Mach) (b : Fin 5) : Mach :=
  let g : Gauge := { vget m.gauges b with counts := Vector.replicate 8 0, ovfs := Vector.replicate 8 0, flits := Vector.replicate 4 0 }
  ({ m with gauges := vset m.gauges b g } : Mach).setReg (GaStatus.reg b) 0

/-! ## Cores (R271, Table TC-20) -/

/-- Has a core nothing that holds its next instruction (R232, FENCE)? -/
def Core.free (k : Core) : Bool := k.devLoad.isNone && k.heldStore.isNone && !k.fencing

/-- TC_CTL.halt: a running core halts at its next instruction boundary, a halted one resumes. -/
def Mach.setHalt (m : Mach) (c : Fin 10) (on : Bool) : Mach :=
  (m.put (TcCtl.halt c) (b2n on)).modCore c fun k =>
    let k1 := { k with haltReq := on }
    if on then (if k1.st = .run ∧ k1.free then { k1 with st := .halted } else k1)
    else if k1.st = .halted then { k1 with st := .run } else k1

/-- TC_CTL.step: a halted core is to commit one instruction. -/
def Mach.askStep (m : Mach) (c : Fin 10) : Mach := m.modCore c fun k => if k.st = .halted then { k with stepReq := true } else k

/-- A write of TC_CTL. -/
def Mach.writeTcCtl (m : Mach) (c : Fin 10) (v : Word) : Mach :=
  let m1 := (m.put (TcCtl.breakHalt c) (b2n (v.getLsbD 2))).setHalt c (v.getLsbD 0)
  if v.getLsbD 1 then m1.askStep c else m1

/-- A write of TC_PC: only while the core is HALTED. -/
def Mach.writeTcPc (m : Mach) (c : Fin 10) (v : Word) : Mach := m.modCore c fun k => if k.st = .halted then { k with pc := v } else k

/-- The core and offset of an address among the registers of R271. -/
def coreAt (a : Nat) : Option (Fin 10 × Nat) :=
  if 0x800 ≤ a ∧ a < 0xA00 then some (ix 10 (8 + (a - 0x800) / 0x100), a % 0x100)
  else if 0x130000 ≤ a ∧ a < 0x500000 ∧ a % 0x100000 ≥ 0x30000 ∧ a % 0x100000 < 0x30200 then
    some (ix 10 (2 * (a / 0x100000 - 1) + (a % 0x100000 - 0x30000) / 0x100), a % 0x100)
  else none

def Mach.writeCoreReg (m : Mach) (c : Fin 10) (off a : Nat) (v : Word) : Mach :=
  match off with
  | 0x00 => m.writeTcCtl c v
  | 0x08 => m.writeTcPc c v
  | 0x10 => m.dbgWrite c v
  | 0x14 => if v.getLsbD 0 then m.signal c 2 else m
  | _ => m.typedWrite a v

/-! ## Rings of MSG (R389, R395, R396) -/

/-- A write of MSG_RINGr_CTL: size_log2 only while enable is 0. -/
def Mach.writeRingCtl (m : Mach) (r : Nat) (v : Word) : Mach :=
  let a := MsgRingCtl.reg r
  let v1 := if m.on (MsgRingCtl.enable r) then putBits v 7 3 (m.get (MsgRingCtl.sizeLog2 r)) else v
  let m1 := m.setReg a (putBits (clampWord a (typedWord a (m.reg a) v1)) 0 0 (m.get (MsgRingCtl.enable r)))
  if v.getLsbD 0 then m1.enableRing r else m1.disableRing r

/-! ## Audio edge (R361, R365, R368) -/

/-- A write of AE_ACD_CTL: a bias output switched on again after a fault clears it; swatch starts a test. -/
def Mach.writeAcdCtl (m : Mach) (v : Word) : Mach :=
  let m1 := m.typedWrite AeAcdCtl.reg v
  let m2 := if v.getLsbD 4 then m1.put AeAcdStat.bias0Fault 0 else m1
  let m3 := if v.getLsbD 5 then m2.put AeAcdStat.bias1Fault 0 else m2
  if v.getLsbD 12 then m3.acdSwatch else m3

/-- A PDM combination outside Table AE-5 sets cfg_denied. -/
def Mach.writePdmCtl (m : Mach) (v : Word) : Mach :=
  let m1 := m.typedWrite AePdmCtl.reg v
  if m1.pdmOk then m1 else m1.flag AeStatus.cfgDenied

/-! ## The fault queue (R409) -/

/-- FR_PEND_POP.pop. HOST_ALERT_N may be released by it (R44). -/
def Mach.popPend (m : Mach) : Mach := { m with frc := { m.frc with pend := m.frc.pend.tail } }

/-! ## 64-bit pairs (R7) -/

/-- The low address of the pair that an address belongs to, and whether it is the high word; an address that is no word's belongs to none
(R4). -/
def pairOf (a : Nat) : Option (Nat × Bool) :=
  let at2 := fun (lo : Nat) => if a = lo then some (lo, false) else if a = lo + 4 then some (lo, true) else none
  if a % 4 ≠ 0 then none
  else if a < 0x800 then (match at2 GlTbLo.reg with | some x => some x | none => at2 GlUidLo.reg)
  else if 0x6000E0 ≤ a ∧ a < 0x600118 then some (a / 8 * 8, a % 8 == 4)
  else if 0x700014 ≤ a ∧ a < 0x700024 then some ((a - 0x700014) / 8 * 8 + 0x700014, (a - 0x700014) % 8 == 4)
  else if 0x780100 ≤ a ∧ a < 0x780500 then
    let o := (a - 0x780100) % 0x40
    if o = 4 ∨ o = 0xC then some (a, false) else if o = 8 ∨ o = 0x10 then some (a - 4, true) else none
  else if (0x40000 ≤ a ∧ a < 0x50000) ∨ (0x140000 ≤ a ∧ a < 0x500000 ∧ 0x40000 ≤ a % 0x100000 ∧ a % 0x100000 < 0x50000) then
    let g := a % 0x10000
    if g = 8 then some (a, false) else if g = 0xC then some (a - 4, true)
    else if 0x40 ≤ g ∧ g < 0x140 then
      let o := (g - 0x40) % 0x20
      if o = 4 ∨ o = 0xC then some (a, false) else if o = 8 ∨ o = 0x10 then some (a - 4, true) else none
    else none
  else none

def noPair (p : Option Path) (lo : Nat) : PairSt := { path := p, low := lo, shadow := none, staged := none }
def Mach.pairSt (m : Mach) (p : Option Path) (lo : Nat) : PairSt :=
  match m.pairs.find? fun x => x.path == p && x.low == lo with | some x => x | none => noPair p lo
def Mach.setPairSt (m : Mach) (x : PairSt) : Mach :=
  let rest := m.pairs.filter fun y => !(y.path == x.path && y.low == x.low)
  { m with pairs := if x.shadow.isNone && x.staged.isNone then rest else rest ++ [x] }

/-- Empty the shadows and stagings of one path. -/
def Mach.dropStaging (m : Mach) (p : Option Path) : Mach := { m with pairs := m.pairs.filter fun x => x.path != p }

/-- A write of a pair's low word is staged for its path. -/
def Mach.stageLow (m : Mach) (p : Option Path) (lo : Nat) (v : Word) : Mach := m.setPairSt { m.pairSt p lo with staged := some v }

/-- A write of the high word commits the staged low word with it, or changes the high word only. -/
def Mach.commitHigh (m : Mach) (p : Option Path) (lo : Nat) (v : Word) : Mach :=
  let x := m.pairSt p lo
  let m1 := match x.staged with | some w => m.typedWrite lo w | none => m
  (m1.typedWrite (lo + 4) v).setPairSt { x with staged := none }

/-! ## One word -/

/-- A write of a register over a path, by its kind (R5, R7). -/
def Mach.regWriteAt (m : Mach) (p : Path) (a : Nat) (v : Word) : Mach :=
  match pairOf a with
  | some (lo, false) => m.stageLow (some p) lo v
  | some (lo, true) => m.commitHigh (some p) lo v
  | none =>
    match coreAt a with
    | some (c, off) => m.writeCoreReg c off a v
    | none =>
      if 0x21000 ≤ a ∧ a < 0x22080 ∧ a % 0x10 = 0 then m.writeIslCfg a v
      else if a = FrPendPop.reg then (if v.getLsbD 0 then m.popPend else m)
      else if a = AeSnap.reg then (if v.getLsbD 0 then m.snap else m)
      else if a = AeAcdCtl.reg then m.writeAcdCtl v
      else if a = AePdmCtl.reg then m.writePdmCtl v
      else if a = AeAcdOut.reg then (m.typedWrite a v).refreshOuts
      else if 0x780100 ≤ a ∧ a < 0x780500 ∧ (a - 0x780100) % 0x40 = 0 then m.writeRingCtl ((a - 0x780100) / 0x40) v
      else if 0x780100 ≤ a ∧ a < 0x780500 ∧ (a - 0x780100) % 0x40 = 0x14 then m.prodWrite ((a - 0x780100) / 0x40) (v.toNat % 65536)
      else
        -- the same offset in every gauge block, and in every tile
        let blk := if a / 0x10000 = 4 then some 4 else if 0x100000 ≤ a ∧ a < 0x500000 ∧ a % 0x100000 / 0x10000 = 4 then some (a / 0x100000 - 1) else none
        match blk with
        | some b =>
          let g := a % 0x10000
          if g = 0 then
            let m1 := m.typedWrite a v
            if v.getLsbD 1 then m1.gaugeZero (ix 5 b) else m1
          else if 0x40 ≤ g ∧ g < 0x140 ∧ (g - 0x40) % 0x20 = 0 then m.writeGaCfg b ((g - 0x40) / 0x20) v
          else m.typedWrite a v
        | none =>
          if 0x100000 ≤ a ∧ a < 0x500000 then
            let t : Fin 4 := ix 4 (a / 0x100000 - 1)
            if a = VeOcData.reg t then
              let e := (m.get (VeOcAddr.addr t), some v, p)
              if (m.tile t).ve.run.isNone then m.ocServe t e else m.modVe t fun x => { x with oc := x.oc ++ [e] }
            else if a = SpBankAlloc.reg t ∧ (m.tile t).sp.unified then m
            else m.typedWrite a v
          else m.typedWrite a v

/-- A word written over a path: a register, or a word of a memory window (R9, R11). -/
def Mach.wordWrite (m : Mach) (p : Path) (a : Nat) (v : Word) : Mach :=
  if a % 4 ≠ 0 then m
  else
    let bs := (leBytes 4 v.toNat).map some
    match target a with
    | .spWindow t off => (m.windowWrite p t off bs).2
    | .problemWindow off => m.problemWrite p off bs
    | .hubWindow off => (m.hubPathWrite p off bs).2
    | .reg _ => m.regWriteAt p a v
    | .unassigned => m

/-- A write of cast-on's own records (R13, R80). It comes over no access path: a pair's low word is staged apart from every path's, until the
record's end. -/
def Mach.castWrite (m : Mach) (a : Nat) (v : Word) : Mach :=
  match pairOf a with
  | some (lo, false) => m.stageLow none lo v
  | some (lo, true) => m.commitHigh none lo v
  | none => m.wordWrite .spi a v

end Sys2Proof.Machine
end

