-- ==== Sys2Proof/Machine/Clocks.lean ====
section
/-! DEFINITION. Island clocks and the core supply: effective codes, the voltage they need, the tension governor's intervals, PMBus writes
and droop events (04_islands_and_links.md R110-R115, R122-R130, R137; 02_package_supplies_clocks.md R33-R35, R62). -/

namespace Sys2Proof.Machine

/-! ## Voltage for frequency (R114, Table IS-3) -/

/-- Table IS-3 in MHz and microvolts. -/
def voltPoints : List (Nat × Nat) := [(200, 550000), (400, 620000), (600, 680000), (800, 750000), (1000, 810000), (1100, 850000)]

/-- Linear interpolation between rising points. -/
def interpolate : List (Nat × Nat) → Nat → Nat
  | (f0, v0) :: (f1, v1) :: rest, f =>
    if f ≤ f1 then v0 + (v1 - v0) * (f - f0) / (f1 - f0) else interpolate ((f1, v1) :: rest) f
  | [(_, v)], _ => v
  | [], _ => 0

/-- Microvolts that an island needs at a code: 2.5 mV more for each margin tap beyond 8. -/
def needVolts (code margin : Nat) : Nat := interpolate voltPoints (200 + 5 * code) + 2500 * (margin - 8)

/-- The highest code that a voltage supports for a margin; 0 when it supports none. -/
def codeFor (volts margin : Nat) : Nat := ((List.range 181).reverse.find? fun c => decide (needVolts c margin ≤ volts)).getD 0

/-- Does an island take its logic from VDD_CORE (R114)? -/
def onCoreRail (i : Nat) : Bool :=
  if i < 236 then !decide (20 ≤ i % 59 ∧ i % 59 < 52) else !decide ((237 ≤ i ∧ i ≤ 239) ∨ (242 ≤ i ∧ i ≤ 245))

/-- Fractional bits of a VOUT code: minus the exponent. -/
def Power.vrBits (p : Power) : Nat := (-(p.vrExp.toInt)).toNat
/-- Microvolts of a VOUT code. -/
def Power.volts (p : Power) (code : Nat) : Nat := code * 1000000 / 2 ^ p.vrBits
/-- The VOUT code of a voltage, rounded up (R34). -/
def Power.vrCode (p : Power) (uv : Nat) : Nat := (uv * 2 ^ p.vrBits + 999999) / 1000000
/-- The supply level that island clocks may count on: 0.75 V when fixed (R35), else the last confirmed voltage (R62). -/
def Mach.supply (m : Mach) : Nat := if m.pw.fixedSupply then 750000 else m.pw.volts m.pw.vrConfirmed.toNat

/-! ## Effective codes (R111, R112, R115, R130, R172) -/

/-- Islands 237 to 239 run at a fixed 240 MHz (R112). -/
def fixedClock (i : Nat) : Bool := decide (237 ≤ i ∧ i ≤ 239)

/-- The islands that run at one code with island i: those of an array (R172), else i alone. -/
def codeGroup (i : Nat) : List Nat :=
  if i < 236 ∧ i % 59 < 20 then arrayIslands (i / 59) (if i % 59 < 16 then i % 59 / 4 else i % 59 - 16) else [i]

/-- The lowest of some codes, 180 at most. -/
def lowest (cs : List Nat) : Nat := cs.foldl Nat.min 180

/-- The smallest of an island's ceiling, host cap and pattern clock (R111). -/
def Mach.baseCode (m : Mach) (i : Fin 264) : Nat :=
  Nat.min (Nat.min (m.isl i).ceiling.toNat (m.isl i).patClk.toNat) (Nat.min (m.get (IsIslCfg.cap i)) 180)

/-- Does the floor hold for an island or for one that shares its code? -/
def Mach.floored (m : Mach) (i : Nat) : Bool := (codeGroup i).any fun j => m.scheduled (ix 264 j)

/-- The code that ceiling, host cap, pattern clock and floor give, before the supply's limit. -/
def Mach.wantCode (m : Mach) (i : Fin 264) : Nat :=
  if fixedClock i then 8
  else if m.phase = phIdle ∨ m.phase = phRetention then 0
  else
    let c := lowest ((codeGroup i).map fun j => m.baseCode (ix 264 j))
    let c1 := if m.floored i then Nat.max c floorCode else c
    if 248 ≤ i.val ∧ i.val ≤ 250 then Nat.min c1 120 else c1

/-- The effective code: VDD_CORE islands stay within what the supply supports, a scheduled island never below the floor. -/
def Mach.effCode (m : Mach) (i : Fin 264) : Nat :=
  let c := m.wantCode i
  if !onCoreRail i.val then c
  else
    let c1 := Nat.min c (lowest ((codeGroup i).map fun j => codeFor m.supply (m.get (IsIslCfg.margin (ix 264 j)))))
    if m.floored i then Nat.max c1 floorCode else c1

/-- The code that an island on VDD_CORE needs the supply for: what it is to run at, and what it still runs at until a stitch boundary; none
while it is stopped. -/
def Mach.supplyCode (m : Mach) (i : Nat) : Option Nat :=
  let x := m.isl (ix 264 i)
  if !onCoreRail i || x.stopped then none
  else some (if x.next.isSome then Nat.max (m.wantCode (ix 264 i)) x.code.toNat else m.wantCode (ix 264 i))

/-- The voltage that VDD_CORE's fastest island needs with its margin, in VOUT codes (R114, R34). -/
def Mach.voltTarget (m : Mach) : Nat :=
  let codes := (List.range 264).filterMap fun i => (m.supplyCode i).map fun c => (i, c)
  let top := (codes.map Prod.snd).foldl Nat.max 0
  m.pw.vrCode ((codes.filter fun e => e.2 == top).foldl (fun v e => Nat.max v (needVolts top (m.get (IsIslCfg.margin (ix 264 e.1))))) 0)

/-- Note every island whose host cap the floor raises (R128). -/
def Mach.noteClamps (m : Mach) : Mach :=
  (List.range 264).foldl (fun acc i =>
    if acc.scheduled (ix 264 i) && decide (acc.get (IsIslCfg.cap i) < floorCode) then acc.flag (IsIslStat.capClamped i) else acc) m

/-- An island takes a code: at once, or at its next stitch boundary when it is scheduled and a stitch runs in it (R115). -/
def Mach.giveCode (m : Mach) (i : Fin 264) (c : BitVec 8) : Island :=
  let x := m.isl i
  if m.scheduled i && x.code != c && m.inStitch i then { x with next := some c } else { x with code := c, next := none }

/-- Put the effective codes in use and aim the supply at what they need. -/
def Mach.applyCodes (m : Mach) : Mach :=
  let m1 := m.noteClamps
  let m2 : Mach := { m1 with islands := Vector.ofFn fun i => m1.giveCode i (BitVec.ofNat 8 (m1.effCode i)) }
  if m2.pw.fixedSupply then m2 else { m2 with pw := { m2.pw with vrTarget := BitVec.ofNat 16 m2.voltTarget } }

/-- A function's islands that the pattern names become scheduled as it comes into service: none stays below the floor (R112, R128). -/
def Mach.raiseFloors (m : Mach) : Mach :=
  let m1 := m.noteClamps
  { m1 with islands := Vector.ofFn fun i =>
      let x := m1.isl i
      if m1.floored i && decide (x.code.toNat < floorCode) then { x with code := BitVec.ofNat 8 floorCode } else x }

/-! ## The governor's interval (R122-R125, R130; log entry 44) -/

/-- The ceiling of one island under a measure: 180 unless the measure lowers it, and then a free value, for a scheduled island not below
the floor. Measure 3 leaves the islands in which an express stitch runs; the hold of R137 puts all at the floor. -/
def Mach.governIsland (m : Mach) (measure : Nat) (i : Nat) : Mach :=
  let k : Fin 264 := ix 264 i
  if m.gov.floor then m.modIsl k fun x => { x with ceiling := BitVec.ofNat 8 floorCode }
  else if m.scheduled k then
    (if measure = 4 ∨ (measure = 3 ∧ !m.inStitch i true) then
       let r := m.freshBelow 141; r.2.modIsl k fun x => { x with ceiling := BitVec.ofNat 8 (floorCode + r.1) }
     else m.modIsl k fun x => { x with ceiling := 180 })
  else if measure < 2 then m.modIsl k fun x => { x with ceiling := 180 }
  else let r := m.freshBelow 181; r.2.modIsl k fun x => { x with ceiling := BitVec.ofNat 8 r.1 }

/-- Does the hottest reading stand at the alert threshold less a number of degrees, or above? -/
def Mach.hotBy (m : Mach) (less : Nat) : Bool :=
  m.on GlTemp.valid && decide (4 * ((m.get GlTherm.alert : Int) - less) ≤ signed 11 (m.get GlTemp.temp))

/-- Is there express work, running or waiting? -/
def Mach.expressWork (m : Mach) : Bool :=
  allUnits.any fun u => !(m.unitQ u).express.isEmpty || (m.unitQ u).current.any fun r => !r.done && r.stitch.hdr.express

/-- What the estimate is held to: before step 4 the reserve is kept for express work while none is there to use it (R123, log entry 44). -/
def Mach.powerHold (m : Mach) : Nat :=
  let limit := m.get IsTenCfg.limit
  if m.gov.measure < 3 ∧ !m.expressWork then limit - m.get IsTenReserve.power else limit

/-- The measure in force after an interval: the world's choice within R122 to R124. It goes up one step at a time, and only when what is in
force no longer suffices: the estimate or its average is above what it is held to, the hottest reading is within therm_margin of the alert, or
the regulator failed. It must go up when the average is too high or the reading too hot. At the alert it may go to step 4 at once. -/
def Mach.nextMeasure (m : Mach) (estimate asked : Nat) : Nat :=
  let up := Nat.min 4 (m.gov.measure + 1)
  let hot := m.hotBy (m.get IsTenCfg.thermMargin)
  let must := hot || decide (m.powerHold < m.get IsTenStat.power)
  let may := must || decide (m.powerHold < estimate) || m.pw.vrHold
  Nat.max (if must then up else 0) (Nat.min asked (if m.hotBy 0 then 4 else if may then up else m.gov.measure))

/-- The cause that cap_reason names: while a measure is applied a regulator fault, heat, or power; else a host cap that holds an island's code
below what ceiling and pattern clock allow (log entry 44). -/
def Mach.capReason (m : Mach) (measure : Nat) : Nat :=
  if measure = 0 then
    b2n ((List.range 264).any fun i =>
      !fixedClock i && decide (m.get (IsIslCfg.cap i) < Nat.min (m.isl (ix 264 i)).ceiling.toNat (m.isl (ix 264 i)).patClk.toNat)) * 4
  else if m.pw.vrHold then 3
  else if m.hotBy (m.get IsTenCfg.thermMargin) then 2
  else 1

/-- The estimates of the last 1 ms in IS_TEN_STAT. -/
def Mach.noteEstimate (m : Mach) (estimate : BitVec 10) : Mach :=
  let es := (estimate :: m.gov.estimates).take 100
  let sum := (es.map BitVec.toNat).foldl (· + ·) 0
  let m1 : Mach := { m with gov := { m.gov with estimates := es } }
  (m1.put IsTenStat.power (sum / es.length)).put IsTenStat.peak ((es.map BitVec.toNat).foldl Nat.max 0)

/-- The status of a measure: `capped` in both registers, and its reason. -/
def Mach.noteMeasure (m : Mach) (measure : Nat) : Mach :=
  let capped := b2n (measure != 0)
  let m1 := ((m.put GlStatus.tensionCapped capped).put IsStatus.capped capped).put IsStatus.capReason (m.capReason measure)
  { m1 with gov := { m1.gov with measure := measure } }

/-- Apply a measure of R123: the row duty, the ceilings and the status. -/
def Mach.applyMeasure (m : Mach) (measure : Nat) : Mach :=
  let d := if measure = 0 then (255, m) else m.freshBelow 255
  let m1 := ((List.range 264).foldl (fun acc i => acc.governIsland measure i) (d.2.put IsTenStat.rowDuty d.1)).noteMeasure measure
  if measure = 4 then (m1.flag IsStatus.expressHit).record Flt.tensionExpress (srcIsl 240) [] else m1

/-- The hold of R137 ends with the first interval whose average is not above the limit (log entry 44). -/
def Mach.easeFloor (m : Mach) : Mach :=
  { m with gov := { m.gov with floor := m.gov.floor && decide (m.get IsTenCfg.limit < m.get IsTenStat.power) } }

/-- GOVERNOR_INTERVAL: the end of a 10 us interval of the TB grid, with the estimate made and the measure chosen in it. -/
def Mach.governorInterval (m : Mach) (estimate : BitVec 10) (asked : Nat) : Mach :=
  let m1 := m.advanceTo (nextMultiple m.now 9600)
  if !m1.on IsStatus.active then m1
  else
    let m2 := (m1.noteEstimate estimate).easeFloor
    let m3 := m2.applyMeasure (if m2.gov.floor then 4 else m2.nextMeasure estimate.toNat asked)
    ({ m3 with gov := { m3.gov with lastEnd := m3.now } } : Mach).applyCodes

def execGovernorInterval (estimate : BitVec 10) (measure : Fin 5) (s : State) : Host.Outcome State Fault Refusal :=
  s.onTime fun m => m.governorInterval estimate measure.val

/-- Has every step been applied, with every scheduled island at the floor, and has each estimate of the last 1 ms exceeded the limit (R137)? -/
def Mach.floorDue (m : Mach) : Bool :=
  m.on IsStatus.active && m.gov.measure == 4 && m.gov.estimates.length == 100 &&
  (m.gov.estimates.all fun e => decide (m.get IsTenCfg.limit < e.toNat)) &&
  (List.finRange 264).all fun i => !m.scheduled i || decide ((m.isl i).code.toNat ≤ floorCode)

/-- TENSION_FLOOR: every island is held at the floor; the codes follow at the end of the interval (R130, R137). -/
def Mach.tensionFloor (m : Mach) : Mach :=
  if !m.floorDue then m
  else
    let m1 := (m.flag IsStatus.floorHit).record Flt.tensionFloor (srcIsl 240) []
    { m1 with islands := m1.islands.map (fun x => { x with ceiling := BitVec.ofNat 8 floorCode }), gov := { m1.gov with floor := true } }

def execTensionFloor (s : State) : Host.Outcome State Fault Refusal := s.onM Mach.tensionFloor

/-- The governor stops (RETENTION): nothing is capped. -/
def Mach.stopGovernor (m : Mach) : Mach :=
  let m1 : Mach := { m with gov := { m.gov with estimates := [], measure := 0, floor := false }
                            islands := m.islands.map fun x => { x with ceiling := 180 } }
  (((m1.put IsStatus.active 0).put GlStatus.tensionCapped 0).put IsStatus.capped 0).put IsStatus.capReason 0

/-! ## PMBus (R34, R62) -/

/-- The last commanded VOUT code: as read at step 4 until the first write. -/
def Mach.voutNow (m : Mach) : Nat := let c := m.get GlVrStat.voutCode; if c = 0 then m.pw.vrConfirmed.toNat else c

/-- Codes within 10 mV. -/
def Power.stepCodes (p : Power) : Nat := 10 * 2 ^ p.vrBits / 1000

/-- The next VOUT_COMMAND code: at most 10 mV from the last towards the target. -/
def Mach.nextVout (m : Mach) : Nat :=
  let c := m.voutNow
  let t := m.pw.vrTarget.toNat
  if c < t then Nat.min t (c + m.pw.stepCodes) else Nat.max t (c - m.pw.stepCodes)

/-- Do two VOUT codes differ by more than 15 mV? -/
def Power.differs (p : Power) (a b : Nat) : Bool := decide (15000 < p.volts a - p.volts b ∨ 15000 < p.volts b - p.volts a)

/-- VOUT_COMMAND_WRITE: one write towards the target; READ_VOUT is compared once the target is commanded. -/
def Mach.voutCommandWrite (m : Mach) (acked : Bool) (readVout : Nat) : Mach :=
  if m.pw.fixedSupply ∨ m.phase = phReset then m
  else if !acked then
    (({ m with pw := { m.pw with vrHold := true } } : Mach).bump GlVrStat.nackCount).record Flt.vrNack (srcIsl 240) []
  else
    let c := m.nextVout
    let m1 := m.put GlVrStat.voutCode c
    let bad := decide (c = m.pw.vrTarget.toNat) && m.pw.differs c readVout
    let m2 : Mach := { m1 with pw := { m1.pw with vrHold := false, vout := BitVec.ofNat 16 readVout, vrConfirmed := BitVec.ofNat 16 (if bad then Nat.min c readVout else c) } }
    if bad then m2.record Flt.vrMismatch (srcIsl 240) [] else m2

def execVoutCommandWrite (acked : Bool) (readVout : BitVec 16) (s : State) : Host.Outcome State Fault Refusal :=
  s.onM fun m => m.voutCommandWrite acked readVout.toNat

/-- VR_ALERT: STATUS_WORD is read and logged; a read that is not acknowledged is VR_NACK. -/
def Mach.vrAlert (m : Mach) (acked : Bool) (statusWord : Nat) : Mach :=
  if m.pw.fixedSupply ∨ m.phase = phReset then m
  else if acked then m.record Flt.vrAlert (srcIsl 240) [statusWord]
  else (({ m with pw := { m.pw with vrHold := true } } : Mach).bump GlVrStat.nackCount).record Flt.vrNack (srcIsl 240) []

def execVrAlert (acked : Bool) (statusWord : BitVec 16) (s : State) : Host.Outcome State Fault Refusal :=
  s.onM fun m => m.vrAlert acked statusWord.toNat

/-- DROOP_EVENT: counted at the island; a stopped island has no period to stretch (R113). -/
def Mach.droop (m : Mach) (i : Fin 264) : Mach :=
  if (m.isl i).stopped ∨ m.phase = phReset then m else m.bump (IsIslDroop.count i)

def execDroopEvent (isl : Fin 264) (s : State) : Host.Outcome State Fault Refusal := s.onM fun m => m.droop isl

end Sys2Proof.Machine
end

