-- ==== Sys2Proof/Machine/Gauges.lean ====
section
/-! DEFINITION. Gauge dumps: DUMP_NOW, DUMP_COMPLETE and the periodic tick, and GAUGE_CLEAR (14_gauges_long_run.md R432-R441, R447-R449). -/

namespace Sys2Proof.Machine

/-- The two dump buffers (R439). -/
def dumpBuffer (n : Nat) : Nat := if n = 0 then 0x1DE800 else 0x1DEC00
def dumpBytes : Nat := 712

/-- Is a gauge block in service (R448)? -/
def Mach.gaugeUp (m : Mach) (b : Fin 5) : Bool := if h : b.val < 4 then m.up (tileFn ⟨b.val, h⟩) else true

/-- One block's record (Table GA-3). -/
def Mach.blockRecord (m : Mach) (b : Fin 5) : List Byte :=
  let g := vget m.gauges b
  ((List.range 8).flatMap fun c => leBytes 6 (vget g.counts (ix 8 c)).toNat ++ leBytes 2 (vget g.ovfs (ix 8 c)).toNat) ++
  ((List.range 8).flatMap fun c => leBytes 4 (m.reg (GaCfg.reg b c)).toNat) ++ leBytes 8 m.now ++
  ((List.range 4).flatMap fun p => leBytes 4 (vget g.flits (ix 4 p)).toNat) ++
  leBytes 1 (m.get (GaStatus.ovf b)) ++ leBytes 1 (m.get (GaStatus.thr b)) ++ List.replicate 6 0

/-- The dump of this tick (Table GA-2). -/
def Mach.dumpImage (m : Mach) (demand : Bool) : List Byte :=
  let bit := fun (f : Fin 5 → Bool) => (List.range 5).foldl (fun acc b => if f (ix 5 b) then acc + 2 ^ b else acc) 0
  leBytes 4 m.dumpSeq.toNat ++ leBytes 1 (b2n demand) ++ leBytes 1 (bit m.gaugeUp) ++
  leBytes 1 (bit fun b => m.gaugeUp b && (vget m.gauges b).wasReset) ++ leBytes 1 0 ++ leBytes 8 m.now ++ leBytes 4 m.rowCount ++
  List.replicate 44 0 ++
  ((List.range 5).flatMap fun b => if m.gaugeUp (ix 5 b) then m.blockRecord (ix 5 b) else List.replicate 128 0) ++
  leBytes 4 m.dumpSeq.toNat ++ leBytes 4 0

/-- A dump tick: latch every block in service, or count the tick as skipped (R439, R447). -/
def Mach.dumpTick (m : Mach) (demand : Bool) : Mach :=
  if m.dump.isSome then m.bump GaDumpStat.skipped
  else
    { m with
      dump := some { bytes := m.dumpImage demand, tick := m.tb }, dumpSeq := m.dumpSeq + 1
      gauges := Vector.ofFn fun b => if m.gaugeUp b then { vget m.gauges b with wasReset := false } else vget m.gauges b }

/-- The periodic tick at the boundary of the present row (R440). -/
def Mach.periodicDump (m : Mach) : Mach :=
  let p := m.get GaDumpCtl.period
  if p ≠ 0 ∧ m.rowCount % p = 0 then m.dumpTick false else m

/-- May a path reach the hub gauge? -/
def Mach.gaOpen (m : Mach) (p : Path) (b : Fin 5) : Bool := m.pathUp p && m.reaches (gaugeRegs b)

def execDumpNow (p : Path) (s : State) : Host.Outcome State Fault Refusal := s.onM fun m => if m.gaOpen p hubGauge then m.dumpTick true else m

/-- DUMP_COMPLETE: the buffer is written, becomes the readable one, and COUNTER_DUMP is framed when enabled (R441). -/
def Mach.dumpComplete (m : Mach) : Mach :=
  match m.dump with
  | none => m
  | some d =>
    let n := 1 - m.get GaDumpStat.readable
    let m1 := (({ m with dump := none } : Mach).hubWrite (dumpBuffer n) d.bytes).put GaDumpStat.readable n
    if m1.on GaDumpCtl.msg then m1.frame 8 0xFF 4 d.tick d.bytes m1.sysDest else m1

def execDumpComplete (s : State) : Host.Outcome State Fault Refusal := s.onM Mach.dumpComplete

/-- GAUGE_CLEAR (R449). -/
def execGaugeClear (p : Path) (block : Fin 5) (s : State) : Host.Outcome State Fault Refusal :=
  s.onM fun m => if m.gaOpen p block then m.gaugeZero block else m

end Sys2Proof.Machine
end

