-- ==== Sys2Proof/Machine/Image.lean ====
section
/-! DEFINITION. The pattern image (03_cast_on.md): headers and record tables, the check-only rule R84, the conditions of R76, the placement
of models, the loading of each record type, the residency check and the signature. -/

namespace Sys2Proof.Machine

/-! ## Headers and tables (Tables CO-3, CO-4) -/

structure ImgHdr where
  raw : List Byte
  generation : Nat
  length : Nat
  copyB : Nat
  count : Nat
  signed : Bool
  period : Nat
  minStep : Nat
  limit : Nat
  layout : List Byte
  tableCrc : Nat
  crc : Nat
deriving DecidableEq, Repr

def leAt (bs : List Byte) (off n : Nat) : Nat := leNat ((bs.drop off).take n)

def imgMagic : Nat := 0x53565452
def imgCommit : Nat := 0x53564F4B

def imgHdr (bs : List Byte) : ImgHdr :=
  { raw := bs.take 0xF8, generation := leAt bs 8 4, length := leAt bs 0xC 4, copyB := leAt bs 0x10 4, count := leAt bs 0x14 2,
    signed := leAt bs 0x16 1 % 2 == 1, period := leAt bs 0x18 2, minStep := leAt bs 0x1A 1, limit := leAt bs 0x1C 2,
    layout := (bs.drop 0x40).take 16, tableCrc := leAt bs 0xF4 4, crc := leAt bs 0xF8 4 }

/-- Does it carry the magic and the version? -/
def isHdr (bs : List Byte) : Bool := leAt bs 0 4 == imgMagic && leAt bs 4 2 == 1

def recEntry (bs : List Byte) : RecEntry :=
  { type := leAt bs 0 2, id := leAt bs 2 2, offset := leAt bs 4 4, length := leAt bs 8 4, dest := leAt bs 0xC 4, param := leAt bs 0x10 4,
    flags := leAt bs 0x14 2, crc := leAt bs 0x1C 4 }

def recTable (n : Nat) (bs : List Byte) : List RecEntry := (List.range n).map fun i => recEntry ((bs.drop (32 * i)).take 32)

def crcOk (bs : List Byte) (crc : Nat) : Bool := (crc32c bs).toNat == crc

/-! ## The check-only rule (R84) -/

/-- The first reading of n bytes; a weak byte reads wrong once. -/
def Mach.firstRead (m : Mach) (a n : Nat) : List Byte × Mach :=
  (List.zipWith (fun b w => b ^^^ w) (m.flashRead a n) (Memory.read zeroByte m.flash.weak a n),
   { m with flash := { m.flash with weak := m.flash.weak.filter fun e => !(a ≤ e.1 && e.1 < a + n) } })

/-- What a checked reading gives: the data unless corrupt, whether a re-read or the other copy was needed, and the state. -/
structure Checked where
  data : Option (List Byte)
  rescued : Bool
  m : Mach

/-- Read an item under R84. `other`: the same item of the other copy when its own CRC matches; `corrupt` logs the corruption. -/
def Mach.readChecked (m : Mach) (a n crc : Nat) (other : Option (List Byte)) (corrupt : Mach → Mach) : Checked :=
  let r := m.firstRead a n
  if crcOk r.1 crc then ⟨some r.1, false, r.2⟩
  else
    let again := r.2.flashRead a n
    if crcOk again crc then ⟨some again, true, r.2.record Flt.nvmReread {} []⟩
    else if other = some r.1 then ⟨some r.1, true, r.2.record Flt.checkOnly {} []⟩
    else ⟨none, false, corrupt r.2⟩

def copyNo (b : Bool) : Nat := b2n b

/-- The other copy's header when its CRC matches. -/
def Mach.plainHeader (m : Mach) (base : Option Nat) : Option ImgHdr :=
  match base with
  | none => none
  | some b => let h := imgHdr (m.flashRead b 256); if crcOk h.raw h.crc then some h else none

/-- The bytes of the other copy's record table when header and table match their CRCs. -/
def Mach.tableBytes (m : Mach) (base : Option Nat) : Option (List Byte) :=
  match base, m.plainHeader base with
  | some b, some h => let bs := m.flashRead (b + 0x100) (32 * h.count); if crcOk bs h.tableCrc then some bs else none
  | _, _ => none

/-- The other copy's record table when header and table match their CRCs. -/
def Mach.plainTable (m : Mach) (base : Option Nat) : Option (List RecEntry) :=
  match m.plainHeader base, m.tableBytes base with
  | some h, some bs => some (recTable h.count bs)
  | _, _ => none

/-- The other copy's data of a record with the same (type, id) and length, when its own CRC matches. -/
def Mach.plainRecord (m : Mach) (base : Option Nat) (r : RecEntry) : Option (List Byte) :=
  match base, m.plainTable base with
  | some b, some rs =>
    match rs.find? fun x => x.type == r.type && x.id == r.id && x.length == r.length with
    | some x => let bs := m.flashRead (b + x.offset) x.length; if crcOk bs x.crc then some bs else none
    | none => none
  | _, _ => none

/-- A copy's header under R84: the header when its CRC holds or is accepted and it carries the magic and the version. -/
def Mach.readHeader (m : Mach) (copy : Bool) (base : Nat) (other : Option Nat) : Option ImgHdr × Bool × Mach :=
  let bs := m.flashRead base 256
  let r := m.readChecked base 0xF8 (imgHdr bs).crc ((m.plainHeader other).map ImgHdr.raw) fun m => m.record Flt.headerInvalid {} [0, copyNo copy]
  (r.data.bind fun d => if isHdr d then some (imgHdr (d ++ bs.drop 0xF8)) else none, r.rescued, r.m)

/-- A copy's record table under R84. -/
def Mach.readTable (m : Mach) (copy : Bool) (base : Nat) (other : Option Nat) (h : ImgHdr) : Checked :=
  m.readChecked (base + 0x100) (32 * h.count) h.tableCrc (m.tableBytes other) fun m => m.record Flt.recordCorrupt {} [0xFFFFFFFF, copyNo copy]

/-- A record's data under R84. -/
def Mach.readRecord (m : Mach) (copy : Bool) (base : Nat) (other : Option Nat) (r : RecEntry) : Checked :=
  m.readChecked (base + r.offset) r.length r.crc (m.plainRecord other r) fun m => m.record Flt.recordCorrupt {} [r.type * 65536 + r.id, copyNo copy]

/-- Does the header meet what R76 asks of it? -/
def Mach.headerOk (m : Mach) (h : ImgHdr) (base : Nat) : Bool :=
  m.flashNat (base + 0xFC) 4 == imgCommit && h.generation != 0 && h.generation != 0xFFFFFFFF && decide (h.minStep ≤ 0x21) &&
  decide (1 ≤ h.count ∧ h.count ≤ 2048 ∧ 1 ≤ h.period ∧ h.period ≤ 16 ∧ 0x100 + 32 * h.count ≤ h.length ∧ base + h.length ≤ m.llBase)

/-- Copy B's base as a header or the lifeline names it (R74): 0, or a base that breaks R74, names no copy B. -/
def Mach.namedBase (m : Mach) (b : Nat) : Option Nat := if b ≠ 0 ∧ b % 0x10000 = 0 ∧ b < m.llBase then some b else none

/-- The base of R75 without copy A's header. -/
def Mach.fallbackBase (m : Mach) : Option Nat :=
  match m.llGet 1 with
  | some bs => m.namedBase (leAt bs 0 4)
  | none => m.namedBase (m.llBase / 2 / 0x10000 * 0x10000)

/-- Where copy B lies, by the copy A header that was read (R75). -/
def Mach.baseOfB (m : Mach) (a : Option ImgHdr) : Option Nat :=
  match a with | some h => m.namedBase h.copyB | none => m.fallbackBase

/-! ## The record table (R76, R80) -/

/-- Log a malformed image. -/
def Mach.malformed (m : Mach) : Mach := m.record Flt.imageMalformed {} []

def recRange (r : RecEntry) : Nat × Nat := (r.offset, r.offset + r.length)

/-- Does a sorted list of ranges overlap nowhere? -/
def apart : List (Nat × Nat) → Bool
  | [] => true
  | r :: rs => rs.all (fun x => !overlaps r x) && apart rs

/-- What R76 asks of the records: inside the image, aligned, apart from each other and from header and table. -/
def recordsApart (h : ImgHdr) (rs : List RecEntry) : Bool :=
  (rs.all fun r => r.offset % 64 == 0 && decide (r.offset + r.length ≤ h.length)) && apart ((0, 0x100 + 32 * h.count) :: rs.map recRange)

/-- R76's records, no (type, id) twice, and known or skippable types (R80). -/
def tableOkay (h : ImgHdr) (rs : List RecEntry) : Bool :=
  recordsApart h rs && (rs.all fun r => decide (1 ≤ r.type ∧ r.type ≤ 14) || r.flags % 2 == 1) &&
  (rs.map fun r => (r.type, r.id)).eraseDups.length == rs.length

/-- Do a copy's records meet R76? A table whose CRC does not hold as it stands shows no records to judge; step 10 reads it under R84 and
judges it then (log entry 40). -/
def Mach.recordsOk (m : Mach) (h : ImgHdr) (base : Nat) : Bool :=
  let bs := m.flashRead (base + 0x100) (32 * h.count)
  !crcOk bs h.tableCrc || recordsApart h (recTable h.count bs)

/-- A tile's layout bytes: `none` breaks R143. -/
def tileLayout (bs : List Byte) : Option (Bool × Nat × Nat) :=
  let v := bs.map BitVec.toNat
  if v.all (· == 0) then some (false, 24, 30)
  else if v.getD 0 0 = 1 then some (true, v.getD 1 0 % 32, v.getD 2 0 % 32)
  else if v.getD 0 0 = 0 ∧ 1 ≤ v.getD 1 0 ∧ v.getD 1 0 < v.getD 2 0 ∧ v.getD 2 0 ≤ 31 then some (false, v.getD 1 0, v.getD 2 0)
  else none

def layouts (h : ImgHdr) : List (Option (Bool × Nat × Nat)) := (List.range 4).map fun t => tileLayout ((h.layout.drop (4 * t)).take 4)

/-- Give a tile its layout (unified, first bank of A, first bank of P); the register shows it (R145, Table SP-6). -/
def Mach.setLayout (m : Mach) (t : Fin 4) (l : Bool × Nat × Nat) : Mach :=
  let m1 := m.modSp t fun x => { x with unified := l.1, aFirst := l.2.1, pFirst := l.2.2 }
  ((m1.put (SpLayout.mode t) (b2n l.1)).put (SpLayout.aFirst t) l.2.1).put (SpLayout.pFirst t) l.2.2

/-- Every tile takes the default layout: before step 10, and in FAILED while no copy has loaded (R143, R145). -/
def Mach.defaultLayouts (m : Mach) : Mach := (List.range 4).foldl (fun acc t => acc.setLayout (ix 4 t) (false, 24, 30)) m

/-- Give the tiles the layouts of a header. -/
def Mach.applyLayouts (m : Mach) (h : ImgHdr) : Mach :=
  (List.range 4).foldl (fun acc t =>
    match (layouts h).getD t none with
    | some l => acc.setLayout (ix 4 t) l
    | none => acc) m

/-! ## Models (R85, R86, R276, R284) -/

structure ModelRec where
  id : Nat
  policy : Nat
  resident : List Nat
  overhang : List Nat
deriving DecidableEq, Repr

def modelRec (bs : List Byte) : ModelRec :=
  { id := leAt bs 0 2, policy := leAt bs 2 1, resident := (List.range 4).map fun t => leAt bs (4 + 4 * t) 4,
    overhang := (List.range 4).map fun t => leAt bs (0x14 + 4 * t) 4 }

def modelRecs (bs : List Byte) : List ModelRec := (List.range (bs.length / 36)).map fun i => modelRec ((bs.drop (36 * i)).take 36)

/-- Insert by rising id; of two entries of one id the first counts. -/
def insertModel (x : ModelRec) : List ModelRec → List ModelRec
  | [] => [x]
  | y :: ys => if x.id < y.id then x :: y :: ys else if x.id = y.id then y :: ys else y :: insertModel x ys

/-- The models of the image, ascending. -/
def Mach.imageModels (m : Mach) (base : Nat) (rs : List RecEntry) : List ModelRec :=
  ((rs.filter fun r => r.type == 5 && r.length % 36 == 0).flatMap fun r => modelRecs (m.flashRead (base + r.offset) r.length)).foldl
    (fun acc x => insertModel x acc) []

/-- The window block of the image (R276): per tile the first half's offset when enabled. -/
def Mach.imageWindow (m : Mach) (base : Nat) (rs : List RecEntry) : List (Option Nat) :=
  match rs.find? fun r => r.type == 7 && r.length == 0x1990 with
  | none => List.replicate 4 none
  | some r => (List.range 4).map fun t =>
    let w := m.flashNat (base + r.offset + 0x1980 + 4 * t) 4
    if w / 2 ^ 31 = 1 then some (w % 256 * bankBytes) else none

/-- Region code of the resident weights of a tile. -/
def Mach.weightRegion (m : Mach) (t : Nat) : Nat := if (m.tile (ix 4 t)).sp.unified then 3 else 0
def Mach.weightBytes (m : Mach) (t : Nat) : Nat :=
  match (m.tile (ix 4 t)).sp.region (m.weightRegion t) with | some (_, k) => k * bankBytes | none => 0

/-- Does a model's WEIGHTS record name a byte of an enabled window half? -/
def weightsInWindow (rs : List RecEntry) (win : List (Option Nat)) (id : Nat) : Bool :=
  rs.any fun r => r.type == 4 && r.param == id &&
    (match win.getD (r.dest / 2 ^ 30) none with
     | some w => overlaps (r.dest % 2 ^ 30, r.dest % 2 ^ 30 + r.length) (w, w + 2 * bankBytes)
     | none => false)

/-- Bytes already taken by placed models in tile t. -/
def takenBytes (ps : List Placed) (t : Nat) : Nat := (ps.map fun p => p.resident.getD t 0).foldl (· + ·) 0
/-- The next overhang area of tile t (log entry 41). -/
def nextArea (ps : List Placed) (t : Nat) : Nat := (ps.map fun p => roundUp ((p.overhang.getD t (0, 0)).2) 256).foldl (· + ·) 0

/-- Can a model be placed beside those placed so far? -/
def Mach.placeable (m : Mach) (rs : List RecEntry) (win : List (Option Nat)) (ps : List Placed) (x : ModelRec) : Bool :=
  ((List.range 4).all fun t =>
    decide (x.resident.getD t 0 + takenBytes ps t + (if (win.getD t none).isSome then 2 * bankBytes else 0) ≤ m.weightBytes t)) &&
  (if x.policy = 1 then m.stashPresent && (List.range 4).all fun t => decide (4 * x.overhang.getD t 0 ≤ x.resident.getD t 0)
   else x.policy == 0 && x.overhang.all (· == 0)) &&
  !weightsInWindow rs win x.id

/-- Placed models, and the refused ones, of an image (R85, R86). -/
def Mach.placement (m : Mach) (base : Nat) (rs : List RecEntry) : List Placed × List Nat :=
  let win := m.imageWindow base rs
  (m.imageModels base rs).foldl (fun acc x =>
    if m.placeable rs win acc.1 x then
      (acc.1 ++ [{ model := x.id, resident := x.resident, overhang := (List.range 4).map fun t => (nextArea acc.1 t, x.overhang.getD t 0) }], acc.2)
    else (acc.1, acc.2 ++ [x.id])) ([], [])

/-! ## Loading records (Table CO-5) -/

/-- Pairs of 32-bit words. -/
def wordPairs : Nat → List Byte → List (Nat × Word)
  | 0, _ => []
  | n + 1, bs => (leAt bs 0 4, BitVec.ofNat 32 (leAt bs 4 4)) :: wordPairs n (bs.drop 8)

/-- Write the pairs of a configuration record; one outside the range is not written and is logged (R80, R370, R405). -/
def Mach.writePairs (m : Mach) (ok : Nat → Bool) (base : Nat) (bs : List Byte) : Mach :=
  ((wordPairs (bs.length / 8) bs).foldl (fun acc p => if ok p.1 then acc.castWrite (base + p.1) p.2 else acc.malformed) m).dropStaging none

/-- The writes of a REG_LIST to the tile blocks, which a tile's REJOIN repeats (R200, R227). -/
def Mach.noteRegList (m : Mach) (bs : List Byte) : Mach :=
  { m with cast := { m.cast with regWrites := m.cast.regWrites ++ (wordPairs (bs.length / 8) bs).filter fun p => decide (0x100000 ≤ p.1 ∧ p.1 < 0x500000) } }

/-- The blocks that a REG_LIST may write. -/
def regListOk (a : Nat) : Bool :=
  decide (0x600000 ≤ a ∧ a < 0x700000) || decide (0x780000 ≤ a ∧ a < 0x800000) || decide (0x500000 ≤ a ∧ a < 0x600000) ||
  decide (0x20000 ≤ a ∧ a < 0x30000) || decide (0x100000 ≤ a ∧ a < 0x500000)

/-- The chunks of a DZA_CONFIG record; `none` breaks R341. -/
def dzChunks : Nat → List Byte → Option (List (Nat × List Byte))
  | 0, bs => if bs.isEmpty then some [] else none
  | fuel + 1, bs =>
    if bs.isEmpty then some []
    else
      let n := leAt bs 4 4
      let rest := bs.drop 8
      if bs.length < 8 ∨ n % 4 ≠ 0 ∨ rest.length < roundUp n 8 ∨ dzMemBytes < leAt bs 0 4 + n then none
      else (dzChunks fuel (rest.drop (roundUp n 8))).map fun cs => (leAt bs 0 4, rest.take n) :: cs
where dzMemBytes : Nat := 10 * 0x80000

/-- Destination of a WEIGHTS record. -/
def Mach.weightsLoc (m : Mach) (r : RecEntry) : Option SpLoc :=
  let t := r.dest / 2 ^ 30
  match (m.tile (ix 4 t)).sp.region (m.weightRegion t) with
  | some (f, k) => if r.dest % 2 ^ 30 + r.length ≤ k * bankBytes then some ⟨ix 4 t, m.weightRegion t, f, k, r.dest % 2 ^ 30⟩ else none
  | none => none

/-- DMEM offset of a TC_DATA record: a core address, or below it an offset (log entry 42). -/
def dataOffset (param : Nat) : Nat := if dmemBase ≤ param then param - dmemBase else param

/-- Stash address of an OVERHANG record; the record must stay in its tile's 16 MiB. -/
def Mach.overhangAt (m : Mach) (r : RecEntry) : Option Nat :=
  (m.modelArea r.param (r.dest / 2 ^ 30)).map fun a => a.1 + r.dest % 2 ^ 30

/-- Is a record's form the one its type asks for? -/
def Mach.recordForm (m : Mach) (r : RecEntry) (bs : List Byte) : Bool :=
  match r.type with
  | 1 => decide (r.param * 4096 + r.length ≤ sdmBytes)
  | 2 => decide (r.dest ≤ 9 ∧ r.param % 4 = 0 ∧ r.param + r.length ≤ imemBytes)
  | 3 => decide (r.dest ≤ 9 ∧ dataOffset r.param + r.length ≤ dmemBytes)
  | 4 => (m.weightsLoc r).isSome
  | 5 => decide (0 < r.length ∧ r.length % 36 = 0)
  | 6 => decide (r.length = 3104 ∧ r.param ≤ 15)
  | 7 => decide (r.length = 0x1990)
  | 8 => (dzChunks (bs.length + 1) bs).isSome
  | 9 | 10 | 11 => decide (r.length % 8 = 0)
  | 14 => match m.overhangAt r with
    | some a => decide (a + r.length ≤ overhangArea (r.dest / 2 ^ 30) + 0x1000000)
    | none => true
  | _ => true

/-- Tiles of a bitmap. -/
def bitmapTiles (d : Nat) : List (Fin 4) := (List.range 4).filterMap fun t => if d.testBit t then some (ix 4 t) else none

def Mach.modSdm (m : Mach) (t : Fin 4) (f : EccMem → EccMem) : Mach := m.modTile t fun x => { x with sdm := f x.sdm }

/-- Write stash bytes block by block. -/
def Mach.stashFill (m : Mach) (a : Nat) (bs : List Byte) : Mach :=
  (List.range ((bs.length + 255) / 256)).foldl (fun acc k => acc.stashWrite (a + 256 * k) ((bs.drop (256 * k)).take 256)) m

/-- Configuration fields of the skein table: 0x02-0x13 of each entry, the slot table and the window block (R301, log entry 43). Of the flags the
device keeps overhang, which it set itself (R293). -/
def Mach.keepTable (m : Mach) (bs : List Byte) : Mach :=
  let m1 := (List.range 96).foldl (fun acc s => (acc.hubWrite (64 * s + 2) ((bs.drop (64 * s + 2)).take 18)).skSetFlag s 3 (m.skFlag s 3)) m
  m1.hubWrite 0x1800 (bs.drop 0x1800)

/-- Does a record's data belong to a model that is refused? -/
def refusedRec (refused : List Nat) (r : RecEntry) : Bool := (r.type == 4 || r.type == 14) && refused.contains r.param

/-- Store a record of correct form at its destination. `keep`: RECAST, which keeps the skeins' own fields. -/
def Mach.storeRecord (m : Mach) (keep : Bool) (r : RecEntry) (bs : List Byte) : Mach :=
  match r.type with
  | 1 => (bitmapTiles r.dest).foldl (fun acc t => acc.modSdm t fun x => x.write (r.param * 4096) bs) m
  | 2 => m.modCore (ix 10 r.dest) fun k => { k with imem := k.imem.write r.param bs, programmed := true, btb := [] }
  | 3 => m.modCore (ix 10 r.dest) fun k => { k with dmem := k.dmem.write (dataOffset r.param) bs }
  | 4 => match m.weightsLoc r with | some l => (m.locWrite l (bs.map fun b => some (b, false)) 0).2 | none => m
  | 6 => (bitmapTiles r.dest).foldl (fun acc t => acc.loadTable t r.param bs) m
  | 7 => if keep then m.keepTable bs else m.hubWrite 0 bs
  | 8 => match dzChunks (bs.length + 1) bs with
    | some cs => cs.foldl (fun acc c => acc.dzWrite c.1 (c.2.map some)) m
    | none => m
  | 9 => m.writePairs (fun a => decide (a < 0x1000)) 0x600000 bs
  | 10 => m.writePairs (fun a => decide (a < 0x1000)) 0x780000 bs
  | 11 => (m.writePairs regListOk 0 bs).noteRegList bs
  | 14 => match m.overhangAt r with | some a => m.stashFill a bs | none => m
  | _ => m

/-- Load one record: read under R84; a refused model's data is discarded (R86), any other is checked for its form and stored. -/
def Mach.loadRecord (m : Mach) (copy : Bool) (base : Nat) (other : Option Nat) (refused : List Nat) (keep : Bool) (r : RecEntry) : Checked :=
  let c := m.readRecord copy base other r
  match c.data with
  | none => c
  | some bs =>
    if refusedRec refused r then c
    else if !c.m.recordForm r bs then ⟨none, c.rescued, c.m.malformed⟩
    else ⟨some bs, c.rescued, c.m.storeRecord keep r bs⟩

/-! ## Residency (R90, R154) -/

/-- Record types that the residency check covers. -/
def resident (r : RecEntry) : Bool := r.type == 1 || r.type == 2 || r.type == 4 || r.type == 6 || r.type == 14

/-- A record's destination bytes, and whether a word among them is uncorrectable. -/
def Mach.destBytes (m : Mach) (r : RecEntry) : List Byte × Bool :=
  let mem := fun (x : EccMem) (a n : Nat) => (x.read a n, !(x.ues a n).isEmpty)
  let join := fun (l : List (List Byte × Bool)) => (l.flatMap Prod.fst, l.any Prod.snd)
  match r.type with
  | 1 => join ((bitmapTiles r.dest).map fun t => mem (m.tile t).sdm (r.param * 4096) r.length)
  | 2 => mem (m.core (ix 10 r.dest)).imem r.param r.length
  | 4 => match m.weightsLoc r with
    | some l => join ((l.lines m r.length).map fun e => mem (m.tile l.tile).sp.mem (64 * lineNo e.1 e.2.1 + e.2.2.1) (e.2.2.2 - e.2.2.1))
    | none => ([], false)
  | 6 => join ((bitmapTiles r.dest).map fun t => mem (m.tile t).ve.tables (tableBase r.param) r.length)
  | 14 => match m.overhangAt r with
    | some a => (m.stashRead a r.length, (blocksOf a r.length).any fun b => Tab.get crcGood m.stash.crc b == 2)
    | none => ([], false)
  | _ => ([], false)

/-- The residency CRCs of the running copy, at the end of step 11. -/
def Mach.residencyTable (m : Mach) (refused : List Nat) : List (Nat × Nat × Word) :=
  (m.cast.records.filter fun r => resident r && !refusedRec refused r).map fun r => (r.type, r.id, crc32c (m.destBytes r).1)

/-- The WEIGHTS records of the running copy whose data W holds. -/
def Mach.weightsInUse (m : Mach) (refused : List Nat) : List RecEntry := m.cast.records.filter fun r => r.type == 4 && !refusedRec refused r

/-- Does a record's destination no longer match its residency CRC, nor the CRC that a live update left for the region (log entry 86)? -/
def Mach.residencyBad (m : Mach) (r : RecEntry) : Bool :=
  let crcs := (m.cast.residency ++ m.cast.written).filter fun e => e.1 == r.type && e.2.1 == r.id
  let d := m.destBytes r
  !crcs.isEmpty && (d.2 || !crcs.any fun e => e.2.2 == crc32c d.1)

/-- The CRCs of the regions of the running copy in which two states differ, as the second holds them. -/
def Mach.newRegions (m after : Mach) : List (Nat × Nat × Word) :=
  (m.cast.records.filter fun r => resident r && (m.destBytes r).1 != (after.destBytes r).1).map fun r => (r.type, r.id, crc32c (after.destBytes r).1)

/-- The base of the running copy and of the other one. -/
def Mach.runningCopy (m : Mach) : Bool := m.on GlStatus.imageCopy
def Mach.otherBase (m : Mach) : Option Nat :=
  if m.runningCopy then some 0 else if m.get CoImgBBase.base = 0 then none else some (m.get CoImgBBase.base)

/-- Check a record's region and reload it from the running copy when it fails; `none` when the record itself is corrupt. -/
def Mach.residencyCheck (m : Mach) (r : RecEntry) : Bool × Mach :=
  if !m.residencyBad r then (true, m)
  else
    let m1 := m.record Flt.residencyFail {} []
    let c := m1.loadRecord m1.runningCopy m1.cast.base m1.otherBase [] true r
    (c.data.isSome, c.m)

/-! ## OVERHANG_REWRITE_END (R303) -/

/-- Write a model's OVERHANG records of the running copy back to its stash area, each read under R84; a corrupt one is logged and not used. -/
def Mach.rewriteOverhang (m : Mach) (model : Nat) : Mach :=
  (m.cast.records.filter fun r => r.type == 14 && r.param == model).foldl (fun acc r =>
    (acc.loadRecord acc.runningCopy acc.cast.base acc.otherBase [] true r).m) m

def Mach.overhangEnd (m : Mach) (model : Nat) : Mach :=
  if m.stash.rewriting.contains model then
    let m1 := m.rewriteOverhang model
    { m1 with stash := { m1.stash with rewriting := m1.stash.rewriting.filter (· != model) } }
  else m

def execOverhangRewriteEnd (model : BitVec 16) (s : State) : Host.Outcome State Fault Refusal := s.onM fun m => m.overhangEnd model.toNat

/-! ## The signature (R81, R82) -/

/-- The digest of the header, the table and every record's data but the SIGNATURE's. -/
def imageDigest (h : ImgHdr) (table : List Byte) (data : List (RecEntry × List Byte)) : Nat :=
  sha256 (h.raw ++ table ++ (data.filter fun x => x.1.type != 13).flatMap Prod.snd)

/-- Do the KEY and SIGNATURE records verify, with the OTP digest when the fuse is set? -/
def signatureOk (h : ImgHdr) (table : List Byte) (data : List (RecEntry × List Byte)) : Bool :=
  let keys := data.filter fun x => x.1.type == 12
  let sigs := data.filter fun x => x.1.type == 13
  match keys, sigs with
  | [k], [s] =>
    h.signed && k.2.length == 64 && s.2.length == 64 &&
    (!Config.sigRequired || BitVec.ofNat 256 (sha256 k.2) == Config.keyDigest) &&
    ecdsaOk (beNat (k.2.take 32)) (beNat (k.2.drop 32)) (imageDigest h table data) (beNat (s.2.take 32)) (beNat (s.2.drop 32))
  | _, _ => false

end Sys2Proof.Machine
end

