-- ==== Sys2Proof/Machine/CastOn.lean ====
section
/-! DEFINITION. Cast-on and re-cast (03_cast_on.md Tables CO-1 and CO-7; 02_package_supplies_clocks.md R63, R64): the seventeen steps, the
choice of an image copy, its loading, and the pattern's start. One call performs a whole sequence. -/

namespace Sys2Proof.Machine

/-! ## The step log (R109, Table CO-18) -/

/-- Entries in the log; a log_count of 31 also stands for a full log of 32. -/
def Mach.stepEntries (m : Mach) : Nat :=
  let n := m.get CoStatus.logCount
  if n = 31 ∧ m.reg (CoStepLog0.reg 31) ≠ 0 then 32 else n

def stDone : Nat := 0
def stSkipped : Nat := 1
def stFailed : Nat := 2
def stRescued : Nat := 3
/-- The copy byte of a step that no copy is involved in. -/
def noCopy : Nat := 0xFF

/-- An entry for the step in progress, which began at TB tick t0. -/
def Mach.endStep (m : Mach) (result copy t0 : Nat) : Mach :=
  let n := m.stepEntries
  if 32 ≤ n then m
  else
    let m1 := m.setReg (CoStepLog0.reg n) (BitVec.ofNat 32 (m.get CoStatus.step + copy * 256 + result * 65536))
    (m1.setReg (CoStepLog1.reg n) (BitVec.ofNat 32 (Nat.min ((m.now - t0) / 1024) 0xFFFFFFFF))).put CoStatus.logCount (Nat.min (n + 1) 31)

def us : Nat := 960
def ms : Nat := 960000

/-- Step n begins; it lasts at most `bound` ticks, how long is left open (log entry 45). -/
def Mach.beginStep (m : Mach) (n bound : Nat) : Mach := let r := (m.put CoStatus.step n).freshBelow (bound + 1); r.2.elapse r.1

/-- A step from its start to its log entry. -/
def Mach.step' (m : Mach) (n bound : Nat) (work : Mach → Mach) (result : Mach → Nat := fun _ => stDone) : Mach :=
  let m1 := work (m.beginStep n bound)
  m1.endStep (result m1) noCopy m.now

/-- A skipped step. -/
def Mach.skipStep (m : Mach) (n : Nat) (copy : Nat := noCopy) : Mach := (m.put CoStatus.step n).endStep stSkipped copy m.now

/-- Clear the step log and the outcome of the last sequence. -/
def Mach.clearSteps (m : Mach) : Mach :=
  ((((m.resetRegs 0x10100 0x10200).put CoStatus.logCount 0).put CoStatus.failCode 0).put CoStatus.fallback 0).put CoStatus.step 0

/-! ## What a reset keeps (R3, R57, R64, R104, R422, R430) -/

/-- Registers in VDD_AON that a cast-on does not reset (log entry 47). -/
def keptReg (a : Nat) : Bool :=
  a == GlStrap.reg || a == GlResetCause.reg || a == GlTherm.reg || a == GlVrCtl.reg || a == GlClkstat.reg || a == GlPstateCtl.reg || a == CoCtl.reg ||
  a == CoNvmCtl.reg || a == CoNvmAddr.reg || a == CoNvmStat.reg || a == CoLlCtl.reg || a == CoLlStat.reg || a == CoLlCfg.reg ||
  a == CoLlWear.reg || a == CoStatus.reg || a == FrWdogCfg.reg || a == FrSwCfg.reg || a == FrStatus.reg || a == FrFrogLast.reg ||
  a == FrEscStat.reg || a == FrFaultSeq.reg || a == GaLogLost.reg

/-- The machine with everything outside VDD_AON, the flash and the host's memory at its reset state: the state in phase RESET and after
step 1 of a cast-on. The stash die's cells keep what they hold (log entry 2). -/
def Mach.bare (m0 : Mach) (phase : Nat) : Mach :=
  let m := m0.abortNvm false
  let m1 : Mach :=
    { Mach.reset with
      free := m.free, linkEpoch := m.linkEpoch + 1, issue := m.issue, tb := m.tb, tbOn := m.tbOn
      regs := m.regs.filter fun e => keptReg e.1
      pw := { m.pw with tempsValid := 0, vrHold := false, fixedSupply := false, trans := .none,
                        vrTarget := m.pw.vrConfirmed }
      flash := m.flash, stash := { Stash.reset with mem := m.stash.mem, crc := m.stash.crc }
      host := { HostSide.reset with mem := m.host.mem, msix := m.host.msix, errSent := m.host.errSent }
      frc := { Frc.reset with pend := m.frc.pend, buffer := if m.frc.buffering then m.frc.buffer else [], escTimes := m.frc.escTimes,
                              recent := m.frc.recent } }
  let m2 := if m.frc.buffering then m1 else m1.put GaLogLost.count 0
  ((m2.setPhase phase).put FrStatus.pendLost 0).put FrEscStat.recasts 0

/-- Number held records afresh from 0. -/
def renumber (rs : List (List Word)) : List (List Word) := (List.range rs.length).map fun i => (rs.getD i []).set 4 (BitVec.ofNat 32 i)

/-- The islands on VDD_AON: their clock is fixed at 240 MHz, code 8, and no reset stops it (R45, R112). -/
def islandStart (i : Nat) : BitVec 8 := if fixedClock i then 8 else 40

/-- Entry to phase RESET (R45, R55, R57). -/
def Mach.enterReset (m : Mach) : Mach :=
  { m.bare phReset with islands := Vector.ofFn fun i => { m.isl i with stopped := !fixedClock i.val, code := islandStart i.val } }

/-- Step 1: straps sampled, the target reset, held records renumbered, the pending queue emptied. -/
def Mach.castReset (m : Mach) : Mach :=
  let m1 := (m.bare phCasting).clearSteps
  let m2 := ((m1.put GlPstateCtl.target 0).put CoStatus.busy 0).put GlStrap.strap m.pw.straps.toNat
  let held := renumber m2.frc.buffer
  ({ m2 with frc := { m2.frc with buffer := held, pend := [] } } : Mach).setReg FrFaultSeq.reg (BitVec.ofNat 32 held.length)

def Mach.strap (m : Mach) (n : Nat) : Bool := (m.reg GlStrap.reg).getLsbD n

/-! ## Steps 2 to 8 of a cast-on -/

/-- Step 4 (R33, R63): VOUT_MODE and READ_VOUT from the regulator at the address that takes effect now, or a fixed supply. -/
def Mach.readRegulator (m0 : Mach) : Mach :=
  let m : Mach := { m0 with pw := { m0.pw with vrAddr := BitVec.ofNat 7 (m0.get GlVrCtl.addr) } }
  let fixed := fun (x : Mach) => ({ x with pw := { x.pw with fixedSupply := true } } : Mach).put GlVrCtl.adaptive 0
  if m.strap 3 then fixed m
  else if !m.pw.vrAnswers || m.pw.vrAddr != m.pw.vrBoard then fixed ((m.bump GlVrStat.nackCount).record Flt.vrNack (srcIsl 240) [])
  else if -12 ≤ m.pw.vrExp.toInt ∧ m.pw.vrExp.toInt ≤ -8 then
    ({ m with pw := { m.pw with vrConfirmed := m.pw.vout, vrTarget := m.pw.vout } } : Mach).put GlVrCtl.adaptive 1
      |>.put GlVrStat.exponent m.pw.vrExp.toNat
  else fixed (m.record Flt.vrMode (srcIsl 240) [])

/-- The hottest valid sensor, the lowest index on ties (Table PB-23). -/
def Mach.hottest (m : Mach) : Option (Nat × Int) :=
  (List.range 16).foldl (fun acc i =>
    if !m.pw.tempsValid.getLsbD i then acc
    else
      let t := (vget m.pw.temps (ix 16 i)).toInt
      match acc with
      | none => some (i, t)
      | some b => if b.2 < t then some (i, t) else acc) none

/-- 115 degrees in quarter degrees. -/
def tripTemp : Int := 460

/-- GL_TEMP after readings, and alert_hit when the given reading is at or above the alert threshold (R44). -/
def Mach.noteTemp (m : Mach) (t : Int) : Mach :=
  let m1 := match m.hottest with
    | some (k, t) => ((m.put GlTemp.temp (wrap 11 t)).put GlTemp.sensor k).flag GlTemp.valid
    | none => m
  if 4 * (m1.get GlTherm.alert : Int) ≤ t then (m1.flag GlTherm.alertHit).alertEdge m1.hostAlert else m1

/-- The sensors start: each reads the temperature it meets (R63, log entry 3). -/
def Mach.startSensors (m : Mach) : Mach :=
  let m1 : Mach := { m with pw := { m.pw with tempsValid := 0xFFFF } }
  match m1.hottest with | some (_, t) => m1.noteTemp t | none => m1

/-- A sensor reads 115 degrees or more: clocks stop, THERMTRIP_N is low, phase RESET (R45). -/
def Mach.thermalTrip (m : Mach) : Mach :=
  let m1 := m.enterReset.flag GlResetCause.thermtrip
  { m1 with pw := { m1.pw with thermtrip := true } }

/-- Does a running sensor read 115 degrees or more? -/
def Mach.overheated (m : Mach) : Bool := match m.hottest with | some (_, t) => decide (tripTemp ≤ t) | none => false

/-- The end of buffering: held records go into the log ring (R430). -/
def Mach.endBuffering (m : Mach) : Mach :=
  let held := m.frc.buffer
  held.foldl Mach.logToRing { m with frc := { m.frc with buffering := false, buffer := [] } }

/-- Step 7: the stash die trains; STATE shows it (R23, R106). -/
def Mach.trainStash (m : Mach) : Mach :=
  let ok := m.pw.stashTrains
  (({ m with stash := { m.stash with trained := ok } } : Mach).put GlCaps.stashPresent (b2n ok)).put StashStatus.trained (b2n ok)

/-- The mode of Table CO-2 and its clock. -/
def Mach.nvmMode (m : Mach) : Option (Nat × Nat) :=
  if !m.flash.sfdpOk then none
  else if m.flash.octal && !m.strap 1 then some (1, Nat.min 200 m.flash.maxMhz)
  else if m.flash.quad144 then some (2, Nat.min 133 m.flash.maxMhz)
  else if m.flash.quad114 then some (3, Nat.min 133 m.flash.maxMhz)
  else none

/-- Step 8 (R71-R73, R455): discovery, or the single-line fallback. -/
def Mach.discoverNvm (m : Mach) : Bool × Mach :=
  match m.nvmMode with
  | some (mode, mhz) =>
    let m1 := ((m.flag CoNvmInfo.probed).put CoNvmInfo.mode mode).put CoNvmInfo.addr4 (b2n m.flash.addr4)
    let m2 := m1.put CoNvmInfo.sizeLog2 (if m.flash.addr4 then m.flash.sizeLog2 else Nat.min 24 m.flash.sizeLog2)
    (true, ((m2.put CoNvmInfo.chipLog2 m.flash.sizeLog2).put CoNvmInfo.clockMhz mhz).setFn fnNvm .up)
  | none =>
    let m1 := (((m.put CoNvmInfo.probed 0).put CoNvmInfo.mode 0).put CoNvmInfo.addr4 0).put CoNvmInfo.clockMhz 25
    (false, ((m1.put CoNvmInfo.sizeLog2 24).put CoNvmInfo.chipLog2 0).record Flt.nvmProbeFail (srcIsl 263) [] 5)

/-! ## FAILED (R105, R422) -/

/-- Are the functions that need a rail or a strap allowed (R59, Table PB-12)? -/
def Mach.fnAllowed (m : Mach) (f : Nat) : Bool :=
  if f = 10 then m.pw.afeOk else if f = 7 then !m.strap 2 && m.pw.pcieOk else true

/-- The host enumerates an attached device: an address of its choice and the one configuration (log entry 54). -/
def Mach.usbEnumerate (m : Mach) : Mach :=
  if m.on HlUsbStat.attached && !m.on HlUsbStat.configured then
    let r := m.freshBelow 127
    (r.2.put HlUsbStat.address (r.1 + 1)).put HlUsbStat.configured 1
  else m

/-- Bring a function up unless it is bound off or not allowed. The USB device attaches when VBUS is present (R379). -/
def Mach.bring (m : Mach) (f : Nat) : Mach :=
  let k : Fin 19 := ix 19 f
  if m.fn k = .off ∨ !m.fnAllowed f then m
  else
    let m1 := m.setFn k .up
    if f = 8 ∧ !m.up fnUsb then (m1.put HlUsbStat.attached (b2n m.pw.vbus)).usbEnumerate else m1

/-- The last 16 severity-1 records as key 0x0002 holds them (R422). -/
def Mach.recentBytes (m : Mach) : List Byte := m.frc.recent.flatMap fun r => r.flatMap fun w => leBytes 4 w.toNat

/-- The USB device shows the set of Table HL-3 that FAILED leaves: no streaming interface, so none at alternate setting 1 (R379). -/
def Mach.usbReduce (m : Mach) : Mach := ((m.put HlUsbStat.degraded 1).put HlUsbStat.capActive 0).put HlUsbStat.playActive 0

/-- A cast-on or re-cast ends in FAILED with a fault code. The host links serve, the endpoint where its strap and rails allow it (R105). -/
def Mach.castFailed (m : Mach) (code : Nat) : Mach :=
  let m0 := ((m.put GlStatus.patternRunning 0).setPhase phFailed).defaultLayouts
  let m1 : Mach := { (m0.put CoStatus.failCode code) with cast := { m0.cast with loaded := false } }
  let m2 := (((m1.setFn fnNvm .up).bring 8).bring 9).usbReduce
  let m4 := (m2.bring 7).phaseEvent
  if m4.nvmFallback then m4 else m4.llDevice 2 m4.recentBytes

/-! ## Step 9: the choice of a copy (R75-R77) -/

/-- What step 9 finds: each copy's accepted header, copy B's base (0 for none), whether a header needed R84. -/
structure Step9 where
  a : Option ImgHdr
  b : Option ImgHdr
  base : Nat
  rescued : Bool
  m : Mach

def Mach.readPair (m : Mach) : Step9 :=
  let ra := m.readHeader false 0 m.fallbackBase
  match ra.2.2.baseOfB ra.1 with
  | none => ⟨ra.1, none, 0, ra.2.1, ra.2.2⟩
  | some base =>
    let rb := ra.2.2.readHeader true base (some 0)
    ⟨ra.1, rb.1, base, ra.2.1 || rb.2.1, rb.2.2⟩

/-- Is a copy a candidate (R76)? -/
def Step9.candidate (x : Step9) (b : Bool) : Bool :=
  let base := if b then x.base else 0
  match (if b then x.b else x.a) with
  | some h => x.m.headerOk h base && x.m.recordsOk h base
  | none => false

/-- The generation that a header shows; 0 when it is unreadable. -/
def Mach.shownGen (m : Mach) (base : Option Nat) : Nat :=
  match base with | none => 0 | some a => let bs := m.flashRead a 16; if isHdr bs then leAt bs 8 4 else 0

/-- CO_IMG_STAT, the generations and the base (Table CO-14). -/
def Step9.note (x : Step9) : Mach :=
  let bBase := if x.base = 0 then none else some x.base
  let m1 := (x.m.put CoImgStat.aState (if x.candidate false then 1 else 2)).put CoImgStat.bState
    (if x.base = 0 then 0 else if x.candidate true then 1 else 2)
  ((m1.put CoImgAGen.gen (x.m.shownGen (some 0))).put CoImgBGen.gen (x.m.shownGen bBase)).put CoImgBBase.base x.base

/-- The copy to load (R77). -/
def Step9.choose (x : Step9) (prefer : Nat) : Option Bool :=
  let a := x.candidate false
  let b := x.candidate true
  let gen : Option ImgHdr → Nat := fun h => match h with | some h => h.generation | none => 0
  if !a && !b then none
  else if prefer = 1 ∧ a then some false
  else if prefer = 2 ∧ b then some true
  else if a && b then some (decide (gen x.a < gen x.b))
  else some b

/-! ## Steps 10 to 12: loading one copy -/

inductive Load where
  | cold | reload | recast
deriving DecidableEq, Repr

/-- A copy being loaded. -/
structure CopyRun where
  copy : Bool
  base : Nat
  other : Option Nat
  mode : Load
deriving DecidableEq, Repr

/-- A load's progress: the fault that ended it, if any; the header, the table's bytes, the models refused, the records read. -/
structure Loaded where
  fail : Option Nat
  hdr : ImgHdr
  table : List Byte
  refused : List Nat
  data : List (RecEntry × List Byte)
  m : Mach

/-- A signed copy's KEY record is read and checked in step 10. -/
def Mach.checkKey (m : Mach) (c : CopyRun) (h : ImgHdr) (rs : List RecEntry) : Checked :=
  match h.signed, rs.find? fun r => r.type == 12 with
  | true, some r => m.readRecord c.copy c.base c.other r
  | _, _ => ⟨some [], false, m⟩

/-- Every image load names its own islands, and sets the pattern clocks of some; how is not in the spec's image (log entry 48). An island left
unset has 1,100 MHz (R111), and those with a fixed clock are never named (R112). -/
def Mach.freshPattern (m : Mach) : Mach :=
  (List.range 264).foldl (fun acc i =>
    let a := acc.freshBelow 2
    let b := a.2.freshBelow 2
    let c := b.2.freshBelow 181
    c.2.modIsl (ix 264 i) fun x =>
      { x with named := a.1 == 1 && !fixedClock i, patClk := if b.1 = 1 ∧ !fixedClock i then BitVec.ofNat 8 c.1 else 180 }) m

/-- What a header and a table set before the records load: layouts, row period, power limit, records, placement (R69, R122, R143). -/
def Mach.adoptHeader (m : Mach) (c : CopyRun) (h : ImgHdr) (rs : List RecEntry) : List Nat × Mach :=
  let m1 := ((m.applyLayouts h).put IsTenCfg.limit h.limit)
  let m2 := m1.setReg IsTenCfg.reg (clampWord IsTenCfg.reg (m1.reg IsTenCfg.reg))
  let m3 : Mach := { m2 with cast := { m2.cast with regWrites := [], rowPeriod := h.period, records := rs, base := c.base, length := h.length } }
  let p := m3.placement c.base rs
  (p.2, ({ m3 with cast := { m3.cast with models := p.1 } } : Mach).freshPattern)

/-- Step 10 for one copy. -/
def Mach.step10 (m0 : Mach) (c : CopyRun) : Loaded :=
  let m := m0.beginStep 10 (2 ^ 32 - 1)
  let h := imgHdr (m.flashRead c.base 256)
  let t := m.readTable c.copy c.base c.other h
  let bad := fun (code : Nat) (x : Mach) => (⟨some code, h, [], [], [], x.endStep stFailed (copyNo c.copy) m0.now⟩ : Loaded)
  match t.data with
  | none => bad Flt.recordCorrupt t.m
  | some bs =>
    let rs := recTable h.count bs
    if !(tableOkay h rs && (layouts h).all (·.isSome)) then bad Flt.imageMalformed t.m.malformed
    else
      let k := if c.mode = .recast then ⟨some [], false, t.m⟩ else t.m.checkKey c h rs
      match k.data with
      | none => bad Flt.recordCorrupt k.m
      | some _ =>
        let a := if c.mode = .recast then ([], k.m) else k.m.adoptHeader c h rs
        ⟨none, h, bs, a.1, [], a.2.endStep (if t.rescued || k.rescued then stRescued else stDone) (copyNo c.copy) m0.now⟩

/-- The fault code of a record that could not be loaded: its data is corrupt, or its form is not its type's. -/
def Mach.recordCode (m : Mach) (c : CopyRun) (r : RecEntry) : Nat :=
  if (m.readChecked (c.base + r.offset) r.length r.crc (m.plainRecord c.other r) id).data.isNone then Flt.recordCorrupt else Flt.imageMalformed

/-- Load records in table order until one fails. The flag says that one needed R84. -/
def loadAll (c : CopyRun) (refused : List Nat) : List RecEntry → Bool → List (RecEntry × List Byte) → Mach → Option Nat × Bool × List (RecEntry × List Byte) × Mach
  | [], resc, data, m => (none, resc, data, m)
  | r :: rs, resc, data, m =>
    let x := m.loadRecord c.copy c.base c.other refused (c.mode == .recast) r
    match x.data with
    | none => (some (m.recordCode c r), resc || x.rescued, data, x.m)
    | some bs => loadAll c refused rs (resc || x.rescued) (data ++ [(r, bs)]) x.m

/-- The residency check of a RECAST's step 11. -/
def checkAll : List RecEntry → Mach → Option Nat × Mach
  | [], m => (none, m)
  | r :: rs, m => let x := m.residencyCheck r; if x.1 then checkAll rs x.2 else (some Flt.recordCorrupt, x.2)

/-- Step 11: every record, or in a RECAST the residency check and every record that it does not cover (Table CO-7). -/
def Loaded.step11 (x : Loaded) (c : CopyRun) : Loaded :=
  let t0 := x.m.now
  let m := x.m.beginStep 11 (2 ^ 32 - 1)
  if c.mode = .recast then
    let chk := checkAll (m.cast.records.filter resident) m
    let r := match chk.1 with
      | some f => (some f, false, [], chk.2)
      | none => loadAll c [] (m.cast.records.filter fun r => !resident r) false [] chk.2
    { x with fail := r.1, m := r.2.2.2.endStep (if r.1.isSome then stFailed else if r.2.1 then stRescued else stDone) (copyNo c.copy) t0 }
  else
    let r := loadAll c x.refused m.cast.records false [] m
    let m1 := r.2.2.2
    let m2 : Mach := if r.1.isSome then m1 else { m1 with cast := { m1.cast with residency := m1.residencyTable x.refused, inUse := m1.weightsInUse x.refused } }
    { x with fail := r.1, data := r.2.2.1, m := m2.endStep (if r.1.isSome then stFailed else if r.2.1 then stRescued else stDone) (copyNo c.copy) t0 }

/-- Step 12: the signature (R81, R82); the copy is then the one in use. -/
def Loaded.step12 (x : Loaded) (c : CopyRun) : Loaded :=
  if c.mode = .recast then { x with m := x.m.skipStep 12 (copyNo c.copy) }
  else
    let t0 := x.m.now
    let m := x.m.beginStep 12 (2 ^ 32 - 1)
    let ok := signatureOk x.hdr x.table x.data
    let m1 := m.put GlStatus.signed (b2n ok)
    let use := fun (y : Mach) => ({ y with cast := { y.cast with loaded := true, generation := x.hdr.generation } } : Mach).put GlStatus.imageCopy (copyNo c.copy)
    if !x.hdr.signed && !Config.sigRequired then { x with m := use (m1.endStep stSkipped (copyNo c.copy) t0) }
    else if ok then { x with m := use (m1.endStep stDone (copyNo c.copy) t0) }
    else
      let m2 := m1.record Flt.sigFail {} []
      if Config.sigRequired then { x with fail := some Flt.sigFail, m := m2.endStep stFailed (copyNo c.copy) t0 }
      else { x with m := use (m2.endStep stDone (copyNo c.copy) t0) }

/-- Steps 10 to 12 for one copy. -/
def Mach.loadCopy (m : Mach) (c : CopyRun) : Loaded :=
  let x := m.step10 c
  if x.fail.isSome then x
  else
    let y := x.step11 c
    if y.fail.isSome then y else y.step12 c

/-- A load's outcome: the fault code of FAILED, or the copy's mode and refused models. -/
structure Chosen where
  fail : Option Nat
  mode : Load
  refused : List Nat
  m : Mach

/-- A copy failed to load. -/
def Mach.noteFailed (m : Mach) (copy : Bool) : Mach := if copy then m.put CoImgStat.bState 3 else m.put CoImgStat.aState 3

/-- The image's destinations as step 5 of a cast-on leaves them. -/
def Mach.clearImage (m : Mach) : Mach :=
  let m1 : Mach :=
    { m.hubWrite 0 (List.replicate 0x1990 0) with
      tiles := m.tiles.map fun x => { x with sp := { x.sp with mem := EccMem.empty }, ve := Ve.reset, sdm := EccMem.empty }
      cores := m.cores.map fun _ => Core.reset, dza := Dza.reset }
  (List.range 4).foldl (fun acc t => acc.put (VeTblStat.loaded t) 0) m1

/-- The data of two copies is never combined (R84): what a copy that failed stored is undone before the other one is loaded, memories and
the registers that records may write alike; after a RECAST the running copy's data goes too (log entry 79). -/
def Mach.dropCopy (m before : Mach) (mode : Load) : Mach :=
  let mine := fun (e : Nat × Word) => regListOk e.1
  let m1 : Mach :=
    { m.hubWrite 0 (before.hub.read 0 0x1990) with
      regs := (before.regs.filter mine).foldl (fun acc e => Tab.set regReset acc e.1 e.2) (m.regs.filter fun e => !mine e)
      tiles := before.tiles, cores := before.cores, dza := before.dza, stash := before.stash }
  if mode = .recast then m1.clearImage else m1

/-- Load a copy, and when it fails the other one if that is a candidate (R78). `x`: the headers, read afresh when a RECAST falls back. -/
def Mach.loadEither (m : Mach) (x : Mach → Step9) (copy : Bool) (mode : Load) : Chosen :=
  let run := fun (b : Bool) (base : Nat) (md : Load) =>
    (⟨b, if b then base else 0, if b then some 0 else if base = 0 then none else some base, md⟩ : CopyRun)
  let base0 := m.get CoImgBBase.base
  let l := m.loadCopy (run copy base0 mode)
  match l.fail with
  | none => ⟨none, mode, l.refused, l.m⟩
  | some code =>
    let m1 := l.m.noteFailed copy
    let y := x m1
    if !y.candidate (!copy) then ⟨some code, mode, [], y.m⟩
    else
      let md := if mode = .recast then Load.reload else mode
      let m2 := ((y.m.dropCopy m mode).flag CoStatus.fallback).record Flt.copyFallback {} []
      let l2 := m2.loadCopy (run (!copy) base0 md)
      match l2.fail with
      | none => ⟨none, md, l2.refused, l2.m⟩
      | some code2 => ⟨some code2, md, [], l2.m.noteFailed (!copy)⟩

/-- Steps 9 to 12. With no candidate the sequence fails with HEADER_INVALID (log entry 45). -/
def Mach.chooseAndLoad (m : Mach) (mode : Load) : Chosen :=
  if mode = .recast ∧ m.cast.loaded then
    let b := m.runningCopy
    (m.skipStep 9).loadEither Mach.readPair b .recast
  else
    let md := if mode = .recast then Load.reload else mode
    let x := (m.beginStep 9 (2 ^ 32 - 1)).readPair
    let m1 := x.note
    match x.choose (m.get CoCtl.prefer) with
    | none => ⟨some Flt.headerInvalid, md, [], (m1.record Flt.headerInvalid {} [] 5).endStep stFailed noCopy m.now⟩
    | some b =>
      (m1.endStep (if x.rescued then stRescued else stDone) (copyNo b) m.now).loadEither
        (fun y => { x with rescued := false, m := y }) b md

/-! ## Clearing at step 5 (R167, R201, R228, R270, R341, R451) -/

/-- A tile's matrix engine as after cast-on: LFSRs seeded (R178, R200, R201). -/
def Mach.freshMx (m : Mach) (t : Fin 4) : Mach :=
  let seed := m.get (MxSrSeed.seed t)
  m.modMx t fun _ => { Mx.reset with arrays := Vector.ofFn fun a => { MxArray.reset with lfsr := lfsrAll seed a.val } }
/-- A tile's vector engine with a zeroed operand store; tables stay, and nothing is staged (R227, R228). -/
def Mach.freshVe (m : Mach) (t : Fin 4) : Mach := m.modVe t fun v => { Ve.reset with tables := v.tables }
/-- Every tag of a tile's scratchpad to 0. -/
def Mach.clearTags (m : Mach) (t : Fin 4) : Mach :=
  m.modSp t fun x => { x with tags := [], lost := [], writeback := [], marching := none }
/-- A tile's unit queues, empty. -/
def Mach.emptyQueues (m : Mach) (t : Fin 4) : Mach :=
  m.modTile t fun x => { x with loaderQ := UnitQ.empty, injectorQ := UnitQ.empty, drainerQ := Vector.replicate 4 UnitQ.empty,
                                veQ := UnitQ.empty, xferQ := UnitQ.empty }

/-- A core back in RESET with its programme kept; its data memory is cleared. -/
def Mach.clearCore (m : Mach) (c : Fin 10) : Mach :=
  m.modCore c fun k => { Core.reset with imem := k.imem, programmed := k.programmed, staged := k.staged }

/-- The annealer without a run: states, index, checked and trace position cleared (R335, R341). -/
def Mach.clearDza (m : Mach) : Mach :=
  let m1 : Mach := { m with dza := { Dza.reset with mem := m.dza.mem } }
  let m2 := (m1.put DzStatus.runActive 0).put DzStatus.checked 0
  ((m2.put DzStatus.statesValid 0).put DzTraceStat.index 0).put DzTraceLap.lap 0

/-- Step 5 of every re-cast: what RECAST clears (Table CO-7). Its stitches have ended, so a staged table is switched in first (R220). -/
def Mach.clearWarm (m : Mach) : Mach :=
  let m1 := (List.range 4).foldl (fun acc t => (((acc.switchTables (ix 4 t)).freshMx (ix 4 t)).freshVe (ix 4 t)).clearTags (ix 4 t))
    { m with cast := { m.cast with regWrites := [] } }
  let m2 := (List.range 4).foldl (fun acc t => acc.setReg (VeCtl.reg t) (regReset (VeCtl.reg t))) m1
  ((List.range 10).foldl (fun acc c => acc.clearCore (ix 10 c)) m2).clearDza

/-- Unread records of the log ring. -/
def Mach.unread (m : Mach) : Nat := ((m.reg FrFaultSeq.reg).toNat + 2 ^ 32 - (m.reg GaLogRd.reg).toNat) % 2 ^ 32

/-- Gauge registers at their reset values (R451). -/
def Mach.resetGauges (m : Mach) : Mach :=
  let m1 := (List.range 5).foldl (fun acc b => acc.resetRegs (gaugeRegs b) (gaugeRegs b + 0x1000)) m
  { m1 with gauges := Vector.replicate 5 Gauge.reset, dump := none, dumpSeq := 0 }

/-- Step 5 of RECAST_RELOAD: as cast-on, with the log's books (R341, R430, R451). -/
def Mach.clearReload (m : Mach) : Mach :=
  let m1 := m.clearWarm.defaultLayouts
  let lost := m.unread - m.frc.buffer.length + m.get GaLogLost.count
  let m2 := m1.resetGauges
  let m3 : Mach :=
    { m2 with hub := EccMem.empty, dza := Dza.reset, tiles := m2.tiles.map fun x =>
        { x with sp := { x.sp with mem := EccMem.empty }, ve := Ve.reset, sdm := EccMem.empty } }
  let m4 := (List.range 10).foldl (fun acc c => acc.modCore (ix 10 c) fun _ => Core.reset) m3
  let m5 := (List.range 4).foldl (fun acc t => acc.put (VeTblStat.loaded t) 0) m4
  let first := match m5.frc.buffer with | e :: _ => e.getD 4 0 | [] => m5.reg FrFaultSeq.reg
  ((m5.put GaLogLost.count (Nat.min lost 0xFFFFFFFF)).setReg GaLogRd.reg first).endBuffering

/-! ## Steps 13 to 17 -/

/-- Step 13: the lifeline scan with its books (R98, R107). -/
def Mach.scanLifeline (m : Mach) : Mach := m.noteScan m.llScan

/-- Step 14: refused and overhanging models (R85, R86). -/
def Mach.notePlacement (m : Mach) (refused : List Nat) : Mach :=
  let m1 := refused.foldl (fun acc id => (acc.record Flt.modelRefused {} [id]).flag GlStatus.refused) m
  if m1.cast.models.any fun p => p.overhang.any fun o => o.2 != 0 then m1.flag GlStatus.overhang else m1

/-- Steps 1 and 2 of R370: ACD trims and the loopback test; what the test finds is left open (log entry 45). -/
def Mach.acdStart (m : Mach) : Mach :=
  if !m.pw.afeOk then m
  else
    let m1 := match m.llGet 3 with
      | some _ => m.put AeAcdStat.trimmed 1
      | none => (m.put AeAcdStat.trimmed 0).record Flt.acdUntrimmed (srcIsl 262) []
    let r := m1.fresh
    r.2.acdResult (r.1.setWidth 16)

/-- Functions brought in by step 15; the endpoint only with PERST_N high (R67). -/
def Mach.bringAll (m : Mach) : Mach :=
  (List.range 19).foldl (fun acc f => if f = 7 ∧ !acc.pw.perst then acc else acc.bring f) (m.put HlUsbStat.degraded 0)

/-- Step 15: functions, capture and rings (R370, R371). -/
def Mach.step15 (m : Mach) (cold : Bool) : Mach := ((if cold then m.acdStart else m).bringAll.startCapture).checkRings

/-- A programmed core leaves reset at pc 0 (R269, R270); a halt bit that is still written holds it. -/
def Mach.startCore (m : Mach) (c : Fin 10) : Mach :=
  if !(m.core c).programmed then m
  else
    let halt := m.on (TcCtl.halt c)
    m.modCore c fun k =>
      { Core.reset with imem := k.imem, dmem := k.dmem, staged := k.staged, programmed := true, haltReq := halt, st := if halt then .halted else .run,
                        cycleBase := (m.isl (coreIsland c)).cycles }

/-- The margins that key 0x0004 holds (R454). -/
def Mach.keyMargins (m : Mach) : Option (List Byte) :=
  match m.llGet 4 with
  | some bs => if bs.length = 264 ∧ bs.all (fun b => decide (b.toNat < 32)) then some bs else none
  | none => none

/-- The code that each island is to run at once the phase is RUNNING, and the supply level it will run at: the fixed 0.75 V, else Table IS-3's
voltage for the fastest island (R139, log entry 82). -/
def Mach.runLevel (m : Mach) : Nat :=
  let r := m.setPhase phRunning
  if m.pw.fixedSupply then 750000
  else interpolate voltPoints (200 + 5 * ((List.range 264).filterMap fun i => if onCoreRail i then some (r.wantCode (ix 264 i)) else none).foldl Nat.max 0)
def Mach.runCode (m : Mach) (i : Nat) : Nat :=
  let r := m.setPhase phRunning
  let c := r.wantCode (ix 264 i)
  if !onCoreRail i then c
  else
    let c1 := Nat.min c (codeFor m.runLevel 8)
    if r.floored i then Nat.max c1 floorCode else c1

/-- The margin measured for an island: the fewest taps that pass, plus 2 taps of guard, up to 31 (R139). -/
def Mach.measuredMargin (m : Mach) (i : Nat) : Nat :=
  Nat.min 31 ((Config.measuredMargin i (BitVec.ofNat 8 (m.runCode i)) m.runLevel).toNat + 2)

/-- Step 16's margins: the stored ones when each lies within one tap of the measured one, else the measured ones. -/
def Mach.setMargins (m : Mach) : Mach :=
  let meas := (List.range 264).map m.measuredMargin
  let near := fun (bs : List Byte) => (List.range 264).all fun i =>
    fixedClock i || decide ((bs.getD i 0).toNat ≤ meas.getD i 0 + 1 ∧ meas.getD i 0 ≤ (bs.getD i 0).toNat + 1)
  let put := fun (vs : List Nat) => (List.range 264).foldl (fun acc i => if fixedClock i then acc else acc.put (IsIslCfg.margin i) (vs.getD i 0)) m
  let bytes := (List.range 264).map fun i => if fixedClock i then (0 : Byte) else BitVec.ofNat 8 (meas.getD i 0)
  let due : Mach := { put meas with cast := { m.cast with marginsDue := some bytes } }
  match m.keyMargins with
  | some bs => if near bs then put (bs.map BitVec.toNat) else due
  | none => due

/-- Step 16: skeins, cores, LFSRs, margins and clocks. -/
def Mach.step16 (m : Mach) (mode : Load) (refused : List Nat) : Mach :=
  let hasTable := m.cast.records.any fun r => r.type == 7
  let m1 := if mode = .recast then m.keepSkeins else m.createSkeins hasTable refused
  let m2 := (List.range 4).foldl (fun acc t => acc.freshMx (ix 4 t)) m1
  let m3 := (List.range 10).foldl (fun acc c => if acc.up (coreFn (ix 10 c)) then acc.startCore (ix 10 c) else acc) m2
  let m4 := if mode = .cold then m3.setMargins else m3
  (m4.put IsStatus.active 1).applyCodes

/-- Key 0x0001: copy B's base and the last generation of each copy that reached RUNNING, written when the phase becomes RUNNING with a
generation that the key does not hold, unless that write is already under way (R97, log entry 49). -/
def Mach.writeKey1 (m : Mach) : Mach :=
  let old := m.llGet 1
  let genOf := fun (b : Bool) => match old with | some bs => leAt bs (if b then 8 else 4) 4 | none => 0
  let c := m.runningCopy
  let a := if c then genOf false else m.cast.generation
  let b := if c then m.cast.generation else genOf true
  let data := leBytes 4 (m.get CoImgBBase.base) ++ leBytes 4 a ++ leBytes 4 b
  let due : LlOp := { op := 1, key := 1, data := data, device := true, firmware := false }
  if genOf c = m.cast.generation ∨ m.ll = some due ∨ .ll due ∈ m.waiting then m else m.llDevice 1 data

/-- ROW_START to every core in service (R252). -/
def Mach.rowStartEvent (m : Mach) : Mach := (List.range 10).foldl (fun acc c => acc.signalCode c 0) m

/-- The pattern starts now: rows count from 0, arrivals are cleared and the phase becomes RUNNING (R19, R69, R150, R387). -/
def Mach.startPattern (m : Mach) : Mach :=
  let m1 := ((m.setPhase phRunning).flag GlStatus.patternRunning).restartFrames
  let m2 : Mach := { m1 with rowCount := 0, rowStart := m1.now, cores := m1.cores.map fun k => { k with arrived := false } }
  (m2.applyCodes.rowStartEvent.periodicDump).phaseEvent

/-- The first multiple of n at or above t. -/
def gridAt (t n : Nat) : Nat := roundUp t n

/-- Steps 13 to 17. -/
def Mach.finishCast (m : Mach) (mode : Load) (refused : List Nat) : Mach :=
  let cold := mode == .cold
  let m13 := m.step' 13 (if mode = .recast then ms / 2 else 10 * ms) fun x => if mode = .recast then x else x.scanLifeline
  let m14 := if mode = .recast then m13.skipStep 14 else m13.step' 14 ms fun x => x.notePlacement refused
  let m15 := m14.step' 15 (if cold then 30 * ms else ms) fun x => x.step15 cold
  let m16 := m15.step' 16 (if cold then 2 * ms else ms) fun x => x.step16 mode refused
  let m17 := (m16.put CoStatus.step 17).advanceTo (gridAt m16.now m16.rowTicks)
  let m18 := if cold then m17 else m17.bump CoRecastCount.count
  let m19 := if mode = .recast then m18 else m18.event 1 0xFF m18.cast.generation (copyNo m18.runningCopy) (m18.reg CoStatus.reg).toNat m18.sysDest
  (m19.startPattern.endStep stDone noCopy m16.now).writeKey1

/-- Steps 9 to 17, or FAILED. -/
def Mach.runCast (m : Mach) (mode : Load) : Mach :=
  let x := m.chooseAndLoad mode
  match x.fail with
  | some code => x.m.castFailed code
  | none => x.m.finishCast x.mode x.refused

/-! ## Cast-on and re-cast -/

/-- Every island out of its reset state at 400 MHz (R138), those on VDD_AON at 240 MHz (R112). -/
def Mach.startClocks (m : Mach) : Mach := { m with islands := Vector.ofFn fun i => { m.isl i with stopped := false, code := islandStart i.val, next := none, lastRead := none } }

/-- Steps 5 to 17 of a cast-on (Table CO-1). -/
def Mach.castOnFrom5 (m4 : Mach) : Mach :=
  let m5 := m4.step' 5 (20 * ms) Mach.endBuffering
  let m6 := m5.step' 6 (2 * ms) fun x => x
  let m7 := m6.step' 7 (50 * ms) Mach.trainStash fun x => if x.stashPresent then stDone else stFailed
  let d := (m7.beginStep 8 (3 * ms)).discoverNvm
  let m8 := d.2.endStep (if d.1 then stDone else stFailed) noCopy m7.now
  if d.1 then m8.runCast .cold else m8.castFailed Flt.nvmProbeFail

/-- A cast-on from step 1 (Table CO-1). DESIGN CHOICE (log entry 80): with the timebase reference absent in step 2 the timebase runs on its
holdover oscillator with xtal_ok 0, which R63 does not say. The sensors start in step 4, and a thermal trip ends the sequence (R45). -/
def Mach.castOn (m : Mach) : Mach :=
  let m1 := m.castReset.step' 1 us fun x => x
  let m2 := m1.step' 2 (if m1.strap 0 then ms / 5 else 5 * ms) fun x =>
    (({ x with tbOn := true } : Mach).put GlClkstat.xtalOk (b2n x.pw.refclk)).startClocks
  let m3 := m2.step' 3 ms fun x => x.setFn fnSpi .up
  let m4 := m3.step' 4 ms fun x => x.readRegulator.startSensors
  if m4.overheated then m4.thermalTrip
  else m4.castOnFrom5

/-- Functions that a re-cast takes out of service: all but the host links and the NVM; a bound-off one stays so. -/
def Mach.recastDown (m : Mach) : Mach :=
  (List.range 19).foldl (fun acc f =>
    let k : Fin 19 := ix 19 f
    if acc.fn k = .off then acc
    else if f = 7 ∨ f = 8 ∨ f = 9 ∨ f = 18 then (if acc.fn k = .frogging then acc.setFn k .down else acc)
    else acc.setFn k .down) m

/-- Does an island belong to a bound-off function, whose clocks stay stopped? A tile's router runs on (R417). -/
def Mach.islOff (m : Mach) (i : Fin 264) : Bool :=
  !isTrt i.val && (match islandFn i.val with | some f => m.fn f == .off | none => false)

/-- The start of a re-cast ends the frog in progress, whose function it brings up; a bind-off or an ENABLE that it meets waits behind it (R70,
R426, R430; log entry 66). -/
def Frc.atRecast (f : Frc) : Frc :=
  { f with
    history := [], cur := none, escStarting := false
    queue := match f.cur with | some r => if r.kind = .frog then f.queue else (r.fn, r.kind) :: f.queue.filter fun e => e.1 != r.fn | none => f.queue }

/-- A re-cast begins (R88, R405, R430): swaps end, buffers close, units empty, the pattern is stopped. -/
def Mach.recastStart (m : Mach) (reload : Bool) : Mach :=
  let m1 := ((m.put GlStatus.patternRunning 0).finishSwaps.dropWindows.voidHeld.put DzStatus.swatchActive 0).settleRings
  let m2 := if reload then m1.dropStaged.dropUsbReady else m1
  let m2b : Mach := { m2 with islands := Vector.ofFn fun i =>
    { m2.isl i with stopped := m2.islOff i, next := none, lastRead := if (islandFn i.val).isSome then none else (m2.isl i).lastRead } }
  let m2c := m2b.stopCapture
  let m3 := (({ m2c with ae := { m2c.ae with eff := [] } } : Mach).recastDown).setPhase phRecasting
  let m4 := (List.range 4).foldl (fun acc t => acc.emptyQueues (ix 4 t)) m3.clearSteps
  let m5 : Mach :=
    { m4 with
      linkEpoch := m4.linkEpoch + 1
      stash := { m4.stash with queue := UnitQ.empty, swaps := [], blocks := [], windows := [], rewriting := [] }
      msg := { m4.msg with queue := UnitQ.empty }
      cast := { m4.cast with live := none, suspended := [], written := [] }
      pairs := [], swatch := [], frc := m4.frc.atRecast, cores := m4.cores.map fun k => { k with staged := [] }
      pw := { m4.pw with trans := .none } }
  if reload then
    { (((m5.put GlStatus.refused 0).put GlStatus.overhang 0).put GlStatus.signed 0) with frc := { m5.frc with buffering := true, buffer := [] } }
  else m5

/-- A re-cast from RUNNING at a row end, from IDLE, or from RETENTION (Table CO-7). -/
def Mach.recast (m : Mach) (reload : Bool) : Mach :=
  let m0 := if m.phase = phRunning then m.recastStart reload else (m.recastStart reload).put GlPstateCtl.target 0
  let m4 := (((m0.skipStep 1).skipStep 2).skipStep 3).skipStep 4
  let m5 := m4.step' 5 (if reload then 20 * ms else ms) fun x => if reload then x.clearReload else x.clearWarm
  let m7 := (m5.step' 6 ms fun x => x).step' 7 ms fun x => x
  (m7.skipStep 8).runCast (if reload then .reload else .recast)

/-- VDD_CORE is commanded to a voltage; the writes of R34 are taken as done (log entry 50). -/
def Mach.commandVolts (m : Mach) (uv : Nat) : Mach :=
  if m.pw.fixedSupply then m
  else
    let c := m.pw.vrCode uv
    ({ m with pw := { m.pw with vrTarget := BitVec.ofNat 16 c, vrConfirmed := BitVec.ofNat 16 c, vout := BitVec.ofNat 16 c } } : Mach).put GlVrStat.voutCode c

/-- A re-cast from IDLE, from a row end, or out of RETENTION: there VDD_CORE returns to 0.75 V and the islands to 400 MHz first (R49). -/
def Mach.recastNow (m : Mach) (reload : Bool) : Mach :=
  if m.phase = phRetention then (m.commandVolts 750000).startClocks.recast reload else m.recast reload

end Sys2Proof.Machine
end

