-- ==== Sys2Proof/Machine/Phases.lean ====
section
/-! DEFINITION. The power states and the requests that move between them (02_package_supplies_clocks.md R46-R49, R53, R54, R64). -/

namespace Sys2Proof.Machine

/-! ## USB de-configured (R399) -/

def Mach.usbDeconfigure (m : Mach) : Mach :=
  let m1 := (((m.put HlUsbStat.configured 0).put HlUsbStat.capActive 0).put HlUsbStat.playActive 0).put HlUsbStat.address 0
  let m2 := (List.range 8).foldl (fun acc i => acc.clearOut (72 + i)) m1.dropUsbReady
  m2.put HlUsbStat.suspended 0

/-! ## Idle-resident (R47, R132, R150, R367) -/

/-- Staged messages go to every destination that has room. -/
def Mach.deliverAll (m : Mach) : Mach := (List.range 17).foldl (fun acc d => Nat.repeat (fun x => x.deliver d) (acc.msg.staged.length + 1) acc) m

/-- Is a staged message still to go to a destination that has room for it? Its ring's descriptor is then being read (R376). -/
def Mach.deliveryDue (m : Mach) : Bool :=
  m.up fnMsg && (List.range 17).any fun d => match m.waitingFor d with | some x => m.hasRoom d (foot x.length) | none => false

/-- Entry to IDLE once the last row has ended: swaps, messages, capture, clocks. It waits for a descriptor that a message needs, and for every
link to be quiet before it lowers a clock (R132). It lasts at most 100 us. -/
def Mach.enterIdle (m : Mach) (quiet : Bool) : Mach :=
  let m1 := m.finishSwaps.deliverAll
  if m1.deliveryDue then m1
  else
    let m2 := m1.stopCapture
    if !quiet then m2
    else
      let r := m2.freshBelow (100 * us + 1)
      ((r.2.elapse r.1).setPhase phIdle).applyCodes.phaseEvent

/-- RUN from IDLE: tags are cleared, capture restarts, and the pattern starts at a row boundary of the grid. -/
def Mach.leaveIdle (m : Mach) : Mach :=
  let m1 := ((List.range 4).foldl (fun acc t => acc.clearTags (ix 4 t)) m).startCapture
  let r := m1.freshBelow (250 * us + 1)
  let m2 := r.2.elapse r.1
  (m2.advanceTo (gridAt m2.now m2.rowTicks)).startPattern.writeKey1

/-! ## Retention (R46, R48) -/

/-- Islands that run in RETENTION: VDD_AON, HUBR and SPIM. -/
def runsInRetention (i : Nat) : Bool := fixedClock i || i == 236 || i == 256

/-- Entry to RETENTION from IDLE: what it loses is lost here. -/
def Mach.enterRetention (m : Mach) : Mach :=
  let m1 := m.endpointReset.usbDeconfigure.put HlUsbStat.attached 0
  let m2 := (List.range 4).foldl (fun acc t => (acc.freshMx (ix 4 t)).freshVe (ix 4 t)) m1
  let m3 := (List.range 10).foldl (fun acc c => acc.modCore (ix 10 c) fun k =>
    { Core.reset with imem := k.imem, dmem := k.dmem, programmed := k.programmed }) m2
  let m4 : Mach :=
    { m3 with
      gauges := m3.gauges.map fun _ => { Gauge.reset with wasReset := true }
      fns := Vector.ofFn fun f => if m3.fn f = .off then .off else if f = fnSpi then .up else .down
      islands := Vector.ofFn fun i =>
        { m3.isl i with stopped := !runsInRetention i.val, next := none, lastRead := if runsInRetention i.val then (m3.isl i).lastRead else none }
      pw := { m3.pw with trans := .none } }
  ((m4.stopGovernor.commandVolts 550000).setPhase phRetention).applyCodes

/-! ## GL_PSTATE_CTL.target (R47-R49, R53, R54) -/

def psRun : Nat := 0
def psIdle : Nat := 1
def psRetention : Nat := 2

/-- Latch a target. -/
def Mach.latchTarget (m : Mach) (t : Nat) : Mach := (m.put GlPstateStat.pending t).put GlPstateStat.pendValid 1
def Mach.unlatch (m : Mach) : Mach := (m.put GlPstateStat.pending 0).put GlPstateStat.pendValid 0

/-- Act on a target in RUNNING or IDLE with no transition and no frog in progress. The state already reached needs nothing. -/
def Mach.actTarget (m : Mach) (t : Nat) : Mach :=
  if m.phase = phRunning then
    (if t = psIdle then { m with pw := { m.pw with trans := .toIdle } }
     else if t = psRetention then { m with pw := { m.pw with trans := .toRetention } } else m)
  else if m.phase = phIdle then
    (if t = psRun then m.leaveIdle else if t = psRetention then { m with pw := { m.pw with trans := .toRetention } } else m)
  else m

/-- Act on the latched target once nothing stands in its way (R53, R54). DESIGN CHOICE (log entry 78): an IDLE or RETENTION that was latched
during the entry to RETENTION is dropped when RETENTION is reached, since R49 gives such a write no effect there, and
GL_PSTATE_CTL.target keeps reading it; the spec does not say so. -/
def Mach.actPending (m : Mach) (noFrog : Bool) : Mach :=
  if noFrog && m.pw.trans == .none && m.on GlPstateStat.pendValid then
    let t := m.get GlPstateStat.pending
    if m.phase = phRunning ∨ m.phase = phIdle then m.unlatch.actTarget t
    else if m.phase = phRetention then
      (if t = psRun then ((m.unlatch.put GlPstateCtl.target 0).recastNow false) else m.unlatch)
    else m
  else m

/-- A write of the target field; 3 is ignored. In RETENTION only RUN acts, and another value is not kept (R49). DESIGN CHOICE (log entry 78):
in FAILED the field is stored and nothing is latched or done; the spec does not say what such a write does. -/
def Mach.writeTarget (m : Mach) (t : Nat) : Mach :=
  if 3 ≤ t then m
  else if m.phase = phRetention then (if t = psRun then (m.put GlPstateCtl.target 0).recastNow false else m)
  else
    let m1 := m.put GlPstateCtl.target t
    if m1.phase = phFailed then m1
    else if (m1.phase = phRunning ∨ m1.phase = phIdle) ∧ m1.pw.trans = .none ∧ m1.frc.cur.isNone then m1.actTarget t
    else m1.latchTarget t

/-- A re-cast that is asked for: at the row's end while the pattern runs, at once from IDLE (R88). -/
def Mach.askRecast (m : Mach) (reload : Bool) : Mach :=
  if m.phase = phRunning ∧ m.on GlStatus.patternRunning then { m with pw := { m.pw with trans := .toRecast reload } } else m.recastNow reload

end Sys2Proof.Machine
end

