-- ==== Sys2Proof/Machine/Faults.lean ====
section
/-! DEFINITION. The fault and frog controller (13_faults_swatch_frog.md): the actions of Table FR-3, escalation, the frog protocol with
FROG, BIND_OFF, ENABLE, CUT, REJOIN, FROG_DONE, POP, and what each function loses and keeps (R161, R200, R227, R263, R268, R299, R300, R335,
R397-R399). -/

namespace Sys2Proof.Machine

/-! ## Swatch instances (Table FR-11) -/

/-- Bit of an instance in FR_SW_STAT. -/
def swatchKey : SwatchInst → Nat
  | .array t a => 4 * t.val + a.val
  | .spBank t => 16 + t.val
  | .ve t => 20 + t.val
  | .dza => 24

def noSwatch : Nat → SwatchSt := fun _ => { isOpen := false, running := false, consec := 0, arrays := 0, broken := false }
def Mach.swatchSt (m : Mach) (k : Nat) : SwatchSt := Tab.get noSwatch m.swatch k
def Mach.setSwatch (m : Mach) (k : Nat) (x : SwatchSt) : Mach := { m with swatch := Tab.set noSwatch m.swatch k x }
/-- Function of an instance. -/
def swatchFn (k : Nat) : Nat := if k < 16 then k / 4 else if k < 20 then k - 16 else if k < 24 then k - 20 else 4

/-- Swatch tests of a function stop (Table FR-6). -/
def Mach.stopSwatch (m : Mach) (f : Nat) : Mach :=
  let m1 := (List.range 25).foldl (fun acc k => if swatchFn k = f then acc.setSwatch k { acc.swatchSt k with isOpen := false, running := false, arrays := 0, broken := false } else acc) m
  if f = 4 then m1.put DzStatus.swatchActive 0 else m1

/-! ## What CUT and RESET take from a function -/

/-- A unit's stitches, queued and in progress, end with VOID (R263). -/
def Mach.voidUnit (m : Mach) (u : UnitId) : Mach :=
  let q := m.unitQ u
  let live := q.current.filterMap fun r => if r.done then none else some r.stitch
  (q.express ++ q.row ++ live).foldl (fun acc x => acc.stitchFault x.hdr (bodyKind x.body) codeVoid) (m.setQ u UnitQ.empty)

/-- A tile's cores. -/
def tileCores (t : Nat) : List (Fin 10) := [ix 10 (2 * t), ix 10 (2 * t + 1)]

/-- The cores of a function: two of a tile, or one hub core. -/
def fnCores (f : Nat) : List (Fin 10) := if f < 4 then tileCores f else if f = 16 then [8] else if f = 17 then [9] else []

/-- Core loads that wait at a tile's `VE_OC_DATA` get VOID (CUT of Table FR-6, R223). -/
def Mach.voidOc (m : Mach) (t : Fin 4) : Mach :=
  (m.tile t).ve.oc.foldl (fun acc e =>
    match e.2.2 with
    | .core c => acc.modCore c fun k => { k with devLoad := k.devLoad.map fun d => { d with status := voidStatus (m.fn (tileFn t)) } }
    | _ => acc) m

/-- A tile at CUT (R161, R200, R227, R268, R448): scratchpad data and function tables stay. -/
def Mach.cutTile (m : Mach) (t : Fin 4) : Mach :=
  let m1 := ((tileUnits t).foldl Mach.voidUnit m).voidOc t
  let m2 := (m1.freshMx t).freshVe t
  let m3 := m2.modSp t fun x => { x with lost := [], writeback := [], marching := none }
  let m4 := m3.resetRegs (gaugeRegs t) (gaugeRegs t + 0x1000)
  { m4 with gauges := vset m4.gauges (tileGauge t) { Gauge.reset with wasReset := true } }

/-- STASH at CUT: cut swaps are settled, tokens return, stitches end with VOID (R300). -/
def Mach.cutStash (m : Mach) : Mach :=
  let m1 := m.stash.swaps.foldl (fun acc w =>
    if w.out then (acc.skPut w.skein 0 1 skResident).setSlot w.slot .occupied
    else (acc.skPut w.skein 0 1 skStashed).setSlot w.slot .free) m
  let m2 := (m1.voidUnit .stash).dropWindows
  { m2 with stash := { m2.stash with swaps := [], blocks := [] } }

/-- The annealer at CUT (R335): an active run ends with a VOID record and nothing else. -/
def Mach.cutDza (m : Mach) : Mach :=
  let m1 := match m.dza.run with | some r => m.stitchFault r.hdr 7 codeVoid | none => m
  (m1.voidUnit .dza).clearDza

/-- A core's queues are reset: what it posted and no unit has started is gone from every queue (R243, R268). -/
def Mach.dropPosts (m : Mach) (c : Fin 10) : Mach :=
  allUnits.foldl (fun acc u =>
    let q := acc.unitQ u
    acc.setQ u { q with express := q.express.filter fun x => x.hdr.poster != c, row := q.row.filter fun x => x.hdr.poster != c }) m

/-- What a function loses when it is cut and reset. -/
def Mach.cutFn (m : Mach) (f : Nat) : Mach :=
  let m1 :=
    if f < 4 then m.cutTile (ix 4 f)
    else if f = 4 then m.cutDza
    else if f = 5 then m.cutStash
    else if f = 6 then m.voidUnit .msg
    else if f = 7 then m.endpointReset
    else if f = 8 then m.usbDeconfigure.put HlUsbStat.attached 0
    else if f = 9 then { m with host := { m.host with spiReply := [] } }
    else if f = 10 then (({ m with ae := { m.ae with swatch := false } } : Mach).put AeAcdStat.swatchBusy 0)
    else if f = 18 then m.abortNvm true
    else m
  (fnCores f).foldl (fun acc c => (acc.dropPosts c).clearCore c) m1

/-- The clocks of a function's islands stop or restart. -/
def Mach.clockFn (m : Mach) (f : Nat) (stopped : Bool) : Mach :=
  { m with islands := Vector.ofFn fun i => if insideFn f i.val then { m.isl i with stopped := stopped, lastRead := none } else m.isl i }

/-! ## What REJOIN restores -/

/-- Check records of the running copy and reload those that fail. -/
def Mach.checkRecords (m : Mach) (sel : RecEntry → Bool) : Mach :=
  (m.cast.records.filter sel).foldl (fun acc r => (acc.residencyCheck r).2) m

/-- Read records of the running copy again into their destinations. -/
def Mach.reloadRecords (m : Mach) (sel : RecEntry → Bool) : Mach :=
  (m.cast.records.filter sel).foldl (fun acc r => (acc.loadRecord acc.runningCopy acc.cast.base acc.otherBase [] true r).m) m

/-- IMEM checked and DMEM reloaded for a core (R268). -/
def Mach.rejoinCore (m : Mach) (c : Fin 10) : Mach :=
  (m.checkRecords fun r => r.type == 2 && r.dest == c.val).reloadRecords fun r => r.type == 3 && r.dest == c.val

/-- A tile's MX and VE registers as after cast-on: their reset values, and then what the image's REG_LIST wrote (R200, R227; log entry 85).
Which function tables are loaded is kept. -/
def Mach.rejoinRegs (m : Mach) (t : Fin 4) : Mach :=
  let base := 0x100000 * (t.val + 1)
  let mine := fun a => decide (base ≤ a ∧ a < base + 0x10000 ∨ base + 0x20000 ≤ a ∧ a < base + 0x30000)
  let m1 := { m with regs := m.regs.filter fun e => !(mine e.1) || e.1 == VeTblStat.reg t }
  (m.cast.regWrites.filter fun e => mine e.1).foldl (fun acc e => acc.castWrite e.1 e.2) m1 |> fun x => x.dropStaging none

/-- The rejoin work of a function. -/
def Mach.rejoinWork (m : Mach) (f : Nat) : Mach :=
  let m1 :=
    if f < 4 then
      let t : Fin 4 := ix 4 f
      (((m.rejoinRegs t).freshMx t).clearTags t |>.checkRecords fun r => r.type == 4 && r.dest / 2 ^ 30 == f).checkRecords fun r => r.type == 6 && r.dest.testBit f
    else m
  (fnCores f).foldl Mach.rejoinCore m1

/-! ## The frog machine (R415-R428) -/

def frogSource (f : Nat) : Src := { fn := f }

/-- Units of 64 ticks since FENCE. -/
def Mach.frogLast (m : Mach) (r : FrogRun) (outcome : Nat) : Mach :=
  (((m.put FrFrogLast.duration (Nat.min ((m.now - r.start) / 64) 0xFFFFFF)).put FrFrogLast.func r.fn).put FrFrogLast.outcome outcome).flag FrFrogLast.valid

/-- Begin times of a function's frogs, newest first, at most four (R421). -/
def noFrogs : Nat → List Nat := fun _ => []
def Mach.frogTimes (m : Mach) (f : Nat) : List Nat := Tab.get noFrogs m.frc.history f

/-- Would a frog that begins now be the fifth within 1 s? -/
def Mach.atFrogLimit (m : Mach) (f : Nat) : Bool :=
  match (m.frogTimes f)[3]? with | some t => decide (m.now - t ≤ 960000000) | none => false

/-- FENCE of a frog or bind-off begins. -/
def Mach.fence (m : Mach) (f : Nat) (kind : FrogKind) : Mach :=
  let stepping := if f < 4 then (List.range 96).filter fun s => m.skState s != skNone && m.skFlag s 5 else []
  let hist := if kind = .frog then Tab.set noFrogs m.frc.history f ((m.now :: m.frogTimes f).take 4) else m.frc.history
  let m1 : Mach :=
    { m with frc := { m.frc with history := hist, cur := some { fn := f, kind := kind, step := .fence, start := m.now, stepping := stepping } } }
  let m2 := if f = 6 then m1.msgFence else m1
  let m3 := (m2.setFn (ix 19 f) (if kind = .frog then .frogging else .down)).stopSwatch f
  if f = 4 then m3.voidHeld else if 10 ≤ f ∧ f ≤ 15 then m3.silence (f - 10) else m3

/-- ENABLE's RESET begins: the islands restart (R419). -/
def Mach.startEnable (m : Mach) (f : Nat) : Mach :=
  ({ m with frc := { m.frc with cur := some { fn := f, kind := .enable, step := .reset, start := m.now, stepping := [] } } } : Mach).clockFn f false

/-- One request begins. A frog at the limit of R421 is a bind-off. -/
def Mach.beginFrog (m : Mach) (f : Nat) (kind : FrogKind) : Mach :=
  match kind with
  | .enable => if m.fn (ix 19 f) = .off then m.startEnable f else m
  | .bindOff => if m.fn (ix 19 f) = .off then m else m.fence f .bindOff
  | .frog =>
    if m.fn (ix 19 f) = .off then m
    else if m.atFrogLimit f then ((m.flag FrStatus.frogLimit).record Flt.frogLimit (frogSource f) [] 2).fence f .bindOff
    else m.fence f .frog

/-- May FRC begin a request now (R54, R70)? -/
def Mach.frcReady (m : Mach) : Bool :=
  m.frc.cur.isNone && m.pw.trans == .none && (m.phase == phRunning || m.phase == phIdle || m.phase == phFailed)

/-- Begin waiting requests in arrival order; one that has no effect leaves the next to begin. -/
def serveFrom : Nat → Mach → Mach
  | 0, m => m
  | n + 1, m =>
    if !m.frcReady then m
    else
      match m.frc.queue with
      | [] => m
      | (f, k) :: rest => serveFrom n (({ m with frc := { m.frc with queue := rest } } : Mach).beginFrog f k)

/-- What waited for FRC or for a transition to end goes on: a latched power target first (R53, R54), then FRC's queue. -/
def Mach.serveFrc (m : Mach) : Mach := serveFrom 20 (m.actPending m.frc.cur.isNone)

/-- Has cast-on or re-cast brought a function into service since it last started (R423)? A power state that holds it out of service
does not count against it. -/
def Mach.broughtUp (m : Mach) (f : Nat) : Bool :=
  match m.fn (ix 19 f) with
  | .down => (m.phase == phRetention || (match m.frc.cur with | some r => r.fn == f | none => false)) && m.fnAllowed f
  | _ => true

/-- A queued request of a function becomes a bind-off. -/
def queueBind (q : List (Nat × FrogKind)) (f : Nat) : List (Nat × FrogKind) := q.map fun e => if e.1 = f then (f, .bindOff) else e

/-- A request joins the queue, or strengthens the one that waits there. -/
def Mach.enqueue (m : Mach) (f : Nat) (kind : FrogKind) : Mach :=
  let q := m.frc.queue
  let q1 := if q.any fun e => e.1 == f then (if kind = .bindOff then queueBind q f else q) else if q.length < 19 then q ++ [(f, kind)] else q
  ({ m with frc := { m.frc with queue := q1 } } : Mach).serveFrc

/-- A request that meets the frog or bind-off in progress of its function (R423). -/
def Mach.mergeFrog (m : Mach) (r : FrogRun) (kind : FrogKind) : Mach :=
  match kind, r.kind, r.step with
  | .bindOff, .frog, .fence =>
    ({ m with frc := { m.frc with cur := some { r with kind := .bindOff } } } : Mach).setFn (ix 19 r.fn) .down
  | .bindOff, .bindOff, _ => m
  | .bindOff, _, _ => m.enqueue r.fn .bindOff
  | _, _, _ => m

/-- FROG, BIND_OFF or ENABLE for a function (R423); discarded while an escalated re-cast is starting (R426). -/
def Mach.frcRequest (m : Mach) (f : Nat) (kind : FrogKind) : Mach :=
  if 19 ≤ f ∨ m.phase = phReset ∨ m.frc.escStarting then m
  else if !m.broughtUp f then m.flag FrStatus.reqDenied
  else
    match m.frc.cur with
    | some r =>
      if r.fn = f then m.mergeFrog r kind
      else if (m.fn (ix 19 f) = .off) = (kind = .enable) then m.enqueue f kind else m
    | none => if (m.fn (ix 19 f) = .off) = (kind = .enable) then m.enqueue f kind else m

/-! ## Escalation (R422) -/

/-- The write of key 0x0002 before the cast-on of ESC_CAST_ON: it has ended, or 50 ms have passed without its end; which, and how long it
took, is left open. -/
def Mach.escWrite (m : Mach) : Mach :=
  if m.nvmFallback ∨ !m.up fnNvm then m
  else
    let a := m.freshBelow 2
    let b := a.2.freshBelow (50 * ms + 1)
    let m1 := b.2.elapse b.1
    if a.1 = 1 then (m1.llPerform { op := 1, key := 2, data := m.recentBytes, device := true, firmware := false }).2 else m1.llDevice 2 m.recentBytes

/-- ESC_RECAST, and at the third within 10 s ESC_CAST_ON with its cast-on. A re-cast from RUNNING waits for the end of the row, and until then
a frog in progress goes on (log entry 66). -/
def Mach.escalate (m : Mach) : Mach :=
  let times := m.frc.escTimes.filter fun t => decide (m.now - t ≤ 9600000000)
  let m2 := ((m.flag FrStatus.escalated).bump FrEscStat.recasts)
  if 2 ≤ times.length then
    let m3 := ((m2.record Flt.escRecast {} [] 4).record Flt.escCastOn {} [] 4).bump FrEscStat.castOns
    ({ m3 with frc := { m3.frc with escTimes := [] } } : Mach).escWrite.castOn
  else
    let m3 := m2.record Flt.escRecast {} [] 3
    let m4 : Mach := { m3 with frc := { m3.frc with escTimes := times ++ [m3.now], escStarting := true } }
    if m4.phase = phRunning then { m4 with pw := { m4.pw with trans := .toRecast false } } else (m4.recastNow false).serveFrc

/-- The action that an escalation takes, for the record of the fault that causes it: re-cast or cast-on. -/
def Mach.escAction (m : Mach) : Nat := if 2 ≤ (m.frc.escTimes.filter fun t => decide (m.now - t ≤ 9600000000)).length then 4 else 3

/-! ## Faults with an action (R411, R424, Table FR-3) -/

/-- Is a function in FENCE to REJOIN? -/
def Mach.inFrog (m : Mach) (f : Nat) : Bool := match m.frc.cur with | some r => r.fn == f | none => false

/-- May FRC escalate: a pattern is loaded, in RUNNING or IDLE (log entry 66)? -/
def Mach.canEscalate (m : Mach) : Bool := m.phase == phRunning || m.phase == phIdle

/-- A fault whose action is a frog of the function of an island, or a re-cast when it has none or is a tile router. -/
def Mach.raiseAt (m : Mach) (code : Nat) (src : Src) (args : List Nat) (island : Nat) : Mach :=
  if m.inFrog src.fn then m.record code src args 0 true
  else
    match (if isTrt island then none else islandFn island) with
    | none =>
      if m.frc.escStarting then m.record code src args 3
      else if m.canEscalate then (m.record code src args m.escAction).escalate
      else m.record code src args
    | some f => if m.fn f = .off ∨ !m.broughtUp f ∨ m.frc.escStarting then m.record code src args else (m.record code src args 1).frcRequest f .frog

/-- A fault of a function that FRC frogs. -/
def Mach.raiseFn (m : Mach) (code : Nat) (src : Src) (args : List Nat) (f : Fin 19) : Mach :=
  if m.inFrog f then m.record code src args 0 true
  else if m.fn f = .off ∨ !m.broughtUp f ∨ m.frc.escStarting then m.record code src args
  else (m.record code src args 1).frcRequest f .frog

/-! ## The commands -/

/-- May a path write FR registers? -/
def Mach.frOpen (m : Mach) (p : Path) : Bool := m.pathUp p && m.reaches 0x30000

def execFrog (p : Path) (fn : BitVec 5) (s : State) : Host.Outcome State Fault Refusal :=
  s.onM fun m => if m.frOpen p then m.frcRequest fn.toNat .frog else m
def execBindOff (p : Path) (fn : BitVec 5) (s : State) : Host.Outcome State Fault Refusal :=
  s.onM fun m => if m.frOpen p then m.frcRequest fn.toNat .bindOff else m
def execEnable (p : Path) (fn : BitVec 5) (s : State) : Host.Outcome State Fault Refusal :=
  s.onM fun m => if m.frOpen p then m.frcRequest fn.toNat .enable else m

/-- A bind-off ends, or a frog that failed its clock check: the clocks stop and the function reads OFF (R418, R419). -/
def Mach.endBound (m : Mach) (r : FrogRun) (outcome : Nat) : Mach :=
  let m1 := ((m.setFn (ix 19 r.fn) .off).clockFn r.fn true).frogLast r outcome
  ({ m1 with frc := { m1.frc with cur := none } } : Mach).writerNext.serveFrc

/-- CUT: the end of DRAIN. A frog goes on to RESET, a bind-off ends. -/
def Mach.cut (m : Mach) : Mach :=
  match m.frc.cur with
  | some r =>
    if r.step = .fence then
      let m1 := m.cutFn r.fn
      match r.kind with
      | .bindOff => m1.endBound r 1
      | _ => ({ m1 with frc := { m1.frc with cur := some { r with step := .reset } } } : Mach).clockFn r.fn false
    else m
  | none => m

/-- CUT of the links too (R131): requests are answered with the function's VOID status (R416). -/
def execCut (s : State) : Host.Outcome State Fault Refusal :=
  match s.m.frc.cur with
  | some r =>
    if r.step = .fence then
      .next { s with links := cutLinks r.fn s.links, net := s.net.cut r.fn s.links (voidStatus (s.m.fn (ix 19 r.fn))), m := s.m.cut }
    else .next s
  | none => .next s

/-- REJOIN: the clock check passed and the rejoin work runs, or island i of the function failed it (R418). -/
def Mach.rejoin (m : Mach) (failed : Option Nat) : Mach :=
  match m.frc.cur with
  | some r =>
    if r.step = .reset then
      match failed with
      | some i =>
        if islandFn i = some (ix 19 r.fn) then
          ((m.flag FrStatus.frogFail).record Flt.frogFail { fn := r.fn, island := i } [] 2).endBound r 2
        else m
      | none =>
        let m1 : Mach := { m with frc := { m.frc with cur := some { r with step := .rejoin } } }
        (if r.kind = .enable then m1.setFn (ix 19 r.fn) .down else m1).rejoinWork r.fn
    else m
  | none => m

/-- REJOIN of the links too: they start with every free slot's credit (Table FR-6). -/
def execRejoin (failed : Option (Fin 264)) (s : State) : Host.Outcome State Fault Refusal :=
  let ls := match s.m.frc.cur, failed with
    | some r, none => if r.step = .reset then rejoinLinks r.fn s.links else s.links
    | _, _ => s.links
  .next { s with links := ls, m := s.m.rejoin (failed.map Fin.val) }

/-- Skeins at a tile's REJOIN: those that were stepping restart cold, every other RESIDENT one with frames in its backlog catches up
(R290, R299). -/
def Mach.settleSkeins (m : Mach) (r : FrogRun) : Mach :=
  let m1 := r.stepping.foldl (fun acc s => if acc.skState s = skNone then acc else acc.loseState s 2 none) m
  if r.fn < 4 then
    (List.range 96).foldl (fun acc s =>
      if acc.skState s = skResident ∧ acc.sk s 0x0E 2 ≠ 0 ∧ !r.stepping.contains s then acc.skSetFlag s 2 true else acc) m1
  else m1

/-- FROG_DONE: the function is in service again. -/
def Mach.frogDone (m : Mach) : Mach :=
  match m.frc.cur with
  | some r =>
    if r.step = .rejoin then
      let m1 := if 10 ≤ r.fn ∧ r.fn ≤ 15 then (m.releaseStatic (r.fn - 10)).bring r.fn else m.bring r.fn
      let m2 := (m1.setFn (ix 19 r.fn) .up).record Flt.frogDone (frogSource r.fn) [m.now - r.start]
      let m3 := (if r.kind = .frog then m2.bump FrFrogCount.count else m2).frogLast r 0
      let m4 := ((fnCores r.fn).foldl Mach.startCore m3.raiseFloors.refreshOuts).settleSkeins r
      ({ m4 with frc := { m4.frc with cur := none } } : Mach).writerNext.serveFrc
    else m
  | none => m

def execFrogDone (s : State) : Host.Outcome State Fault Refusal := s.onM Mach.frogDone

/-- POP of the pending queue (R409). -/
def execPop (p : Path) (s : State) : Host.Outcome State Fault Refusal := s.onM fun m => if m.frOpen p then m.popPend else m

end Sys2Proof.Machine
end

