-- ==== Sys2Proof/Machine/Links.lean ====
section
/-! DEFINITION. Links between islands and the watchdogs over them: FLIT_SEND, FLIT_ARRIVAL, CREDIT_RETURN, LINK_STALL, REPLY_TIMEOUT,
CYCLE_COUNT_CHECK (04_islands_and_links.md R116-R121, R131-R136, R437). -/

namespace Sys2Proof.Machine

/-! ## FLIT_SEND -/

/-- The gauge block and port that count a flit leaving a router (R437). -/
def flitPort (src dst : Nat) : Option (Fin 5 × Nat) :=
  if src = 236 then (if isTrt dst then some (hubGauge, dst / 59) else none)
  else if isTrt src then
    some (ix 5 (src / 59), if dst = 236 then 2 else if dst / 59 = src / 59 then 3 else if dst / 59 = (src / 59) ^^^ 1 then 0 else 1)
  else none

def Mach.countFlit (m : Mach) (src dst : Nat) : Mach :=
  match flitPort src dst with
  | none => m
  | some (b, p) =>
    if !m.on (GaCtl.runF b) then m
    else
      let m1 : Mach := { m with gauges := vmod m.gauges b fun g => { g with flits := vset g.flits (ix 4 p) (vget g.flits (ix 4 p) + 1) } }
      m1.gauge b 0x40 (some p) 1

/-- May an endpoint send a head flit: class, source, length and status as Table IS-4 says; on a link to its router a request only with its tag
free and room reserved for the reply, a reply only to a request it has taken (R119, R120)? -/
def Net.mayStart (nt : Net) (src dst : Nat) (c : FlitClass) (f : Flit) : Bool :=
  flitClass f == classCode c && flitSrc f == src && decide (flitData f ≤ 16) && decide (flitStatus f ≤ if c = .reply then 4 else 0) &&
  (!isRouter dst || (match c with
    | .request => nt.mayAsk src (flitTag f)
    | .reply => nt.mayReply src f
    | .stash | .message => true))

/-- May an endpoint send this flit now: the packets of a class are contiguous, head first (R117)? -/
def Net.mayFollow (nt : Net) (src dst : Nat) (c : FlitClass) (l : Link) (f : Flit) : Bool :=
  if f.head then l.owed == 0 && nt.mayStart src dst c f else decide (0 < l.owed)

/-- The books of requests when an endpoint sends a flit. -/
def Net.noteSend (nt : Net) (src dst : Nat) (c : FlitClass) (f : Flit) : Net :=
  if !f.head || !isRouter dst then nt
  else match c with
    | .request => nt.issue f
    | .reply =>
      { nt.modReq (answeredBy f) (fun r => { r with replied := true }) with sending := Tab.set noneHeld nt.sending (keyOf src dst c) (answeredBy f) }
    | .stash | .message => nt

/-- The flit as it leaves: a reply to a request with a bad data flit has status POISON (R135). -/
def Net.outgoing (nt : Net) (dst : Nat) (c : FlitClass) (f : Flit) : Flit :=
  if f.head && isRouter dst && c == .reply && (match nt.find (answeredBy f) with | some r => r.poisoned | none => false) then poisonHead f else f

/-- An endpoint sends: it holds a credit of the class and spends it. -/
def State.endpointSend (s : State) (src dst : Fin 264) (c : FlitClass) (f : Flit) : State :=
  let k := linkKey src dst c
  let l := linkOf s.links k
  if linkExists src dst c && s.m.linkOpen src dst && decide (0 < l.credits) && s.net.mayFollow src dst c l f then
    { s with links := putLink s.links k (l.send (s.net.outgoing dst c f)), net := s.net.noteSend src dst c f }
  else s

/-- A router forwards the flit at the front of input i, or discards it at a closed port, where a request is answered with VOID (R118, Table FR-6). -/
def State.forward (s : State) (r n : Fin 264) (c : FlitClass) (i : Nat) : State :=
  let kin := keyOf i r c
  let k := linkKey r n c
  match (linkOf s.links kin).fifo with
  | [] => s
  | x :: _ =>
    let f := x.flit
    let l := linkOf s.links k
    let shut := s.m.portShut r n c l f
    let l1 := if shut then l.discard f else l.send f
    let n1 := if f.head then s.net.turn r n c i else s.net
    let n2 : Net := { n1 with holder := Tab.set noneHeld n1.holder k (if l1.owed = 0 then 0 else i + 1) }
    let n3 := if shut && f.head && c == .request then
        n2.void (requestOf f) (match islandFn n with | some g => voidStatus (s.m.fn g) | none => .voidOff) else n2
    { s with links := putLink (putLink s.links kin (linkOf s.links kin).take) k l1, net := n3, m := if shut then s.m else s.m.countFlit r n }

/-- FLIT_SEND from a router: at its output to dst it forwards what its arbitration grants, when that is of this class; the command's flit says
nothing there. -/
def State.routerSend (s : State) (r n : Fin 264) (c : FlitClass) : State :=
  match grantAt s r n with
  | some (g, i) => if g = c ∧ linkExists r n c then s.forward r n c i else s
  | none => s

def execFlitSend (src dst : Fin 264) (cls : FlitClass) (f : Flit) (s : State) : Host.Outcome State Fault Refusal :=
  .next (if isRouter src then s.routerSend src dst cls else s.endpointSend src dst cls f)

/-! ## FLIT_ARRIVAL and CREDIT_RETURN -/

def execFlitArrival (src dst : Fin 264) (cls : FlitClass) (s : State) : Host.Outcome State Fault Refusal :=
  let k := linkKey src dst cls
  let l := linkOf s.links k
  .next { s with links := putLink s.links k l.arrive, m := if l.badHead then s.m.record Flt.linkParity (srcIsl dst) [] else s.m }

/-- The receiver takes its oldest visible flit. An endpoint takes every flit; a router only those of a packet that it forwards nowhere, the
others leave it by FLIT_SEND. What a stream link carries goes into the receiving block. -/
def State.takeFlit (s : State) (src dst : Fin 264) (c : FlitClass) : State :=
  let k := linkKey src dst c
  let l := linkOf s.links k
  match l.fifo with
  | [] => s
  | x :: _ =>
    if isRouter dst then
      (if (if x.flit.head then (nextHop dst (flitDest x.flit)).isNone else decide (0 < (Tab.get noTaking s.net.taking k).left)) then
        { s with links := putLink s.links k l.take, net := s.net.sink k x } else s)
    else { s with links := putLink s.links k l.take, net := if isRouter src then s.net.takeFlit k dst c x else s.net }

def execCreditReturn (src dst : Fin 264) (cls : FlitClass) (s : State) (edge : CreditEdge := .freed) : Host.Outcome State Fault Refusal :=
  .next (match edge with
    | .freed => s.takeFlit src dst cls
    | .back => { s with links := putLink s.links (linkKey src dst cls) (linkOf s.links (linkKey src dst cls)).back })

/-! ## Watchdogs (R133, R134, R136) -/

/-- A stall: recorded, counted, and the receiving function is frogged. -/
def Mach.linkStall (m : Mach) (src dst : Fin 264) (c : FlitClass) : Mach :=
  let m1 := ((m.put IsStallLast.src src).put IsStallLast.dest dst).put IsStallLast.classF (classCode c)
  ((m1.flag IsStallLast.valid).bump IsStallCount.count).raiseAt Flt.linkStall (srcIsl src) [] dst

/-- LINK_STALL needs a link whose sender has no credit left. -/
def execLinkStall (src dst : Fin 264) (cls : FlitClass) (s : State) : Host.Outcome State Fault Refusal :=
  if linkExists src dst cls && (linkOf s.links (linkKey src dst cls)).credits == 0 && s.m.phase != phReset then
    s.onCast fun m => m.linkStall src dst cls
  else .next s

/-- The core that an island is. -/
def islandCore (i : Nat) : Option (Fin 10) := (List.range 10).findSome? fun c => if (coreIsland (ix 10 c)).val = i then some (ix 10 c) else none

/-- Does a core's access go to a function (no function: a block that none gates)? -/
def accessTo (g : Option (Fin 19)) (addr : Word) : Bool := targetGate (Machine.target (addr.toNat - mapBase)) == g

/-- The first store that waits for its reply from a function gets a status. -/
def voidStore (g : Option (Fin 19)) (st : Status) : List (Word × Status) → List (Word × Status)
  | [] => []
  | (a, x) :: rest => if x = .ok ∧ accessTo g a then (a, st) :: rest else (a, x) :: voidStore g st rest

/-- A core's outstanding access to a function is answered: a device load, else the oldest device store. -/
def Core.voidAccess (k : Core) (g : Option (Fin 19)) (st : Status) : Core :=
  match k.devLoad with
  | some d => if accessTo g d.addr then { k with devLoad := some { d with status := st } } else { k with stores := voidStore g st k.stores }
  | none => { k with stores := voidStore g st k.stores }

/-- The status of the VOID that answers a timed-out request, once FRC has acted: OFF when the function is bound off or being so (R416, R421). -/
def Mach.timeoutStatus (m : Mach) (g : Option (Fin 19)) : Status :=
  match g with
  | some f => (match m.fn f with | .off | .down => .voidOff | .up | .frogging => .voidReset)
  | none => .voidReset

/-- REPLY_TIMEOUT: the target's function is frogged, and a core that asks gets VOID. -/
def Mach.replyTimeout (m : Mach) (requester target : Fin 264) : Mach :=
  if m.phase = phReset then m
  else
    let m1 := m.raiseAt Flt.replyTimeout (srcIsl target) [] target
    match islandCore requester with
    | some c => m1.modCore c fun k => k.voidAccess (islandFn target) (m1.timeoutStatus (islandFn target))
    | none => m1

/-- The requester's oldest outstanding request to the target is answered with VOID (R120, R134). -/
def Net.timeout (nt : Net) (requester target : Nat) (st : Status) : Net :=
  match nt.reqs.find? fun r => r.src == requester && r.dst == target with
  | some r => nt.answer r st []
  | none => nt

def execReplyTimeout (requester target : Fin 264) (s : State) : Host.Outcome State Fault Refusal :=
  if s.m.phase = phReset then .next s
  else
    let m1 := s.m.replyTimeout requester target
    if m1.linkEpoch = s.m.linkEpoch then .next { s with net := s.net.timeout requester target (m1.timeoutStatus (islandFn target)), m := m1 }
    else .next { s with links := [], net := Net.reset, m := m1 }

/-- Is an island in service for the clock check (R136)? -/
def Mach.clockChecked (m : Mach) (i : Nat) : Bool :=
  if i = 238 ∨ m.phase = phReset then false
  else if i = 237 ∨ i = 239 then true
  else
    match islandFn i with
    | some f => m.up f
    | none => m.phase != phRetention || i == 236

/-- Read every island's count: which have advanced fewer than 1,000 cycles since the last reading. -/
def Mach.slowIslands (m : Mach) : List Nat :=
  (List.range 264).filter fun i =>
    m.clockChecked i && (match (m.isl (ix 264 i)).lastRead with
      | some n => decide (((m.isl (ix 264 i)).cycles + 2 ^ 64 - n) % 2 ^ 64 < 1000)
      | none => false)

def Mach.noteReadings (m : Mach) : Mach :=
  { m with islands := Vector.ofFn fun i => { m.isl i with lastRead := if m.clockChecked i.val then some (m.isl i).cycles else none } }

/-- The clock of an island has failed since FRC's last reading: fewer than 1,000 cycles, a free number, have passed since then. -/
def Mach.slowClock (m : Mach) (i : Fin 264) : Mach :=
  match (m.isl i).lastRead with
  | some n => let r := m.freshBelow 1000; r.2.modIsl i fun x => { x with cycles := (n + r.1) % 2 ^ 64 }
  | none => m

/-- CYCLE_COUNT_CHECK at the next multiple of 9,600 ticks, with the islands whose clocks have failed meanwhile; once an escalation has restarted
the islands, no more are judged. -/
def Mach.cycleCheck (m : Mach) (failing : List (Fin 264)) : Mach :=
  let m1 := failing.foldl Mach.slowClock (m.advanceTo (nextMultiple m.now 9600))
  m1.slowIslands.foldl (fun acc i => if acc.linkEpoch = m1.linkEpoch then acc.raiseAt Flt.islandClock (srcIsl i) [] i else acc) m1.noteReadings

def execCycleCountCheck (s : State) (failing : List (Fin 264) := []) : Host.Outcome State Fault Refusal := s.onTimeCast fun m => m.cycleCheck failing

end Sys2Proof.Machine
end

