-- ==== Sys2Proof/Machine/Power.lean ====
section
/-! DEFINITION. Power, pins, sensors and clocks: the resets, COLD_CAST_ON, the power-state commands, the timebase and audio references, PERST_N
and the PCI Express link (02_package_supplies_clocks.md R44-R49, R55-R61; 12 R373, R398), and the requests of CO_CTL (03 R88, R100, R102). -/

namespace Sys2Proof.Machine

/-! ## Resets (R45, R55, R57) -/

/-- Is a monitored rail above its threshold? -/
def Power.railOk (p : Power) : MonRail → Bool
  | .core => p.coreOk | .sram => p.sramOk | .io18 => p.io18Ok | .stash => p.stashOk | .vddq => p.vddqOk
def Power.setRail (p : Power) (r : MonRail) (ok : Bool) : Power :=
  match r with
  | .core => { p with coreOk := ok } | .sram => { p with sramOk := ok } | .io18 => { p with io18Ok := ok }
  | .stash => { p with stashOk := ok } | .vddq => { p with vddqOk := ok }

def monRails : List MonRail := [.io18, .sram, .core, .stash, .vddq]
/-- The step of Table PB-8 at which a monitored rail reaches its range; VDD_AON's is 1. -/
def railStep : MonRail → Nat
  | .io18 => 2 | .sram => 3 | .core => 4 | .stash | .vddq => 5

/-- A monitored rail rises above its threshold: a violation when one of an earlier step is still below its own (R58). -/
def Power.rise (p : Power) (r : MonRail) : Power :=
  if p.railOk r then p
  else { p.setRail r true with orderBad := p.orderBad || monRails.any fun q => railStep q < railStep r && !p.railOk q }

def Power.allOk (p : Power) : Bool := monRails.all p.railOk

/-- VDD_AON rises while the rails `up` are above their thresholds: everything starts afresh but the flash, the host's memory and the levels at
the pins; an NVM operation is cut. A rail that rose before VDD_AON, which is step 1 of Table PB-8, is a violation (R58). -/
def Mach.powerOn (m0 : Mach) (up : List MonRail) : Mach :=
  let m := m0.abortNvm false
  let rails := fun (p : Power) => monRails.foldl (fun acc r => acc.setRail r (up.contains r)) p
  { Mach.reset with
    free := m.free, linkEpoch := m.linkEpoch + 1, flash := m.flash, host := { HostSide.reset with mem := m.host.mem, msix := m.host.msix, errSent := m.host.errSent }
    pw := rails { Power.reset with
      straps := m.pw.straps, vbus := m.pw.vbus, amclk := m.pw.amclk, refclk := m.pw.refclk, pcieRefclk := m.pw.pcieRefclk
      orderBad := up.any fun r => !m.pw.railOk r
      afeOk := m.pw.afeOk, pcieOk := m.pw.pcieOk, temps := m.pw.temps, vrExp := m.pw.vrExp, vout := m.pw.vout, vrBoard := m.pw.vrBoard
      vrAnswers := m.pw.vrAnswers, stashTrains := m.pw.stashTrains } }

def execPowerOn (s : State) (up : List MonRail := []) : Host.Outcome State Fault Refusal := s.onCast fun m => m.powerOn up

def Mach.porstLow (m : Mach) : Mach :=
  let m1 := m.enterReset.flag GlResetCause.porst
  { m1 with pw := { m1.pw with porst := false } }
def execPorstNAssert (s : State) : Host.Outcome State Fault Refusal := s.onCast Mach.porstLow

def Mach.pwrokFall (m : Mach) : Mach :=
  let m1 := m.enterReset.flag GlResetCause.pwrok
  { m1 with pw := { m1.pw with pwrok := false } }
def execPwrokFall (s : State) : Host.Outcome State Fault Refusal := s.onCast Mach.pwrokFall

/-- The cause bit of a rail. -/
def railCause : MonRail → Fld
  | .core => GlResetCause.uvCore | .sram => GlResetCause.uvSram | .io18 => GlResetCause.uvIo18
  | .stash | .vddq => GlResetCause.uvStash
def Mach.undervoltage (m : Mach) (r : MonRail) : Mach :=
  let m1 := m.enterReset.flag (railCause r)
  { m1 with pw := m1.pw.setRail r false }
def execUndervoltage (rail : MonRail) (s : State) : Host.Outcome State Fault Refusal := s.onCast fun m => m.undervoltage rail

/-- COLD_CAST_ON: in phase RESET the rails of `rises` rise in that order, then PWROK and PORST_N are high. After a thermal trip PORST_N must
have been low first (R45). The device stays in RESET until every monitored rail is within range, then notes an order violation that the
supervisor found, and casts on (R56-R58). -/
def Mach.coldCastOn (m : Mach) (rises : List MonRail) : Mach :=
  if m.phase ≠ phReset ∨ (m.pw.thermtrip ∧ m.pw.porst) then m
  else
    let p := rises.foldl Power.rise m.pw
    let m1 : Mach := { m with pw := { p with porst := true, pwrok := true, thermtrip := false } }
    if !p.allOk then m1
    else
      let m2 := if p.orderBad then m1.flag GlResetCause.orderViolation else m1
      ({ m2 with pw := { m2.pw with orderBad := false } } : Mach).castOn.serveFrc

def execColdCastOn (s : State) (rises : List MonRail := monRails) : Host.Outcome State Fault Refusal := s.onCast fun m => m.coldCastOn rises

/-! ## Sensors (R44, R45, Table PB-23) -/

/-- SENSOR_READING. In phase RESET no sensor runs, and the temperature is the one that the sensor meets when step 4 starts it. -/
def Mach.sensorReading (m : Mach) (i : Fin 16) (temp : BitVec 11) : Mach :=
  let m1 : Mach := { m with pw := { m.pw with temps := vset m.pw.temps i temp } }
  if m.phase = phReset then m1
  else
    let m2 := ({ m1 with pw := { m1.pw with tempsValid := m1.pw.tempsValid ||| BitVec.ofNat 16 (2 ^ i.val) } } : Mach).noteTemp temp.toInt
    if tripTemp ≤ temp.toInt then m2.thermalTrip else m2

def execSensorReading (sensor : Fin 16) (temp : BitVec 11) (s : State) : Host.Outcome State Fault Refusal :=
  s.onCast fun m => m.sensorReading sensor temp

/-! ## References (R60, R61, R368) -/

def Mach.xtalLost (m : Mach) : Mach :=
  let m1 : Mach := { m with pw := { m.pw with refclk := false } }
  if m.tbOn ∧ m.on GlClkstat.xtalOk then ((m1.flag GlClkstat.xtalLost).put GlClkstat.xtalOk 0).record Flt.xtalLost (srcIsl 239) [] else m1
def execXtalLost (s : State) : Host.Outcome State Fault Refusal := s.onM Mach.xtalLost

def Mach.relock (m : Mach) : Mach :=
  let m1 : Mach := { m with pw := { m.pw with refclk := true } }
  if m.tbOn then m1.put GlClkstat.xtalOk 1 else m1
def execTimebaseRelock (s : State) : Host.Outcome State Fault Refusal := s.onM Mach.relock

/-- AMCLK_IN stops: a loss when it is the selected clock of a domain (R61). -/
def Mach.amclkLost (m : Mach) : Mach :=
  let m1 : Mach := { m with pw := { m.pw with amclk := false } }
  let m2 := ((List.range 6).filter m.onAmclk).foldl Mach.silence m1
  if (List.range 6).any m.onAmclk then (m2.flag GlClkstat.amclkLost).record Flt.amclkLost (srcIsl 239) [] else m2
def execAmclkLost (s : State) : Host.Outcome State Fault Refusal := s.onM Mach.amclkLost

def Mach.amclkReturn (m : Mach) : Mach := ({ m with pw := { m.pw with amclk := true } } : Mach).refreshOuts
def execAmclkInReturn (s : State) : Host.Outcome State Fault Refusal := s.onM Mach.amclkReturn

/-! ## Power states (R47-R49) -/

/-- May a path write GL registers? -/
def Mach.glOpen (m : Mach) (p : Path) : Bool := m.pathUp p && m.reaches 0x110

def Mach.askTarget (m : Mach) (p : Path) (t : Nat) : Mach := if m.glOpen p then (m.writeTarget t).serveFrc else m

def execTargetIdle (p : Path) (s : State) : Host.Outcome State Fault Refusal := s.onCast fun m => m.askTarget p psIdle
def execTargetRetention (p : Path) (s : State) : Host.Outcome State Fault Refusal := s.onCast fun m => m.askTarget p psRetention
def execTargetRun (p : Path) (s : State) : Host.Outcome State Fault Refusal := s.onTimeCast fun m => m.askTarget p psRun

/-- Is every link quiet (R132)? -/
def State.quiet (s : State) : Bool := s.links.all fun e => e.2.quiet

/-- RETENTION_ENTRY, once every link is quiet. -/
def Mach.retentionEntry (m : Mach) (quiet : Bool) : Mach :=
  if m.phase = phIdle ∧ m.pw.trans = .toRetention ∧ quiet then m.enterRetention.serveFrc else m
def execRetentionEntry (s : State) : Host.Outcome State Fault Refusal := s.onCast fun m => m.retentionEntry s.quiet

/-! ## PERST_N and the link (R49, R67, R373, R398) -/

def Mach.perstRise (m : Mach) : Mach :=
  let m1 : Mach := { m with pw := { m.pw with perst := true } }
  if m1.phase = phRetention then
    (if m1.on GlPstateCtl.perstWake then ((m1.put GlPstateCtl.target 0).recastNow false).serveFrc else m1)
  else if m1.phase ≠ phReset ∧ m1.fn fnPcie = .down ∧ !m1.inFrog 7 then m1.bring 7
  else m1
def execPerstNRise (s : State) : Host.Outcome State Fault Refusal := s.onCast Mach.perstRise

def Mach.perstAssert (m : Mach) : Mach :=
  let m1 : Mach := { m with pw := { m.pw with perst := false } }
  if m.phase = phReset then m1 else m1.endpointReset
def execPerstNAssert (s : State) : Host.Outcome State Fault Refusal := s.onM Mach.perstAssert

def execLinkDown (_hotReset : Bool) (s : State) : Host.Outcome State Fault Refusal :=
  s.onM fun m => if m.phase = phReset then m else m.endpointReset

/-- LINK_TRAINED: the link is up at a speed and width; it needs PERST_N high and the endpoint in service. -/
def Mach.linkTrained (m : Mach) (speed width : Nat) : Mach :=
  if m.pw.perst ∧ m.up fnPcie then
    let m1 : Mach := { m with host := { m.host with linkUp := true } }
    (m1.put HlPcieStat.speed speed).put HlPcieStat.width width
  else m
def execLinkTrained (speed width : BitVec 3) (s : State) : Host.Outcome State Fault Refusal :=
  s.onM fun m => m.linkTrained speed.toNat width.toNat

/-! ## CO_CTL (R88, R100, R102, Table CO-13) -/

/-- Is a request for a re-cast or cast-on turned away now (R102)? DESIGN CHOICE (log entry 78): a bind-off or an ENABLE in progress counts as
a frog in progress, which the spec does not say. -/
def Mach.castBusy (m : Mach) : Bool :=
  m.phase == phCasting || m.phase == phRecasting || m.phase == phRetention || m.frc.cur.isSome

/-- A transition that has not reached its state gives way to a re-cast: from RUNNING its target waits, latched, until the re-cast has ended
(R53, R102); a re-cast from IDLE sets the target to RUN (R88). -/
def Mach.setTransAside (m : Mach) : Mach :=
  let m1 : Mach := { m with pw := { m.pw with trans := .none } }
  if m.phase ≠ phRunning ∨ m.on GlPstateStat.pendValid then m1
  else match m.pw.trans with
    | .toIdle => m1.latchTarget psIdle
    | .toRetention => m1.latchTarget psRetention
    | .none | .toRecast _ => m1

/-- RECAST and RECAST_RELOAD. In RESET and FAILED they are not acted on; of two requests that wait for the same row end the later one counts
(log entry 51). -/
def Mach.opRecast (m : Mach) (reload : Bool) : Mach :=
  if m.castBusy ∨ !(m.phase == phRunning || m.phase == phIdle) then m.flag CoStatus.reqIgnored
  else (m.setTransAside.askRecast reload).serveFrc

/-- CAST_ON: a cast-on from step 1 without an AON reset. -/
def Mach.opCastOn (m : Mach) : Mach := if m.castBusy then m.flag CoStatus.reqIgnored else m.castOn.serveFrc

/-- RESCAN begins. DESIGN CHOICE (log entry 78): one asked for while another runs, while function 0x12 does not serve, or in the single-line
fallback is not acted on and sets req_ignored; the spec does not say what it does then. -/
def Mach.opRescan (m : Mach) : Mach :=
  if m.cast.rescanning ∨ (m.nvmRefusal nvBusy nvDown).isSome ∨ m.nvmFallback then m.flag CoStatus.reqIgnored
  else ({ m with cast := { m.cast with rescanning := true } } : Mach).put CoStatus.busy 1

/-- A write of CO_CTL: prefer is kept, an op needs its guard. -/
def Mach.writeCoCtl (m : Mach) (v : Word) : Mach :=
  let m1 := m.typedWrite CoCtl.reg v
  if CoCtl.guard.of v ≠ 0x5A then m1
  else match CoCtl.op.of v with
    | 1 => m1.opRecast false
    | 2 => m1.opRecast true
    | 3 => m1.opCastOn
    | 4 => m1.opRescan
    | _ => m1

def execRecast (p : Path) (s : State) : Host.Outcome State Fault Refusal := s.onCast fun m => if m.coOpen p then m.opRecast false else m
def execRecastReload (p : Path) (s : State) : Host.Outcome State Fault Refusal := s.onCast fun m => if m.coOpen p then m.opRecast true else m
def execCastOn (p : Path) (s : State) : Host.Outcome State Fault Refusal := s.onCast fun m => if m.coOpen p then m.opCastOn else m
def execRescan (p : Path) (s : State) : Host.Outcome State Fault Refusal := s.onM fun m => if m.coOpen p then m.opRescan else m

/-- Every record of a signed copy, read and checked (R83, R84, R100). -/
def readAll (copy : Bool) (base : Nat) (other : Option Nat) : List RecEntry → List (RecEntry × Option (List Byte)) → Mach → List (RecEntry × Option (List Byte)) × Mach
  | [], acc, m => (acc, m)
  | r :: rs, acc, m => let c := m.readRecord copy base other r; readAll copy base other rs (acc ++ [(r, c.data)]) c.m

/-- What a RESCAN finds of a copy: a candidate whose records can be read, and its signature good. -/
structure Rescan where
  sound : Bool
  signed : Bool
  m : Mach

/-- A RESCAN's reading of one copy (R100): the header, the record table and, when the copy is signed, every record with its signature; what
the readings find is logged as R82 and R84 say. -/
def Mach.rescanCopy (m : Mach) (copy : Bool) (h : Option ImgHdr) (base : Nat) (other : Option Nat) : Rescan :=
  match h with
  | none => ⟨false, false, m⟩
  | some h =>
    if !m.headerOk h base then ⟨false, false, m⟩
    else
      let t := m.readTable copy base other h
      match t.data with
      | none => ⟨false, false, t.m⟩
      | some bs =>
        let rs := recTable h.count bs
        if !tableOkay h rs then ⟨false, false, t.m⟩
        else if !h.signed then ⟨true, false, t.m⟩
        else
          let d := readAll copy base other rs [] t.m
          if d.1.any fun x => x.2.isNone then ⟨false, false, d.2⟩
          else if signatureOk h bs (d.1.map fun x => (x.1, x.2.getD [])) then ⟨true, true, d.2⟩
          else ⟨true, false, d.2.record Flt.sigFail {} []⟩

/-- RESCAN_END: CO_IMG_STAT and the generations; the copy that is not running may then serve live updates when its generation exceeds the
running one's, as R99 asks of a new image, and when the fuse is set only with its signature good (R100, R101, log entry 53). -/
def Mach.rescanEnd (m : Mach) : Mach :=
  if !m.cast.rescanning then m
  else
    let x := m.readPair
    let bBase := if x.base = 0 then none else some x.base
    let a := x.m.rescanCopy false x.a 0 bBase
    let b := match bBase with | none => ⟨false, false, a.m⟩ | some base => a.m.rescanCopy true x.b base (some 0)
    let m0 := b.m
    let state := fun (r : Rescan) => if r.sound then 1 else 2
    let m1 := ((m0.put CoImgStat.aState (state a)).put CoImgStat.bState (if bBase.isNone then 0 else state b)).put CoStatus.busy 0
    let m2 := (m1.put CoImgAGen.gen (m.shownGen (some 0))).put CoImgBGen.gen (m.shownGen bBase)
    let inactive := !m.runningCopy
    let gen := match (if inactive then x.b else x.a) with | some h => h.generation | none => 0
    let seen := if inactive then b else a
    let pass := seen.sound && (seen.signed || !Config.sigRequired) && decide (m.cast.generation < gen)
    { m2 with cast := { m2.cast with
        rescanning := false, rescanA := a.sound, rescanB := b.sound, suspended := []
        live := if pass ∧ m.cast.loaded then some inactive else none } }
def execRescanEnd (s : State) : Host.Outcome State Fault Refusal := s.onM Mach.rescanEnd

end Sys2Proof.Machine
end

