-- ==== Sys2Proof/Machine/RegRead.lean ====
section
/-! DEFINITION. What a read of one 32-bit word returns at an address of the register map (R4, R5, R7-R14): the stored fields, and the
fields that mirror other state, computed at the read. -/

namespace Sys2Proof.Machine

/-- A word with fields replaced. -/
def withFields (w : Word) (fs : List (Fld × Nat)) : Word := fs.foldl (fun acc e => putBits acc e.1.hi e.1.lo e.2) w

/-! ## GL (Tables PA-9 to PA-13, PB-20, PB-22) -/

def Mach.supplyWord (m : Mach) : Nat :=
  b2n m.pw.pcieOk + 2 * b2n m.pw.afeOk + 4 * b2n m.pw.coreOk + 8 * b2n m.pw.sramOk + 16 * b2n m.pw.io18Ok + 32 * b2n m.pw.stashOk +
    64 * b2n m.pw.vddqOk + 128 * b2n m.pw.pwrok

/-- `GL_PSTATE_STAT.current`. -/
def Mach.psCurrent (m : Mach) : Nat := if m.phase = phIdle then psIdle else if m.phase = phRetention then psRetention else psRun
/-- A power-state transition is in progress (R47, R48). -/
def Mach.psBusy (m : Mach) : Bool := m.pw.trans == .toIdle || m.pw.trans == .toRetention

/-- A GL register as it reads. The edges of PCIE_REFCLK and AMCLK_IN are counted by the timebase once it has locked (log entry 3). -/
def Mach.glWord (m : Mach) (a : Nat) : Word :=
  let w := m.reg a
  if a = GlCaps.reg then withFields w [(GlCaps.sigRequired, b2n Config.sigRequired)]
  else if a = GlStatus.reg then
    withFields w [(GlStatus.funcDown, b2n (fnMask m.fns .up != 0x7FFFF)), (GlStatus.faultPending, b2n (!m.frc.pend.isEmpty))]
  else if a = GlFuncUp.reg then BitVec.ofNat 32 (fnMask m.fns .up)
  else if a = GlFuncOff.reg then BitVec.ofNat 32 (fnMask m.fns .off)
  else if a = GlTbLo.reg then m.tb.setWidth 32
  else if a = GlTbHi.reg then (m.tb >>> 32).setWidth 32
  else if a = GlUidLo.reg then Config.uid.setWidth 32
  else if a = GlUidHi.reg then (Config.uid >>> 32).setWidth 32
  else if a = GlSupply.reg then BitVec.ofNat 32 m.supplyWord
  else if a = GlClkstat.reg then
    withFields w [(GlClkstat.pcieRefclkPresent, b2n (m.tbOn && m.pw.pcieRefclk)), (GlClkstat.amclkPresent, b2n (m.tbOn && m.pw.amclk))]
  else if a = GlPstateStat.reg then withFields w [(GlPstateStat.busy, b2n m.psBusy), (GlPstateStat.current, m.psCurrent)]
  else w

/-! ## IS (Table IS-14) -/

def Mach.islWord (m : Mach) (i : Fin 264) (w : Word) : Word :=
  let x := m.isl i
  let service := match islandFn i.val with | some f => m.up f | none => !x.stopped
  withFields w [(IsIslStat.stopped i, b2n x.stopped), (IsIslStat.inService i, b2n service),
    (IsIslStat.capped i, b2n (decide (x.ceiling.toNat < x.patClk.toNat))), (IsIslStat.sched i, b2n (m.scheduled i)),
    (IsIslStat.code i, x.code.toNat)]

/-! ## FR (Tables FR-10, FR-11) -/

/-- `FR_STATUS.step`: FENCE lasts at most 1 us, then the requests drain (Table FR-6). -/
def Mach.frogStep (m : Mach) : Nat :=
  match m.frc.cur with
  | none => 0
  | some r => match r.step with
    | .fence => if m.now < r.start + 960 then 1 else 2
    | .reset => 4
    | .rejoin => 5

def Mach.frWord (m : Mach) (a : Nat) : Word :=
  let w := m.reg a
  if a = FrStatus.reg then
    withFields w [(FrStatus.pendCount, m.frc.pend.length), (FrStatus.queued, m.frc.queue.length), (FrStatus.step, m.frogStep),
      (FrStatus.func, match m.frc.cur with | some r => r.fn | none => FrStatus.func.of w), (FrStatus.busy, b2n m.frc.cur.isSome)]
  else if FrPend.reg 0 ≤ a ∧ a ≤ FrPend.reg 7 then (m.frc.pend.headD []).getD ((a - FrPend.reg 0) / 4) 0
  else w

/-! ## Gauges (Table GA-6) -/

def Mach.gaugeWord (m : Mach) (b : Fin 5) (a : Nat) : Word :=
  let g := a % 0x10000
  let x := vget m.gauges b
  if g = 0x08 then m.tb.setWidth 32
  else if g = 0x0C then (m.tb >>> 32).setWidth 32
  else if 0x40 ≤ g ∧ g < 0x140 then
    let c : Fin 8 := ix 8 ((g - 0x40) / 0x20)
    match (g - 0x40) % 0x20 with
    | 0x04 => (vget x.counts c).setWidth 32
    | 0x08 => (vget x.counts c >>> 32).setWidth 32
    | 0x14 => (vget x.ovfs c).setWidth 32
    | _ => m.reg a
  else if 0x180 ≤ g ∧ g < 0x190 then vget x.flits (ix 4 ((g - 0x180) / 4))
  else if a = GaLogWr.reg then m.reg FrFaultSeq.reg
  else m.reg a

/-! ## Tiles (Tables SP-8, MX-12, MX-13, VE-11, VE-12, TC-20) -/

/-- Bits over the four arrays of a tile. -/
def arrayBits (f : Fin 4 → Bool) : Nat := (List.range 4).foldl (fun w a => if f (ix 4 a) then w + 2 ^ a else w) 0

def Shadow.code : Shadow → Nat
  | .empty => 0 | .loading => 1 | .ready => 2

def Mach.mxStatusWord (m : Mach) (t : Fin 4) (w : Word) : Word :=
  let x := (m.tile t).mx
  let inj := arrayBits fun a => x.passes.any fun p => p.p.arrays.getLsbD a.val
  let dr := arrayBits fun a => !(vget (m.tile t).drainerQ a).current.all (·.done)
  withFields w [(MxStatus.injecting t, inj), (MxStatus.draining t, dr), (MxStatus.loading t, b2n x.loading.isSome)]

def Mach.mxEpochWord (m : Mach) (t a : Fin 4) : Word :=
  let x := vget (m.tile t).mx.arrays a
  withFields 0 [(MxEpoch.poisoned t a, b2n x.active.poisoned), (MxEpoch.loadRows t a, x.loadRows), (MxEpoch.activeValid t a, b2n x.activeValid),
    (MxEpoch.shadowState t a, x.shadowState.code), (MxEpoch.shadowEpoch t a, x.shadow.epoch.toNat), (MxEpoch.activeEpoch t a, x.active.epoch.toNat)]

def Mach.topkWord (m : Mach) (t : Fin 4) : Word :=
  match (m.tile t).mx.topk with
  | none => 0
  | some r => withFields 0 [(MxTopkStat.openF t, 1), (MxTopkStat.k t, r.k), (MxTopkStat.seen t, r.seen)]

/-- Function-table slots that hold an uncorrectable word (Table VE-12). -/
def Mach.damagedTables (m : Mach) (t : Fin 4) : Nat :=
  (List.range 16).foldl (fun w n =>
    if ((m.tile t).ve.tables.flips.any fun e => judge e.2 == .ue && decide (n * 3104 ≤ 8 * e.1 ∧ 8 * e.1 < (n + 1) * 3104)) then w + 2 ^ n else w) 0

def Mach.tileWord (m : Mach) (t : Fin 4) (a : Nat) : Word :=
  let w := m.reg a
  if a = SpRow.reg t then m.rowWord
  else if a = MxStatus.reg t then m.mxStatusWord t w
  else if MxEpoch.reg t 0 ≤ a ∧ a ≤ MxEpoch.reg t 3 then m.mxEpochWord t (ix 4 ((a - MxEpoch.reg t 0) / 4))
  else if a = MxTopkStat.reg t then m.topkWord t
  else if a = VeStatus.reg t then withFields w [(VeStatus.busy t, b2n (m.tile t).ve.run.isSome)]
  else if a = VeTblStat.reg t then withFields w [(VeTblStat.damaged t, m.damagedTables t)]
  else w

/-- A core's registers but for the debug port's data. -/
def Mach.coreWord (m : Mach) (c : Fin 10) (off a : Nat) : Word :=
  let w := m.reg a
  match off with
  | 0x04 => withFields w [(TcStat.inTrap c, b2n (m.core c).inTrap), (TcStat.state c, (m.core c).st.code)]
  | 0x08 => (m.core c).pc
  | _ => w

/-! ## STASH, AE, HL, MSG (Tables SK-11, AE-11, AE-12, HL-14 to HL-16) -/

def Mach.slotsIn (m : Mach) (u : SlotUse) : Nat := (List.range 24).countP fun i => m.slotUse i == u

def Mach.stashWord (m : Mach) (a : Nat) : Word :=
  let w := m.reg a
  if a = StashStatus.reg then
    withFields w [(StashStatus.occupied, m.slotsIn .occupied), (StashStatus.free, m.slotsIn .free), (StashStatus.moving, m.slotsIn .moving),
      (StashStatus.tokensFree, 4 - m.stash.swaps.length)]
  else w

def Mach.aeWord (m : Mach) (a : Nat) : Word :=
  let w := m.reg a
  if a = AeStatus.reg then withFields w [(AeStatus.capturing, b2n m.ae.capturing)]
  else if 0x600044 ≤ a ∧ a < 0x600084 ∧ (a - 0x600044) % 0x10 = 0 then
    let p := (a - 0x600044) / 0x10
    withFields w [(AeTdmStat.asrc p, b2n (m.ae.capturing && m.up (domainFn (2 + p)) && m.asrcIn (2 + p))),
      (AeTdmStat.locked p, b2n (m.ae.capturing && m.up (domainFn (2 + p)) && !m.ae.syncLost.getLsbD p && !m.ae.rateBad.getLsbD p))]
  else if AeCnt.reg 0 ≤ a ∧ a ≤ AeCnt.reg 6 then (vget m.ae.snapCount (ix 7 ((a - AeCnt.reg 0) / 4))).getD w
  else if AeMiss.reg 0 ≤ a ∧ a ≤ AeMiss.reg 3 then
    let k := (a - AeMiss.reg 0) / 4
    BitVec.ofNat 32 ((List.range 32).foldl (fun acc i =>
      if m.ae.capturing && decide (32 * k + i < 120) && m.chanMissing (32 * k + i) then acc + 2 ^ i else acc) 0)
  else w

def Mach.hlWord (m : Mach) (a : Nat) : Word :=
  let w := m.reg a
  if a = HlPcieId.reg then withFields w [(HlPcieId.vendor, Config.pcieVendor.toNat)]
  else if a = HlPcieStat.reg then withFields w [(HlPcieStat.perstN, b2n m.pw.perst), (HlPcieStat.bme, b2n ((m.cfgWord 0x04).getLsbD 2))]
  else if a = HlUsbId.reg then Config.usbId
  else if a = HlUsbStat.reg then withFields w [(HlUsbStat.vbus, b2n m.pw.vbus)]
  else w

def Mach.msgWord (m : Mach) (a : Nat) : Word :=
  let w := m.reg a
  if a = MsgStatus.reg then withFields w [(MsgStatus.usedKib, (m.stageUsed + 1023) / 1024)]
  else if 0x780100 ≤ a ∧ a < 0x780500 ∧ (a - 0x780100) % 0x40 = 0x1C then
    let r := (a - 0x780100) / 0x40
    withFields w [(MsgRingStat.running r, b2n (m.ringRunning r)), (MsgRingStat.inDevice r, m.inDevice r)]
  else w

/-! ## Reads -/

/-- Write-only fields read 0 (R5). -/
def maskWo (a : Nat) (w : Word) : Word :=
  match findReg a with
  | none => 0
  | some d => d.fields.foldl (fun acc f => if f.ty = .wo then putBits acc f.hi f.lo 0 else acc) w

/-- The live value of the register at an address; 0 where no chapter assigns one (R8). -/
def Mach.live (m : Mach) (a : Nat) : Word :=
  maskWo a
    (match coreAt a with
    | some (c, off) => m.coreWord c off a
    | none =>
      if a < 0x10000 then m.glWord a
      else if a < 0x20000 then m.reg a
      else if 0x21004 ≤ a ∧ a < 0x22084 ∧ (a - 0x21004) % 0x10 = 0 then m.islWord (ix 264 ((a - 0x21004) / 0x10)) (m.reg a)
      else if a < 0x30000 then m.reg a
      else if a < 0x40000 then m.frWord a
      else if a < 0x50000 then m.gaugeWord 4 a
      else if 0x100000 ≤ a ∧ a < 0x500000 then
        if a % 0x100000 / 0x10000 = 4 then m.gaugeWord (ix 5 (a / 0x100000 - 1)) a else m.tileWord (ix 4 (a / 0x100000 - 1)) a
      else if 0x600000 ≤ a ∧ a < 0x700000 then m.aeWord a
      else if 0x700000 ≤ a ∧ a < 0x780000 then m.hlWord a
      else if 0x780000 ≤ a ∧ a < 0x800000 then m.msgWord a
      else if 0x800000 ≤ a ∧ a < 0x900000 then m.stashWord a
      else m.reg a)

/-- Read the low word of a pair: the high word goes to the path's shadow (R7). -/
def Mach.readLow (m : Mach) (p : Path) (lo : Nat) : Word × Mach :=
  (m.live lo, m.setPairSt { m.pairSt (some p) lo with shadow := some (m.live (lo + 4)) })

/-- Read the high word of a pair: the shadow, which is used up, else the live word (R7). -/
def Mach.readHigh (m : Mach) (p : Path) (lo : Nat) : Word × Mach :=
  match (m.pairSt (some p) lo).shadow with
  | some v => (v, m.setPairSt { m.pairSt (some p) lo with shadow := none })
  | none => (m.live (lo + 4), m)

/-- The tile whose `VE_OC_DATA` is at an address. -/
def ocTile (a : Nat) : Option (Fin 4) := (List.range 4).findSome? fun t => if a = VeOcData.reg t then some (ix 4 t) else none

/-- What a read answers; `value` is none while it waits for a stitch boundary (R223) or for the end of a swatch test (R334). -/
structure WordRead where
  value : Option Word
  status : Status
deriving DecidableEq, Repr

/-- Read `VE_OC_DATA` (R223): at once between stitches, else at the next boundary. -/
def Mach.ocWordRead (m : Mach) (p : Path) (t : Fin 4) : WordRead × Mach :=
  let n := m.get (VeOcAddr.addr t)
  if (m.tile t).ve.run.isSome then (⟨none, .ok⟩, m.modVe t fun x => { x with oc := x.oc ++ [(n, none, p)] })
  else
    let v := (m.tile t).ve
    let bad := Tab.get goodWord v.poison (n / 2) || v.store.bad (n / 2)
    let m1 := m.veCheckWords t false (4 * n) 4
    if bad then (⟨some 0, .ok⟩, m1.flag (VeStatus.ue t)) else (⟨some (BitVec.ofNat 32 (v.store.nat (4 * n) 4)), .ok⟩, m1)

/-- Read a register over a path (R4, R5, R7, R8). -/
def Mach.regReadAt (m : Mach) (p : Path) (a : Nat) : WordRead × Mach :=
  match pairOf a with
  | some (lo, false) => let r := m.readLow p lo; (⟨some r.1, .ok⟩, r.2)
  | some (lo, true) => let r := m.readHigh p lo; (⟨some r.1, .ok⟩, r.2)
  | none =>
    match coreAt a, ocTile a with
    | some (c, 0x10), _ => let r := m.dbgRead p c; (⟨some r.1, .ok⟩, r.2)
    | _, some t => m.ocWordRead p t
    | _, none => (⟨some (m.live a), .ok⟩, m)

/-- Read one word over a path: a register, or a word of a memory window (R4, R9, R11). -/
def Mach.wordRead (m : Mach) (p : Path) (a : Nat) : WordRead × Mach :=
  let win := fun (r : List Byte × Status × Mach) => ((⟨some (BitVec.ofNat 32 (leNat r.1)), r.2.1⟩ : WordRead), r.2.2)
  if a % 4 ≠ 0 then (⟨some 0, .ok⟩, m)
  else if m.dzWaits a then (⟨none, .ok⟩, m.dzHold p a (.read 4))
  else
    match target a with
    | .spWindow t off => win (m.windowRead p t off 4)
    | .problemWindow off => win (m.problemRead p off 4)
    | .hubWindow off => win (m.hubRead off 4)
    | .reg _ => m.regReadAt p a
    | .unassigned => (⟨some 0, .ok⟩, m)

end Sys2Proof.Machine
end

