-- ==== Sys2Proof/Machine/RegAccess.lean ====
section
/-! DEFINITION. Writes of one 32-bit word over an access path, with the registers whose write starts something (R4, R5, R16): power
states, cast-on, NVM and the lifeline store, frogs, dumps. -/

namespace Sys2Proof.Machine

/-- A write of `GL_PSTATE_CTL` (Table PB-21). -/
def Mach.writePstate (m : Mach) (v : Word) : Mach := (m.put GlPstateCtl.perstWake (GlPstateCtl.perstWake.of v)).writeTarget (GlPstateCtl.target.of v)

/-- A write of `FR_CTL` (Table FR-10). -/
def Mach.writeFrCtl (m : Mach) (v : Word) : Mach :=
  if FrCtl.guard.of v ≠ 0x5A then m
  else match FrCtl.op.of v with
    | 1 => m.frcRequest (FrCtl.func.of v) .frog
    | 2 => m.frcRequest (FrCtl.func.of v) .bindOff
    | 3 => m.frcRequest (FrCtl.func.of v) .enable
    | _ => m

/-- A write of `GA_DUMP_CTL` (R440). -/
def Mach.writeDumpCtl (m : Mach) (v : Word) : Mach :=
  let m1 := m.typedWrite GaDumpCtl.reg v
  if GaDumpCtl.now.of v = 1 then m1.dumpTick true else m1

/-- A write to a register over a path. -/
def Mach.regAccess (m : Mach) (p : Path) (a : Nat) (v : Word) : Mach :=
  if a = GlPstateCtl.reg then (m.writePstate v).serveFrc
  else if a = CoCtl.reg then m.writeCoCtl v
  else if a = CoNvmCtl.reg then m.nvmCtl p (CoNvmCtl.lenM1.of v) (CoNvmCtl.op.of v)
  else if a = CoLlCtl.reg then m.llCtl p (CoLlCtl.key.of v) (CoLlCtl.length.of v) (CoLlCtl.op.of v)
  else if a = FrCtl.reg then m.writeFrCtl v
  else if a = GaDumpCtl.reg then m.writeDumpCtl v
  else m.regWriteAt p a v

/-- Write one word at an address of the map: the status that answers it (R9, R11, R164). -/
def Mach.busWrite (m : Mach) (p : Path) (a : Nat) (v : Word) : Status × Mach :=
  let bs := (leBytes 4 v.toNat).map some
  if a % 4 ≠ 0 then (.ok, m)
  else if m.dzWaits a then (.ok, m.dzHold p a (.write bs))
  else
    match Machine.target a with
    | .spWindow t off => m.windowWrite p t off bs
    | .problemWindow off => (.ok, m.problemWrite p off bs)
    | .hubWindow off => m.hubPathWrite p off bs
    | .reg _ => (.ok, m.regAccess p a v)
    | .unassigned => (.ok, m)

/-- A host path's write: nothing while the path is down or the block does not answer (R13, R17, R18). -/
def Mach.pathWrite (m : Mach) (p : Path) (a : Nat) (v : Word) : Mach := if m.pathUp p && m.writeReaches a 4 then (m.busWrite p a v).2 else m

/-- A host path's read of one word; zeros from a block that does not answer (R13). -/
def Mach.pathRead (m : Mach) (p : Path) (a : Nat) : Option WordRead × Mach :=
  if m.pathUp p then
    (if m.reaches a then (let r := m.wordRead p a; (some r.1, r.2)) else (some ⟨some 0, .ok⟩, m))
  else (none, m)

end Sys2Proof.Machine
end

