-- ==== Sys2Proof/Machine/Stitches.lean ====
section
/-! DEFINITION. Stitches of every kind at their units: posting, starting, the XFER unit, completing, overrunning (08_tending_cores.md
R242-R250). -/

namespace Sys2Proof.Machine

/-! ## The XFER unit (R250) -/

def xfRange : Nat := 1
def xfSpError : Nat := 2
def xfDenied : Nat := 3

/-- How far line i of a side lies from its base. -/
def xferOff (stride : BitVec 16) (i : Nat) : Nat := i * stride.toNat * 64

/-- A hub SRAM side is in range: 64-byte aligned, and its furthest line inside the 2 MiB. -/
def xferHubOk (base : Word) (stride : BitVec 16) (n : Nat) : Bool :=
  decide (base.toNat % 64 = 0) && hubOk (base.toNat + xferOff stride (n - 1)) 64

def xferBad (p : XferP) : Bool :=
  p.dstStride == 0 || (p.srcHub && !xferHubOk p.src p.srcStride (p.nLinesM1.toNat + 1)) ||
    (p.dstHub && !xferHubOk p.dst p.dstStride (p.nLinesM1.toNat + 1))

/-- The stitch fault code of an SP status (R250, R161). -/
def xferCode (st : Status) : Option Nat :=
  match st with | .error => some xfSpError | .voidReset | .voidOff => some codeVoid | _ => none

/-- Line i is refused before it is read: its destination's fault, and the state with what the scratchpad records of it. -/
def Mach.xferDst (m : Mach) (t : Fin 4) (p : XferP) (i : Nat) : Option Nat × Mach :=
  if p.dstHub then (none, m)
  else match m.spLoc t p.dst 64 (xferOff p.dstStride i) with
    | .error .error => (some xfSpError, m.spRefuse t p.dst)
    | .error _ => (some codeVoid, m)
    | .ok l => if l.inW m && !p.weightWrite then (some xfDenied, m) else (none, m)

/-- The data of line i with poison, its status, and whether a line of the stitch has failed its tag check. -/
def Mach.xferSrc (m : Mach) (t : Fin 4) (p : XferP) (i : Nat) (skewed : Bool) : SpReply × Mach :=
  if p.srcHub then
    let a := p.src.toNat + xferOff p.srcStride i
    let bad := m.hub.ues a 64
    let r := m.hubRead a 64
    (⟨.ok, (List.range 64).map fun k => (r.1.getD k 0, bad.contains ((a + k) / 8)), skewed⟩, r.2.2)
  else m.spRead t p.src 64 p.age.toNat skewed (xferOff p.srcStride i)

/-- Write line i; a poisoned word is stored as an uncorrectable one (R164, R412). -/
def Mach.xferPut (m : Mach) (t : Fin 4) (p : XferP) (i : Nat) (data : List (Byte × Bool)) : Status × Mach :=
  if p.dstHub then
    let a := p.dst.toNat + xferOff p.dstStride i
    let pz := (wordsOf a 64).filter fun w => (List.range 64).any fun k => (a + k) / 8 == w && (data.getD k (0, false)).2
    (.ok, (m.hubWrite a (data.map Prod.fst)).modHub fun h => h.poisonWords pz)
  else m.spWrite t p.dst (data.map some) p.weightWrite (xferOff p.dstStride i)

/-- Copy line i: the fault that ends the stitch, if any. -/
def Mach.xferLine (m : Mach) (t : Fin 4) (p : XferP) (i : Nat) (skewed : Bool) : Option Nat × Bool × Mach :=
  let d := m.xferDst t p i
  match d.1 with
  | some c => (some c, skewed, d.2)
  | none =>
    let r := d.2.xferSrc t p i skewed
    match xferCode r.1.status with
    | some c => (some c, r.1.skewed, r.2)
    | none => let w := r.2.xferPut t p i r.1.data; (xferCode w.1, r.1.skewed, w.2)

/-- Copy lines in ascending order from line i; a line that faults ends the stitch. -/
def Mach.xferFrom (m : Mach) (t : Fin 4) (p : XferP) (skewed : Bool) : Nat → Nat → Option Nat × Mach
  | 0, _ => (none, m)
  | n + 1, i =>
    let r := m.xferLine t p i skewed
    match r.1 with
    | some c => (some c, r.2.2)
    | none => Mach.xferFrom r.2.2 t p r.2.1 n (i + 1)

def Mach.startXfer (m : Mach) (t : Fin 4) (h : StitchHdr) (p : XferP) : Mach :=
  if xferBad p then m.stitchFault h 5 xfRange
  else m.settled fun m =>
    let seq := m.issue
    let r := (m.begin (.xfer t) ⟨h, .xfer p⟩).xferFrom t p false (p.nLinesM1.toNat + 1) 0
    match r.1 with
    | some c => r.2.failStitch (.xfer t) seq h 5 c
    | none => r.2.finish (.xfer t) seq

def execXfer (t : Fin 4) (h : StitchHdr) (p : XferP) (s : State) : Host.Outcome State Fault Refusal :=
  s.onM fun m => m.arrive (.xfer t) ⟨h, .xfer p⟩ (m.idle (.xfer t)) fun m => m.startXfer t h p

/-! ## Any stitch at its unit -/

/-- The unit that a body is for; the tile of a tile core's own units (R243). -/
def bodyUnit (t : Fin 4) : Body → UnitId
  | .load _ => .loader t | .pass _ => .injector t | .drain p => .drainer t p.array | .ve _ => .ve t | .xfer _ => .xfer t
  | .swapOut _ | .swapIn _ _ | .fetch _ | .store _ => .stash
  | .run _ | .stop | .copy _ => .dza
  | .send _ | .flush _ _ | .msgOther _ => .msg

/-- The tile of a unit; 0 for the hub's. -/
def unitTile : UnitId → Fin 4
  | .loader t | .injector t | .drainer t _ | .ve t | .xfer t => t
  | .stash | .dza | .msg => 0

/-- May a stitch start at its unit now (R244)? -/
def Mach.unitFree (m : Mach) (u : UnitId) (b : Body) : Bool :=
  match b with
  | .pass p => m.injectorsFree (unitTile u) p.arrays
  | .swapOut _ | .swapIn _ _ | .fetch _ | .store _ => m.stashReady b
  | .run _ | .stop | .copy _ => m.dzIdle
  | .load _ | .drain _ | .ve _ | .xfer _ | .send _ | .flush _ _ | .msgOther _ => m.idle u

/-- Start a stitch at its unit. -/
def Mach.startStitch (m : Mach) (u : UnitId) (x : Stitch) : Mach :=
  let t := unitTile u
  match x.body with
  | .load p => m.startLoad t x.hdr p
  | .pass p => m.startPass t x.hdr p
  | .drain p => m.startDrain t x.hdr p
  | .ve p => m.startVe t x.hdr p
  | .xfer p => m.startXfer t x.hdr p
  | .swapOut s => m.startSwap x.hdr (.swapOut s)
  | .swapIn s slot => m.startSwap x.hdr (.swapIn s slot)
  | .fetch p => m.startBlocks false x.hdr p
  | .store p => m.startBlocks true x.hdr p
  | .run p => m.startRun x.hdr p
  | .stop => m.startStop x.hdr
  | .copy p => m.startCopy x.hdr p
  | .send p => m.startSend x.hdr p
  | .flush rings usb => m.startFlush x.hdr rings usb
  | .msgOther op => m.startMsgOther x.hdr op

/-- STITCH_START: at a stitch boundary the oldest express stitch starts, else the oldest row-lane stitch (R244). -/
def Mach.stitchStart (m : Mach) (u : UnitId) : Mach :=
  match (m.unitQ u).head with
  | none => m
  | some x =>
    if m.up (unitFn u) && m.unitFree u x.body then
      (((m.breakTests u x.body).takeCodes (stitchIslands u x.body)).setQ u (m.unitQ u).dropHead).startStitch u x
    else m

def execStitchStart (u : UnitId) (s : State) : Host.Outcome State Fault Refusal := s.onM fun m => m.stitchStart u

/-- STITCH_COMPLETE: a stitch whose last write has been granted leaves its unit and signals its done event (R246). -/
def Mach.stitchComplete (m : Mach) (u : UnitId) : Mach :=
  let q := m.unitQ u
  match q.current.find? (·.done) with
  | none => m
  | some r =>
    let m1 := (m.takeCodes (stitchIslands u r.stitch.body)).setQ u { q with current := q.current.filter fun x => x.seq != r.seq }
    if r.stitch.hdr.doneEn then m1.signalCode r.stitch.hdr.doneCore.toNat r.stitch.hdr.doneEvent.toNat else m1

def execStitchComplete (u : UnitId) (s : State) : Host.Outcome State Fault Refusal := s.onM fun m => m.stitchComplete u

/-- Has a stitch run longer than its budget, and not been logged for it? -/
def Running.overruns (r : Running) (now : Nat) : Bool :=
  !r.overran && !r.done && r.stitch.hdr.budget != 0 && decide (r.start + r.stitch.hdr.budget.toNat < now)

/-- STITCH_OVERRUN: a stitch in progress passes its budget (R247). -/
def Mach.stitchOverrun (m : Mach) (u : UnitId) : Mach :=
  let q := m.unitQ u
  match q.current.find? fun r => r.overruns m.now with
  | none => m
  | some r =>
    (m.setQ u { q with current := q.current.map fun x => if x.seq = r.seq then { x with overran := true } else x }).record Flt.stitchOverrun
      (srcFn (unitFn u).val) [r.stitch.hdr.poster.val, r.stitch.hdr.tag.toNat]

def execStitchOverrun (u : UnitId) (s : State) : Host.Outcome State Fault Refusal := s.onM fun m => m.stitchOverrun u

/-! ## POST (R242-R245, Table TC-9) -/

def postAccepted : Nat := 0
def postFull : Nat := 1
def postInvalid : Nat := 2
def postThrottled : Nat := 3
def postDown : Nat := 4
def postAfterRowend : Nat := 5

/-- May core c post a body (R243)? -/
def mayPost (c : Fin 10) (b : Body) : Bool := if c.val < 8 then decide (bodyKind b ≤ 6) else decide (6 ≤ bodyKind b)

/-- A header obeys R249. -/
def hdrOk (h : StitchHdr) : Bool := !h.doneEn || decide (8 ≤ h.doneEvent.toNat ∧ h.doneCore.toNat ≤ 9)

/-- Slots of a queue and lane that a core holds. -/
def UnitQ.held (q : UnitQ) (c : Fin 10) (express : Bool) : Nat := (if express then q.express else q.row).countP fun x => x.hdr.poster == c

/-- The status of posting a stitch (Table TC-9), judged in the order INVALID, DOWN, AFTER_ROWEND, THROTTLED, FULL. -/
def Mach.postStatus (m : Mach) (c : Fin 10) (x : Option Stitch) : Nat :=
  match x with
  | none => postInvalid
  | some x =>
    let u := bodyUnit ((coreTile c).getD 0) x.body
    if !mayPost c x.body || !hdrOk x.hdr then postInvalid
    else if !m.up (unitFn u) then postDown
    else if !x.hdr.express ∧ (m.core c).arrived then postAfterRowend
    else if !x.hdr.express ∧ m.get IsTenStat.rowDuty ≤ (m.isl (coreIsland c)).cycles % 255 then postThrottled
    else if (if x.hdr.express then 2 else 4) ≤ (m.unitQ u).held c x.hdr.express then postFull
    else postAccepted

/-- An accepted stitch reaches its unit. -/
def Mach.postStitch (m : Mach) (c : Fin 10) (x : Stitch) : Mach :=
  let u := bodyUnit ((coreTile c).getD 0) x.body
  match x.body with
  | .load p => m.arriveLoad (unitTile u) x.hdr p
  | _ => m.arrive u x (m.unitFree u x.body) fun m => m.startStitch u x

end Sys2Proof.Machine
end

