-- ==== Sys2Proof/Machine/Cores.lean ====
section
/-! DEFINITION. The tending cores (08_tending_cores.md): fetch and the wrong path, traps, every instruction, the replies of device accesses,
events from outside, halt and step. -/

namespace Sys2Proof.Machine

/-! ## Gauges of a core (R238) -/

def Mach.coreGauge (m : Mach) (c : Fin 10) (code n : Nat) : Mach := m.gauge (Machine.coreGauge c) code (some (coreInst c)) n

/-! ## The wrong path (R234, R235, R237, R238) -/

/-- The instruction word at a, as IMEM holds it. -/
def Mach.imemWord (m : Mach) (c : Fin 10) (a : Nat) : Word := BitVec.ofNat 32 ((m.core c).imem.nat (a / 4 * 4) 4)

/-- Signed word offset of a branch, in bytes. -/
def branchOff (off : BitVec 16) : Word := off.signExtend 32 <<< 2
def jumpOff (off : BitVec 26) : Word := off.signExtend 32 <<< 2

/-- A pc's entry in the branch target buffer. -/
def Core.btbAt (k : Core) (pc : Word) : Option Word := (k.btb.find? fun e => e.1 == pc).map (·.2)

/-- The resolution of a taken branch fills the buffer: 16 entries, most recently used first. -/
def Core.btbFill (k : Core) (pc target : Word) : Core := { k with btb := ((pc, target) :: k.btb.filter fun e => e.1 != pc).take 16 }

/-- Where fetch goes on behind a fetched word, by prediction alone (R234). -/
def Core.predict (k : Core) (c : Fin 10) (pc w : Word) : Word :=
  match decodeCore c w with
  | some (.beq _ _ _ o) | some (.bne _ _ _ o) | some (.blt _ _ _ o) | some (.bge _ _ _ o) | some (.bltu _ _ _ o) | some (.bgeu _ _ _ o) =>
    if o.getLsbD 15 then pc + branchOff o else pc + 4
  | some (.jal _ o) => pc + jumpOff o
  | some (.jalr _ _ _ _) => (k.btbAt pc).getD (pc + 4)
  | _ => pc + 4

/-- n fetches along a path that proves wrong: corrected errors count as ever, an uncorrectable word is LATENT_UE, a fetch out of range is
suppressed (R235, R237, R238). -/
def Mach.wrongPath (m : Mach) (c : Fin 10) : Nat → Word → Mach
  | 0, _ => m
  | n + 1, pc =>
    if imemBytes ≤ pc.toNat then m
    else
      let w := m.imemWord c pc.toNat
      let r := ((m.coreGauge c 0x02 1).coreGauge c 0x03 1).coreRead c false (pc.toNat / 4 * 4) 4 true
      Mach.wrongPath r.2.2 c n ((m.core c).predict c pc w)

/-- Instructions fetched behind one that commits nothing behind it, and squashed: at most 4 from an address on, how many is timing (R235,
R237, R238; log entry 52). `own` counts the instruction itself when it was fetched and does not commit. -/
def Mach.squash (m : Mach) (c : Fin 10) (own : Nat) (pc : Word) : Mach :=
  let a := m.freshBelow 5
  (a.2.wrongPath c a.1 pc).coreGauge c 0x03 own

/-- The address that fetch goes on with behind the instruction at pc. -/
def Mach.behind (m : Mach) (c : Fin 10) : Word := let pc := (m.core c).pc; (m.core c).predict c pc (m.imemWord c pc.toNat)

/-! ## Traps (R256, R258, Table TC-17) -/

def causeIllegal : Nat := 0x01
def causeFetchRange : Nat := 0x02
def causeImemUe : Nat := 0x03
def causeMisalign : Nat := 0x04
def causeAddr : Nat := 0x05
def causeDmemUe : Nat := 0x06
def causeDevError : Nat := 0x07
def causeDevVoid : Nat := 0x08
def causeDevPoison : Nat := 0x09
def causeCsr : Nat := 0x0A
def causeTrap : Nat := 0x0B
def causeBreak : Nat := 0x0C
def causeStoreError : Nat := 0x0D

/-- A requested halt is taken at an instruction boundary (Table TC-20). -/
def Core.boundary (k : Core) : Core := if k.haltReq && k.st == .run && k.free then { k with st := .halted } else k

/-- The trap state: EPC, CAUSE, TVAL, in_trap, pc = TVEC; nothing of the trapping instruction stays in M. -/
def Core.enterTrap (k : Core) (cause : Word) (tval epc : Word) : Core :=
  { k with epc := epc, cause := cause, tval := tval, inTrap := true, pc := k.tvec, wait := none, devLoad := none, heldStore := none,
           fencing := false, st := .run }

/-- TAKING A TRAP. In a trap already: the core stops, TC_DOUBLE_TRAP with both causes (R258). -/
def Mach.trapWith (m : Mach) (c : Fin 10) (cause : Word) (tval epc : Word) : Mach :=
  let k := m.core c
  if k.inTrap then
    (m.modCore c fun k => { k with st := .stopped, wait := none, devLoad := none, heldStore := none, fencing := false }).raiseFn
      Flt.tcDoubleTrap (srcCore c) [c.val, wfld k.cause 7 0, wfld cause 7 0] (coreFn c)
  else m.modCore c fun k => (k.enterTrap cause tval epc).boundary

/-- A trap of the instruction at pc. -/
def Mach.trap (m : Mach) (c : Fin 10) (cause : Nat) (tval : Word) (detail : Nat := 0) : Mach :=
  (m.squash c 1 (m.behind c)).trapWith c (BitVec.ofNat 32 (cause + detail * 256)) tval (m.core c).pc

/-! ## Fetch and branches (R234-R238) -/

/-- Fetch the instruction at pc on the correct path: the trap of FETCH_RANGE or IMEM_UE, or go on. -/
def Mach.fetch (m : Mach) (c : Fin 10) : Bool × Mach :=
  let pc := (m.core c).pc
  if imemBytes ≤ pc.toNat then (false, m.trapWith c (BitVec.ofNat 32 causeFetchRange) pc pc)
  else
    let r := (m.coreGauge c 0x02 1).coreRead c false (pc.toNat / 4 * 4) 4
    if r.2.1 then (false, (r.2.2.coreGauge c 0x03 1).trapWith c (BitVec.ofNat 32 causeImemUe) pc pc) else (true, r.2.2)

/-- A branch or jump resolves: `pred` is the predicted next pc, `next` the right one. Behind a right prediction of a taken branch that the
buffer misses, the one cycle lost may hold a fetch (Table TC-6). -/
def Mach.resolve (m : Mach) (c : Fin 10) (pc pred next : Word) (taken : Bool) : Mach :=
  let m1 :=
    if pred ≠ next then (let a := m.freshBelow 5; a.2.wrongPath c a.1 pred)
    else if taken ∧ ((m.core c).btbAt pc).isNone then (let a := m.freshBelow 2; a.2.wrongPath c a.1 (pc + 4))
    else m
  m1.modCore c fun k => { (if taken then k.btbFill pc next else k) with pc := next }

/-! ## Commit -/

/-- The instruction at pc commits (RETIRED). -/
def Mach.retire (m : Mach) (c : Fin 10) : Mach := m.coreGauge c 0x04 1

/-- Commit with a register result; the next instruction follows. -/
def Mach.commit (m : Mach) (c : Fin 10) (rd : BitVec 5) (v : Word) : Mach :=
  (m.modCore c fun k => { k.setG rd v with pc := k.pc + 4 }).retire c

/-- Commit with no register result. -/
def Mach.commitPlain (m : Mach) (c : Fin 10) : Mach := (m.modCore c fun k => { k with pc := k.pc + 4 }).retire c

def Mach.g (m : Mach) (c : Fin 10) (r : BitVec 5) : Word := (m.core c).g r

/-- Run one instruction on a core: nothing unless the core is in service, in RUN, with nothing held in M. -/
def Mach.instr (m : Mach) (c : Fin 10) (f : Mach → Mach) : Mach :=
  let k := m.core c
  if m.up (coreFn c) && k.st == .run && k.free then
    let r := m.fetch c
    if r.1 then (f r.2).modCore c Core.boundary else r.2
  else m

/-! ## ALU instructions (Tables TC-4, TC-5) -/

def bit (b : Bool) : Word := if b then 1 else 0

def leadingZeros (v : Word) : Nat := ((List.range 32).takeWhile fun i => !v.getLsbD (31 - i)).length

/-- High 32 bits of the signed product. -/
def mulHigh (a b : Word) : Word := BitVec.ofInt 32 (a.toInt * b.toInt / 2 ^ 32)
def mulHighU (a b : Word) : Word := BitVec.ofNat 32 (a.toNat * b.toNat / 2 ^ 32)

def Mach.alu (m : Mach) (c : Fin 10) (rd ra rb : BitVec 5) (f : Word → Word → Word) : Mach := m.commit c rd (f (m.g c ra) (m.g c rb))
def Mach.aluImm (m : Mach) (c : Fin 10) (rd ra : BitVec 5) (v : Word) (f : Word → Word → Word) : Mach := m.commit c rd (f (m.g c ra) v)

def Mach.iAdd (c : Fin 10) (rd ra rb : BitVec 5) (m : Mach) : Mach := m.alu c rd ra rb fun a b => a + b
def Mach.iSub (c : Fin 10) (rd ra rb : BitVec 5) (m : Mach) : Mach := m.alu c rd ra rb fun a b => a - b
def Mach.iAnd (c : Fin 10) (rd ra rb : BitVec 5) (m : Mach) : Mach := m.alu c rd ra rb fun a b => a &&& b
def Mach.iOr (c : Fin 10) (rd ra rb : BitVec 5) (m : Mach) : Mach := m.alu c rd ra rb fun a b => a ||| b
def Mach.iXor (c : Fin 10) (rd ra rb : BitVec 5) (m : Mach) : Mach := m.alu c rd ra rb fun a b => a ^^^ b
def Mach.iSll (c : Fin 10) (rd ra rb : BitVec 5) (m : Mach) : Mach := m.alu c rd ra rb fun a b => a <<< (b.toNat % 32)
def Mach.iSrl (c : Fin 10) (rd ra rb : BitVec 5) (m : Mach) : Mach := m.alu c rd ra rb fun a b => a >>> (b.toNat % 32)
def Mach.iSra (c : Fin 10) (rd ra rb : BitVec 5) (m : Mach) : Mach := m.alu c rd ra rb fun a b => a.sshiftRight (b.toNat % 32)
def Mach.iSlt (c : Fin 10) (rd ra rb : BitVec 5) (m : Mach) : Mach := m.alu c rd ra rb fun a b => bit (a.slt b)
def Mach.iSltu (c : Fin 10) (rd ra rb : BitVec 5) (m : Mach) : Mach := m.alu c rd ra rb fun a b => bit (a.ult b)
def Mach.iMin (c : Fin 10) (rd ra rb : BitVec 5) (m : Mach) : Mach := m.alu c rd ra rb fun a b => if a.slt b then a else b
def Mach.iMax (c : Fin 10) (rd ra rb : BitVec 5) (m : Mach) : Mach := m.alu c rd ra rb fun a b => if a.slt b then b else a
def Mach.iMinu (c : Fin 10) (rd ra rb : BitVec 5) (m : Mach) : Mach := m.alu c rd ra rb fun a b => if a.ult b then a else b
def Mach.iMaxu (c : Fin 10) (rd ra rb : BitVec 5) (m : Mach) : Mach := m.alu c rd ra rb fun a b => if a.ult b then b else a
def Mach.iClz (c : Fin 10) (rd ra : BitVec 5) (m : Mach) : Mach := m.commit c rd (BitVec.ofNat 32 (leadingZeros (m.g c ra)))
def Mach.iMul (c : Fin 10) (rd ra rb : BitVec 5) (m : Mach) : Mach := m.alu c rd ra rb fun a b => a * b
def Mach.iMulh (c : Fin 10) (rd ra rb : BitVec 5) (m : Mach) : Mach := m.alu c rd ra rb mulHigh
def Mach.iMulhu (c : Fin 10) (rd ra rb : BitVec 5) (m : Mach) : Mach := m.alu c rd ra rb mulHighU
def Mach.iAddi (c : Fin 10) (rd ra : BitVec 5) (imm : BitVec 16) (m : Mach) : Mach := m.aluImm c rd ra (imm.signExtend 32) fun a b => a + b
def Mach.iAndi (c : Fin 10) (rd ra : BitVec 5) (imm : BitVec 16) (m : Mach) : Mach := m.aluImm c rd ra (imm.setWidth 32) fun a b => a &&& b
def Mach.iOri (c : Fin 10) (rd ra : BitVec 5) (imm : BitVec 16) (m : Mach) : Mach := m.aluImm c rd ra (imm.setWidth 32) fun a b => a ||| b
def Mach.iXori (c : Fin 10) (rd ra : BitVec 5) (imm : BitVec 16) (m : Mach) : Mach := m.aluImm c rd ra (imm.setWidth 32) fun a b => a ^^^ b
def Mach.iSlti (c : Fin 10) (rd ra : BitVec 5) (imm : BitVec 16) (m : Mach) : Mach := m.aluImm c rd ra (imm.signExtend 32) fun a b => bit (a.slt b)
def Mach.iSltiu (c : Fin 10) (rd ra : BitVec 5) (imm : BitVec 16) (m : Mach) : Mach := m.aluImm c rd ra (imm.signExtend 32) fun a b => bit (a.ult b)
def Mach.iSlli (c : Fin 10) (rd ra sh : BitVec 5) (m : Mach) : Mach := m.commit c rd (m.g c ra <<< sh.toNat)
def Mach.iSrli (c : Fin 10) (rd ra sh : BitVec 5) (m : Mach) : Mach := m.commit c rd (m.g c ra >>> sh.toNat)
def Mach.iSrai (c : Fin 10) (rd ra sh : BitVec 5) (m : Mach) : Mach := m.commit c rd ((m.g c ra).sshiftRight sh.toNat)
def Mach.iLui (c : Fin 10) (rd : BitVec 5) (imm : BitVec 16) (m : Mach) : Mach := m.commit c rd (imm ++ (0 : BitVec 16))

/-! ## Loads and stores (R230, R232, R266, Table TC-1) -/

def effAddr (m : Mach) (c : Fin 10) (ra : BitVec 5) (imm : BitVec 16) : Word := m.g c ra + imm.signExtend 32

/-- The parts of Table TC-1 a load or store may reach. -/
inductive Region where
  | dmem (off : Nat) | sdm (t : Fin 4) (off : Nat) | device (a : Nat) | none
deriving DecidableEq, Repr

def coreRegion (c : Fin 10) (a : Nat) : Region :=
  if dmemBase ≤ a ∧ a < dmemBase + dmemBytes then .dmem (a - dmemBase)
  else if sdmBase ≤ a ∧ a < sdmBase + sdmBytes then (match coreTile c with | some t => .sdm t (a - sdmBase) | none => .none)
  else if mapBase ≤ a ∧ a < mapBase + 0x1000000 then .device (a - mapBase)
  else .none

/-- A value of n bytes as the load writes it. -/
def loaded (n : Nat) (signExt : Bool) (v : Nat) : Word := if signExt then BitVec.ofInt 32 (Machine.signed (8 * n) v) else BitVec.ofNat 32 v

/-- Issue a device load: it holds in M until its reply (R232). A gated block answers VOID (R13, R416). -/
def Mach.devLoadIssue (m : Mach) (c : Fin 10) (rd : BitVec 5) (addr : Word) (a : Nat) : Mach :=
  let hold := fun (x : Mach) (v : Word) (st : Status) => x.modCore c fun k => { k with devLoad := some { rd := rd, addr := addr, value := v, status := st } }
  if m.reaches a then
    let r := m.wordRead (.core c) a
    hold r.2 (r.1.value.getD 0) r.1.status
  else match targetGate (Machine.target a) with
    | some f => hold m 0 (if m.up f then .voidOff else voidStatus (m.fn f))
    | none => hold m 0 .voidOff

/-- A load of n bytes. -/
def Mach.loadN (m : Mach) (c : Fin 10) (rd ra : BitVec 5) (imm : BitVec 16) (n : Nat) (signExt : Bool) : Mach :=
  let addr := effAddr m c ra imm
  let a := addr.toNat
  if a % n ≠ 0 then m.trap c causeMisalign addr
  else match coreRegion c a with
    | .dmem o =>
      let r := m.coreRead c true o n
      if r.2.1 then r.2.2.trap c causeDmemUe addr else r.2.2.commit c rd (loaded n signExt (leNat r.1))
    | .sdm t o => m.commit c rd (loaded n signExt ((m.tile t).sdm.nat o n))
    | .device d => if n = 4 then m.devLoadIssue c rd addr d else m.trap c causeAddr addr
    | .none => m.trap c causeAddr addr

/-- Perform a device store whose instruction has committed, and hold its status until the reply. -/
def Mach.devStore (m : Mach) (c : Fin 10) (addr : Word) (a : Nat) (v : Word) : Mach :=
  let await := fun (x : Mach) (st : Status) => x.modCore c fun k => { k with stores := k.stores ++ [(addr, st)] }
  if m.reaches a then
    let r := (await m .ok).busWrite (.core c) a v
    if r.1 = .ok then r.2 else r.2.modCore c fun k => { k with stores := k.stores.dropLast ++ [(addr, r.1)] }
  else match targetGate (Machine.target a) with
    | some f => await m (if m.up f then .voidOff else voidStatus (m.fn f))
    | none => await m .voidOff

/-- A store of n bytes. A ninth device store holds in M (R232). -/
def Mach.storeN (m : Mach) (c : Fin 10) (rd ra : BitVec 5) (imm : BitVec 16) (n : Nat) : Mach :=
  let addr := effAddr m c ra imm
  let a := addr.toNat
  let v := m.g c rd
  if a % n ≠ 0 then m.trap c causeMisalign addr
  else match coreRegion c a with
    | .dmem o =>
      let r := m.coreWrite c true o (leBytes n v.toNat)
      if r.1 then r.2.trap c causeDmemUe addr else r.2.commitPlain c
    | .device d =>
      if n ≠ 4 then m.trap c causeAddr addr
      else if (m.core c).stores.length < 8 then (m.commitPlain c).devStore c addr d v
      else m.modCore c fun k => { k with heldStore := some (addr, v) }
    | _ => m.trap c causeAddr addr

def Mach.iLw (c : Fin 10) (rd ra : BitVec 5) (imm : BitVec 16) (m : Mach) : Mach := m.loadN c rd ra imm 4 false
def Mach.iLh (c : Fin 10) (rd ra : BitVec 5) (imm : BitVec 16) (m : Mach) : Mach := m.loadN c rd ra imm 2 true
def Mach.iLhu (c : Fin 10) (rd ra : BitVec 5) (imm : BitVec 16) (m : Mach) : Mach := m.loadN c rd ra imm 2 false
def Mach.iLb (c : Fin 10) (rd ra : BitVec 5) (imm : BitVec 16) (m : Mach) : Mach := m.loadN c rd ra imm 1 true
def Mach.iLbu (c : Fin 10) (rd ra : BitVec 5) (imm : BitVec 16) (m : Mach) : Mach := m.loadN c rd ra imm 1 false
def Mach.iSw (c : Fin 10) (rd ra : BitVec 5) (imm : BitVec 16) (m : Mach) : Mach := m.storeN c rd ra imm 4
def Mach.iSh (c : Fin 10) (rd ra : BitVec 5) (imm : BitVec 16) (m : Mach) : Mach := m.storeN c rd ra imm 2
def Mach.iSb (c : Fin 10) (rd ra : BitVec 5) (imm : BitVec 16) (m : Mach) : Mach := m.storeN c rd ra imm 1

/-! ## Branches and jumps (R234) -/

/-- A conditional branch: a negative offset is predicted taken. -/
def Mach.branch (m : Mach) (c : Fin 10) (taken : Bool) (off : BitVec 16) : Mach :=
  let pc := (m.core c).pc
  let target := pc + branchOff off
  (m.resolve c pc (if off.getLsbD 15 then target else pc + 4) (if taken then target else pc + 4) taken).retire c

def Mach.iBeq (c : Fin 10) (ra rb : BitVec 5) (off : BitVec 16) (m : Mach) : Mach := m.branch c (m.g c ra == m.g c rb) off
def Mach.iBne (c : Fin 10) (ra rb : BitVec 5) (off : BitVec 16) (m : Mach) : Mach := m.branch c (m.g c ra != m.g c rb) off
def Mach.iBlt (c : Fin 10) (ra rb : BitVec 5) (off : BitVec 16) (m : Mach) : Mach := m.branch c ((m.g c ra).slt (m.g c rb)) off
def Mach.iBge (c : Fin 10) (ra rb : BitVec 5) (off : BitVec 16) (m : Mach) : Mach := m.branch c (!(m.g c ra).slt (m.g c rb)) off
def Mach.iBltu (c : Fin 10) (ra rb : BitVec 5) (off : BitVec 16) (m : Mach) : Mach := m.branch c ((m.g c ra).ult (m.g c rb)) off
def Mach.iBgeu (c : Fin 10) (ra rb : BitVec 5) (off : BitVec 16) (m : Mach) : Mach := m.branch c (!(m.g c ra).ult (m.g c rb)) off

/-- g31 = pc + 4; always predicted taken. -/
def Mach.iJal (c : Fin 10) (off : BitVec 26) (m : Mach) : Mach :=
  let pc := (m.core c).pc
  let target := pc + jumpOff off
  ((m.modCore c fun k => k.setG 31 (pc + 4)).resolve c pc target target true).retire c

/-- Predicted from the branch target buffer; the target is formed before rd is written. -/
def Mach.iJalr (c : Fin 10) (rd ra : BitVec 5) (imm : BitVec 16) (m : Mach) : Mach :=
  let pc := (m.core c).pc
  let target := effAddr m c ra imm &&& 0xFFFFFFFC
  let pred := ((m.core c).btbAt pc).getD (pc + 4)
  ((m.modCore c fun k => k.setG rd (pc + 4)).resolve c pc pred target true).retire c

/-! ## POST, events, the row barrier (R239-R245, R249, R251) -/

/-- The descriptor at an address: `none` is a bad address; the flag says that DMEM holds it uncorrectably. -/
def Mach.descriptor (m : Mach) (c : Fin 10) (a : Nat) : Option (List Byte) × Bool × Mach :=
  if a % 64 ≠ 0 then (none, false, m)
  else match coreRegion c a with
    | .dmem o =>
      let r := (List.range 8).foldl (fun acc i => let x := acc.2.coreRead c true (o + 8 * i) 8; (acc.1 || x.2.1, x.2.2)) (false, m)
      (some ((m.core c).dmem.read o 64), r.1, r.2)
    | .sdm t o => (some ((m.tile t).sdm.read o 64), false, m)
    | _ => (none, false, m)

def Mach.iPost (c : Fin 10) (rd ra : BitVec 5) (imm : BitVec 10) (m : Mach) : Mach :=
  let addr := m.g c ra + (imm.setWidth 32 <<< 6)
  let d := m.descriptor c addr.toNat
  if d.2.1 then d.2.2.trap c causeDmemUe addr
  else
    let x := d.1.bind fun bs => parseStitch bs c
    let st := d.2.2.postStatus c x
    let m1 := (d.2.2.coreGauge c (if st = postAccepted then 0x05 else 0x06) 1).commit c rd (BitVec.ofNat 32 st)
    match x with
    | some x => if st = postAccepted then m1.postStitch c x else m1
    | none => m1

/-- SIGEV with ev below 8 is ILLEGAL (R249); a target out of range or out of service is lost (R241). -/
def Mach.iSigev (c : Fin 10) (ev : BitVec 6) (target : BitVec 4) (m : Mach) : Mach :=
  if ev.toNat < 8 then m.trap c causeIllegal (BitVec.ofNat 32 (0x21 * 2 ^ 26 + ev.toNat * 2 ^ 10 + target.toNat))
  else
    let m1 := m.commitPlain c
    if h : target.toNat < 10 then
      (if m.up (coreFn ⟨target.toNat, h⟩) then m1.signal ⟨target.toNat, h⟩ ev.toNat else m1.modCore c fun k => { k with sigLost := true })
    else m1.modCore c fun k => { k with sigLost := true }

/-- WAITEV: consume a count that is there, or wait; with imm[0] = 1, ev must be 0 (R233, R240). -/
def Mach.iWaitev (c : Fin 10) (rd ra : BitVec 5) (ev : BitVec 6) (anyEv : Bool) (m : Mach) : Mach :=
  if anyEv ∧ ev ≠ 0 then m.trap c causeIllegal (encD 0x22 rd ra ev 1)
  else
  let t := m.g c ra
  let w : WaitSt := { rd := rd, anyEv := anyEv, ev := ev, deadline := if t = 0 then none else some (m.now + t.toNat) }
  let m1 := m.modCore c fun k => Core.wake { k with wait := some w, st := .wait }
  if (m1.core c).wait.isNone then m1.retire c else m1

/-- ROWEND: arrive; the row count, and whether the core had arrived already (R251). -/
def Mach.iRowend (c : Fin 10) (rd : BitVec 5) (m : Mach) : Mach :=
  (m.modCore c fun k => { k with arrived := true, missed := 0 }).commit c rd
    (BitVec.ofNat 32 (m.rowCount % 2 ^ 28 + b2n (m.core c).arrived * 2 ^ 31))

def Mach.iEvcnt (c : Fin 10) (rd : BitVec 5) (ev : BitVec 6) (m : Mach) : Mach := m.commit c rd (BitVec.ofNat 32 (eventCount (m.core c) ev.toNat))

/-- FENCE holds until every device store has its reply; a POST has reached its unit when it commits. -/
def Mach.iFence (c : Fin 10) (m : Mach) : Mach :=
  if (m.core c).stores.isEmpty then m.commitPlain c else m.modCore c fun k => { k with fencing := true }

/-! ## CSRs (R255) -/

def Mach.csrTrap (m : Mach) (c : Fin 10) (n : BitVec 16) : Mach := m.trap c causeCsr (n.setWidth 32)

def Mach.iCsrr (c : Fin 10) (rd : BitVec 5) (n : BitVec 16) (m : Mach) : Mach :=
  if csrKnown n.toNat then (let r := m.csrRead c n.toNat; r.2.commit c rd r.1) else m.csrTrap c n
def Mach.iCsrw (c : Fin 10) (ra : BitVec 5) (n : BitVec 16) (m : Mach) : Mach :=
  if csrKnown n.toNat then (m.csrWrite c n.toNat (m.g c ra)).commitPlain c else m.csrTrap c n
def Mach.iCsrs (c : Fin 10) (ra : BitVec 5) (n : BitVec 16) (m : Mach) : Mach :=
  if csrKnown n.toNat then (m.modCore c fun k => k.csrSet n.toNat (m.csrValue c n.toNat ||| m.g c ra)).commitPlain c else m.csrTrap c n
def Mach.iCsrc (c : Fin 10) (ra : BitVec 5) (n : BitVec 16) (m : Mach) : Mach :=
  if csrKnown n.toNat then (m.modCore c fun k => k.csrSet n.toNat (m.csrValue c n.toNat &&& ~~~(m.g c ra))).commitPlain c else m.csrTrap c n

/-! ## TRAP, TRET, BREAK (R256-R258) -/

/-- EPC is pc + 4 for TRAP; TVAL is imm as the I format extends it. -/
def Mach.iTrap (c : Fin 10) (imm : BitVec 16) (m : Mach) : Mach :=
  (m.squash c 1 (m.behind c)).trapWith c (BitVec.ofNat 32 causeTrap) (imm.signExtend 32) ((m.core c).pc + 4)

/-- RETURN FROM A TRAP (R257); outside a trap it is ILLEGAL. -/
def Mach.iTret (c : Fin 10) (m : Mach) : Mach :=
  if (m.core c).inTrap then ((m.squash c 0 (m.behind c)).modCore c fun k => { k with pc := k.epc, inTrap := false }).retire c
  else m.trap c causeIllegal (encJ 0x31 0)

/-- BREAK halts the core where the halt-on-break field is 1, else traps (Table TC-17). -/
def Mach.iBrk (c : Fin 10) (m : Mach) : Mach :=
  if m.on (TcCtl.breakHalt c) then ((m.put (TcCtl.halt c) 1).modCore c fun k => { k with haltReq := true }).commitPlain c
  else m.trap c causeBreak (m.core c).pc

/-! ## Stepping (Table TC-20) -/

/-- The meaning of a core instruction; other commands are none of the core's. -/
def coreMeaning : Instr → Option (Mach → Mach)
  | .add c rd ra rb => some (Mach.iAdd c rd ra rb) | .sub c rd ra rb => some (Mach.iSub c rd ra rb)
  | .and c rd ra rb => some (Mach.iAnd c rd ra rb) | .or c rd ra rb => some (Mach.iOr c rd ra rb)
  | .xor c rd ra rb => some (Mach.iXor c rd ra rb) | .sll c rd ra rb => some (Mach.iSll c rd ra rb)
  | .srl c rd ra rb => some (Mach.iSrl c rd ra rb) | .sra c rd ra rb => some (Mach.iSra c rd ra rb)
  | .slt c rd ra rb => some (Mach.iSlt c rd ra rb) | .sltu c rd ra rb => some (Mach.iSltu c rd ra rb)
  | .min c rd ra rb => some (Mach.iMin c rd ra rb) | .max c rd ra rb => some (Mach.iMax c rd ra rb)
  | .minu c rd ra rb => some (Mach.iMinu c rd ra rb) | .maxu c rd ra rb => some (Mach.iMaxu c rd ra rb)
  | .clz c rd ra => some (Mach.iClz c rd ra)
  | .mul c rd ra rb => some (Mach.iMul c rd ra rb) | .mulh c rd ra rb => some (Mach.iMulh c rd ra rb)
  | .mulhu c rd ra rb => some (Mach.iMulhu c rd ra rb)
  | .addi c rd ra i => some (Mach.iAddi c rd ra i) | .andi c rd ra i => some (Mach.iAndi c rd ra i)
  | .ori c rd ra i => some (Mach.iOri c rd ra i) | .xori c rd ra i => some (Mach.iXori c rd ra i)
  | .slti c rd ra i => some (Mach.iSlti c rd ra i) | .sltiu c rd ra i => some (Mach.iSltiu c rd ra i)
  | .slli c rd ra h => some (Mach.iSlli c rd ra h) | .srli c rd ra h => some (Mach.iSrli c rd ra h)
  | .srai c rd ra h => some (Mach.iSrai c rd ra h) | .lui c rd i => some (Mach.iLui c rd i)
  | .lw c rd ra i => some (Mach.iLw c rd ra i) | .lh c rd ra i => some (Mach.iLh c rd ra i) | .lhu c rd ra i => some (Mach.iLhu c rd ra i)
  | .lb c rd ra i => some (Mach.iLb c rd ra i) | .lbu c rd ra i => some (Mach.iLbu c rd ra i)
  | .sw c rd ra i => some (Mach.iSw c rd ra i) | .sh c rd ra i => some (Mach.iSh c rd ra i) | .sb c rd ra i => some (Mach.iSb c rd ra i)
  | .beq c ra rb o => some (Mach.iBeq c ra rb o) | .bne c ra rb o => some (Mach.iBne c ra rb o) | .blt c ra rb o => some (Mach.iBlt c ra rb o)
  | .bge c ra rb o => some (Mach.iBge c ra rb o) | .bltu c ra rb o => some (Mach.iBltu c ra rb o) | .bgeu c ra rb o => some (Mach.iBgeu c ra rb o)
  | .jal c o => some (Mach.iJal c o) | .jalr c rd ra i => some (Mach.iJalr c rd ra i)
  | .post c rd ra i => some (Mach.iPost c rd ra i) | .sigev c ev t => some (Mach.iSigev c ev t)
  | .waitev c rd ra ev any => some (Mach.iWaitev c rd ra ev any) | .rowend c rd => some (Mach.iRowend c rd)
  | .evcnt c rd ev => some (Mach.iEvcnt c rd ev) | .fence c => some (Mach.iFence c)
  | .csrr c rd n => some (Mach.iCsrr c rd n) | .csrw c ra n => some (Mach.iCsrw c ra n)
  | .csrs c ra n => some (Mach.iCsrs c ra n) | .csrc c ra n => some (Mach.iCsrc c ra n)
  | .trap c i => some (Mach.iTrap c i) | .tret c => some (Mach.iTret c) | .brk c => some (Mach.iBrk c)
  | _ => none

/-- Run the instruction that IMEM holds at pc; a word that decodes to nothing is ILLEGAL (R233). -/
def Mach.runWord (m : Mach) (c : Fin 10) (w : Word) : Mach :=
  match (decodeCore c w).bind coreMeaning with
  | some f => f m
  | none => m.trap c causeIllegal w

/-- A halted core commits one instruction, then halts. -/
def Mach.stepCore (m : Mach) (c : Fin 10) : Mach :=
  let k := m.core c
  if k.stepReq then
    let m1 := m.modCore c fun k => { k with stepReq := false }
    if m.up (coreFn c) && k.st == .halted then
      (m1.modCore c fun k => { k with st := .run, haltReq := true }).instr c fun x => x.runWord c (x.imemWord c (x.core c).pc.toNat)
    else m1
  else m

/-- The steps that writes of TC_CTL have asked for. -/
def Mach.runSteps (m : Mach) : Mach := (List.range 10).foldl (fun acc c => acc.stepCore (ix 10 c)) m

/-! ## The instruction commands -/

def execAdd (c : Fin 10) (rd ra rb : BitVec 5) (s : State) : Host.Outcome State Fault Refusal := s.onM fun m => m.instr c (Mach.iAdd c rd ra rb)
def execSub (c : Fin 10) (rd ra rb : BitVec 5) (s : State) : Host.Outcome State Fault Refusal := s.onM fun m => m.instr c (Mach.iSub c rd ra rb)
def execAnd (c : Fin 10) (rd ra rb : BitVec 5) (s : State) : Host.Outcome State Fault Refusal := s.onM fun m => m.instr c (Mach.iAnd c rd ra rb)
def execOr (c : Fin 10) (rd ra rb : BitVec 5) (s : State) : Host.Outcome State Fault Refusal := s.onM fun m => m.instr c (Mach.iOr c rd ra rb)
def execXor (c : Fin 10) (rd ra rb : BitVec 5) (s : State) : Host.Outcome State Fault Refusal := s.onM fun m => m.instr c (Mach.iXor c rd ra rb)
def execSll (c : Fin 10) (rd ra rb : BitVec 5) (s : State) : Host.Outcome State Fault Refusal := s.onM fun m => m.instr c (Mach.iSll c rd ra rb)
def execSrl (c : Fin 10) (rd ra rb : BitVec 5) (s : State) : Host.Outcome State Fault Refusal := s.onM fun m => m.instr c (Mach.iSrl c rd ra rb)
def execSra (c : Fin 10) (rd ra rb : BitVec 5) (s : State) : Host.Outcome State Fault Refusal := s.onM fun m => m.instr c (Mach.iSra c rd ra rb)
def execSlt (c : Fin 10) (rd ra rb : BitVec 5) (s : State) : Host.Outcome State Fault Refusal := s.onM fun m => m.instr c (Mach.iSlt c rd ra rb)
def execSltu (c : Fin 10) (rd ra rb : BitVec 5) (s : State) : Host.Outcome State Fault Refusal := s.onM fun m => m.instr c (Mach.iSltu c rd ra rb)
def execMin (c : Fin 10) (rd ra rb : BitVec 5) (s : State) : Host.Outcome State Fault Refusal := s.onM fun m => m.instr c (Mach.iMin c rd ra rb)
def execMax (c : Fin 10) (rd ra rb : BitVec 5) (s : State) : Host.Outcome State Fault Refusal := s.onM fun m => m.instr c (Mach.iMax c rd ra rb)
def execMinu (c : Fin 10) (rd ra rb : BitVec 5) (s : State) : Host.Outcome State Fault Refusal := s.onM fun m => m.instr c (Mach.iMinu c rd ra rb)
def execMaxu (c : Fin 10) (rd ra rb : BitVec 5) (s : State) : Host.Outcome State Fault Refusal := s.onM fun m => m.instr c (Mach.iMaxu c rd ra rb)
def execClz (c : Fin 10) (rd ra : BitVec 5) (s : State) : Host.Outcome State Fault Refusal := s.onM fun m => m.instr c (Mach.iClz c rd ra)
def execMul (c : Fin 10) (rd ra rb : BitVec 5) (s : State) : Host.Outcome State Fault Refusal := s.onM fun m => m.instr c (Mach.iMul c rd ra rb)
def execMulh (c : Fin 10) (rd ra rb : BitVec 5) (s : State) : Host.Outcome State Fault Refusal := s.onM fun m => m.instr c (Mach.iMulh c rd ra rb)
def execMulhu (c : Fin 10) (rd ra rb : BitVec 5) (s : State) : Host.Outcome State Fault Refusal := s.onM fun m => m.instr c (Mach.iMulhu c rd ra rb)
def execAddi (c : Fin 10) (rd ra : BitVec 5) (imm : BitVec 16) (s : State) : Host.Outcome State Fault Refusal := s.onM fun m => m.instr c (Mach.iAddi c rd ra imm)
def execAndi (c : Fin 10) (rd ra : BitVec 5) (imm : BitVec 16) (s : State) : Host.Outcome State Fault Refusal := s.onM fun m => m.instr c (Mach.iAndi c rd ra imm)
def execOri (c : Fin 10) (rd ra : BitVec 5) (imm : BitVec 16) (s : State) : Host.Outcome State Fault Refusal := s.onM fun m => m.instr c (Mach.iOri c rd ra imm)
def execXori (c : Fin 10) (rd ra : BitVec 5) (imm : BitVec 16) (s : State) : Host.Outcome State Fault Refusal := s.onM fun m => m.instr c (Mach.iXori c rd ra imm)
def execSlti (c : Fin 10) (rd ra : BitVec 5) (imm : BitVec 16) (s : State) : Host.Outcome State Fault Refusal := s.onM fun m => m.instr c (Mach.iSlti c rd ra imm)
def execSltiu (c : Fin 10) (rd ra : BitVec 5) (imm : BitVec 16) (s : State) : Host.Outcome State Fault Refusal := s.onM fun m => m.instr c (Mach.iSltiu c rd ra imm)
def execSlli (c : Fin 10) (rd ra sh : BitVec 5) (s : State) : Host.Outcome State Fault Refusal := s.onM fun m => m.instr c (Mach.iSlli c rd ra sh)
def execSrli (c : Fin 10) (rd ra sh : BitVec 5) (s : State) : Host.Outcome State Fault Refusal := s.onM fun m => m.instr c (Mach.iSrli c rd ra sh)
def execSrai (c : Fin 10) (rd ra sh : BitVec 5) (s : State) : Host.Outcome State Fault Refusal := s.onM fun m => m.instr c (Mach.iSrai c rd ra sh)
def execLui (c : Fin 10) (rd : BitVec 5) (imm : BitVec 16) (s : State) : Host.Outcome State Fault Refusal := s.onM fun m => m.instr c (Mach.iLui c rd imm)
def execLw (c : Fin 10) (rd ra : BitVec 5) (imm : BitVec 16) (s : State) : Host.Outcome State Fault Refusal := s.onM fun m => m.instr c (Mach.iLw c rd ra imm)
def execLh (c : Fin 10) (rd ra : BitVec 5) (imm : BitVec 16) (s : State) : Host.Outcome State Fault Refusal := s.onM fun m => m.instr c (Mach.iLh c rd ra imm)
def execLhu (c : Fin 10) (rd ra : BitVec 5) (imm : BitVec 16) (s : State) : Host.Outcome State Fault Refusal := s.onM fun m => m.instr c (Mach.iLhu c rd ra imm)
def execLb (c : Fin 10) (rd ra : BitVec 5) (imm : BitVec 16) (s : State) : Host.Outcome State Fault Refusal := s.onM fun m => m.instr c (Mach.iLb c rd ra imm)
def execLbu (c : Fin 10) (rd ra : BitVec 5) (imm : BitVec 16) (s : State) : Host.Outcome State Fault Refusal := s.onM fun m => m.instr c (Mach.iLbu c rd ra imm)
def execSw (c : Fin 10) (rd ra : BitVec 5) (imm : BitVec 16) (s : State) : Host.Outcome State Fault Refusal := s.onCast fun m => (m.instr c (Mach.iSw c rd ra imm)).runSteps
def execSh (c : Fin 10) (rd ra : BitVec 5) (imm : BitVec 16) (s : State) : Host.Outcome State Fault Refusal := s.onM fun m => m.instr c (Mach.iSh c rd ra imm)
def execSb (c : Fin 10) (rd ra : BitVec 5) (imm : BitVec 16) (s : State) : Host.Outcome State Fault Refusal := s.onM fun m => m.instr c (Mach.iSb c rd ra imm)
def execBeq (c : Fin 10) (ra rb : BitVec 5) (off : BitVec 16) (s : State) : Host.Outcome State Fault Refusal := s.onM fun m => m.instr c (Mach.iBeq c ra rb off)
def execBne (c : Fin 10) (ra rb : BitVec 5) (off : BitVec 16) (s : State) : Host.Outcome State Fault Refusal := s.onM fun m => m.instr c (Mach.iBne c ra rb off)
def execBlt (c : Fin 10) (ra rb : BitVec 5) (off : BitVec 16) (s : State) : Host.Outcome State Fault Refusal := s.onM fun m => m.instr c (Mach.iBlt c ra rb off)
def execBge (c : Fin 10) (ra rb : BitVec 5) (off : BitVec 16) (s : State) : Host.Outcome State Fault Refusal := s.onM fun m => m.instr c (Mach.iBge c ra rb off)
def execBltu (c : Fin 10) (ra rb : BitVec 5) (off : BitVec 16) (s : State) : Host.Outcome State Fault Refusal := s.onM fun m => m.instr c (Mach.iBltu c ra rb off)
def execBgeu (c : Fin 10) (ra rb : BitVec 5) (off : BitVec 16) (s : State) : Host.Outcome State Fault Refusal := s.onM fun m => m.instr c (Mach.iBgeu c ra rb off)
def execJal (c : Fin 10) (off : BitVec 26) (s : State) : Host.Outcome State Fault Refusal := s.onM fun m => m.instr c (Mach.iJal c off)
def execJalr (c : Fin 10) (rd ra : BitVec 5) (imm : BitVec 16) (s : State) : Host.Outcome State Fault Refusal := s.onM fun m => m.instr c (Mach.iJalr c rd ra imm)
def execPost (c : Fin 10) (rd ra : BitVec 5) (imm : BitVec 10) (s : State) : Host.Outcome State Fault Refusal := s.onM fun m => m.instr c (Mach.iPost c rd ra imm)
def execSigev (c : Fin 10) (ev : BitVec 6) (target : BitVec 4) (s : State) : Host.Outcome State Fault Refusal := s.onM fun m => m.instr c (Mach.iSigev c ev target)
def execWaitev (c : Fin 10) (rd ra : BitVec 5) (ev : BitVec 6) (anyEv : Bool) (s : State) : Host.Outcome State Fault Refusal := s.onM fun m => m.instr c (Mach.iWaitev c rd ra ev anyEv)
def execRowend (c : Fin 10) (rd : BitVec 5) (s : State) : Host.Outcome State Fault Refusal := s.onM fun m => m.instr c (Mach.iRowend c rd)
def execEvcnt (c : Fin 10) (rd : BitVec 5) (ev : BitVec 6) (s : State) : Host.Outcome State Fault Refusal := s.onM fun m => m.instr c (Mach.iEvcnt c rd ev)
def execFence (c : Fin 10) (s : State) : Host.Outcome State Fault Refusal := s.onM fun m => m.instr c (Mach.iFence c)
def execCsrr (c : Fin 10) (rd : BitVec 5) (csr : BitVec 16) (s : State) : Host.Outcome State Fault Refusal := s.onM fun m => m.instr c (Mach.iCsrr c rd csr)
def execCsrw (c : Fin 10) (ra : BitVec 5) (csr : BitVec 16) (s : State) : Host.Outcome State Fault Refusal := s.onM fun m => m.instr c (Mach.iCsrw c ra csr)
def execCsrs (c : Fin 10) (ra : BitVec 5) (csr : BitVec 16) (s : State) : Host.Outcome State Fault Refusal := s.onM fun m => m.instr c (Mach.iCsrs c ra csr)
def execCsrc (c : Fin 10) (ra : BitVec 5) (csr : BitVec 16) (s : State) : Host.Outcome State Fault Refusal := s.onM fun m => m.instr c (Mach.iCsrc c ra csr)
def execTrap (c : Fin 10) (imm : BitVec 16) (s : State) : Host.Outcome State Fault Refusal := s.onM fun m => m.instr c (Mach.iTrap c imm)
def execTret (c : Fin 10) (s : State) : Host.Outcome State Fault Refusal := s.onM fun m => m.instr c (Mach.iTret c)
def execBrk (c : Fin 10) (s : State) : Host.Outcome State Fault Refusal := s.onM fun m => m.instr c (Mach.iBrk c)

/-! ## Replies of device accesses (R232, R240, R259) -/

def isRead : WinOp → Bool
  | .read _ => true
  | .write _ => false

/-- Does a core's load wait for a stitch boundary at some tile's `VE_OC_DATA` (R223), or for the annealer's swatch test to end (R334)? -/
def Mach.loadWaits (m : Mach) (c : Fin 10) : Bool :=
  ((List.range 4).any fun t => (m.tile (ix 4 t)).ve.oc.any fun e => e.2.1.isNone && e.2.2 == .core c) ||
    m.dza.held.any fun e => isRead e.op && e.p == .core c

/-- Does a core's store wait there? Its reply comes after it. -/
def Mach.storeWaits (m : Mach) (c : Fin 10) : Bool := m.dza.held.any fun e => !isRead e.op && e.p == .core c

/-- The cause of a device load's bad reply. -/
def replyCause : Status → Nat
  | .error => causeDevError | .voidReset | .voidOff => causeDevVoid | _ => causeDevPoison

/-- DEVICE_REPLY: the load in M ends with its value, or with a trap. -/
def Mach.deviceReply (m : Mach) (c : Fin 10) : Mach :=
  match (m.core c).devLoad with
  | none => m
  | some d =>
    if !m.up (coreFn c) || (d.status == .ok && m.loadWaits c) then m
    else
      let m1 := m.modCore c fun k => { k with devLoad := none }
      if d.status = .ok then (m1.commit c d.rd d.value).modCore c Core.boundary
      else m1.trap c (replyCause d.status) d.addr (if d.status = .voidReset ∨ d.status = .voidOff then d.status.code else 0)

def execDeviceReply (c : Fin 10) (s : State) : Host.Outcome State Fault Refusal := s.onM fun m => m.deviceReply c

/-- The first store whose reply is OK (or not), and the others in order. -/
def takeStore (ok : Bool) : List (Word × Status) → Option ((Word × Status) × List (Word × Status))
  | [] => none
  | x :: xs => if (x.2 == .ok) = ok then some (x, xs) else (takeStore ok xs).map fun r => (r.1, x :: r.2)

/-- A store that held in M goes out once a slot is free, and its instruction commits. -/
def Mach.releaseHeld (m : Mach) (c : Fin 10) : Mach :=
  match (m.core c).heldStore with
  | none => m
  | some (addr, v) => ((m.modCore c fun k => { k with heldStore := none }).commitPlain c).devStore c addr (addr.toNat - mapBase) v

/-- A FENCE ends when no store awaits an OK reply. -/
def Mach.releaseFence (m : Mach) (c : Fin 10) : Mach :=
  if (m.core c).fencing && (m.core c).stores.all (fun x => x.2 != .ok) then (m.modCore c fun k => { k with fencing := false }).commitPlain c else m

/-- DEVICE_STORE_REPLY: an OK reply frees a store slot; the stores that wait for the annealer are the last to be answered. -/
def Mach.deviceStoreReply (m : Mach) (c : Fin 10) : Mach :=
  match takeStore true (m.core c).stores with
  | none => m
  | some (_, rest) => if m.storeWaits c && rest.all (fun x => x.2 != .ok) then m else (((m.modCore c fun k => { k with stores := rest }).releaseHeld c).releaseFence c).modCore c Core.boundary

def execDeviceStoreReply (c : Fin 10) (s : State) : Host.Outcome State Fault Refusal := s.onCast fun m => (m.deviceStoreReply c).runSteps

/-- What has been fetched and does not commit when the core goes elsewhere at its pc: a WAITEV in progress, and what stands behind the
boundary (R238, R253, R259). -/
def Mach.squashHere (m : Mach) (c : Fin 10) (waiting : Bool) : Mach :=
  if waiting then m.squash c 1 (m.behind c) else m.squash c 0 (m.core c).pc

/-- STORE_ERROR at the first boundary after a bad reply (R259): a WAITEV in progress is abandoned, a store held in M goes out first, a load
or a FENCE in M ends first. -/
def Mach.storeError (m : Mach) (c : Fin 10) : Mach :=
  let k := m.core c
  match takeStore false k.stores with
  | none => m
  | some (x, rest) =>
    if !m.up (coreFn c) || (k.st != .run && k.st != .wait) || k.devLoad.isSome || (k.fencing && rest.any fun y => y.2 == .ok) then m
    else
      let m1 := ((m.modCore c fun k => { k with stores := rest, wait := none }).releaseHeld c).releaseFence c
      (m1.squashHere c (k.st == .wait)).trapWith c (BitVec.ofNat 32 (causeStoreError + x.2.code * 256 + 2 ^ 31)) x.1 (m1.core c).pc

def execStoreError (c : Fin 10) (s : State) : Host.Outcome State Fault Refusal := s.onCast fun m => (m.storeError c).runSteps

/-- WAITEV_TIMEOUT: the ticks of a waiting WAITEV have passed (R240). -/
def Mach.waitevTimeout (m : Mach) (c : Fin 10) : Mach :=
  match (m.core c).st, (m.core c).wait with
  | .wait, some w =>
    match w.deadline with
    | some t =>
      if t ≤ m.now then
        ((m.modCore c fun k => { k with wait := none, st := .run }).commit c w.rd 0xFFFFFFFF).modCore c Core.boundary
      else m
    | none => m
  | _, _ => m

def execWaitevTimeout (c : Fin 10) (s : State) : Host.Outcome State Fault Refusal := s.onM fun m => m.waitevTimeout c

/-! ## Events and control from outside (R239, R253, R271, R272) -/

/-- EVENT_SIGNAL: a signal arrives at an event of a core. -/
def execEventSignal (c : Fin 10) (ev : BitVec 6) (s : State) : Host.Outcome State Fault Refusal := s.onM fun m => m.signal c ev.toNat

/-- May a path reach a core's registers? -/
def Mach.coreOpen (m : Mach) (p : Path) (c : Fin 10) : Bool := m.pathUp p && m.reaches (coreRegs c.val)

def execHostDoorbell (p : Path) (c : Fin 10) (s : State) : Host.Outcome State Fault Refusal :=
  s.onM fun m => if m.coreOpen p c then m.signal c 2 else m

def execHalt (p : Path) (c : Fin 10) (on : Bool) (s : State) : Host.Outcome State Fault Refusal :=
  s.onM fun m => if m.coreOpen p c then m.setHalt c on else m

def execStep (p : Path) (c : Fin 10) (s : State) : Host.Outcome State Fault Refusal :=
  s.onCast fun m => if m.coreOpen p c then (m.askStep c).runSteps else m

/-- TC_DBG_DATA_ACCESS (R261, R262, R272). -/
def execTcDbgDataAccess (p : Path) (c : Fin 10) (write : Option Word) (s : State) : Host.Outcome State Fault Refusal :=
  s.onM fun m =>
    match write with
    | some v => if m.coreOpen p c then m.dbgWrite c v else m
    | none => if m.coreOpen p c then (let r := m.dbgRead p c; r.2.wordReply p (TcDbgData.reg c) (leBytes 4 r.1.toNat)) else m.wordReply p (TcDbgData.reg c) (leBytes 4 0)

/-! ## Traps of fetch and decode as commands (R233, R237, R256) -/

/-- ILLEGAL: the core reaches a word that stands for no instruction. -/
def execIllegal (c : Fin 10) (word : Word) (s : State) : Host.Outcome State Fault Refusal :=
  s.onM fun m => if (decodeCore c word).isNone then m.instr c fun x => x.trap c causeIllegal word else m

/-- IMEM_UE: a correct-path fetch of an uncorrectable word. -/
def execImemUe (c : Fin 10) (s : State) : Host.Outcome State Fault Refusal :=
  s.onM fun m =>
    let k := m.core c
    if decide (k.pc.toNat < imemBytes) && k.imem.bad (k.pc.toNat / 8) then m.instr c id else m

/-- FETCH_RANGE: a correct-path fetch at or beyond 0x0001_0000. -/
def execFetchRange (c : Fin 10) (s : State) : Host.Outcome State Fault Refusal :=
  s.onM fun m => if imemBytes ≤ (m.core c).pc.toNat then m.instr c id else m

/-! ## The row watchdog (R420) -/

/-- TC_WDOG: a programmed core in service has missed its rows. -/
def Mach.tcWdog (m : Mach) (c : Fin 10) : Mach :=
  let n := m.get FrWdogCfg.rows
  let k := m.core c
  if n ≠ 0 ∧ k.programmed ∧ m.up (coreFn c) ∧ n ≤ k.missed then
    (m.modCore c fun k => { k with missed := 0 }).raiseFn Flt.tcWdog (srcCore c) [c.val] (coreFn c)
  else m

def execTcWdog (c : Fin 10) (s : State) : Host.Outcome State Fault Refusal := s.onM fun m => m.tcWdog c

end Sys2Proof.Machine
end

