-- ==== Sys2Proof/Machine/Rows.lean ====
section
/-! DEFINITION. The row boundary, its barrier and the live updates applied at a complete one: ROW_BOUNDARY, IDLE_ENTRY, PROGRAM_UPDATE_APPLY
(02_package_supplies_clocks.md R47, R132; 08_tending_cores.md R252, R253; 03_cast_on.md R101; 09_skeins.md R294; 13_faults_swatch_frog.md R420, R425). -/

namespace Sys2Proof.Machine

/-! ## The barrier (R252, R420) -/

/-- Every unit with its code of Table GA-1 and its tile, 0xF for the hub. -/
def barrierUnits : List (UnitId × Nat × Nat) :=
  ((List.range 4).flatMap fun t => (List.range 8).map fun k => ((tileUnits (ix 4 t)).getD k .msg, k, t)) ++
    [(.stash, 8, 0xF), (.dza, 9, 0xF), (.msg, 10, 0xF)]

/-- Is a row-lane stitch waiting, or running with a write still to be granted? -/
def UnitQ.rowBusy (q : UnitQ) : Bool := !q.row.isEmpty || q.current.any fun r => !r.stitch.hdr.express && !r.done

/-- Is a core part of the barrier: in service, and started with a program? -/
def Mach.inBarrier (m : Mach) (c : Fin 10) : Bool := m.up (coreFn c) && (m.core c).programmed

def Mach.firstMissing (m : Mach) : Option (Fin 10) := (List.finRange 10).find? fun c => m.inBarrier c && !(m.core c).arrived
def Mach.firstBusy (m : Mach) : Option (UnitId × Nat × Nat) := barrierUnits.find? fun u => (m.unitQ u.1).rowBusy

/-- The barrier of the row is complete. -/
def Mach.barrierDone (m : Mach) : Bool := m.firstMissing.isNone && m.firstBusy.isNone

/-- ROW_OVERRUN with the first missing core, or the first unit that still runs a row-lane stitch. -/
def Mach.judgeBarrier (m : Mach) : Mach :=
  match m.firstMissing, m.firstBusy with
  | some c, _ => m.record Flt.rowOverrun (srcCore c) [c.val, 0xFF, 0xF]
  | none, some u => m.record Flt.rowOverrun (srcFn (unitFn u.1).val) [0xFF, u.2.1, u.2.2]
  | none, none => m

/-- Rows that each core of the barrier has missed in a row; arrivals are cleared (R252, R420). -/
def Mach.nextArrivals (m : Mach) : Mach :=
  { m with cores := Vector.ofFn fun c =>
      let k := m.core c
      { k with arrived := false, missed := if k.arrived then 0 else if m.inBarrier c then k.missed + 1 else k.missed } }

/-! ## Live updates (R101, R253, R294, R425) -/

def Mach.copyBase (m : Mach) (copy : Bool) : Nat := if copy then m.get CoImgBBase.base else 0

/-- The live-updatable records of a copy; the WEIGHTS and OVERHANG of a model that is not in service are discarded as at cast-on (R86). -/
def Mach.liveRecords (m : Mach) (copy : Bool) : List RecEntry :=
  ((m.plainTable (some (m.copyBase copy))).getD []).filter fun r => r.flags / 2 % 2 == 1 &&
    ((r.type != 4 && r.type != 14) || (m.cast.models.any fun p => p.model == r.param) || m.cast.inUse.any fun o => o.param == r.param)

/-- The functions a record names (R425). -/
def recFns (r : RecEntry) : List (Fin 19) :=
  match r.type with
  | 1 | 6 => (bitmapTiles r.dest).map tileFn
  | 2 | 3 => if h : r.dest < 10 then [coreFn ⟨r.dest, h⟩] else []
  | 4 => [tileFn (ix 4 (r.dest / 2 ^ 30))]
  | 8 => [fnDza]
  | 10 => [fnMsg]
  | 14 => [fnStash]
  | _ => []

/-- Models whose WEIGHTS a list of records brings. -/
def weightModels (rs : List RecEntry) : List Nat := ((rs.filter fun r => r.type == 4).map (·.param)).eraseDups

/-- The skeins of models. -/
def Mach.skeinsOf (m : Mach) (models : List Nat) : List Nat :=
  (List.range 96).filter fun s => m.skState s != skNone && models.contains (m.sk s 2 2)

/-- Is a state being swapped? -/
def Mach.swapping (m : Mach) (s : Nat) : Bool := m.skState s == skOut || m.skState s == skIn

/-- The window halves of the tiles, as the window block in force enables them (R276). -/
def Mach.windowsNow (m : Mach) : List (Option Nat) :=
  (List.range 4).map fun t => let w := m.hubNat (0x1980 + 4 * t) 4; if w / 2 ^ 31 = 1 then some (w % 256 * bankBytes) else none

/-- Read every record of an update under R84; none when one is corrupt, not of its type's form, or names a window half (R276). -/
def readLives (copy : Bool) (base : Nat) : List RecEntry → Mach → Option (List (RecEntry × List Byte)) × Mach
  | [], m => (some [], m)
  | r :: rs, m =>
    let c := m.readChecked (base + r.offset) r.length r.crc (m.plainRecord (some m.cast.base) r)
      fun m => m.record Flt.recordCorrupt {} [r.type * 65536 + r.id, copyNo copy]
    match c.data with
    | none => (none, c.m)
    | some bs =>
      if !c.m.recordForm r bs || weightsInWindow [r] c.m.windowsNow r.param then (none, c.m.malformed)
      else let x := readLives copy base rs c.m; (x.1.map fun l => (r, bs) :: l, x.2)

/-- Does a WEIGHTS record's destination overlap weights in use? -/
def Mach.overOld (m : Mach) (r : RecEntry) : Bool :=
  m.cast.inUse.any fun o => o.dest / 2 ^ 30 == r.dest / 2 ^ 30 && overlaps (o.dest, o.dest + o.length) (r.dest, r.dest + r.length)

/-- The new weights are written: beside the old ones, or over them with the model's skeins SUSPENDED (R294, cases 1 and 2). -/
def Mach.writeWeights (m : Mach) (data : List (RecEntry × List Byte)) : Mach :=
  let ws := data.filter fun x => x.1.type == 4
  let laid := weightModels ((ws.filter fun x => m.overOld x.1).map Prod.fst)
  let m1 := (m.skeinsOf laid).foldl (fun acc s => acc.skPut s 0 1 skSuspended) m
  let m2 := ws.foldl (fun acc x => acc.storeRecord true x.1 x.2) m1
  { m2 with cast := { m2.cast with suspended := weightModels (ws.map Prod.fst), written := m2.cast.written ++ m1.newRegions m2 } }

/-- A skein of an updated model restarts cold and says so (R294, Table HL-8). -/
def Mach.restartSkein (m : Mach) (s : Nat) : Mach :=
  let slot := m.sk s 1 1
  let m1 := if slot = 0xFF then (m.skPut s 0 1 skStashed).zeroState s else (m.skPut s 0 1 skResident).zeroSlot s
  ((m1.skPut s 0x18 8 0).skSetFlag s 5 false).event 2 s (m.sk s 2 2) 0 0 m.sysDest

/-- A record other than WEIGHTS takes effect: a programme waits for its core, which is told (Table TC-8, event 4); a table waits for a stitch
boundary (R220); any other is stored. -/
def Mach.applyRecord (m : Mach) (r : RecEntry) (bs : List Byte) : Mach :=
  match r.type with
  | 2 => if h : r.dest < 10 then (m.modCore ⟨r.dest, h⟩ fun k => { k with staged := k.staged ++ [(r.id, r.param, bs)] }).signal ⟨r.dest, h⟩ 4 else m
  | 4 => m
  | 6 => (bitmapTiles r.dest).foldl (fun acc t => acc.modVe t fun v => { v with staged := v.staged ++ [(r.param, bs)] }) m
  | _ => m.storeRecord true r bs

/-- W space in use once an update's WEIGHTS take the place of the records of their ids; what they leave is free (R294). -/
def nextInUse (old new : List RecEntry) : List RecEntry := (old.filter fun o => !new.any fun r => r.id == o.id) ++ new

/-- An update is over: what it wrote is what the residency check expects from now on. -/
def Mach.endLive (m : Mach) (crcs : List (Nat × Nat × Word)) (inUse : List RecEntry) : Mach :=
  { m with cast := { m.cast with live := none, suspended := [], residency := m.cast.residency ++ crcs, written := [], inUse := inUse } }

/-- The switch: the other records take effect and the skeins of the updated models restart. Staged tables count as in force (R220). -/
def Mach.switchLive (m : Mach) (data : List (RecEntry × List Byte)) : Mach :=
  let m1 := data.foldl (fun acc x => acc.applyRecord x.1 x.2) m
  let inForce := (List.range 4).foldl (fun acc t => acc.switchTables (ix 4 t)) m1
  let m2 := m1.endLive (m1.cast.written ++ m.newRegions inForce) (nextInUse m.cast.inUse ((data.map Prod.fst).filter fun r => r.type == 4))
  (m2.skeinsOf (weightModels (data.map Prod.fst))).foldl Mach.restartSkein m2

/-- An update that a record read at the switch shows corrupt or malformed is dropped: the weights it wrote over are reloaded from the running copy
and the skeins it had suspended restart (R84, R90; log entry 86). -/
def Mach.dropLive (m : Mach) : Mach :=
  let models := m.cast.suspended
  let m1 := (m.endLive [] m.cast.inUse).checkRecords fun r => r.type == 4 && models.contains r.param
  ((m1.skeinsOf models).filter fun s => m1.skState s == skSuspended).foldl Mach.restartSkein m1

/-- A pending update at a complete barrier: deferred while a function it names is not in service or a state it restarts is being swapped;
first the weights are written, at the next complete barrier everything switches. A PROGRAM or ERASE of the copy after its RESCAN does not end the
pending update: what the flash then holds is read under R84, and neither the commit word nor the signature is judged again (DESIGN CHOICE, log
entry 78). -/
def Mach.liveUpdate (m : Mach) : Mach :=
  match m.cast.live with
  | none => m
  | some copy =>
    let rs := m.liveRecords copy
    if (rs.flatMap recFns).any (fun f => !m.up f) || (m.skeinsOf (weightModels rs)).any m.swapping then m
    else
      let x := readLives copy (m.copyBase copy) rs m
      match x.1 with
      | none => x.2.dropLive
      | some data => if !(weightModels rs).isEmpty && m.cast.suspended.isEmpty then x.2.writeWeights data else x.2.switchLive data

/-- PROGRAM_UPDATE_APPLY: while the core waits, its IMEM is written, the BTB cleared, and it restarts at pc 0; DMEM, counts and CSRs
stay (R253). -/
def Mach.programUpdate (m : Mach) (c : Fin 10) : Mach :=
  let k := m.core c
  if k.staged.isEmpty || k.st != .wait || !m.up (coreFn c) then m
  else
    let m1 := (m.squashHere c true).modCore c fun k =>
      { k with imem := k.staged.foldl (fun acc x => acc.write x.2.1 x.2.2) k.imem, staged := [], btb := [], pc := 0, wait := none
               programmed := true, st := if k.haltReq then .halted else .run }
    { m1 with cast := { m1.cast with residency := m1.cast.residency ++ m.newRegions m1 } }

def execProgramUpdateApply (c : Fin 10) (s : State) : Host.Outcome State Fault Refusal := s.onM fun m => m.programUpdate c

/-! ## The boundary -/

/-- Key 0x0004 takes the margins that step 16 measured, once the first row has ended (R139, R454). -/
def Mach.storeMargins (m : Mach) : Mach :=
  match m.cast.marginsDue with
  | some bs => ({ m with cast := { m.cast with marginsDue := none } } : Mach).llDevice 4 bs
  | none => m

/-- The row in progress ends at its tick of the grid: the barrier is judged, arrivals are cleared, updates are applied. -/
def Mach.endRow (m : Mach) : Mach :=
  let m1 := m.advanceTo (m.rowTick (m.rowCount + 1))
  let m2 := m1.judgeBarrier.nextArrivals.storeMargins
  if m1.barrierDone then m2.liveUpdate else m2

/-- ROW_BOUNDARY: the row ends; then a re-cast starts, the pattern stops for IDLE, or the next row starts with ROW_START (R47, R69, R88, R252). -/
def Mach.rowBoundary (m : Mach) : Mach :=
  if !m.on GlStatus.patternRunning then m
  else
    match m.pw.trans with
    | .toRecast reload => (m.endRow.recastNow reload).serveFrc
    | .toIdle | .toRetention => m.endRow.put GlStatus.patternRunning 0
    | .none =>
      let m1 := m.endRow
      ({ m1 with rowCount := m.rowCount + 1, rowStart := m.rowTick (m.rowCount + 1) } : Mach).rowStartEvent.periodicDump

/-- IDLE_ENTRY: the transition towards IDLE, or through it towards RETENTION. A row still in progress ends first, and is judged as every row is;
IDLE is reached once nothing that the entry waits for is left. -/
def Mach.idleEntry (m : Mach) (quiet : Bool) : Mach :=
  if m.phase = phRunning ∧ (m.pw.trans = .toIdle ∨ m.pw.trans = .toRetention) then
    let m1 := m.rowBoundary.enterIdle quiet
    if m1.phase = phIdle ∧ m1.pw.trans = .toIdle then ({ m1 with pw := { m1.pw with trans := .none } } : Mach).serveFrc else m1
  else m
def execIdleEntry (s : State) : Host.Outcome State Fault Refusal := s.onTimeCast fun m => m.idleEntry s.quiet

def execRowBoundary (s : State) : Host.Outcome State Fault Refusal := s.onTimeCast Mach.rowBoundary

end Sys2Proof.Machine
end

