-- ==== Sys2Proof/Machine/HostLinks.lean ====
section
/-! DEFINITION. The host's side of the links (12_host_links_messages.md; 00_scope.md R5, R7): PCI Express configuration requests, PTM, the
MSI-X table, USB, the SPI management slave, and register accesses over any path. -/

namespace Sys2Proof.Machine

/-! ## PCI Express (R67, R373, Tables HL-1, HL-2) -/

/-- Vectors that are pending and may now be sent are sent (R375). -/
def Mach.sendPending (m : Mach) : Mach :=
  (List.range 32).foldl (fun acc v => if acc.host.pba.getLsbD v then acc.raiseVector v else acc) m

/-- A configuration write: rings act on Bus Master Enable and the power state, pending vectors on these and on the MSI-X enables (R375, R377). -/
def Mach.cfgWrite (m : Mach) (off : Nat) (v : Word) : Mach := (m.cfgStore off v).closeDue.sendPending

/-- CONFIGURATION_REQUEST: the endpoint answers while its link is up. -/
def Mach.cfgRequest (m : Mach) (off : Nat) (write : Option Word) : Mach :=
  if !m.host.linkUp then m
  else match write with
    | none => { m with host := { m.host with cfgReply := m.cfgRead off } }
    | some v => m.cfgWrite off v

def execConfigurationRequest (off : BitVec 12) (write : Option Word) (s : State) : Host.Outcome State Fault Refusal :=
  s.onM fun m => m.cfgRequest (off.toNat / 4 * 4) write

/-- PTM_DIALOGUE (R378): the host master time and the TB tick are latched in one cycle. -/
def Mach.ptmDialogue (m : Mach) (master : DWord) : Mach :=
  if m.pathUp .pcie && m.on HlPtmCtl.auto && (m.cfgWord cfgPtmCtl).getLsbD 0 then
    ((m.putPair HlPtmMasterLo.reg master.toNat).putPair HlPtmTbLo.reg m.now).put HlPtmCtl.valid 1
  else m

def execPtmDialogue (master : DWord) (s : State) : Host.Outcome State Fault Refusal := s.onM fun m => m.ptmDialogue master

/-- Writable bits of an MSI-X table word: the address is a multiple of 4, of the control word only the mask is kept. -/
def msixMask (k : Nat) : Word := if k % 4 = 0 then 0xFFFFFFFC else if k % 4 = 3 then 1 else 0xFFFFFFFF

/-- MSI_X_TABLE_WRITE (R375). -/
def Mach.msixWrite (m : Mach) (k : Nat) (v : Word) : Mach :=
  if m.pathUp .pcie then
    ({ m with host := { m.host with
        msixTable := Tab.set (fun i => if i % 4 = 3 then 1 else 0) m.host.msixTable k (v &&& msixMask k) } } : Mach).sendPending
  else m

def execMsiXTableWrite (dwordIndex : BitVec 7) (value : Word) (s : State) : Host.Outcome State Fault Refusal :=
  s.onM fun m => m.msixWrite dwordIndex.toNat value

/-! ## USB (R379-R382, R392, R399) -/

def Mach.usbAttached (m : Mach) : Bool := m.up fnUsb && m.on HlUsbStat.attached

/-- USB_VBUS: the device attaches or detaches; a detached device is not configured. -/
def Mach.usbVbus (m : Mach) (present : Bool) : Mach :=
  let m1 : Mach := { m with pw := { m.pw with vbus := present } }
  if present then (if m.up fnUsb then (m1.put HlUsbStat.attached 1).usbEnumerate else m1)
  else m1.usbDeconfigure.put HlUsbStat.attached 0

def execUsbVbus (present : Bool) (s : State) : Host.Outcome State Fault Refusal := s.onM fun m => m.usbVbus present

def execUsbBusReset (s : State) : Host.Outcome State Fault Refusal :=
  s.onM fun m => if m.usbAttached then m.usbDeconfigure.flag HlUsbStat.busReset else m
def execUsbSuspend (s : State) : Host.Outcome State Fault Refusal :=
  s.onM fun m => if m.usbAttached then m.put HlUsbStat.suspended 1 else m
def execUsbResume (s : State) : Host.Outcome State Fault Refusal :=
  s.onM fun m => if m.usbAttached then m.put HlUsbStat.suspended 0 else m

/-- Are the audio interfaces there (Table HL-3)? -/
def Mach.usbAudio (m : Mach) : Bool := m.usbAttached && !m.on HlUsbStat.degraded

/-- ALTERNATE_SETTING: a host that sends it has configured the device (log entry 54). -/
def Mach.altSetting (m : Mach) (capture : Bool) (setting : Nat) : Mach :=
  if m.usbAudio then m.usbEnumerate.put (if capture then HlUsbStat.capActive else HlUsbStat.playActive) setting else m

def execAlternateSetting (capture : Bool) (setting : Fin 2) (s : State) : Host.Outcome State Fault Refusal :=
  s.onM fun m => m.altSetting capture setting.val

/-- FEATURE_UNIT (R380): mute, and volume in steps of 0.5 dB below 0 dB down to -60 dB. -/
def Mach.featureUnit (m : Mach) (capture : Bool) (ch : Nat) (mute : Bool) (halfDb : Nat) : Mach :=
  if m.usbAudio then
    let i := (if capture then 8 else 0) + ch
    { m with host := { m.host with
        mutes := if mute then m.host.mutes ||| BitVec.ofNat 16 (2 ^ i) else m.host.mutes &&& ~~~(BitVec.ofNat 16 (2 ^ i))
        volumes := vset m.host.volumes (ix 16 i) (BitVec.ofNat 8 (Nat.min halfDb 120)) } }
  else m

def execFeatureUnit (capture : Bool) (channel : Fin 8) (mute : Bool) (halfDb : BitVec 8) (s : State) : Host.Outcome State Fault Refusal :=
  s.onM fun m => m.featureUnit capture channel.val mute halfDb.toNat

/-- The answer to a read of one word; none while the reply waits (R223). -/
def Mach.answer (m : Mach) (p : Path) (r : Option WordRead) : Mach :=
  match r with
  | some ⟨some v, st⟩ => m.pathReply p (leBytes 4 v.toNat) st
  | _ => m

/-- REG_READ (R381). -/
def execRegRead (addr : BitVec 24) (s : State) : Host.Outcome State Fault Refusal :=
  s.onM fun m => if m.usbAttached then let r := m.pathRead .usb addr.toNat; r.2.answer .usb r.1 else m

/-- REG_WRITE (R381): the access, its status, and the count of writes. -/
def Mach.usbWrite (m : Mach) (a : Nat) (v : Word) : Mach :=
  if m.usbAttached then
    let r := if m.writeReaches a 4 then m.busWrite .usb a v else (.ok, m)
    { r.2 with host := { r.2.host with usbLast := r.1, usbWrites := r.2.host.usbWrites + 1 } }
  else m

def execRegWrite (addr : BitVec 24) (value : Word) (s : State) : Host.Outcome State Fault Refusal :=
  s.onCast fun m => (m.usbWrite addr.toNat value).runSteps

/-- LAST_STATUS (Table HL-4). -/
def execLastStatus (s : State) : Host.Outcome State Fault Refusal :=
  s.onM fun m =>
    if m.usbAttached then
      { m with host := { m.host with usbReply := BitVec.ofNat 8 m.host.usbLast.code :: leBytes 3 m.host.usbWrites.toNat } }
    else m

def inboxSlot : Nat := 4160

/-- BULK_OUT (R382): into the next inbox slot, whose length word is written with it; NAK while that slot is full. A transfer of another length,
or a slot beyond hub SRAM, is answered with STALL (log entry 55). -/
def Mach.bulkOut (m : Mach) (bytes : List Byte) : Mach :=
  let nak := fun (x : Mach) (b : Bool) => ({ x with host := { x.host with nak := b } } : Mach)
  if !(m.usbAttached && m.on HlUsbStat.configured && !m.on HlUsbStat.suspended) then nak m true
  else
    let n := Nat.max (m.get MsgUsbInbox.slotsM1) 1 + 1
    let i := m.host.inboxNext % n
    let a := m.get MsgUsbInbox.base / 4096 * 4096 + inboxSlot * i
    if bytes.isEmpty ∨ 4096 < bytes.length ∨ hubBytes < a + inboxSlot then nak m false
    else
      let r := m.hubRead a 4
      if r.2.1 ≠ .ok ∨ leNat r.1 ≠ 0 then nak r.2.2 true
      else
        let m1 := r.2.2.hubWrite a (leBytes 4 bytes.length ++ List.replicate 60 0 ++ bytes)
        let m2 : Mach := { m1 with host := { m1.host with inboxNext := (i + 1) % n, nak := false } }
        m2.signalCode (m2.get MsgUsbCfg.inboxCore) (m2.get MsgUsbCfg.inboxEvent)

def execBulkOut (bytes : List Byte) (s : State) : Host.Outcome State Fault Refusal := s.onM fun m => m.bulkOut bytes

/-- BULK_IN_ACK (R392): the oldest ready buffer of EP2 IN has been sent and becomes free. -/
def execBulkInAck (s : State) : Host.Outcome State Fault Refusal :=
  s.onM fun m => if m.usbReadyForIn then { m with msg := { m.msg with usbReady := m.msg.usbReady.tail } } else m

/-! ## SPI (R383, R384, R403, Table HL-5) -/

def spiTimeout : Nat := 5
def spiCrcBad : Nat := 6

def Mach.spiAnswer (m : Mach) (bs : List Byte) : Mach := { m with host := { m.host with spiReply := bs } }

def execSpiRead (addr : BitVec 24) (s : State) : Host.Outcome State Fault Refusal :=
  s.onM fun m =>
    let r := m.pathRead .spi addr.toNat
    match r.1 with
    | some ⟨some v, st⟩ => r.2.spiAnswer (spiFrame addr.toNat v.toNat st.code)
    | _ => r.2

/-- SPI_READ_TIMEOUT (R384): the access completes inside the device, its result is discarded. -/
def Mach.spiReadTimeout (m : Mach) (a : Nat) : Mach :=
  let r := m.pathRead .spi a
  match r.1 with
  | none => m
  | some x => ((if x.value.isNone then m else r.2).flag HlSpiStat.timeout).spiAnswer (spiFrame a 0 spiTimeout)

def execSpiReadTimeout (addr : BitVec 24) (s : State) : Host.Outcome State Fault Refusal := s.onM fun m => m.spiReadTimeout addr.toNat

def Mach.spiResult (m : Mach) (r : Nat) : Mach := m.put HlSpiStat.lastResult r

/-- SPI_WRITE: command, address, data and CRC-8, then the rise of SPIM_CS_N; bytes behind the ninth are ignored (R384, R403). -/
def Mach.spiWrite (m : Mach) (bs : List Byte) : Mach :=
  if !m.pathUp .spi then m
  else if bs.length < 9 then m.flag HlSpiStat.abort
  else if crc8 (bs.take 8) ≠ bs.getD 8 0 then (m.flag HlSpiStat.crcErr).spiResult spiCrcBad
  else
    let a := leNat ((bs.drop 1).take 3).reverse
    let v := BitVec.ofNat 32 (leNat ((bs.drop 4).take 4).reverse)
    let r := if m.writeReaches a 4 then m.busWrite .spi a v else (.ok, m)
    (r.2.bumpMod HlSpiStat.writes).spiResult r.1.code

def execSpiWrite (bytes : List Byte) (s : State) : Host.Outcome State Fault Refusal := s.onCast fun m => (m.spiWrite bytes).runSteps

/-- SPI_STATUS: result of the last WRITE, count of writes. -/
def execSpiStatus (s : State) : Host.Outcome State Fault Refusal :=
  s.onM fun m =>
    if m.pathUp .spi then m.spiAnswer [BitVec.ofNat 8 (m.get HlSpiStat.lastResult), BitVec.ofNat 8 (m.get HlSpiStat.writes)] else m

/-! ## Register accesses (R5, R7, R13) -/

/-- An access to the low or high word of a pair: `f` when the path and the block answer, `idle` when only the path does. -/
def Mach.pairAccess (m : Mach) (p : Path) (a : Nat) (high : Bool) (f : Nat → Mach) (idle : Mach) : Mach :=
  match pairOf a with
  | some (lo, h) => if h = high ∧ m.pathUp p then (if m.reaches a then f lo else idle) else m
  | none => m

def Mach.zeroReply (m : Mach) (p : Path) (a : Nat) : Mach := m.wordReply p a [0, 0, 0, 0]

def execRegPairLowRead (p : Path) (addr : BitVec 24) (s : State) : Host.Outcome State Fault Refusal :=
  s.onM fun m => m.pairAccess p addr.toNat false (fun lo => let r := m.readLow p lo; r.2.wordReply p addr.toNat (leBytes 4 r.1.toNat)) (m.zeroReply p addr.toNat)
def execRegPairHighRead (p : Path) (addr : BitVec 24) (s : State) : Host.Outcome State Fault Refusal :=
  s.onM fun m => m.pairAccess p addr.toNat true (fun lo => let r := m.readHigh p lo; r.2.wordReply p addr.toNat (leBytes 4 r.1.toNat)) (m.zeroReply p addr.toNat)
def execRegPairLowWrite (p : Path) (addr : BitVec 24) (value : Word) (s : State) : Host.Outcome State Fault Refusal :=
  s.onM fun m => m.pairAccess p addr.toNat false (fun lo => m.stageLow p lo value) m
def execRegPairHighWrite (p : Path) (addr : BitVec 24) (value : Word) (s : State) : Host.Outcome State Fault Refusal :=
  s.onM fun m => m.pairAccess p addr.toNat true (fun lo => m.commitHigh p lo value) m

/-- REGISTER_WRITE: each field acts by its type (R5). -/
def execRegisterWrite (p : Path) (addr : BitVec 24) (value : Word) (s : State) : Host.Outcome State Fault Refusal :=
  s.onCast fun m => (m.pathWrite p addr.toNat value).runSteps

/-! ## The ACD link (R368) -/

/-- ACD_LINK: a parity or CRC error of ACDL frogs function 0x0A. -/
def execAcdLink (s : State) : Host.Outcome State Fault Refusal :=
  s.onM fun m => if m.up fnAcd then m.raiseFn Flt.acdLink (srcIsl 262) [] fnAcd else m

end Sys2Proof.Machine
end

