-- ==== Sys2Proof/Machine/Swatch.lean ====
section
/-! DEFINITION. Swatch tests: SWATCH_WINDOW, SWATCH_TEST_START, SWATCH_TEST_END (13_faults_swatch_frog.md R413, R414, R427, Table FR-5). -/

namespace Sys2Proof.Machine

/-- Bit of FR_SW_CFG.enable for an instance. -/
def swatchKind (k : Nat) : Nat := if k < 16 then 0 else if k < 20 then 1 else if k < 24 then 2 else 3

/-- Arrays of a tile with the same valid active epoch as array a, a among them. -/
def Mach.epochMates (m : Mach) (t a : Fin 4) : List (Fin 4) :=
  let x := fun (i : Fin 4) => vget (m.tile t).mx.arrays i
  if (x a).activeValid then (List.finRange 4).filter fun b => (x b).activeValid && (x b).active.epoch == (x a).active.epoch else []

/-- An array window is ineligible when no two arrays of the tile hold the same valid active epoch. -/
def Mach.swatchEligible (m : Mach) (k : Nat) : Bool :=
  if k < 16 then (List.finRange 4).any fun a => decide (2 ≤ (m.epochMates (ix 4 (k / 4)) a).length) else true

/-- A window is abandoned or missed: the sixteenth in a row starves its instance (R414). -/
def Mach.swatchMiss (m : Mach) (k : Nat) : Mach :=
  let n := (m.swatchSt k).consec + 1
  if n = 16 then
    (((m.setSwatch k { m.swatchSt k with consec := 0 }).setReg FrSwStat.reg (m.reg FrSwStat.reg ||| BitVec.ofNat 32 (2 ^ k))).flag FrStatus.starved).record
      Flt.swatchStarved (srcFn (swatchFn k)) [k]
  else m.setSwatch k { m.swatchSt k with consec := n }

/-- The interval of one instance ends, and its next window opens while the phase is RUNNING and its function in service. -/
def Mach.nextWindow (m : Mach) (k : Nat) : Mach :=
  let x := m.swatchSt k
  if x.running then m
  else
    let m1 := if x.isOpen && m.swatchEligible k then m.swatchMiss k else m
    let opens := m1.phase == phRunning && (m1.get FrSwCfg.enable).testBit (swatchKind k) && m1.up (ix 19 (swatchFn k))
    m1.setSwatch k { m1.swatchSt k with isOpen := opens }

def Mach.swatchWindow (m : Mach) : Mach := (List.range 25).foldl Mach.nextWindow m

def execSwatchWindow (s : State) : Host.Outcome State Fault Refusal := s.onM Mach.swatchWindow

/-- The next unallocated bank of a tile, in turn (R157); in unified mode every bank counts as allocated (R147). -/
def Mach.marchBank (m : Mach) (t : Fin 4) : Option Nat :=
  let first := (m.tile t).sp.marchNext
  if (m.tile t).sp.unified then none
  else ((List.range 32).map fun i => (first + i) % 32).find? fun b => !(m.get (SpBankAlloc.alloc t)).testBit b

/-- Two or three arrays, the instance's own among them, with the same valid active epoch (R193). -/
def Mach.comparable (m : Mach) (t a : Fin 4) (compared : BitVec 4) : Bool :=
  compared.getLsbD a.val && (popcount compared == 2 || popcount compared == 3) && (arraysOf compared).all fun b => (m.epochMates t a).contains b

/-- Is nothing queued or running at a unit? -/
def UnitQ.quiet (q : UnitQ) : Bool := q.express.isEmpty && q.row.isEmpty && q.current.all (·.done)

/-- The start condition of Table FR-5; an array's test compares the arrays it names (R193), the others name none. -/
def Mach.swatchReady (m : Mach) (compared : BitVec 4) : SwatchInst → Bool
  | .array t a => m.comparable t a compared && m.injectorsFree t compared
  | .spBank t => (m.marchBank t).isSome
  | .ve t => (m.tile t).veQ.quiet && (m.tile t).ve.run.isNone
  | .dza => m.dza.run.isNone && m.dza.queue.quiet

/-- SWATCH_TEST_START: within its window, once the block meets the start condition. -/
def Mach.swatchStart (m : Mach) (i : SwatchInst) (compared : BitVec 4) : Mach :=
  let k := swatchKey i
  let x := m.swatchSt k
  if x.isOpen && !x.running && m.phase == phRunning && m.up (ix 19 (swatchFn k)) && m.swatchReady compared i then
    let m1 := m.setSwatch k { x with running := true, arrays := match i with | .array _ _ => compared | _ => 0 }
    match i with
    | .spBank t => m1.modSp t fun s => { s with marching := m.marchBank t }
    | .dza => m1.put DzStatus.swatchActive 1
    | .array _ _ | .ve _ => m1
  else m

def execSwatchTestStart (i : SwatchInst) (s : State) (compared : BitVec 4 := 0) : Host.Outcome State Fault Refusal := s.onM fun m => m.swatchStart i compared

/-- What a mismatch sets and logs (R193, R222, R334, Table FR-5). -/
def Mach.swatchFail (m : Mach) (i : SwatchInst) (bank : Nat) (arg0 arg1 : Word) : Mach :=
  match i with
  | .array t _ => (m.flag (MxStatus.lockstep t)).record Flt.mxLockstep (srcFn t.val) [arg0.toNat, arg1.toNat]
  | .spBank t => m.record Flt.spMarch (srcBank t bank) [bank, arg1.toNat % 20480]
  | .ve t => (m.flag (VeStatus.swatch t)).record Flt.veSwatch (srcFn t.val) []
  | .dza => (m.flag DzStatus.swatch).record Flt.dzSwatch (srcFn 4) []

/-- The test stops; what it held is released. A march that completed moves on to the next bank. -/
def Mach.swatchStop (m : Mach) (i : SwatchInst) (complete : Bool) : Mach :=
  let m1 := m.setSwatch (swatchKey i) { m.swatchSt (swatchKey i) with isOpen := false, running := false, arrays := 0, broken := false }
  match i with
  | .spBank t => m1.modSp t fun s =>
      { s with marching := none
               marchNext := match s.marching with | some b => if complete then (b + 1) % 32 else b | none => s.marchNext }
  | .dza => m1.put DzStatus.swatchActive 0
  | .array _ _ | .ve _ => m1

/-- Has an access broken off the march of a tile (R158), or a stitch the test of its block (R193, R222)? -/
def Mach.testBroken (m : Mach) (i : SwatchInst) : Bool :=
  match i with
  | .spBank t => (m.tile t).sp.marching.isNone
  | _ => (m.swatchSt (swatchKey i)).broken

/-- SWATCH_TEST_END: a test completes or is abandoned, and is counted (R414). -/
def Mach.swatchEnd (m : Mach) (i : SwatchInst) (o : SwatchOutcome) : Mach :=
  let k := swatchKey i
  if !(m.swatchSt k).running then m
  else
    let bank := match i with | .spBank t => (m.tile t).sp.marching.getD 0 | _ => 0
    let done := fun (x : Mach) =>
      let x1 := (x.swatchStop i true).bump FrSwRunCount.count
      x1.setSwatch k { x1.swatchSt k with consec := 0 }
    let dropped := ((m.swatchStop i false).bump FrSwAbandonCount.count).swatchMiss k
    if m.testBroken i then dropped
    else match o with
      | .passed => done m
      | .failed arg0 arg1 => ((done m).bump FrSwFailCount.count).swatchFail i bank arg0 arg1
      | .abandoned => dropped

/-- The accesses that waited for the annealer's test are served in their order (R334). -/
def Mach.serveHeld (m : Mach) : Mach :=
  m.dza.held.foldl (fun acc e =>
    match e.op with
    | .read _ => let r := acc.wordRead e.p e.a; r.2.wordReply e.p e.a (leBytes 4 (r.1.value.getD 0).toNat) r.1.status
    | .write bs =>
      if 0x580000 ≤ e.a then acc.problemWrite e.p (e.a - 0x580000) bs
      else acc.regAccess e.p e.a (BitVec.ofNat 32 (leNat (bs.map fun b => b.getD 0)))) { m with dza := { m.dza with held := [] } }

def execSwatchTestEnd (i : SwatchInst) (o : SwatchOutcome) (s : State) : Host.Outcome State Fault Refusal := s.onM fun m => if i = .dza then (m.swatchEnd i o).serveHeld else m.swatchEnd i o

end Sys2Proof.Machine
end

