-- ==== Sys2Proof/Machine/Dispatch.lean ====
section
/-! DEFINITION. Every command to its meaning, one arm per constructor. -/

namespace Sys2Proof.Machine

def exec (i : Instr) (s : State) : Host.Outcome State Fault Refusal :=
  match i with
  | .powerOn up => Sys2Proof.Machine.execPowerOn s up
  | .porstNAssert => Sys2Proof.Machine.execPorstNAssert s
  | .pwrokFall => Sys2Proof.Machine.execPwrokFall s
  | .undervoltage rail => Sys2Proof.Machine.execUndervoltage rail s
  | .coldCastOn rises => Sys2Proof.Machine.execColdCastOn s rises
  | .sensorReading sensor temp => Sys2Proof.Machine.execSensorReading sensor temp s
  | .xtalLost => Sys2Proof.Machine.execXtalLost s
  | .timebaseRelock => Sys2Proof.Machine.execTimebaseRelock s
  | .amclkLost => Sys2Proof.Machine.execAmclkLost s
  | .voutCommandWrite acked readVout => Sys2Proof.Machine.execVoutCommandWrite acked readVout s
  | .vrAlert acked statusWord => Sys2Proof.Machine.execVrAlert acked statusWord s
  | .droopEvent isl => Sys2Proof.Machine.execDroopEvent isl s
  | .targetIdle p => Sys2Proof.Machine.execTargetIdle p s
  | .idleEntry => Sys2Proof.Machine.execIdleEntry s
  | .targetRetention p => Sys2Proof.Machine.execTargetRetention p s
  | .retentionEntry => Sys2Proof.Machine.execRetentionEntry s
  | .targetRun p => Sys2Proof.Machine.execTargetRun p s
  | .perstNRise => Sys2Proof.Machine.execPerstNRise s
  | .perstNAssert => Sys2Proof.Machine.execPerstNAssert s
  | .linkDown hotReset => Sys2Proof.Machine.execLinkDown hotReset s
  | .recast p => Sys2Proof.Machine.execRecast p s
  | .recastReload p => Sys2Proof.Machine.execRecastReload p s
  | .castOn p => Sys2Proof.Machine.execCastOn p s
  | .rescan p => Sys2Proof.Machine.execRescan p s
  | .nvmRead p lenM1 => Sys2Proof.Machine.execNvmRead p lenM1 s
  | .program p lenM1 => Sys2Proof.Machine.execProgram p lenM1 s
  | .erase4KiB p => Sys2Proof.Machine.execErase4KiB p s
  | .erase64KiB p => Sys2Proof.Machine.execErase64KiB p s
  | .nvmOpComplete flashOk => Sys2Proof.Machine.execNvmOpComplete flashOk s
  | .llWrite p key length => Sys2Proof.Machine.execLlWrite p key length s
  | .llRead p key => Sys2Proof.Machine.execLlRead p key s
  | .delete p key => Sys2Proof.Machine.execDelete p key s
  | .llOpComplete flashOk => Sys2Proof.Machine.execLlOpComplete flashOk s
  | .governorInterval estimate measure => Sys2Proof.Machine.execGovernorInterval estimate measure s
  | .tensionFloor => Sys2Proof.Machine.execTensionFloor s
  | .flitSend src dst cls f => Sys2Proof.Machine.execFlitSend src dst cls f s
  | .flitArrival src dst cls => Sys2Proof.Machine.execFlitArrival src dst cls s
  | .creditReturn src dst cls edge => Sys2Proof.Machine.execCreditReturn src dst cls s edge
  | .linkStall src dst cls => Sys2Proof.Machine.execLinkStall src dst cls s
  | .replyTimeout requester target => Sys2Proof.Machine.execReplyTimeout requester target s
  | .cycleCountCheck failing => Sys2Proof.Machine.execCycleCountCheck s failing
  | .bankGrant t bank requests => Sys2Proof.Machine.execBankGrant t bank requests s
  | .spRead t addr len age => Sys2Proof.Machine.execSpRead t addr len age s
  | .spWrite t addr bytes weightWrite => Sys2Proof.Machine.execSpWrite t addr bytes s weightWrite
  | .correctedWriteback t bank => Sys2Proof.Machine.execCorrectedWriteback t bank s
  | .scrubRead t bank => Sys2Proof.Machine.execScrubRead t bank s
  | .spWindowAccess p t off op => Sys2Proof.Machine.execSpWindowAccess p t off op s
  | .load t h p => Sys2Proof.Machine.execLoad t h p s
  | .loadComplete t => Sys2Proof.Machine.execLoadComplete t s
  | .pass t h p => Sys2Proof.Machine.execPass t h p s
  | .vectorCommit t => Sys2Proof.Machine.execVectorCommit t s
  | .resultPromotion t => Sys2Proof.Machine.execResultPromotion t s
  | .drain t h p => Sys2Proof.Machine.execDrain t h p s
  | .ve t h p => Sys2Proof.Machine.execVe t h p s
  | .beatIssue t => Sys2Proof.Machine.execBeatIssue t s
  | .tableSwitch t => Sys2Proof.Machine.execTableSwitch t s
  | .veOcAccess p t write => Sys2Proof.Machine.execVeOcAccess p t write s
  | .xfer t h p => Sys2Proof.Machine.execXfer t h p s
  | .stitchStart u => Sys2Proof.Machine.execStitchStart u s
  | .stitchComplete u => Sys2Proof.Machine.execStitchComplete u s
  | .stitchOverrun u => Sys2Proof.Machine.execStitchOverrun u s
  | .add c rd ra rb => Sys2Proof.Machine.execAdd c rd ra rb s
  | .sub c rd ra rb => Sys2Proof.Machine.execSub c rd ra rb s
  | .and c rd ra rb => Sys2Proof.Machine.execAnd c rd ra rb s
  | .or c rd ra rb => Sys2Proof.Machine.execOr c rd ra rb s
  | .xor c rd ra rb => Sys2Proof.Machine.execXor c rd ra rb s
  | .sll c rd ra rb => Sys2Proof.Machine.execSll c rd ra rb s
  | .srl c rd ra rb => Sys2Proof.Machine.execSrl c rd ra rb s
  | .sra c rd ra rb => Sys2Proof.Machine.execSra c rd ra rb s
  | .slt c rd ra rb => Sys2Proof.Machine.execSlt c rd ra rb s
  | .sltu c rd ra rb => Sys2Proof.Machine.execSltu c rd ra rb s
  | .min c rd ra rb => Sys2Proof.Machine.execMin c rd ra rb s
  | .max c rd ra rb => Sys2Proof.Machine.execMax c rd ra rb s
  | .minu c rd ra rb => Sys2Proof.Machine.execMinu c rd ra rb s
  | .maxu c rd ra rb => Sys2Proof.Machine.execMaxu c rd ra rb s
  | .clz c rd ra => Sys2Proof.Machine.execClz c rd ra s
  | .mul c rd ra rb => Sys2Proof.Machine.execMul c rd ra rb s
  | .mulh c rd ra rb => Sys2Proof.Machine.execMulh c rd ra rb s
  | .mulhu c rd ra rb => Sys2Proof.Machine.execMulhu c rd ra rb s
  | .addi c rd ra imm => Sys2Proof.Machine.execAddi c rd ra imm s
  | .andi c rd ra imm => Sys2Proof.Machine.execAndi c rd ra imm s
  | .ori c rd ra imm => Sys2Proof.Machine.execOri c rd ra imm s
  | .xori c rd ra imm => Sys2Proof.Machine.execXori c rd ra imm s
  | .slti c rd ra imm => Sys2Proof.Machine.execSlti c rd ra imm s
  | .sltiu c rd ra imm => Sys2Proof.Machine.execSltiu c rd ra imm s
  | .slli c rd ra sh => Sys2Proof.Machine.execSlli c rd ra sh s
  | .srli c rd ra sh => Sys2Proof.Machine.execSrli c rd ra sh s
  | .srai c rd ra sh => Sys2Proof.Machine.execSrai c rd ra sh s
  | .lui c rd imm => Sys2Proof.Machine.execLui c rd imm s
  | .lw c rd ra imm => Sys2Proof.Machine.execLw c rd ra imm s
  | .lh c rd ra imm => Sys2Proof.Machine.execLh c rd ra imm s
  | .lhu c rd ra imm => Sys2Proof.Machine.execLhu c rd ra imm s
  | .lb c rd ra imm => Sys2Proof.Machine.execLb c rd ra imm s
  | .lbu c rd ra imm => Sys2Proof.Machine.execLbu c rd ra imm s
  | .sw c rd ra imm => Sys2Proof.Machine.execSw c rd ra imm s
  | .sh c rd ra imm => Sys2Proof.Machine.execSh c rd ra imm s
  | .sb c rd ra imm => Sys2Proof.Machine.execSb c rd ra imm s
  | .beq c ra rb off => Sys2Proof.Machine.execBeq c ra rb off s
  | .bne c ra rb off => Sys2Proof.Machine.execBne c ra rb off s
  | .blt c ra rb off => Sys2Proof.Machine.execBlt c ra rb off s
  | .bge c ra rb off => Sys2Proof.Machine.execBge c ra rb off s
  | .bltu c ra rb off => Sys2Proof.Machine.execBltu c ra rb off s
  | .bgeu c ra rb off => Sys2Proof.Machine.execBgeu c ra rb off s
  | .jal c off => Sys2Proof.Machine.execJal c off s
  | .jalr c rd ra imm => Sys2Proof.Machine.execJalr c rd ra imm s
  | .post c rd ra imm => Sys2Proof.Machine.execPost c rd ra imm s
  | .sigev c ev target => Sys2Proof.Machine.execSigev c ev target s
  | .waitev c rd ra ev anyEv => Sys2Proof.Machine.execWaitev c rd ra ev anyEv s
  | .rowend c rd => Sys2Proof.Machine.execRowend c rd s
  | .evcnt c rd ev => Sys2Proof.Machine.execEvcnt c rd ev s
  | .fence c => Sys2Proof.Machine.execFence c s
  | .csrr c rd csr => Sys2Proof.Machine.execCsrr c rd csr s
  | .csrw c ra csr => Sys2Proof.Machine.execCsrw c ra csr s
  | .csrs c ra csr => Sys2Proof.Machine.execCsrs c ra csr s
  | .csrc c ra csr => Sys2Proof.Machine.execCsrc c ra csr s
  | .trap c imm => Sys2Proof.Machine.execTrap c imm s
  | .tret c => Sys2Proof.Machine.execTret c s
  | .brk c => Sys2Proof.Machine.execBrk c s
  | .deviceReply c => Sys2Proof.Machine.execDeviceReply c s
  | .storeError c => Sys2Proof.Machine.execStoreError c s
  | .waitevTimeout c => Sys2Proof.Machine.execWaitevTimeout c s
  | .eventSignal c ev => Sys2Proof.Machine.execEventSignal c ev s
  | .hostDoorbell p c => Sys2Proof.Machine.execHostDoorbell p c s
  | .halt p c on => Sys2Proof.Machine.execHalt p c on s
  | .step p c => Sys2Proof.Machine.execStep p c s
  | .tcDbgDataAccess p c write => Sys2Proof.Machine.execTcDbgDataAccess p c write s
  | .programUpdateApply c => Sys2Proof.Machine.execProgramUpdateApply c s
  | .tcWdog c => Sys2Proof.Machine.execTcWdog c s
  | .rowBoundary => Sys2Proof.Machine.execRowBoundary s
  | .swapOut h skein => Sys2Proof.Machine.execSwapOut h skein s
  | .swapIn h skein slot => Sys2Proof.Machine.execSwapIn h skein slot s
  | .fetch h p => Sys2Proof.Machine.execFetch h p s
  | .store h p => Sys2Proof.Machine.execStore h p s
  | .stashBlockGrant channel => Sys2Proof.Machine.execStashBlockGrant channel s
  | .swapComplete skein => Sys2Proof.Machine.execSwapComplete skein s
  | .stashWindowAccess off op => Sys2Proof.Machine.execStashWindowAccess off op s
  | .hubSramHostWrite p off op => Sys2Proof.Machine.execHubSramHostWrite p off op s
  | .run h p => Sys2Proof.Machine.execRun h p s
  | .stop h => Sys2Proof.Machine.execStop h s
  | .copy h p => Sys2Proof.Machine.execCopy h p s
  | .sweepEnd => Sys2Proof.Machine.execSweepEnd s
  | .runEnd => Sys2Proof.Machine.execRunEnd s
  | .problemWindowWrite p off bytes => Sys2Proof.Machine.execProblemWindowWrite p off bytes s
  | .sample ch value => Sys2Proof.Machine.execSample ch value s
  | .frameEvent ring => Sys2Proof.Machine.execFrameEvent ring s
  | .playbackFrame ring => Sys2Proof.Machine.execPlaybackFrame ring s
  | .gainChange input => Sys2Proof.Machine.execGainChange input s
  | .snap p => Sys2Proof.Machine.execSnap p s
  | .acdSwatchTest p => Sys2Proof.Machine.execAcdSwatchTest p s
  | .acdSwatchEnd failed => Sys2Proof.Machine.execAcdSwatchEnd failed s
  | .pdmStuck mic => Sys2Proof.Machine.execPdmStuck mic s
  | .tdmSyncLost port => Sys2Proof.Machine.execTdmSyncLost port s
  | .tdmRate port ppm => Sys2Proof.Machine.execTdmRate port ppm s
  | .biasFault n => Sys2Proof.Machine.execBiasFault n s
  | .acdLink => Sys2Proof.Machine.execAcdLink s
  | .configurationRequest off write => Sys2Proof.Machine.execConfigurationRequest off write s
  | .ptmDialogue master => Sys2Proof.Machine.execPtmDialogue master s
  | .completion ring status => Sys2Proof.Machine.execCompletion ring status s
  | .completionTimeout ring => Sys2Proof.Machine.execCompletionTimeout ring s
  | .prodWrite p ring prod => Sys2Proof.Machine.execProdWrite p ring prod s
  | .ringEnable p ring => Sys2Proof.Machine.execRingEnable p ring s
  | .ringDisable p ring => Sys2Proof.Machine.execRingDisable p ring s
  | .messageDelivery d => Sys2Proof.Machine.execMessageDelivery d s
  | .bufferCloseTimer d => Sys2Proof.Machine.execBufferCloseTimer d s
  | .intTimer ring => Sys2Proof.Machine.execIntTimer ring s
  | .holdExpiry d => Sys2Proof.Machine.execHoldExpiry d s
  | .send h p => Sys2Proof.Machine.execSend h p s
  | .flush h rings usb => Sys2Proof.Machine.execFlush h rings usb s
  | .usbVbus present => Sys2Proof.Machine.execUsbVbus present s
  | .usbBusReset => Sys2Proof.Machine.execUsbBusReset s
  | .usbSuspend => Sys2Proof.Machine.execUsbSuspend s
  | .regRead addr => Sys2Proof.Machine.execRegRead addr s
  | .regWrite addr value => Sys2Proof.Machine.execRegWrite addr value s
  | .lastStatus => Sys2Proof.Machine.execLastStatus s
  | .bulkOut bytes => Sys2Proof.Machine.execBulkOut bytes s
  | .bulkInAck => Sys2Proof.Machine.execBulkInAck s
  | .audioMicroframe capture samples => Sys2Proof.Machine.execAudioMicroframe capture samples s
  | .spiRead addr => Sys2Proof.Machine.execSpiRead addr s
  | .spiReadTimeout addr => Sys2Proof.Machine.execSpiReadTimeout addr s
  | .spiWrite bytes => Sys2Proof.Machine.execSpiWrite bytes s
  | .spiStatus => Sys2Proof.Machine.execSpiStatus s
  | .frog p fn => Sys2Proof.Machine.execFrog p fn s
  | .bindOff p fn => Sys2Proof.Machine.execBindOff p fn s
  | .enable p fn => Sys2Proof.Machine.execEnable p fn s
  | .cut => Sys2Proof.Machine.execCut s
  | .rejoin failed => Sys2Proof.Machine.execRejoin failed s
  | .frogDone => Sys2Proof.Machine.execFrogDone s
  | .pop p => Sys2Proof.Machine.execPop p s
  | .swatchWindow => Sys2Proof.Machine.execSwatchWindow s
  | .swatchTestStart inst compared => Sys2Proof.Machine.execSwatchTestStart inst s compared
  | .swatchTestEnd inst outcome => Sys2Proof.Machine.execSwatchTestEnd inst outcome s
  | .dumpNow p => Sys2Proof.Machine.execDumpNow p s
  | .dumpComplete => Sys2Proof.Machine.execDumpComplete s
  | .gaugeClear p block => Sys2Proof.Machine.execGaugeClear p block s
  | .regPairLowRead p addr => Sys2Proof.Machine.execRegPairLowRead p addr s
  | .regPairLowWrite p addr value => Sys2Proof.Machine.execRegPairLowWrite p addr value s
  | .regPairHighWrite p addr value => Sys2Proof.Machine.execRegPairHighWrite p addr value s
  | .registerWrite p addr value => Sys2Proof.Machine.execRegisterWrite p addr value s
  | .amclkInReturn => Sys2Proof.Machine.execAmclkInReturn s
  | .pdmStuckCleared mic => Sys2Proof.Machine.execPdmStuckCleared mic s
  | .tdmSyncRegained port => Sys2Proof.Machine.execTdmSyncRegained port s
  | .usbResume => Sys2Proof.Machine.execUsbResume s
  | .linkTrained speed width => Sys2Proof.Machine.execLinkTrained speed width s
  | .regPairHighRead p addr => Sys2Proof.Machine.execRegPairHighRead p addr s
  | .rescanEnd => Sys2Proof.Machine.execRescanEnd s
  | .deviceStoreReply c => Sys2Proof.Machine.execDeviceStoreReply c s
  | .illegal c word => Sys2Proof.Machine.execIllegal c word s
  | .imemUe c => Sys2Proof.Machine.execImemUe c s
  | .fetchRange c => Sys2Proof.Machine.execFetchRange c s
  | .alternateSetting capture setting => Sys2Proof.Machine.execAlternateSetting capture setting s
  | .featureUnit capture channel mute halfDb => Sys2Proof.Machine.execFeatureUnit capture channel mute halfDb s
  | .msiXTableWrite dwordIndex value => Sys2Proof.Machine.execMsiXTableWrite dwordIndex value s
  | .overhangRewriteEnd model => Sys2Proof.Machine.execOverhangRewriteEnd model s

end Sys2Proof.Machine
end

