-- ==== Sys2Proof/Safety.lean ====
section
/-! DEFINITION. What counts as a safe step, and what "unchanged" means in the statements: the parts of the machine, and the frame of a
command, which names the parts it changes. Fault records (R409, R442) and gauge counters (R434) are books that any command may keep, so a
frame allows them, and nothing else, besides the parts named. -/

namespace Sys2Proof

/-- The block goes on: a step from s answers a next state. -/
def Safe (s : Machine.State) : Prop := ∃ t, Machine.step s = .next t

namespace Machine

/-- The parts of the machine a frame speaks of. `hub a` is one byte of hub SRAM as a read returns it, `reg a` one register as stored. -/
inductive Part where
  | free | linkEpoch | issue | pairs | tb | tbOn | pw | flash | cast | nvm | ll | waiting | gov | rowCount | rowStart
  | stash | dza | ae | msg | host | frc | swatch | gauges | dump | dumpSeq | struck
  | reg (a : Nat)
  | fn (f : Fin 19)
  | island (i : Fin 264)
  | sp (t : Fin 4) | mx (t : Fin 4) | ve (t : Fin 4) | sdm (t : Fin 4)
  | unitQ (u : UnitId)
  | core (c : Fin 10)
  | hub (a : Nat)
deriving DecidableEq, Repr

/-- The registers that fault records and gauge counters write: the sequence number (R409), the log's books (R443), FR_STATUS (lost
records) and the GA_STATUS of the five gauge blocks (R435). -/
def bookReg (a : Nat) : Bool :=
  a == FrFaultSeq.reg || a == GaLogLost.count.addr || a == GaLogRd.reg || a == FrStatus.pendLost.addr ||
  (List.range 5).any fun b => a == (GaStatus.ovf b).addr || a == (GaStatus.thr b).addr

/-- The bytes of the log ring in hub SRAM (R442). -/
def logByte (a : Nat) : Bool := decide (logBase ≤ a ∧ a < logBase + 32 * 4096)

/-- A core that at most took signals: event counts and the sticky overflow bits change; a waiting core may have been woken (R239, R240). -/
def Core.Signalled (k k' : Core) : Prop :=
  k' = { k with counts := k'.counts, evOvf := k'.evOvf, wait := k'.wait, st := k'.st, regs := k'.regs, pc := k'.pc } ∧
  (k.st ≠ .wait → k'.wait = k.wait ∧ k'.st = k.st ∧ k'.regs = k.regs ∧ k'.pc = k.pc)

/-- A part is as before, but for the books. -/
def Part.kept (m m' : Mach) : Part → Prop
  | .free | .gauges => True
  | .linkEpoch => m'.linkEpoch = m.linkEpoch
  | .issue => m'.issue = m.issue
  | .pairs => m'.pairs = m.pairs
  | .tb => m'.tb = m.tb
  | .tbOn => m'.tbOn = m.tbOn
  | .pw => m'.pw = m.pw
  | .flash => m'.flash = m.flash
  | .cast => m'.cast = m.cast
  | .nvm => m'.nvm = m.nvm
  | .ll => m'.ll = m.ll
  | .waiting => m'.waiting = m.waiting
  | .gov => m'.gov = m.gov
  | .rowCount => m'.rowCount = m.rowCount
  | .rowStart => m'.rowStart = m.rowStart
  | .stash => m'.stash = { m.stash with queue := m'.stash.queue }
  | .dza => m'.dza = { m.dza with queue := m'.dza.queue }
  | .ae => m'.ae = m.ae
  | .msg => m'.msg = { m.msg with queue := m'.msg.queue }
  | .host => m'.host = { m.host with msix := m'.host.msix, pba := m'.host.pba }
  | .frc => m'.frc = { m.frc with pend := m'.frc.pend, buffer := m'.frc.buffer, recent := m'.frc.recent } ∧ m.frc.pend <+: m'.frc.pend
  | .swatch => m'.swatch = m.swatch
  | .dump => m'.dump = m.dump
  | .dumpSeq => m'.dumpSeq = m.dumpSeq
  | .struck => m'.struck = m.struck
  | .reg a => bookReg a = false → m'.reg a = m.reg a
  | .fn f => m'.fn f = m.fn f
  | .island i => m'.isl i = m.isl i
  | .sp t => (m'.tile t).sp = (m.tile t).sp
  | .mx t => (m'.tile t).mx = (m.tile t).mx
  | .ve t => (m'.tile t).ve = (m.tile t).ve
  | .sdm t => (m'.tile t).sdm = (m.tile t).sdm
  | .unitQ u => m'.unitQ u = m.unitQ u
  | .core c => Core.Signalled (m.core c) (m'.core c)
  | .hub a => logByte a = false → m'.hub.byte a = m.hub.byte a

/-- A fault record that the pending queue of R409 took: code, function, island, arguments and the sequence number of the record, as Tables
FR-2 and FR-3 lay them out. -/
def Recorded (m m' : Mach) (code : Nat) (src : Src) (args : List Nat) : Prop :=
  ∃ e ∈ m'.frc.pend, (e.getD 0 0).toNat % 2 ^ 16 = code ∧ (e.getD 0 0).toNat / 2 ^ 16 % 2 ^ 8 = src.fn % 2 ^ 8 ∧
    (e.getD 1 0).toNat % 2 ^ 9 = src.island % 2 ^ 9 ∧ e.getD 4 0 = m.reg FrFaultSeq.reg ∧
    ∀ i < args.length, e.getD (5 + i) 0 = BitVec.ofNat 32 (args.getD i 0)

/-- Every part that `changed` does not name is as before, but for the books. -/
def Mach.Frame (changed : Part → Prop) (m m' : Mach) : Prop := ∀ p, ¬ changed p → p.kept m m'

/-- No part is named: at most the books changed. -/
def Mach.Books (m m' : Mach) : Prop := Mach.Frame (fun _ => False) m m'

/-- The frame of a command: the queue, the links and what they carry are as before, and every part not named. -/
def State.Frame (changed : Part → Prop) (s t : State) : Prop :=
  t.pending = s.pending ∧ t.links = s.links ∧ t.net = s.net ∧ Mach.Frame changed s.m t.m

/-- Two SECDED memories that read the same, byte for byte and error for error: they may differ in corrected words written back (R163, R266). -/
def EccMem.Same (x y : EccMem) : Prop := ∀ a, y.byte a = x.byte a ∧ y.bad a = x.bad a

/-- A core is as k but for corrected words of IMEM and DMEM, and signals it took. -/
def Core.Like (k k' : Core) : Prop :=
  EccMem.Same k.imem k'.imem ∧ EccMem.Same k.dmem k'.dmem ∧ Core.Signalled { k with imem := k'.imem, dmem := k'.dmem } k'

/-- A core ends its instruction as k, and takes a requested halt at this boundary (Table TC-20). -/
def Core.EndsAs (k k' : Core) : Prop := Core.Like k.boundary k'

/-- A core can run the instruction at its pc: in service and in RUN, with nothing held in M, its pc inside IMEM and the word there without an
uncorrectable error (R230, R232, R237, R266). -/
abbrev CoreReady (s : State) (c : Fin 10) : Prop :=
  s.m.up (coreFn c) = true ∧ (s.m.core c).st = .run ∧ (s.m.core c).free = true ∧ (s.m.core c).pc.toNat < imemBytes ∧
    (s.m.core c).imem.bad ((s.m.core c).pc.toNat / 8) = false

/-- What an instruction of core c that reaches no other unit changes: the core, and the counters of its corrected errors (R266). -/
def coreParts (c : Fin 10) : Part → Prop := fun p => p = .core c ∨ p = .reg (TcCeCount.count c).addr ∨ p = .reg (TcChkCount.count c).addr

/-- The parts of a list. -/
def among (ps : List Part) : Part → Prop := fun p => p ∈ ps

end Machine

end Sys2Proof
end

