-- ==== Sys2Proof/WellFormed.lean ====
section
/-! DEFINITION. What the operand types of `Instr` cannot bound: which commands are ones that their sender could give. `exec` answers on every
command, well-formed or not; no statement needs more than it says itself. -/

namespace Sys2Proof

/-- One of the paths a host uses; a core's own accesses are its loads and stores. -/
def Path.isHost : Path → Bool
  | .core _ => false
  | .pcie | .spi | .usb => true

/-- A register address is a multiple of 4 (R4). -/
def addrOk (a : BitVec 24) : Bool := a.toNat % 4 == 0

/-- A stitch that a core of tile t posts to its own tile's units (R243). -/
def StitchHdr.ofTile (h : StitchHdr) (t : Fin 4) : Bool := h.poster.val / 2 == t.val
/-- A stitch that a hub core posts (R243). -/
def StitchHdr.ofHub (h : StitchHdr) : Bool := decide (8 ≤ h.poster.val)
/-- A done event is 8 to 63, for a core code 0 to 9 (R249). -/
def StitchHdr.ok (h : StitchHdr) : Bool := !h.doneEn || decide (8 ≤ h.doneEvent.toNat ∧ h.doneCore.toNat ≤ 9)

/-- A window access moves 1 to 256 bytes (R11). -/
def WinOp.ok : WinOp → Bool
  | .read n => decide (1 ≤ n ∧ n ≤ 256)
  | .write bs => decide (1 ≤ bs.length ∧ bs.length ≤ 256)

/-- Requests of one bank cycle: each requester once, at least one (R148). -/
def requestsOk (rs : List Requester) : Bool := !rs.isEmpty && rs.eraseDups.length == rs.length

/-- A write of at most one line (R141). -/
def lineOk (bs : List (Option Byte)) : Bool := decide (1 ≤ bs.length ∧ bs.length ≤ 64)

/-- Is a command well-formed? -/
def Instr.wf : Instr → Bool
  | .voutCommandWrite _ _ => true
  | .targetIdle p | .targetRetention p | .targetRun p | .recast p | .recastReload p | .castOn p | .rescan p => p.isHost
  | .nvmRead p _ | .program p _ | .erase4KiB p | .erase64KiB p | .llRead p _ | .delete p _ => p.isHost
  | .llWrite p _ _ => p.isHost
  | .flitSend a b _ _ | .flitArrival a b _ | .creditReturn a b _ _ | .linkStall a b _ | .replyTimeout a b => a != b
  | .bankGrant _ _ rs => requestsOk rs
  | .spRead _ _ n _ => decide (1 ≤ n.val)
  | .spWrite _ _ bs _ => lineOk bs
  | .spWindowAccess p _ _ op => p.isHost && op.ok
  | .load t h _ | .pass t h _ | .drain t h _ | .ve t h _ | .xfer t h _ => h.ofTile t && h.ok
  | .veOcAccess p _ _ | .hostDoorbell p _ | .halt p _ _ | .step p _ | .tcDbgDataAccess p _ _ => p.isHost
  | .swapOut h _ | .swapIn h _ _ | .fetch h _ | .store h _ => h.ok
  | .run h _ | .stop h | .copy h _ | .send h _ | .flush h _ _ => h.ofHub && h.ok
  | .stashWindowAccess _ op => op.ok
  | .hubSramHostWrite p _ op => p.isHost && op.ok
  | .problemWindowWrite p _ bs => p.isHost && decide (1 ≤ bs.length ∧ bs.length ≤ 256)
  | .snap p | .acdSwatchTest p | .prodWrite p _ _ | .ringEnable p _ | .ringDisable p _ => p.isHost
  | .configurationRequest off _ => off.toNat % 4 == 0
  | .bulkOut bs => !bs.isEmpty
  | .audioMicroframe _ bs => bs.length % 6 == 0 && decide (bs.length ≤ 48)
  | .regRead a | .regWrite a _ | .spiRead a | .spiReadTimeout a => addrOk a
  | .spiWrite bs => bs.head? == some 0x02
  | .frog p _ | .bindOff p _ | .enable p _ | .pop p | .dumpNow p | .gaugeClear p _ => p.isHost
  | .regPairLowRead p a | .regPairHighRead p a => p.isHost && addrOk a
  | .regPairLowWrite p a _ | .regPairHighWrite p a _ | .registerWrite p a _ => p.isHost && addrOk a
  | .linkTrained s w => decide (1 ≤ s.toNat ∧ s.toNat ≤ 4) && (w == 1 || w == 2 || w == 4)
  | .featureUnit _ _ _ v => decide (v.toNat ≤ 120)
  | _ => true

end Sys2Proof
end

