-- ==== Sys2Proof/Certificates/Slice0/Obligations.lean ====
section
/-! DEFINITION. The statements for the provers. -/

open Sys2Proof Sys2Proof.Machine

/-- What the fetches of a wrong path leave, with the core itself: the books of R235 and R237. Traps, TRET, branches and jumps have one. -/
def Sys2Proof.pathParts (c : Fin 10) : Part → Prop :=
  fun p => coreParts c p ∨ p = .reg (TcLatentCount.count c).addr ∨ p = .reg (TcUeLast.valid c).addr

/-- The bytes that the last read over a host path returned: USB carries a word with its status (Table HL-4), SPI frames it, most significant byte first (Table HL-5). -/
def Sys2Proof.pathBytes (m : Mach) : Path → List Byte
  | .pcie => m.host.pcieReply | .spi => ((m.host.spiReply.drop 1).take 4).reverse | .usb => m.host.usbReply.take 4 | .core _ => []

/-- The part that holds the reply of a path's word read: the host's side, or the core whose load awaits it (R232). -/
def Sys2Proof.replyPart : Path → Part
  | .core d => .core d | _ => .host

/-- A path's word read was answered with v: to the host, or to the load that core d holds in M. -/
def Sys2Proof.RepliedWord (p : Path) (s t : State) (v : Word) : Prop :=
  match p with
  | .core d => (t.m.core d).devLoad = (s.m.core d).devLoad.map fun x => { x with value := v, status := .ok }
  | _ => pathBytes t.m p = leBytes 4 v.toNat

/-! ## Tending cores: arithmetic -/

/-- Table TC-5: every ALU function, and what it makes of g[ra] and g[rb]. -/
def Sys2Proof.aluFunctions : List ((Fin 10 → BitVec 5 → BitVec 5 → BitVec 5 → Instr) × (Word → Word → Word)) :=
  [ (.add, fun a b => a + b), (.sub, fun a b => a - b), (.and, fun a b => a &&& b), (.or, fun a b => a ||| b), (.xor, fun a b => a ^^^ b),
    (.sll, fun a b => a <<< (b.toNat % 32)), (.srl, fun a b => a >>> (b.toNat % 32)), (.sra, fun a b => a.sshiftRight (b.toNat % 32)),
    (.slt, fun a b => if a.toInt < b.toInt then 1 else 0), (.sltu, fun a b => if a.toNat < b.toNat then 1 else 0),
    (.min, fun a b => if a.toInt < b.toInt then a else b), (.max, fun a b => if a.toInt < b.toInt then b else a),
    (.minu, fun a b => if a.toNat < b.toNat then a else b), (.maxu, fun a b => if a.toNat < b.toNat then b else a),
    (.mul, fun a b => BitVec.ofNat 32 (a.toNat * b.toNat)), (.mulh, fun a b => BitVec.ofInt 32 (a.toInt * b.toInt / 2 ^ 32)),
    (.mulhu, fun a b => BitVec.ofNat 32 (a.toNat * b.toNat / 2 ^ 32)) ]

/-- Tables TC-4 and TC-5, R233: an ALU instruction writes its function of two registers to g[rd] and goes on at pc + 4; nothing else of the
machine changes but the core's corrected IMEM words with their counters, and books. -/
def Sys2Proof.AluRegisterForms : Prop :=
  ∀ p ∈ aluFunctions, ∀ (c : Fin 10) (rd ra rb : BitVec 5) (s : State), CoreReady s c →
    ∃ t, exec (p.1 c rd ra rb) s = .next t ∧
      Core.EndsAs { (s.m.core c).setG rd (p.2 ((s.m.core c).g ra) ((s.m.core c).g rb)) with pc := (s.m.core c).pc + 4 } (t.m.core c) ∧
      State.Frame (coreParts c) s t

/-- Table TC-4: the arithmetic forms with a 16-bit immediate, and what they make of g[ra] and imm. -/
def Sys2Proof.immFunctions : List ((Fin 10 → BitVec 5 → BitVec 5 → BitVec 16 → Instr) × (Word → BitVec 16 → Word)) :=
  [ (.addi, fun a i => a + i.signExtend 32), (.andi, fun a i => a &&& i.zeroExtend 32), (.ori, fun a i => a ||| i.zeroExtend 32),
    (.xori, fun a i => a ^^^ i.zeroExtend 32), (.slti, fun a i => if a.toInt < i.toInt then 1 else 0),
    (.sltiu, fun a i => if a.toNat < (i.signExtend 32).toNat then 1 else 0) ]

/-- Table TC-4: the shifts by an immediate. -/
def Sys2Proof.shiftFunctions : List ((Fin 10 → BitVec 5 → BitVec 5 → BitVec 5 → Instr) × (Word → Nat → Word)) :=
  [ (.slli, fun a n => a <<< n), (.srli, fun a n => a >>> n), (.srai, fun a n => a.sshiftRight n) ]

/-- Table TC-4: ADDI to SRAI and LUI write g[rd] and go on at pc + 4, with the frame of the register forms. -/
def Sys2Proof.AluImmediateForms : Prop :=
  ∀ (c : Fin 10) (rd ra : BitVec 5) (s : State), CoreReady s c →
    (∀ p ∈ immFunctions, ∀ imm : BitVec 16, ∃ t, exec (p.1 c rd ra imm) s = .next t ∧
      Core.EndsAs { (s.m.core c).setG rd (p.2 ((s.m.core c).g ra) imm) with pc := (s.m.core c).pc + 4 } (t.m.core c) ∧
      State.Frame (coreParts c) s t) ∧
    (∀ p ∈ shiftFunctions, ∀ sh : BitVec 5, ∃ t, exec (p.1 c rd ra sh) s = .next t ∧
      Core.EndsAs { (s.m.core c).setG rd (p.2 ((s.m.core c).g ra) sh.toNat) with pc := (s.m.core c).pc + 4 } (t.m.core c) ∧
      State.Frame (coreParts c) s t) ∧
    (∀ imm : BitVec 16, ∃ t, exec (.lui c rd imm) s = .next t ∧
      Core.EndsAs { (s.m.core c).setG rd (BitVec.ofNat 32 (imm.toNat * 2 ^ 16)) with pc := (s.m.core c).pc + 4 } (t.m.core c) ∧
      State.Frame (coreParts c) s t)

/-- Table TC-5, CLZ: g[rd] takes the number of leading zeros of g[ra], 0 to 32. -/
def Sys2Proof.ClzCountsLeadingZeros : Prop :=
  ∀ (c : Fin 10) (rd ra : BitVec 5) (s : State), CoreReady s c →
    ∃ t n, exec (.clz c rd ra) s = .next t ∧ n ≤ 32 ∧ ((s.m.core c).g ra).toNat < 2 ^ (32 - n) ∧
      (n < 32 → 2 ^ (31 - n) ≤ ((s.m.core c).g ra).toNat) ∧
      Core.EndsAs { (s.m.core c).setG rd (BitVec.ofNat 32 n) with pc := (s.m.core c).pc + 4 } (t.m.core c) ∧ State.Frame (coreParts c) s t

/-- R233, last sentence: a write to g0 is discarded, and g0 reads zero; a write to another register is read back there and nowhere else. -/
def Sys2Proof.GeneralRegisters : Prop :=
  ∀ (k : Core) (rd r : BitVec 5) (v : Word),
    k.setG 0 v = k ∧ k.g 0 = 0 ∧ (rd ≠ 0 → (k.setG rd v).g r = if r = rd then v else k.g r)

/-! ## Tending cores: loads and stores -/

/-- The loads of Table TC-4: bytes moved, and the word that the value becomes. -/
def Sys2Proof.loadForms : List ((Fin 10 → BitVec 5 → BitVec 5 → BitVec 16 → Instr) × Nat × (Nat → Word)) :=
  [ (.lw, 4, BitVec.ofNat 32), (.lh, 2, fun v => (BitVec.ofNat 16 v).signExtend 32), (.lhu, 2, fun v => (BitVec.ofNat 16 v).zeroExtend 32),
    (.lb, 1, fun v => (BitVec.ofNat 8 v).signExtend 32), (.lbu, 1, fun v => (BitVec.ofNat 8 v).zeroExtend 32) ]

/-- The address of a load or store: g[ra] + imm (Table TC-4). -/
def Sys2Proof.memAddress (s : State) (c : Fin 10) (ra : BitVec 5) (imm : BitVec 16) : Nat := ((s.m.core c).g ra + imm.signExtend 32).toNat

/-- R230, Tables TC-1 and TC-4: an aligned load from DMEM, or from the SDM of the own tile, writes the little-endian value there to g[rd]. -/
def Sys2Proof.LoadsFromLocalMemories : Prop :=
  ∀ p ∈ loadForms, ∀ (c : Fin 10) (rd ra : BitVec 5) (imm : BitVec 16) (s : State), CoreReady s c → memAddress s c ra imm % p.2.1 = 0 →
    (∀ o, memAddress s c ra imm = 0x10000 + o → o < 0x8000 → (s.m.core c).dmem.bad (o / 8) = false →
      ∃ t, exec (p.1 c rd ra imm) s = .next t ∧
        Core.EndsAs { (s.m.core c).setG rd (p.2.2 ((s.m.core c).dmem.nat o p.2.1)) with pc := (s.m.core c).pc + 4 } (t.m.core c) ∧
        State.Frame (coreParts c) s t) ∧
    (∀ o tile, memAddress s c ra imm = 0x40000 + o → o < 0x40000 → c.val < 8 → tile = (⟨c.val / 2 % 4, by omega⟩ : Fin 4) →
      ∃ t, exec (p.1 c rd ra imm) s = .next t ∧
        Core.EndsAs { (s.m.core c).setG rd (p.2.2 ((s.m.tile tile).sdm.nat o p.2.1)) with pc := (s.m.core c).pc + 4 } (t.m.core c) ∧
        State.Frame (coreParts c) s t)

/-- No core has a step asked for by TC_CTL.step that has not run yet. -/
abbrev Sys2Proof.NoStepAsked (s : State) : Prop := ∀ d, (s.m.core d).stepReq = false

/-- The stores of Table TC-4 and the bytes they move. -/
def Sys2Proof.storeForms : List ((Fin 10 → BitVec 5 → BitVec 5 → BitVec 16 → Instr) × Nat) := [(.sw, 4), (.sh, 2), (.sb, 1)]

/-- R230, Tables TC-1 and TC-4: an aligned store to DMEM stores the low bytes of g[rd], little-endian, and every other byte of DMEM reads as
before. -/
def Sys2Proof.StoresToDmem : Prop :=
  ∀ p ∈ storeForms, ∀ (c : Fin 10) (rd ra : BitVec 5) (imm : BitVec 16) (o : Nat) (s : State), CoreReady s c → NoStepAsked s →
    memAddress s c ra imm = 0x10000 + o → o < 0x8000 → o % p.2 = 0 → (s.m.core c).dmem.bad (o / 8) = false →
      ∃ t, exec (p.1 c rd ra imm) s = .next t ∧
        (∀ x, (t.m.core c).dmem.byte x =
          if o ≤ x ∧ x < o + p.2 then BitVec.ofNat 8 (((s.m.core c).g rd).toNat / 256 ^ (x - o)) else (s.m.core c).dmem.byte x) ∧
        Core.EndsAs { s.m.core c with dmem := (t.m.core c).dmem, pc := (s.m.core c).pc + 4 } (t.m.core c) ∧ State.Frame (coreParts c) s t

/-! ## Tending cores: device accesses -/

/-- R232: LW from the register map holds in M until its reply: the instruction has not committed, and the core can run nothing else. -/
def Sys2Proof.DeviceLoadHoldsInM : Prop :=
  ∀ (c : Fin 10) (rd ra : BitVec 5) (imm : BitVec 16) (a : Nat) (s : State), CoreReady s c →
    memAddress s c ra imm = 0x10000000 + a → a < 0x1000000 → a % 4 = 0 → s.m.reaches a = false →
      ∃ t d, exec (.lw c rd ra imm) s = .next t ∧ d.rd = rd ∧ d.addr.toNat = 0x10000000 + a ∧ d.status ≠ .ok ∧
        Core.EndsAs { s.m.core c with devLoad := some d } (t.m.core c) ∧ (t.m.core c).free = false ∧ State.Frame (coreParts c) s t

/-- R232, R259 and Table TC-17, DEVICE_REPLY: the load in M takes its value to g[rd] and commits when its reply is OK; any other reply is the
trap DEV_ERROR, DEV_VOID (detail 2 RESET, 3 OFF) or DEV_POISON with the address. -/
def Sys2Proof.DeviceLoadReply : Prop :=
  ∀ (c : Fin 10) (d : DevLoad) (s : State), (s.m.core c).devLoad = some d → s.m.up (coreFn c) = true → (s.m.core c).st = .run →
    (d.status = .ok → s.m.loadWaits c = false →
      ∃ t, exec (.deviceReply c) s = .next t ∧
        Core.EndsAs { (s.m.core c).setG d.rd d.value with devLoad := none, pc := (s.m.core c).pc + 4 } (t.m.core c) ∧
        State.Frame (coreParts c) s t) ∧
    (∀ cause : Nat, (d.status, cause) ∈ [(Status.error, 0x007), (.voidReset, 0x208), (.voidOff, 0x308), (.poison, 0x009)] →
      (s.m.core c).inTrap = false →
      ∃ t, exec (.deviceReply c) s = .next t ∧
        Core.EndsAs { s.m.core c with epc := (s.m.core c).pc, cause := BitVec.ofNat 32 cause, tval := d.addr, inTrap := true,
                                      pc := (s.m.core c).tvec, wait := none, devLoad := none, heldStore := none, fencing := false } (t.m.core c) ∧
        State.Frame (pathParts c) s t)

/-- R232: a device store completes in M without waiting and awaits its reply among at most eight; a ninth holds in M. -/
def Sys2Proof.DeviceStoresAwaitReplies : Prop :=
  ∀ (c : Fin 10) (rd ra : BitVec 5) (imm : BitVec 16) (a : Nat) (s : State), CoreReady s c → NoStepAsked s →
    memAddress s c ra imm = 0x10000000 + a → a < 0x1000000 → a % 4 = 0 →
      ((s.m.core c).stores.length < 8 → s.m.reaches a = false →
        ∃ t st, exec (.sw c rd ra imm) s = .next t ∧ st ≠ Status.ok ∧
          Core.EndsAs { s.m.core c with stores := (s.m.core c).stores ++ [(BitVec.ofNat 32 (0x10000000 + a), st)], pc := (s.m.core c).pc + 4 }
            (t.m.core c) ∧ State.Frame (coreParts c) s t) ∧
      (8 ≤ (s.m.core c).stores.length →
        ∃ t, exec (.sw c rd ra imm) s = .next t ∧
          Core.EndsAs { s.m.core c with heldStore := some (BitVec.ofNat 32 (0x10000000 + a), (s.m.core c).g rd) } (t.m.core c) ∧
          State.Frame (coreParts c) s t)

/-- R232, R236, DEVICE_STORE_REPLY: the oldest OK reply frees its slot; a FENCE in M commits once no store awaits an OK reply. -/
def Sys2Proof.DeviceStoreReplyFreesSlot : Prop :=
  ∀ (c : Fin 10) (pre post : List (Word × Status)) (a : Word) (s : State), NoStepAsked s → (s.m.core c).st = .run →
    (s.m.core c).stores = pre ++ (a, .ok) :: post → (∀ x ∈ pre, x.2 ≠ .ok) → (s.m.core c).heldStore = none →
      ∃ t, exec (.deviceStoreReply c) s = .next t ∧
        Core.EndsAs (if (s.m.core c).fencing ∧ ∀ x ∈ post, x.2 ≠ .ok
          then { s.m.core c with stores := pre ++ post, fencing := false, pc := (s.m.core c).pc + 4 }
          else { s.m.core c with stores := pre ++ post }) (t.m.core c) ∧ State.Frame (coreParts c) s t

/-- R259, STORE_ERROR: a bad store reply traps at the boundary with the store's address in TVAL, CAUSE 0x0D with the reply status in detail
and the imprecise bit, and EPC at the next instruction to commit: the WAITEV itself when one is abandoned. -/
def Sys2Proof.StoreErrorIsImprecise : Prop :=
  ∀ (c : Fin 10) (pre post : List (Word × Status)) (a : Word) (st : Status) (s : State), NoStepAsked s → s.m.up (coreFn c) = true →
    ((s.m.core c).st = .run ∨ (s.m.core c).st = .wait) → (s.m.core c).stores = pre ++ (a, st) :: post → (∀ x ∈ pre, x.2 = .ok) → st ≠ .ok →
    (s.m.core c).devLoad = none → (s.m.core c).heldStore = none → (s.m.core c).fencing = false → (s.m.core c).inTrap = false →
      ∃ t, exec (.storeError c) s = .next t ∧
        Core.EndsAs { s.m.core c with
          stores := pre ++ post, wait := none, st := .run, epc := (s.m.core c).pc, inTrap := true, tval := a, pc := (s.m.core c).tvec
          cause := BitVec.ofNat 32 (0x8000000D + 256 * st.code) } (t.m.core c) ∧ State.Frame (pathParts c) s t

/-! ## Tending cores: branches -/

/-- The conditional branches of Table TC-4 and when they are taken. -/
def Sys2Proof.branchForms : List ((Fin 10 → BitVec 5 → BitVec 5 → BitVec 16 → Instr) × (Word → Word → Bool)) :=
  [ (.beq, fun a b => a = b), (.bne, fun a b => a ≠ b), (.blt, fun a b => a.toInt < b.toInt), (.bge, fun a b => b.toInt ≤ a.toInt),
    (.bltu, fun a b => a.toNat < b.toNat), (.bgeu, fun a b => b.toNat ≤ a.toNat) ]

/-- Table TC-4, R234 and R235: a branch goes to pc + 4 * off when its condition holds and to pc + 4 when not; a taken one enters the branch
target buffer, and no wrong-path work shows but in the books of errors. -/
def Sys2Proof.BranchesAndWrongPath : Prop :=
  ∀ p ∈ branchForms, ∀ (c : Fin 10) (ra rb : BitVec 5) (off : BitVec 16) (s : State), CoreReady s c →
    let k := s.m.core c
    let target := k.pc + BitVec.ofInt 32 (4 * off.toInt)
    ∃ t, exec (p.1 c ra rb off) s = .next t ∧
      Core.EndsAs (if p.2 (k.g ra) (k.g rb) then { k with pc := target, btb := (k.btbFill k.pc target).btb } else { k with pc := k.pc + 4 })
        (t.m.core c) ∧ State.Frame (pathParts c) s t

/-- Table TC-4: JAL writes pc + 4 to g31, JALR writes it to g[rd] after its target is formed, with bits [1:0] cleared; both enter the
branch target buffer (R234). -/
def Sys2Proof.JumpsLinkAndGo : Prop :=
  ∀ (c : Fin 10) (s : State), CoreReady s c →
    (∀ off : BitVec 26,
      let k := s.m.core c
      let target := k.pc + BitVec.ofInt 32 (4 * off.toInt)
      ∃ t, exec (.jal c off) s = .next t ∧
        Core.EndsAs { k.setG 31 (k.pc + 4) with pc := target, btb := (k.btbFill k.pc target).btb } (t.m.core c) ∧ State.Frame (pathParts c) s t) ∧
    (∀ (rd ra : BitVec 5) (imm : BitVec 16),
      let k := s.m.core c
      let target := (k.g ra + imm.signExtend 32) &&& 0xFFFFFFFC
      ∃ t, exec (.jalr c rd ra imm) s = .next t ∧
        Core.EndsAs { k.setG rd (k.pc + 4) with pc := target, btb := (k.btbFill k.pc target).btb } (t.m.core c) ∧ State.Frame (pathParts c) s t)

/-! ## Tending cores: traps -/

/-- Taking a trap (R256): EPC, CAUSE, TVAL, in_trap and the pc at TVEC; no other state of the core changes, and nothing else but the books of what
was fetched behind the trap (R237, R238). -/
def Sys2Proof.TakesTrap (s : State) (c : Fin 10) (i : Instr) (cause : Nat) (tval epc : Word) : Prop :=
  ∃ t, exec i s = .next t ∧
    Core.EndsAs { s.m.core c with epc := epc, cause := BitVec.ofNat 32 cause, tval := tval, inTrap := true, pc := (s.m.core c).tvec, wait := none }
      (t.m.core c) ∧ State.Frame (pathParts c) s t

/-- R256, R233 and Table TC-17: the traps of an instruction outside a trap. -/
def Sys2Proof.TrapsEnterAtTvec : Prop :=
  ∀ (c : Fin 10) (s : State), CoreReady s c → NoStepAsked s → (s.m.core c).inTrap = false →
    (∀ imm : BitVec 16, TakesTrap s c (.trap c imm) 0x0B (imm.signExtend 32) ((s.m.core c).pc + 4)) ∧
    (s.m.on (TcCtl.breakHalt c) = false → TakesTrap s c (.brk c) 0x0C (s.m.core c).pc (s.m.core c).pc) ∧
    TakesTrap s c (.tret c) 0x01 0xC4000000 (s.m.core c).pc ∧
    (∀ w : Word, decodeCore c w = none → TakesTrap s c (.illegal c w) 0x01 w (s.m.core c).pc) ∧
    (∀ (ev : BitVec 6) (target : BitVec 4), ev.toNat < 8 →
      TakesTrap s c (.sigev c ev target) 0x01 (BitVec.ofNat 32 (0x84000000 + ev.toNat * 1024 + target.toNat)) (s.m.core c).pc) ∧
    (∀ (rd ra : BitVec 5) (ev : BitVec 6), ev ≠ 0 →
      TakesTrap s c (.waitev c rd ra ev true) 0x01
        (BitVec.ofNat 32 (0x88000000 + rd.toNat * 2 ^ 21 + ra.toNat * 2 ^ 16 + ev.toNat * 2 ^ 10 + 1)) (s.m.core c).pc) ∧
    (∀ (r : BitVec 5) (n : BitVec 16), csrKnown n.toNat = false → ∀ i ∈ [Instr.csrr c r n, .csrw c r n, .csrs c r n, .csrc c r n],
      TakesTrap s c i 0x0A (n.setWidth 32) (s.m.core c).pc) ∧
    (∀ (rd ra : BitVec 5) (imm : BitVec 16),
      let addr := (s.m.core c).g ra + imm.signExtend 32
      (∀ p ∈ loadForms, addr.toNat % p.2.1 ≠ 0 → TakesTrap s c (p.1 c rd ra imm) 0x04 addr (s.m.core c).pc) ∧
      (∀ p ∈ storeForms, addr.toNat % p.2 ≠ 0 → TakesTrap s c (p.1 c rd ra imm) 0x04 addr (s.m.core c).pc) ∧
      (∀ p ∈ loadForms, addr.toNat % p.2.1 = 0 →
        (coreRegion c addr.toNat = .none ∨ (p.2.1 ≠ 4 ∧ 0x10000000 ≤ addr.toNat ∧ addr.toNat < 0x11000000)) →
        TakesTrap s c (p.1 c rd ra imm) 0x05 addr (s.m.core c).pc) ∧
      (∀ p ∈ storeForms, addr.toNat % p.2 = 0 →
        (coreRegion c addr.toNat = .none ∨ (0x40000 ≤ addr.toNat ∧ addr.toNat < 0x80000) ∨
          (p.2 ≠ 4 ∧ 0x10000000 ≤ addr.toNat ∧ addr.toNat < 0x11000000)) →
        TakesTrap s c (p.1 c rd ra imm) 0x05 addr (s.m.core c).pc))

/-- The books of an uncorrectable word of IMEM or DMEM (R266), with the core. -/
def Sys2Proof.ueParts (c : Fin 10) : Part → Prop :=
  fun p => coreParts c p ∨ p = .reg (TcUeCount.count c).addr ∨ p = .reg (TcUeLast.valid c).addr

/-- R237, R266 and Table TC-17: a correct-path fetch beyond IMEM traps with FETCH_RANGE, one of an uncorrectable word with IMEM_UE, its word
recorded in TC_UE_LAST; TVAL and EPC hold the pc. -/
def Sys2Proof.FetchTraps : Prop :=
  ∀ (c : Fin 10) (s : State), s.m.up (coreFn c) = true → (s.m.core c).st = .run → (s.m.core c).free = true → (s.m.core c).inTrap = false →
    let k := s.m.core c
    let trapped := fun cause : Word =>
      { k with epc := k.pc, cause := cause, tval := k.pc, inTrap := true, pc := k.tvec, wait := none }
    (0x10000 ≤ k.pc.toNat → ∃ t, exec (.fetchRange c) s = .next t ∧ Core.EndsAs (trapped 0x02) (t.m.core c) ∧ State.Frame (coreParts c) s t) ∧
    (k.pc.toNat < 0x10000 → k.imem.bad (k.pc.toNat / 8) = true →
      ∃ t, exec (.imemUe c) s = .next t ∧ Core.EndsAs (trapped 0x03) (t.m.core c) ∧ t.m.get (TcUeLast.word c) = k.pc.toNat / 8 ∧
        t.m.get (TcUeLast.mem c) = 0 ∧ t.m.get (TcUeLast.latent c) = 0 ∧ t.m.get (TcUeLast.valid c) = 1 ∧ State.Frame (ueParts c) s t)

/-- R257: TRET sets pc to EPC and STATUS.in_trap to 0. -/
def Obligations.TretReturns : Prop :=
  ∀ (c : Fin 10) (s : State), CoreReady s c → (s.m.core c).inTrap = true →
    ∃ t, exec (.tret c) s = .next t ∧ Core.EndsAs { s.m.core c with pc := (s.m.core c).epc, inTrap := false } (t.m.core c) ∧
      State.Frame (pathParts c) s t

/-- No counter of a running gauge block signals its threshold event (R436). -/
abbrev Sys2Proof.GaugesQuiet (s : State) : Prop := ∀ (b : Fin 5) (c : Fin 8), s.m.on (GaCtl.runF b.val) = false ∨ s.m.on (GaCfg.thrEn b.val c.val) = false

/-- A frog or bind-off of a function is in progress or waits its turn (R423). -/
def Sys2Proof.FrogAsked (m : Mach) (f : Nat) : Prop := (∃ r, m.frc.cur = some r ∧ r.fn = f) ∨ ∃ k, (f, k) ∈ m.frc.queue

/-- FRC can take one more record and one more request, none for function f waits, and no power target is latched (R53, R409, R423). -/
abbrev Sys2Proof.FrcHasRoom (s : State) (f : Nat) : Prop :=
  s.m.phase ≠ phReset ∧ s.m.on GlPstateStat.pendValid = false ∧ s.m.frc.pend.length < 16 ∧ s.m.frc.queue.length < 19 ∧
    s.m.frc.escStarting = false ∧ ∀ e ∈ s.m.frc.queue, e.1 ≠ f

/-- R258, R411: a trap that arises while STATUS.in_trap is 1 stops the core, TC_DOUBLE_TRAP is recorded with the core and both causes, and
FRC frogs the core's function. -/
def Sys2Proof.TrapInTrapStops : Prop :=
  ∀ (c : Fin 10) (imm : BitVec 16) (s : State), CoreReady s c → (s.m.core c).inTrap = true → GaugesQuiet s →
    FrcHasRoom s (coreFn c).val →
      ∃ t, exec (.trap c imm) s = .next t ∧ (t.m.core c).st = .stopped ∧ (t.m.core c).inTrap = true ∧
        (t.m.core c).pc = (s.m.core c).pc ∧
        Recorded s.m t.m 0x0506 (srcCore c) [c.val, (s.m.core c).cause.toNat % 256, 0x0B] ∧ FrogAsked t.m (coreFn c).val

/-- Table TC-17, BREAK with the halt-on-break field 1: the core halts at pc + 4 and TC_CTL.halt reads 1. -/
def Sys2Proof.BreakHalts : Prop :=
  ∀ (c : Fin 10) (s : State), CoreReady s c → s.m.on (TcCtl.breakHalt c) = true →
    ∃ t, exec (.brk c) s = .next t ∧
      Core.EndsAs { s.m.core c with haltReq := true, pc := (s.m.core c).pc + 4 } (t.m.core c) ∧ (t.m.core c).st = .halted ∧
      t.m.get (TcCtl.halt c) = 1 ∧ State.Frame (fun p => coreParts c p ∨ p = .reg (TcCtl.halt c).addr) s t

/-! ## Tending cores: events and the row barrier -/

/-- R239, R240, EVENT_SIGNAL: a signal adds one to the count of its event; at 255 the count stays, the event's bit of EV_OVF is set and
EV_OVERFLOW is recorded; a core waiting for the event consumes the count, takes the event's number and goes on behind its WAITEV. -/
def Sys2Proof.SignalsCountAndWake : Prop :=
  ∀ (c : Fin 10) (ev : BitVec 6) (s : State), s.m.up (coreFn c) = true → (s.m.core c).st ≠ .reset →
    let k := s.m.core c
    let e : Fin 64 := ⟨ev.toNat, by omega⟩
    (k.st ≠ .wait → (k.counts[e]).toNat < 255 →
      ∃ t, exec (.eventSignal c ev) s = .next t ∧ t.m.core c = { k with counts := k.counts.set e (k.counts[e] + 1) } ∧
        State.Frame (fun p => p = .core c) s t) ∧
    (k.st ≠ .wait → (k.counts[e]).toNat = 255 → s.m.frc.pend.length < 16 →
      ∃ t, exec (.eventSignal c ev) s = .next t ∧ ((t.m.core c).counts[e]).toNat = 255 ∧ (t.m.core c).evOvf.getLsbD ev.toNat = true ∧
        Recorded s.m t.m 0x0503 (srcCore c) [c.val, ev.toNat] ∧ State.Frame (fun p => p = .core c) s t) ∧
    (∀ w, k.st = .wait → k.wait = some w → waitHit k w = none → (k.counts[e]).toNat < 255 →
      (if w.anyEv then k.evWait.getLsbD ev.toNat = true else w.ev = ev) →
      ∃ t, exec (.eventSignal c ev) s = .next t ∧
        Core.Signalled { k.setG w.rd (ev.zeroExtend 32) with
          pc := k.pc + 4, wait := none, st := if k.haltReq then .halted else .run } (t.m.core c) ∧
        State.Frame (fun p => p = .core c) s t)

/-- R241, SIGEV: ev of 8 to 63 reaches a core in service; a code above 9, or a core that is not in service, loses the signal and sets
STATUS.sig_lost. -/
def Sys2Proof.SigevReachesOrIsLost : Prop :=
  ∀ (c : Fin 10) (ev : BitVec 6) (target : BitVec 4) (s : State), CoreReady s c → GaugesQuiet s → 8 ≤ ev.toNat →
    let e : Fin 64 := ⟨ev.toNat, by omega⟩
    (∀ d : Fin 10, d.val = target.toNat → d ≠ c → s.m.up (coreFn d) = true → (s.m.core d).st ∉ [CoreSt.reset, .wait] →
      ((s.m.core d).counts[e]).toNat < 255 →
      ∃ t, exec (.sigev c ev target) s = .next t ∧ Core.EndsAs { s.m.core c with pc := (s.m.core c).pc + 4 } (t.m.core c) ∧
        t.m.core d = { s.m.core d with counts := (s.m.core d).counts.set e ((s.m.core d).counts[e] + 1) } ∧
        State.Frame (fun p => coreParts c p ∨ p = .core d) s t) ∧
    ((10 ≤ target.toNat ∨ ∃ d : Fin 10, d.val = target.toNat ∧ s.m.up (coreFn d) = false) →
      ∃ t, exec (.sigev c ev target) s = .next t ∧
        Core.EndsAs { s.m.core c with sigLost := true, pc := (s.m.core c).pc + 4 } (t.m.core c) ∧ State.Frame (coreParts c) s t)

/-- R240, WAITEV and EVCNT: WAITEV consumes one count of the lowest-numbered event it names that has one and writes its number; with none it
waits, until g[ra] TB ticks have passed when g[ra] is not 0. EVCNT reads a count and consumes nothing. With imm[0] = 1 the field ev is 0; other
words are ILLEGAL (TrapsEnterAtTvec). -/
def Sys2Proof.WaitevConsumesOrWaits : Prop :=
  ∀ (c : Fin 10) (rd ra : BitVec 5) (ev : BitVec 6) (anyEv : Bool) (s : State), CoreReady s c → GaugesQuiet s →
    let k := s.m.core c
    (anyEv = true → ev = 0) →
    let named := fun e : Fin 64 => if anyEv then k.evWait.getLsbD e.val = true else e.val = ev.toNat
    (∀ e : Fin 64, named e → k.counts[e] ≠ 0 → (∀ d : Fin 64, d < e → named d → k.counts[d] = 0) →
      ∃ t, exec (.waitev c rd ra ev anyEv) s = .next t ∧ (t.m.core c).counts = k.counts.set e (k.counts[e] - 1) ∧
        Core.EndsAs { k.setG rd (BitVec.ofNat 32 e.val) with pc := k.pc + 4, wait := none } (t.m.core c) ∧ State.Frame (coreParts c) s t) ∧
    ((∀ e : Fin 64, named e → k.counts[e] = 0) →
      ∃ t, exec (.waitev c rd ra ev anyEv) s = .next t ∧ (t.m.core c).st = .wait ∧ (t.m.core c).pc = k.pc ∧
        (t.m.core c).counts = k.counts ∧ (t.m.core c).regs = k.regs ∧
        (t.m.core c).wait = some { rd := rd, anyEv := anyEv, ev := ev, deadline := if k.g ra = 0 then none else some (s.m.now + (k.g ra).toNat) } ∧
        State.Frame (coreParts c) s t) ∧
    (∃ t, exec (.evcnt c rd ev) s = .next t ∧ (t.m.core c).counts = k.counts ∧
      Core.EndsAs { k.setG rd ((k.counts[(⟨ev.toNat, by omega⟩ : Fin 64)]).zeroExtend 32) with pc := k.pc + 4 } (t.m.core c) ∧
      State.Frame (coreParts c) s t)

/-- R240, WAITEV_TIMEOUT: once the ticks have passed a waiting WAITEV ends without consuming and writes 0xFFFF_FFFF. -/
def Sys2Proof.WaitevTimesOut : Prop :=
  ∀ (c : Fin 10) (w : WaitSt) (tick : Nat) (s : State), (s.m.core c).st = .wait → (s.m.core c).wait = some w → w.deadline = some tick →
    tick ≤ s.m.now →
      ∃ t, exec (.waitevTimeout c) s = .next t ∧
        Core.EndsAs { (s.m.core c).setG w.rd 0xFFFFFFFF with pc := (s.m.core c).pc + 4, wait := none, st := .run } (t.m.core c) ∧
        State.Frame (coreParts c) s t

/-- R251: ROWEND marks the core as arrived and does not wait; g[rd] takes the row count in [27:0] and, in [31], whether the core had arrived
already in this row. A second ROWEND has no other effect. -/
def Obligations.RowendArrives : Prop :=
  ∀ (c : Fin 10) (rd : BitVec 5) (s : State), CoreReady s c →
    ∃ t, exec (.rowend c rd) s = .next t ∧
      Core.EndsAs { (s.m.core c).setG rd (BitVec.ofNat 32 (s.m.rowCount % 2 ^ 28 + if (s.m.core c).arrived then 2 ^ 31 else 0)) with
        arrived := true, missed := 0, pc := (s.m.core c).pc + 4 } (t.m.core c) ∧ State.Frame (coreParts c) s t

/-- Table TC-4, FENCE: it commits when no device store awaits its reply, and else holds in M. -/
def Sys2Proof.FenceHolds : Prop :=
  ∀ (c : Fin 10) (s : State), CoreReady s c →
    ∃ t, exec (.fence c) s = .next t ∧
      Core.EndsAs (if (s.m.core c).stores = [] then { s.m.core c with pc := (s.m.core c).pc + 4 } else { s.m.core c with fencing := true })
        (t.m.core c) ∧ State.Frame (coreParts c) s t

/-! ## Tending cores: control and status registers -/

/-- The RW registers of Table TC-16 that hold 32 bits of their own: number, read, write. TVEC keeps bits [1:0] at 0. -/
def Sys2Proof.csrWords : List (BitVec 16 × (Core → Word) × (Core → Word → Core)) :=
  [ (0x002, Core.epc, fun k v => { k with epc := v }), (0x003, Core.cause, fun k v => { k with cause := v }),
    (0x004, Core.tval, fun k v => { k with tval := v }), (0x005, Core.tvec, fun k v => { k with tvec := v &&& 0xFFFFFFFC }),
    (0x006, Core.scratch, fun k v => { k with scratch := v }) ]

/-- R255: CSRR reads, CSRW writes, CSRS sets and CSRC clears bits of the RW words of Table TC-16; each goes on at pc + 4. -/
def Sys2Proof.CsrInstructions : Prop :=
  ∀ p ∈ csrWords, ∀ (c : Fin 10) (r : BitVec 5) (s : State), CoreReady s c →
    let k := s.m.core c
    let done := fun (i : Instr) (k' : Core) =>
      ∃ t, exec i s = .next t ∧ Core.EndsAs { k' with pc := k.pc + 4 } (t.m.core c) ∧ State.Frame (coreParts c) s t
    done (.csrr c r p.1) (k.setG r (p.2.1 k)) ∧ done (.csrw c r p.1) (p.2.2 k (k.g r)) ∧
      done (.csrs c r p.1) (p.2.2 k (p.2.1 k ||| k.g r)) ∧ done (.csrc c r p.1) (p.2.2 k (p.2.1 k &&& ~~~(k.g r)))

/-- R255, R7, R267: a read of TB_LO latches TB_HI, whose next read returns the latch and uses it up; a read of SFAULT returns the oldest stitch
fault record and removes it. -/
def Sys2Proof.CsrLatchesAndSfault : Prop :=
  ∀ (c : Fin 10) (rd : BitVec 5) (s : State), CoreReady s c →
    (∃ t, exec (.csrr c rd 0x012) s = .next t ∧ ((t.m.core c).latches.find? fun e => e.1 == 0x12) = some (0x12, BitVec.ofNat 32 (s.m.tb.toNat / 2 ^ 32)) ∧
      Core.EndsAs { (s.m.core c).setG rd (BitVec.ofNat 32 s.m.tb.toNat) with latches := (t.m.core c).latches, pc := (s.m.core c).pc + 4 }
        (t.m.core c) ∧ State.Frame (coreParts c) s t) ∧
    (∀ v, ((s.m.core c).latches.find? fun e => e.1 == 0x12) = some (0x12, v) →
      ∃ t, exec (.csrr c rd 0x013) s = .next t ∧ (∀ e ∈ (t.m.core c).latches, e.1 ≠ 0x12) ∧
        Core.EndsAs { (s.m.core c).setG rd v with latches := (t.m.core c).latches, pc := (s.m.core c).pc + 4 } (t.m.core c) ∧
        State.Frame (coreParts c) s t) ∧
    (∃ t, exec (.csrr c rd 0x030) s = .next t ∧
      Core.EndsAs { (s.m.core c).setG rd ((s.m.core c).sfault.headD 0) with sfault := (s.m.core c).sfault.tail, pc := (s.m.core c).pc + 4 }
        (t.m.core c) ∧ State.Frame (coreParts c) s t)

/-! ## Tending cores: POST -/

/-- What POST does with the stitch that its descriptor gives, none where it gives none (Table TC-9, R243): any status but ACCEPTED goes to g[rd] and
nothing is sent. ACCEPTED commits with 0 in g[rd], and the stitch reaches its unit as the unit's own command has it, which may start it at once. A stitch
that its unit cannot start joins the queue of its lane; but a LOAD that finds its shadow busy is rejected there and then (R187). -/
def Sys2Proof.Posts (s : State) (c : Fin 10) (rd : BitVec 5) (i : Instr) (x : Option Stitch) : Prop :=
  (s.m.postStatus c x ≠ 0 → ∃ t, exec i s = .next t ∧
    Core.EndsAs { (s.m.core c).setG rd (BitVec.ofNat 32 (s.m.postStatus c x)) with pc := (s.m.core c).pc + 4 } (t.m.core c) ∧
    State.Frame (coreParts c) s t) ∧
  (∀ st, x = some st → s.m.postStatus c x = 0 →
    let tile := (coreTile c).getD 0
    let u := bodyUnit tile st.body
    (∃ v, Core.Like { (s.m.core c).setG rd 0 with pc := (s.m.core c).pc + 4 } (v.m.core c) ∧ State.Frame (coreParts c) s v ∧
      exec i s = .next { v with m := (v.m.postStitch c st).modCore c Core.boundary }) ∧
    (s.m.unitFree u st.body = false ∨ (s.m.unitQ u).head ≠ none → (∀ p, st.body = .load p → loadCheck s.m tile p ≠ some mxShadowBusy) →
      ∃ t, exec i s = .next t ∧ t.m.unitQ u = (s.m.unitQ u).push st ∧
        Core.EndsAs { (s.m.core c).setG rd 0 with pc := (s.m.core c).pc + 4 } (t.m.core c) ∧
        State.Frame (fun p => coreParts c p ∨ p = .unitQ u ∨ p = .swatch) s t))

/-- R242, R243 and Table TC-9: POST reads the descriptor at g[ra] + 64 * imm, in DMEM or in the SDM of its own tile; an address that is not aligned, or
lies in neither, has none, which is INVALID. -/
def Obligations.PostQueuesOrRefuses : Prop :=
  ∀ (c : Fin 10) (rd ra : BitVec 5) (imm : BitVec 10) (s : State), CoreReady s c → GaugesQuiet s →
    let a := ((s.m.core c).g ra + imm.zeroExtend 32 * 64).toNat
    let posts := Posts s c rd (.post c rd ra imm)
    (∀ o, a = 0x10000 + o → o < 0x8000 → o % 64 = 0 → (∀ w, o / 8 ≤ w → w < o / 8 + 8 → (s.m.core c).dmem.bad w = false) →
      posts (parseStitch ((s.m.core c).dmem.read o 64) c)) ∧
    (∀ o tile, a = 0x40000 + o → o < 0x40000 → o % 64 = 0 → coreTile c = some tile → posts (parseStitch ((s.m.tile tile).sdm.read o 64) c)) ∧
    (a % 64 ≠ 0 ∨ (¬ (0x10000 ≤ a ∧ a < 0x18000) ∧ (coreTile c = none ∨ ¬ (0x40000 ≤ a ∧ a < 0x80000))) → posts none)

/-! ## Tending cores: control from outside -/

/-- Table TC-8 and R271, HOST_DOORBELL: a doorbell write is event 2 to its core. -/
def Sys2Proof.HostDoorbellIsEventTwo : Prop :=
  ∀ (p : Path) (c : Fin 10) (s : State), s.m.coreOpen p c = true → s.m.up (coreFn c) = true → (s.m.core c).st ∉ [CoreSt.reset, .wait] →
    ((s.m.core c).counts[2]).toNat < 255 →
      ∃ t, exec (.hostDoorbell p c) s = .next t ∧
        t.m.core c = { s.m.core c with counts := (s.m.core c).counts.set 2 ((s.m.core c).counts[2] + 1) } ∧
        State.Frame (fun p => p = .core c) s t

/-- Table TC-20, HALT: TC_CTL.halt 1 halts a running core with nothing in M at once, and any other at its next boundary; 0 lets it run. -/
def Sys2Proof.HaltAndResume : Prop :=
  ∀ (p : Path) (c : Fin 10) (s : State), s.m.coreOpen p c = true →
    (∃ t, exec (.halt p c true) s = .next t ∧ t.m.get (TcCtl.halt c) = 1 ∧
      t.m.core c = (if (s.m.core c).st = .run ∧ (s.m.core c).free = true then { s.m.core c with haltReq := true, st := .halted }
        else { s.m.core c with haltReq := true }) ∧ State.Frame (fun p => p = .core c ∨ p = .reg (TcCtl.halt c).addr) s t) ∧
    (∃ t, exec (.halt p c false) s = .next t ∧ t.m.get (TcCtl.halt c) = 0 ∧
      t.m.core c = (if (s.m.core c).st = .halted then { s.m.core c with haltReq := false, st := .run } else { s.m.core c with haltReq := false }) ∧
      State.Frame (fun p => p = .core c ∨ p = .reg (TcCtl.halt c).addr) s t)

/-- Table TC-20, STEP: a halted core commits the one instruction that IMEM holds at its pc, then halts: the machine ends as that instruction
leaves it when the core runs with a halt asked for. Stated for every instruction but SW, LW and POST, outside a trap. -/
def Sys2Proof.StepRunsOneInstruction : Prop :=
  ∀ (p : Path) (c : Fin 10) (i : Instr) (s : State), s.m.coreOpen p c = true → NoStepAsked s → (s.m.core c).st = .halted →
    (s.m.core c).inTrap = false →
    let s1 : State := { s with m := s.m.modCore c fun k => { k with st := .run, haltReq := true } }
    CoreReady s1 c → decodeCore c (s.m.imemWord c (s.m.core c).pc.toNat) = some i →
    (∀ rd ra imm, i ≠ .sw c rd ra imm ∧ i ≠ .lw c rd ra imm) → (∀ rd ra imm, i ≠ .post c rd ra imm) →
      ∃ t u, exec (.step p c) s = .next t ∧ exec i s1 = .next u ∧ t.m = u.m

/-- A debug access that R272, or the size of the space named, refuses (Table TC-21). -/
def Sys2Proof.DebugRefused (s : State) (c : Fin 10) (write : Bool) : Prop :=
  let n := s.m.get (TcDbgAddr.addr c)
  let st := (s.m.core c).st
  match s.m.get (TcDbgAddr.space c) with
  | 0 => 0x4000 ≤ n ∨ (write = true ∧ ((st ≠ .halted ∧ st ≠ .reset) ∨ (Config.sigRequired = true ∧ (s.m.phase = phRunning ∨ s.m.phase = phIdle))))
  | 1 => 0x2000 ≤ n
  | 2 => st ≠ .halted ∨ 32 ≤ n
  | _ => st ≠ .halted ∨ csrKnown n = false

/-- R7, R255, R261, R262, R272, TC_DBG_DATA_ACCESS: what a path may not reach reads 0, is not written, and sets dbg_denied. Of the rest a read returns the
word of IMEM or DMEM, 0 where it cannot be corrected, the general register, or the CSR, whose high words are latched for each path on its own; a write
stores it, and one to IMEM empties the branch target buffer. After each the address moves on when autoinc is 1. -/
def Sys2Proof.DebugAccesses : Prop :=
  ∀ (p : Path) (c : Fin 10) (v : Word) (s : State), s.m.coreOpen p c = true → p ≠ .core c →
    let k := s.m.core c
    let n := s.m.get (TcDbgAddr.addr c)
    let space := s.m.get (TcDbgAddr.space c)
    let moved := fun t : State => t.m.get (TcDbgAddr.addr c) = (n + s.m.get (TcDbgAddr.autoinc c)) % 2 ^ 16
    let reads := fun (ch : Part → Prop) (w : Word) (r : Core → Prop) => ∃ t, exec (.tcDbgDataAccess p c none) s = .next t ∧ RepliedWord p s t w ∧ moved t ∧
      r (t.m.core c) ∧ State.Frame (fun q => ch q ∨ q = replyPart p ∨ q = .reg (TcDbgAddr.reg c)) s t
    let writes := fun (ch : Part → Prop) (r : Core → Prop) => ∃ t, exec (.tcDbgDataAccess p c (some v)) s = .next t ∧ moved t ∧
      r (t.m.core c) ∧ State.Frame (fun q => ch q ∨ q = .reg (TcDbgAddr.reg c)) s t
    let core := fun q => q = Part.core c
    let denied := fun q => q = Part.reg (TcStat.dbgDenied c).addr
    let ues := fun q => q = .core c ∨ coreParts c q ∨ q = .reg (TcUeCount.count c).addr ∨ q = .reg (TcUeLast.valid c).addr
    (DebugRefused s c false → reads denied 0 (· = k) ∧ ∃ t, exec (.tcDbgDataAccess p c none) s = .next t ∧ t.m.get (TcStat.dbgDenied c) = 1) ∧
    (DebugRefused s c true → writes denied (· = k) ∧ ∃ t, exec (.tcDbgDataAccess p c (some v)) s = .next t ∧ t.m.get (TcStat.dbgDenied c) = 1) ∧
    (∀ data : Bool, space = data.toNat → ¬ DebugRefused s c false →
      let x := if data then k.dmem else k.imem
      reads ues (if x.bad (4 * n / 8) then 0 else BitVec.ofNat 32 (x.nat (4 * n) 4)) (Core.Like k)) ∧
    (space = 2 → ¬ DebugRefused s c false → reads (fun _ => False) (k.g (BitVec.ofNat 5 n)) (· = k)) ∧
    (3 ≤ space → ¬ DebugRefused s c false →
      let latch := if csrHigh n then (k.latches.find? fun e => e.1 == latchKey (some p) (n - 1)).map Prod.snd else none
      reads core (latch.getD (s.m.csrValue c n)) fun k' => k' = { k with latches := k'.latches, sfault := if n = 0x30 then k.sfault.tail else k.sfault } ∧
        ∀ e ∈ k.latches, e.1 < 0x1000 → e ∈ k'.latches) ∧
    (space = 0 → ¬ DebugRefused s c true → k.imem.bad (4 * n / 8) = false → writes (coreParts c) fun k' =>
      k' = { k with imem := k'.imem, btb := [] } ∧
        ∀ a, k'.imem.byte a = if 4 * n ≤ a ∧ a < 4 * n + 4 then BitVec.ofNat 8 (v.toNat / 256 ^ (a - 4 * n)) else k.imem.byte a) ∧
    (space = 1 → ¬ DebugRefused s c true → k.dmem.bad (4 * n / 8) = false → writes (coreParts c) fun k' =>
      k' = { k with dmem := k'.dmem } ∧
        ∀ a, k'.dmem.byte a = if 4 * n ≤ a ∧ a < 4 * n + 4 then BitVec.ofNat 8 (v.toNat / 256 ^ (a - 4 * n)) else k.dmem.byte a) ∧
    (space = 2 → ¬ DebugRefused s c true → writes core (· = k.setG (BitVec.ofNat 5 n) v)) ∧
    (3 ≤ space → ¬ DebugRefused s c true → ∀ w ∈ csrWords, n = w.1.toNat → writes core (· = w.2.2 k v))

/-- R253, R262, PROGRAM_UPDATE_APPLY: while the core waits, its IMEM takes the staged records in their order, the branch target buffer empties and the core
restarts at pc 0; DMEM, event counts and CSRs are kept. What it had fetched is squashed, with the books of the wrong path. A core with nothing staged, or
that does not wait, is left as it is. -/
def Sys2Proof.ProgramUpdateRestarts : Prop :=
  ∀ (c : Fin 10) (s : State),
    let k := s.m.core c
    let ready := k.staged ≠ [] ∧ k.st = .wait ∧ s.m.up (coreFn c) = true
    (ready → GaugesQuiet s → ∃ t imem, exec (.programUpdateApply c) s = .next t ∧ EccMem.Same k.imem imem ∧
      t.m.core c = { k with
        imem := k.staged.foldl (fun x r => x.write r.2.1 r.2.2) imem, staged := [], btb := [], pc := 0, wait := none, programmed := true
        st := if k.haltReq then .halted else .run } ∧
      State.Frame (fun p => pathParts c p ∨ p = .cast) s t) ∧
    (∀ id off bs, ready → k.staged = [(id, off, bs)] → ∃ t, exec (.programUpdateApply c) s = .next t ∧
      ∀ i (h : i < bs.length), (t.m.core c).imem.byte (off + i) = bs[i]) ∧
    (¬ ready → exec (.programUpdateApply c) s = .next s)

/-- R420, TC_WDOG: a programmed core in service that has missed FR_WDOG_CFG.rows rows is recorded, its count is reset, and FRC frogs its
function. -/
def Sys2Proof.WatchdogFrogs : Prop :=
  ∀ (c : Fin 10) (s : State), s.m.get FrWdogCfg.rows ≠ 0 → (s.m.core c).programmed = true → s.m.up (coreFn c) = true →
    s.m.get FrWdogCfg.rows ≤ (s.m.core c).missed → FrcHasRoom s (coreFn c).val → s.m.frc.cur = none →
      ∃ t, exec (.tcWdog c) s = .next t ∧ (t.m.core c).missed = 0 ∧ Recorded s.m t.m 0x0507 (srcCore c) [c.val] ∧
        FrogAsked t.m (coreFn c).val

/-! ## Resets, cast-on and re-cast -/

/-- The commands that put the device into phase RESET, with the bit of GL_RESET_CAUSE that each sets (R45, R55, R57, Table PB-16). -/
def Sys2Proof.resetCommands : List (Instr × Fld) :=
  [ (.porstNAssert, GlResetCause.porst), (.pwrokFall, GlResetCause.pwrok), (.undervoltage .core, GlResetCause.uvCore),
    (.undervoltage .sram, GlResetCause.uvSram), (.undervoltage .io18, GlResetCause.uvIo18), (.undervoltage .stash, GlResetCause.uvStash),
    (.undervoltage .vddq, GlResetCause.uvStash) ]

/-- What phase RESET is: no function in service, every core in RESET, the clocks of every island stopped but those of VDD_AON. -/
def Sys2Proof.InReset (t : State) : Prop :=
  t.m.phase = 0 ∧ (∀ f, t.m.fn f = .down) ∧ (∀ c, t.m.core c = Core.reset) ∧ (∀ i, (t.m.isl i).stopped = !fixedClock i.val) ∧ t.links = [] ∧
    t.net = Net.reset ∧ t.m.host.linkUp = false

/-- R42, R45, R55, R57: PORST_N low, PWROK low and an undervoltage enter phase RESET from any state; the cause is noted beside those noted before,
and the timebase, the sampled straps, the pending records and, with no NVM or lifeline operation in progress, the flash are kept. -/
def Sys2Proof.ResetsEnterPhaseReset : Prop :=
  ∀ p ∈ resetCommands, ∀ s : State, ∃ t, exec p.1 s = .next t ∧ t.pending = s.pending ∧ InReset t ∧ t.m.get p.2 = 1 ∧
    (∀ q ∈ resetCommands, s.m.get q.2 = 1 → t.m.get q.2 = 1) ∧ t.m.tb = s.m.tb ∧ t.m.frc.pend = s.m.frc.pend ∧
    t.m.reg GlStrap.reg = s.m.reg GlStrap.reg ∧ (s.m.nvm = none → s.m.ll = none → t.m.flash = s.m.flash)

/-- R57, R58, POWER_ON: an undervoltage of VDD_AON is a full power-on reset: every AON register is cleared, GL_RESET_CAUSE.power_on reads 1 and no other
cause, and the TB count is lost (Table PB-14). A monitored rail that stands above its threshold when VDD_AON rises, and did not before, has risen out of
order. -/
def Sys2Proof.PowerOnClearsEverything : Prop :=
  ∀ (up : List MonRail) (s : State), ∃ t, exec (.powerOn up) s = .next t ∧ (t.m.pw.orderBad = true ↔ ∃ r ∈ up, s.m.pw.railOk r = false) ∧
    (∀ r, t.m.pw.railOk r = true ↔ r ∈ up) ∧ t.net = Net.reset ∧ t.pending = s.pending ∧ t.m.phase = 0 ∧ (∀ f, t.m.fn f = .down) ∧ t.links = [] ∧
    t.m.get GlResetCause.powerOn = 1 ∧ (∀ q ∈ resetCommands, t.m.get q.2 = 0) ∧ (∀ a, t.m.reg a = regReset a) ∧ t.m.tb = 0 ∧ t.m.tbOn = false ∧
    t.m.frc.pend = [] ∧ (s.m.nvm = none → s.m.ll = none → t.m.flash = s.m.flash)

/-- No sensor meets a temperature of 115 degrees or more (R45). -/
abbrev Sys2Proof.Cool (s : State) : Prop := ∀ i : Fin 16, (s.m.pw.temps[i]).toInt < 460

/-- R19, R45, R56, R58, R63, R78: COLD_CAST_ON lets rails rise in an order in phase RESET. With a rail still low the device stays in RESET; with all within
range it starts a cast-on, which ends in RUNNING or in FAILED, or in a thermal trip when a sensor that step 4 starts meets 115 degrees. A rail that rose before one of an
earlier step of Table PB-8 is noted in GL_RESET_CAUSE.order_violation. A flash that does not answer discovery ends the cast-on in FAILED with NVM_PROBE_FAIL
(R73, R455). In another phase, and after a thermal trip while PORST_N has not been low (R45), nothing starts. -/
def Sys2Proof.ColdCastOnRunsOrFails : Prop :=
  ∀ (rises : List MonRail) (s : State),
    let p := rises.foldl Power.rise s.m.pw
    let started := s.m.phase = 0 ∧ (s.m.pw.thermtrip = false ∨ s.m.pw.porst = false)
    (started → p.allOk = false →
      exec (.coldCastOn rises) s = .next { s with m := { s.m with pw := { p with porst := true, pwrok := true, thermtrip := false } } }) ∧
    (started → p.allOk = true → Cool s →
      ∃ t, exec (.coldCastOn rises) s = .next t ∧ t.pending = s.pending ∧ (t.m.phase = 2 ∨ t.m.phase = 15) ∧ t.links = [] ∧ t.net = Net.reset ∧
        t.m.tbOn = true ∧ t.m.pw.porst = true ∧ t.m.pw.pwrok = true ∧ t.m.pw.thermtrip = false ∧
        (p.orderBad = true → t.m.get GlResetCause.orderViolation = 1) ∧
        (s.m.flash.sfdpOk = false → t.m.phase = 15 ∧ t.m.get CoStatus.failCode = 0x0101)) ∧
    (started → p.allOk = true → ¬ Cool s →
      ∃ t, exec (.coldCastOn rises) s = .next t ∧ InReset t ∧ t.m.get GlResetCause.thermtrip = 1 ∧ t.m.pw.thermtrip = true) ∧
    (¬ started → exec (.coldCastOn rises) s = .next s)

/-- A host path reaches the cast-on registers and no request stands in the way of a re-cast (R88, R100). -/
abbrev Sys2Proof.CastReady (s : State) (p : Path) : Prop := s.m.coOpen p = true ∧ s.m.castBusy = false

/-- R53, R88, R100, R102, Table CO-13: RECAST and RECAST_RELOAD wait for the end of the row while the pattern runs, a transition in progress giving way to
them with its target latched; from IDLE they run at once. CAST_ON runs a cast-on from step 1. A sequence ends in RUNNING or FAILED. While a sequence, a
retention or a frog is in progress a request only sets req_ignored; so does a re-cast asked for outside RUNNING and IDLE, which is the model's choice (log
entry 51), as is that a bind-off or an ENABLE counts as a frog (log entry 78). -/
def Sys2Proof.CastRequests : Prop :=
  ∀ (p : Path) (s : State),
    (∀ r ∈ [(Instr.recast p, false), (.recastReload p, true)],
      (CastReady s p → s.m.phase = 2 → s.m.on GlStatus.patternRunning = true →
        ∃ t, exec r.1 s = .next t ∧ t.m.pw = { s.m.pw with trans := .toRecast r.2 } ∧
          (s.m.on GlPstateStat.pendValid = false → ∀ x ∈ [(Trans.toIdle, 1), (.toRetention, 2)], s.m.pw.trans = x.1 →
            t.m.get GlPstateStat.pending = x.2 ∧ t.m.get GlPstateStat.pendValid = 1) ∧
          State.Frame (fun q => q = .pw ∨ (q = .reg GlPstateStat.reg ∧ s.m.pw.trans ≠ .none)) s t) ∧
      (CastReady s p → s.m.phase = 4 →
        ∃ t, exec r.1 s = .next t ∧ t.pending = s.pending ∧ (t.m.phase = 2 ∨ t.m.phase = 15) ∧ t.links = [] ∧ t.net = Net.reset) ∧
      (s.m.coOpen p = true → s.m.phase ≠ 2 → s.m.phase ≠ 4 →
        ∃ t, exec r.1 s = .next t ∧ t.m.get CoStatus.reqIgnored = 1 ∧ State.Frame (fun q => q = .reg CoStatus.reg) s t)) ∧
    (CastReady s p → Cool s →
      ∃ t, exec (.castOn p) s = .next t ∧ t.pending = s.pending ∧ (t.m.phase = 2 ∨ t.m.phase = 15) ∧ t.links = [] ∧ t.net = Net.reset) ∧
    (s.m.coOpen p = true → s.m.castBusy = true → ∀ i ∈ [Instr.recast p, .recastReload p, .castOn p],
      ∃ t, exec i s = .next t ∧ t.m.get CoStatus.reqIgnored = 1 ∧ State.Frame (fun q => q = .reg CoStatus.reg) s t)

/-- R100, Table CO-13, RESCAN and RESCAN_END: a rescan makes CO_STATUS.busy read 1 until it ends; its end judges both copies in CO_IMG_STAT, with
no copy B reading 0. One asked for while another runs, or while the NVM does not serve, only sets req_ignored, which is the model's choice (log entry 78). -/
def Sys2Proof.RescanJudgesCopies : Prop :=
  ∀ (p : Path) (s : State),
    (s.m.coOpen p = true → s.m.cast.rescanning = false → s.m.nvmRefusal nvBusy nvDown = none → s.m.nvmFallback = false →
      ∃ t, exec (.rescan p) s = .next t ∧ t.m.cast = { s.m.cast with rescanning := true } ∧ t.m.get CoStatus.busy = 1 ∧
        State.Frame (fun q => q = .cast ∨ q = .reg CoStatus.reg) s t) ∧
    (s.m.coOpen p = true → s.m.cast.rescanning = true ∨ s.m.nvmRefusal nvBusy nvDown ≠ none ∨ s.m.nvmFallback = true →
      ∃ t, exec (.rescan p) s = .next t ∧ t.m.get CoStatus.reqIgnored = 1 ∧ State.Frame (fun q => q = .reg CoStatus.reg) s t) ∧
    (s.m.cast.rescanning = true →
      ∃ t, exec .rescanEnd s = .next t ∧ t.m.cast.rescanning = false ∧ t.m.get CoStatus.busy = 0 ∧
        (t.m.get CoImgStat.aState = 1 ∨ t.m.get CoImgStat.aState = 2) ∧ t.m.get CoImgStat.bState ≤ 2 ∧ t.m.flash = s.m.flash ∧
        t.pending = s.pending ∧ t.links = s.links)

/-! ## Sensors, references and the core supply -/

/-- R44, R45, R63, SENSOR_READING: below the trip point GL_TEMP shows the hottest valid sensor; a reading at or above GL_THERM.alert sets alert_hit; at
115 degrees or more the device trips into phase RESET. In phase RESET no sensor runs, and the reading is what the sensor will meet when step 4 of a
cast-on starts it. -/
def Sys2Proof.SensorReadings : Prop :=
  ∀ (i : Fin 16) (temp : BitVec 11) (s : State),
    (s.m.phase = 0 → ∃ t, exec (.sensorReading i temp) s = .next t ∧ t.m.pw = { s.m.pw with temps := s.m.pw.temps.set i temp } ∧
      State.Frame (fun q => q = .pw) s t) ∧
    (s.m.phase ≠ 0 → temp.toInt < 460 → ∃ t, exec (.sensorReading i temp) s = .next t ∧
      t.m.pw = { s.m.pw with temps := s.m.pw.temps.set i temp, tempsValid := s.m.pw.tempsValid ||| BitVec.ofNat 16 (2 ^ i.val) } ∧
      t.m.get GlTemp.valid = 1 ∧
      (∃ k : Fin 16, t.m.get GlTemp.sensor = k.val ∧ t.m.pw.tempsValid.getLsbD k.val = true ∧ t.m.get GlTemp.temp = (t.m.pw.temps[k]).toNat ∧
        ∀ j : Fin 16, t.m.pw.tempsValid.getLsbD j.val = true → (t.m.pw.temps[j]).toInt ≤ (t.m.pw.temps[k]).toInt) ∧
      (4 * (s.m.get GlTherm.alert : Int) ≤ temp.toInt → t.m.on GlTherm.alertHit = true) ∧
      (temp.toInt < 4 * (s.m.get GlTherm.alert : Int) → t.m.on GlTherm.alertHit = s.m.on GlTherm.alertHit) ∧
      State.Frame (fun q => q = .pw ∨ q = .reg GlTemp.reg ∨ q = .reg GlTherm.reg) s t) ∧
    (s.m.phase ≠ 0 → 460 ≤ temp.toInt → ∃ t, exec (.sensorReading i temp) s = .next t ∧ InReset t ∧ t.m.get GlResetCause.thermtrip = 1 ∧
      t.m.pw.thermtrip = true)

/-- R60, R61, R357, R368: losing the crystal clears xtal_ok, sets the sticky xtal_lost and records XTAL_LOST, and a relock sets xtal_ok again. Losing and
regaining AMCLK_IN follows in GL_CLKSTAT.amclk_present as it reads; a domain that selects it is without its clock, which is a loss that is recorded, and
its outputs alone are silenced. -/
def Sys2Proof.ReferenceClocks : Prop :=
  ∀ s : State,
    (s.m.tbOn = true → s.m.on GlClkstat.xtalOk = true → s.m.frc.pend.length < 16 →
      ∃ t, exec .xtalLost s = .next t ∧ t.m.get GlClkstat.xtalOk = 0 ∧ t.m.get GlClkstat.xtalLost = 1 ∧ Recorded s.m t.m 0x0001 (srcIsl 239) [] ∧
        State.Frame (fun q => q = .pw ∨ q = .reg GlClkstat.reg) s t) ∧
    (s.m.tbOn = true → ∃ t, exec .timebaseRelock s = .next t ∧ t.m.get GlClkstat.xtalOk = 1 ∧ t.m.pw = { s.m.pw with refclk := true } ∧
      State.Frame (fun q => q = .pw ∨ q = .reg GlClkstat.reg) s t) ∧
    (∃ t, exec .amclkLost s = .next t ∧ GlClkstat.amclkPresent.of (t.m.live GlClkstat.reg) = 0 ∧ t.m.pw = { s.m.pw with amclk := false } ∧
      t.m.ae = { s.m.ae with out := t.m.ae.out, ramp := t.m.ae.ramp, sound := t.m.ae.sound } ∧
      (∀ d, t.m.clockGone d = s.m.onAmclk d) ∧
      (∀ ch : Fin 80, if s.m.onAmclk (outDomain ch.val) then t.m.ae.raw.any (fun e => e.1 == ch.val) → t.m.ae.sound.getLsbD ch.val = false
        else t.m.ae.sound.getLsbD ch.val = s.m.ae.sound.getLsbD ch.val) ∧
      ((∃ d < 6, s.m.onAmclk d = true) → t.m.get GlClkstat.amclkLost = 1) ∧
      ((∃ d < 6, s.m.onAmclk d = true) → s.m.frc.pend.length < 16 → Recorded s.m t.m 0x0002 (srcIsl 239) []) ∧
      State.Frame (fun q => q = .pw ∨ q = .ae ∨ (q = .reg GlClkstat.reg ∧ ∃ d < 6, s.m.onAmclk d = true)) s t) ∧
    (∃ t, exec .amclkInReturn s = .next t ∧ (s.m.tbOn = true → GlClkstat.amclkPresent.of (t.m.live GlClkstat.reg) = 1) ∧
      t.m.pw = { s.m.pw with amclk := true } ∧ t.m.ae = { s.m.ae with out := t.m.ae.out, ramp := t.m.ae.ramp, sound := t.m.ae.sound } ∧
      (∀ d, t.m.clockGone d = false) ∧ State.Frame (fun q => q = .pw ∨ q = .ae) s t)

/-- R34, R62, R113: an acknowledged VOUT_COMMAND write moves the commanded code towards the target by at most 10 mV; one that is not acknowledged counts in
GL_VR_STAT.nack_count and records VR_NACK; SMBALERT records STATUS_WORD; a droop event counts at its island. -/
def Sys2Proof.CoreSupplyCommands : Prop :=
  ∀ s : State, s.m.pw.fixedSupply = false → s.m.phase ≠ 0 →
    (∀ readVout : BitVec 16, ∃ t, exec (.voutCommandWrite true readVout) s = .next t ∧
      (let c := s.m.voutNow
       let d := s.m.pw.vrTarget.toNat
       let limit := 10 * 2 ^ s.m.pw.vrBits / 1000
       t.m.get GlVrStat.voutCode = (if c < d then Nat.min d (c + limit) else Nat.max d (c - limit)) % 2 ^ 16) ∧
      t.m.pw.vrHold = false ∧ t.m.pw.vout = readVout ∧ State.Frame (fun q => q = .pw ∨ q = .reg GlVrStat.reg) s t) ∧
    (s.m.frc.pend.length < 16 → ∀ v : BitVec 16, ∀ i ∈ [Instr.voutCommandWrite false v, .vrAlert false v],
      ∃ t, exec i s = .next t ∧ t.m.pw = { s.m.pw with vrHold := true } ∧
        t.m.get GlVrStat.nackCount = Nat.min (s.m.get GlVrStat.nackCount + 1) 255 ∧ Recorded s.m t.m 0x0003 (srcIsl 240) [] ∧
        State.Frame (fun q => q = .pw ∨ q = .reg GlVrStat.reg) s t) ∧
    (s.m.frc.pend.length < 16 → ∀ v : BitVec 16, ∃ t, exec (.vrAlert true v) s = .next t ∧ Recorded s.m t.m 0x0006 (srcIsl 240) [v.toNat] ∧
      State.Frame (fun _ => False) s t) ∧
    (∀ i : Fin 264, (s.m.isl i).stopped = false → ∃ t, exec (.droopEvent i) s = .next t ∧
      t.m.get (IsIslDroop.count i) = Nat.min (s.m.get (IsIslDroop.count i) + 1) (2 ^ 32 - 1) ∧
      State.Frame (fun q => q = .reg (IsIslDroop.count i).addr) s t)

/-! ## Power states -/

/-- R47, R48, R49, R53, Table PB-14: a target written by a path that reaches GL. From RUNNING, IDLE and RETENTION start their transition; RUN is reached already; from
IDLE, RUN starts the pattern again in phase RUNNING; while a transition is in progress the target is latched. In RETENTION only RUN acts, by a re-cast. In
FAILED the field is stored and nothing else is done, which is the model's choice (log entry 78). -/
def Sys2Proof.PowerTargets : Prop :=
  ∀ (p : Path) (s : State), s.m.glOpen p = true →
    (s.m.phase = 2 → s.m.pw.trans = .none → s.m.frc.cur = none → s.m.on GlPstateStat.pendValid = false →
      (∃ t, exec (.targetIdle p) s = .next t ∧ t.m.pw = { s.m.pw with trans := .toIdle } ∧ t.m.get GlPstateCtl.target = 1 ∧
        State.Frame (fun q => q = .pw ∨ q = .reg GlPstateCtl.reg) s t) ∧
      (∃ t, exec (.targetRetention p) s = .next t ∧ t.m.pw = { s.m.pw with trans := .toRetention } ∧ t.m.get GlPstateCtl.target = 2 ∧
        State.Frame (fun q => q = .pw ∨ q = .reg GlPstateCtl.reg) s t) ∧
      (s.m.frc.queue = [] → ∃ t, exec (.targetRun p) s = .next t ∧ t.m.get GlPstateCtl.target = 0 ∧
        State.Frame (fun q => q = .reg GlPstateCtl.reg) s t)) ∧
    (s.m.phase = 4 → s.m.pw.trans = .none → s.m.frc.cur = none → s.m.on GlPstateStat.pendValid = false → s.m.frc.queue = [] →
      ∃ t, exec (.targetRun p) s = .next t ∧ t.m.phase = 2 ∧ t.m.on GlStatus.patternRunning = true ∧ t.m.rowCount = 0 ∧
        t.pending = s.pending ∧ t.links = s.links) ∧
    ((s.m.phase = 2 ∨ s.m.phase = 4) → s.m.pw.trans ≠ .none → ∀ r ∈ [(Instr.targetRun p, 0), (.targetIdle p, 1), (.targetRetention p, 2)],
      ∃ t, exec r.1 s = .next t ∧ t.m.get GlPstateStat.pendValid = 1 ∧ t.m.get GlPstateStat.pending = r.2 ∧ t.m.get GlPstateCtl.target = r.2 ∧
        State.Frame (fun q => q = .reg GlPstateCtl.reg ∨ q = .reg GlPstateStat.reg) s t) ∧
    (s.m.phase = 5 → s.m.on GlPstateStat.pendValid = false →
      (∀ i ∈ [Instr.targetIdle p, .targetRetention p], exec i s = .next s) ∧
      ∃ t, exec (.targetRun p) s = .next t ∧ (t.m.phase = 2 ∨ t.m.phase = 15) ∧ t.m.get GlPstateCtl.target = 0 ∧ t.links = [] ∧ t.net = Net.reset ∧
        t.pending = s.pending) ∧
    (s.m.phase = 15 → s.m.frc.queue = [] → ∀ r ∈ [(Instr.targetRun p, 0), (.targetIdle p, 1), (.targetRetention p, 2)],
      ∃ t, exec r.1 s = .next t ∧ t.m.get GlPstateCtl.target = r.2 ∧ State.Frame (fun q => q = .reg GlPstateCtl.reg) s t)

/-- R46, R47, R132, R367, IDLE_ENTRY: with the row ended, no swap and no message left, and every link empty with its credits back, the phase becomes IDLE: capture has
stopped, island clocks go to 200 MHz, at once or at the boundary of the stitch that runs there, every function is as it was and no flit is lost. While a
link still carries something the pattern stops and the transition waits. -/
def Sys2Proof.IdleEntryReachesIdle : Prop :=
  ∀ s : State, s.m.phase = 2 → ∀ x ∈ [(Trans.toIdle, Trans.none), (.toRetention, .toRetention)], s.m.pw.trans = x.1 →
    (s.m.on GlStatus.patternRunning = false → s.m.stash.swaps = [] → s.m.msg.staged = [] → s.quiet = true → s.m.on GlPstateStat.pendValid = false →
      s.m.frc.queue = [] →
      ∃ t, exec .idleEntry s = .next t ∧ t.m.phase = 4 ∧ t.m.pw.trans = x.2 ∧ t.m.on GlStatus.patternRunning = false ∧ t.m.ae.capturing = false ∧
        (∀ f, t.m.fn f = s.m.fn f) ∧ (∀ i : Fin 264, fixedClock i.val = false → (t.m.isl i).next.getD (t.m.isl i).code = 0) ∧
        t.pending = s.pending ∧ t.links = s.links ∧ t.net = s.net) ∧
    (s.quiet = false →
      ∃ t, exec .idleEntry s = .next t ∧ t.m.phase = 2 ∧ t.m.pw.trans = x.1 ∧ t.m.on GlStatus.patternRunning = false ∧
        t.pending = s.pending ∧ t.links = s.links ∧ t.net = s.net)

/-- R46, R48, RETENTION_ENTRY: the phase becomes RETENTION; scratchpads, stitch descriptors and the cores' memories are held, the rest of the cores is lost, the PCI Express link is down, the governor has stopped (R125), and only the SPI
management slave stays in service. It waits for every link to be quiet (R132). -/
def Sys2Proof.RetentionKeepsMemories : Prop :=
  ∀ s : State, s.m.phase = 4 → s.m.pw.trans = .toRetention →
    (s.quiet = false → exec .retentionEntry s = .next s) ∧
    (s.quiet = true → s.m.on GlPstateStat.pendValid = false →
    ∃ t, exec .retentionEntry s = .next t ∧ t.m.phase = 5 ∧ t.m.pw.trans = .none ∧ t.m.host.linkUp = false ∧ t.links = s.links ∧ t.net = s.net ∧
      t.m.get IsStatus.capped = 0 ∧ t.m.get IsStatus.active = 0 ∧
      (∀ f, t.m.fn f = if s.m.fn f = .off then .off else if f = 9 then .up else .down) ∧
      (∀ x, (t.m.tile x).sp = (s.m.tile x).sp ∧ (t.m.tile x).sdm = (s.m.tile x).sdm) ∧
      (∀ c, t.m.core c = { Core.reset with imem := (s.m.core c).imem, dmem := (s.m.core c).dmem, programmed := (s.m.core c).programmed }) ∧
      t.m.tb = s.m.tb ∧ t.m.stash = s.m.stash ∧ t.pending = s.pending)

/-! ## PERST_N and the PCI Express link -/

/-- R49, R67, R373, R398: PERST_N rising brings the endpoint into service outside RESET and RETENTION, and leaves RETENTION by a re-cast when perst_wake asks for it; PERST_N low and a link that goes down reset the endpoint: configuration, MSI-X and
rings are lost, link_reset reads 1; a link that trains with the endpoint in service shows its speed and width. -/
def Sys2Proof.EndpointResets : Prop :=
  ∀ s : State,
    (s.m.phase ≠ 0 → s.m.phase ≠ 5 → s.m.fn 7 = .down → s.m.inFrog 7 = false → s.m.fnAllowed 7 = true →
      ∃ t, exec .perstNRise s = .next t ∧ t.m.fn 7 = .up ∧ t.m.pw = { s.m.pw with perst := true } ∧ State.Frame (fun q => q = .pw ∨ q = .fn 7) s t) ∧
    (s.m.phase = 0 ∨ (s.m.phase = 5 ∧ s.m.on GlPstateCtl.perstWake = false) ∨ (s.m.phase ≠ 5 ∧ s.m.fn 7 ≠ .down) →
      ∃ t, exec .perstNRise s = .next t ∧ t.m.pw = { s.m.pw with perst := true } ∧ State.Frame (fun q => q = .pw) s t) ∧
    (s.m.phase = 5 → s.m.on GlPstateCtl.perstWake = true →
      ∃ t, exec .perstNRise s = .next t ∧ (t.m.phase = 2 ∨ t.m.phase = 15) ∧ t.m.get GlPstateCtl.target = 0 ∧ t.links = [] ∧ t.net = Net.reset ∧
        t.pending = s.pending) ∧
    (s.m.phase ≠ 0 → ∀ i ∈ [Instr.perstNAssert, .linkDown true, .linkDown false],
      ∃ t, exec i s = .next t ∧ t.m.host.linkUp = false ∧ t.m.host.cfg = [] ∧ t.m.host.msixTable = [] ∧ t.m.host.pba = 0 ∧
        t.m.get HlPcieStat.linkReset = 1 ∧ t.m.get HlPcieStat.speed = 0 ∧ t.m.get HlPcieStat.width = 0 ∧
        (∀ r : Fin 16, t.m.get (MsgRingCtl.enable r) = 0) ∧ (i = .perstNAssert → t.m.pw = { s.m.pw with perst := false }) ∧
        t.pending = s.pending ∧ t.links = s.links) ∧
    (s.m.pw.perst = true → s.m.up fnPcie = true → ∀ speed width : BitVec 3,
      ∃ t, exec (.linkTrained speed width) s = .next t ∧ t.m.host = { s.m.host with linkUp := true } ∧ t.m.get HlPcieStat.speed = speed.toNat ∧
        t.m.get HlPcieStat.width = width.toNat ∧
        State.Frame (fun q => q = .host ∨ q = .reg HlPcieStat.reg) s t)

/-! ## Flash and lifeline operations -/

/-- The byte that the flash holds at an address. -/
def Sys2Proof.flashByte (s : State) (a : Nat) : Byte := Tab.get erasedByte s.m.flash.bytes a

/-- The NVM requests with their op, and their length in bytes (Table CO-16). -/
def Sys2Proof.nvmRequests (p : Path) (lenM1 : BitVec 12) : List (Instr × Nat × Nat) :=
  [ (.nvmRead p lenM1, 1, lenM1.toNat + 1), (.program p lenM1, 2, lenM1.toNat + 1), (.erase4KiB p, 3, 4096), (.erase64KiB p, 4, 65536) ]

/-- What an NVM request may change: its fields and status, the writer's work, and the books of the buffer it reads (R412). -/
def Sys2Proof.nvmParts : Part → Prop :=
  fun q => q ∈ [Part.nvm, .waiting, .reg CoNvmCtl.reg, .reg CoNvmStat.reg, .reg FrHsrCeCount.reg, .reg FrHsrChkCount.reg, .reg FrHsrUeCount.reg]

/-- The writer serves nothing and nothing waits for it (R98, R103). -/
abbrev Sys2Proof.WriterIdle (s : State) : Prop := s.m.nvm = none ∧ s.m.ll = none ∧ s.m.waiting = []

/-- R99, R103, R456, Table CO-16: an NVM request ends with BUSY or DOWN where R103 says, with RANGE outside the flash or unaligned, with PROTECTED where R99 protects,
and is accepted otherwise: its fields and the data of a PROGRAM are latched, busy reads 1 and the flash is not touched; the writer takes it at once when it is idle, else
it waits. A PROGRAM whose data cannot be read ends with FLASH_ERROR. While busy a request only sets req_ignored. That an ERASE not aligned to its size ends with
RANGE is the model's choice (log entry 78). -/
def Sys2Proof.NvmRequestsAreChecked : Prop :=
  ∀ (p : Path) (lenM1 : BitVec 12) (s : State), s.m.coOpen p = true → ∀ r ∈ nvmRequests p lenM1,
    let a := (s.m.reg CoNvmAddr.reg).toNat
    let op := r.2.1
    let n := r.2.2
    let o : NvmOp := { op := op, addr := a, len := n, data := if op = 2 then s.m.hub.read 0x1FF000 n else [], firmware := byCore p }
    let ends := fun result => ∃ t, exec r.1 s = .next t ∧ t.m.get CoNvmStat.result = result ∧ t.m.get CoNvmStat.busy = 0 ∧
      State.Frame (fun q => q = .reg CoNvmCtl.reg ∨ q = .reg CoNvmStat.reg) s t
    (s.m.on CoNvmStat.busy = true → ∃ t, exec r.1 s = .next t ∧ t.m.get CoStatus.reqIgnored = 1 ∧
      State.Frame (fun q => q = .reg CoNvmCtl.reg ∨ q = .reg CoStatus.reg) s t) ∧
    (s.m.on CoNvmStat.busy = false → s.m.fn 18 = .frogging → ends 2) ∧
    (s.m.on CoNvmStat.busy = false → s.m.phase ≠ phCasting → s.m.phase ≠ phRecasting → (s.m.fn 18 = .down ∨ s.m.fn 18 = .off) → ends 6) ∧
    (s.m.on CoNvmStat.busy = false → s.m.nvmRefusal nvBusy nvDown = none →
      (s.m.flashSize < a + n ∨ (3 ≤ op ∧ a % n ≠ 0) → ends 4) ∧
      (a + n ≤ s.m.flashSize → (3 ≤ op → a % n = 0) → op ≠ 1 → s.m.nvmProtected a n = true → ends 1) ∧
      (a + n ≤ s.m.flashSize → op = 2 → s.m.nvmProtected a n = false → s.m.hub.ues 0x1FF000 n ≠ [] →
        ∃ t, exec r.1 s = .next t ∧ t.m.get CoNvmStat.result = 3 ∧ t.m.get CoNvmStat.busy = 0 ∧ t.m.nvm = s.m.nvm ∧ t.m.waiting = s.m.waiting ∧
          State.Frame nvmParts s t) ∧
      (a + n ≤ s.m.flashSize → (3 ≤ op → a % n = 0) → (op ≠ 1 → s.m.nvmProtected a n = false) → (op = 2 → s.m.hub.ues 0x1FF000 n = []) →
        (WriterIdle s → ∃ t, exec r.1 s = .next t ∧ t.m.nvm = some o ∧ t.m.waiting = [] ∧ t.m.get CoNvmStat.busy = 1 ∧ State.Frame nvmParts s t) ∧
        (s.m.nvm ≠ none ∨ s.m.ll ≠ none → ∃ t, exec r.1 s = .next t ∧ t.m.nvm = s.m.nvm ∧ t.m.waiting = s.m.waiting ++ [.nvm o] ∧
          t.m.get CoNvmStat.busy = 1 ∧ State.Frame nvmParts s t)))

/-- R103, R104, R108, Table CO-16, NVM_OP_COMPLETE: a READ puts the flash bytes at the start of the data buffer, a PROGRAM clears the bits that its data clears and an ERASE leaves 0xFF
(log entry 31); the result reads OK and nothing else changes. An operation that the flash does not perform reads FLASH_ERROR. The writer then takes what waits, the oldest first; but while
the pattern runs a host's NVM operation lets the oldest lifeline write of firmware or the device go before it. -/
def Sys2Proof.NvmOperationsEnd : Prop :=
  ∀ (o : NvmOp) (s : State), s.m.nvm = some o →
    (s.m.waiting = [] →
      (o.op = 1 → o.len ≤ 4096 → ∃ t, exec (.nvmOpComplete true) s = .next t ∧ t.m.nvm = none ∧ t.m.get CoNvmStat.result = 0 ∧ t.m.get CoNvmStat.busy = 0 ∧
        (∀ i < o.len, t.m.hub.byte (0x1FF000 + i) = flashByte s (o.addr + i)) ∧
        State.Frame (fun q => q = .nvm ∨ q = .reg CoNvmStat.reg ∨ ∃ i < o.len, q = .hub (0x1FF000 + i)) s t) ∧
      (o.op = 2 → ∃ t, exec (.nvmOpComplete true) s = .next t ∧ t.m.nvm = none ∧ t.m.get CoNvmStat.result = 0 ∧ t.m.get CoNvmStat.busy = 0 ∧
        (∀ x, flashByte t x = if o.addr ≤ x ∧ x < o.addr + o.data.length then flashByte s x &&& o.data.getD (x - o.addr) 0 else flashByte s x) ∧
        State.Frame (fun q => q = .nvm ∨ q = .reg CoNvmStat.reg ∨ q = .flash) s t) ∧
      (3 ≤ o.op → ∃ t, exec (.nvmOpComplete true) s = .next t ∧ t.m.nvm = none ∧ t.m.get CoNvmStat.result = 0 ∧ t.m.get CoNvmStat.busy = 0 ∧
        (∀ x, flashByte t x = if o.addr ≤ x ∧ x < o.addr + o.len then 0xFF else flashByte s x) ∧
        State.Frame (fun q => q = .nvm ∨ q = .reg CoNvmStat.reg ∨ q = .flash) s t) ∧
      (∃ t, exec (.nvmOpComplete false) s = .next t ∧ t.m.nvm = none ∧ t.m.get CoNvmStat.result = 3 ∧ t.m.get CoNvmStat.busy = 0 ∧
        State.Frame (fun q => q = .nvm ∨ q = .reg CoNvmStat.reg ∨ q = .flash) s t)) ∧
    (∀ w rest ok, s.m.ll = none → s.m.up fnNvm = true → s.m.waiting = w :: rest →
      (s.m.on GlStatus.patternRunning = false ∨ (∃ x, w = .ll x) ∨ (∃ x, w = .nvm x ∧ x.firmware = true) ∨ (∀ x ∈ rest, x.prior = false) →
        ∃ t, exec (.nvmOpComplete ok) s = .next t ∧ t.m.waiting = rest ∧
          (match w with | .nvm x => t.m.nvm = some x ∧ t.m.ll = none | .ll x => t.m.ll = some x ∧ t.m.nvm = none)) ∧
      (∀ x d pre post, s.m.on GlStatus.patternRunning = true → w = .nvm x → x.firmware = false → rest = pre ++ .ll d :: post →
        (∀ y ∈ pre, y.prior = false) → d.op ≠ 2 → (d.device = true ∨ d.firmware = true) →
        ∃ t, exec (.nvmOpComplete ok) s = .next t ∧ t.m.waiting = w :: (pre ++ post) ∧ t.m.ll = some d ∧ t.m.nvm = none))

/-- The lifeline requests with their op and length (Table CO-17). -/
def Sys2Proof.llRequests (p : Path) (key : BitVec 16) (len : BitVec 12) : List (Instr × Nat) :=
  [(.llWrite p key len, 1), (.llRead p key, 2), (.delete p key, 3)]

/-- The keys that a path may write and delete (Table CO-10): firmware those from 0x1000, the host those from 0x8000, but not 0xFFFF. -/
def Sys2Proof.KeyOf (p : Path) (key : BitVec 16) : Prop :=
  if p.isHost then 0x8000 ≤ key.toNat ∧ key.toNat ≤ 0xFFFE else 0x1000 ≤ key.toNat ∧ key.toNat ≤ 0x7FFF

/-- R96, R103, R456, Tables CO-10 and CO-17: a path writes and deletes its own keys only, every key may be read; an accepted request is latched with its key and its data, and busy reads 1; the
writer takes it at once when it is idle, else it waits. A WRITE of more than 4,000 bytes is FULL, and in the single-line fallback an operation is FLASH_ERROR, in the order that the model
chooses (log entry 78). -/
def Sys2Proof.LifelineRequestsAreChecked : Prop :=
  ∀ (p : Path) (key : BitVec 16) (len : BitVec 12) (s : State), s.m.coOpen p = true → s.m.on CoLlStat.busy = false →
    s.m.nvmRefusal llBusy llDown = none → ∀ r ∈ llRequests p key len,
    let parts := fun q => q ∈ [Part.ll, .waiting, .reg CoLlCtl.reg, .reg CoLlStat.reg, .reg FrHsrCeCount.reg, .reg FrHsrChkCount.reg, .reg FrHsrUeCount.reg]
    let o : LlOp := { op := r.2, key := key.toNat, data := if r.2 = 1 then s.m.hub.read 0x1FF000 len.toNat else [], device := false, firmware := byCore p }
    let ends := fun result => ∃ t, exec r.1 s = .next t ∧ t.m.get CoLlStat.result = result ∧ t.m.get CoLlStat.busy = 0 ∧
      State.Frame (fun q => q = .reg CoLlCtl.reg ∨ q = .reg CoLlStat.reg) s t
    (r.2 ≠ 2 → ¬ KeyOf p key → ends 2) ∧
    (r.2 = 1 → KeyOf p key → 4000 < len.toNat → ends 3) ∧
    ((r.2 ≠ 2 → KeyOf p key) → (r.2 = 1 → len.toNat ≤ 4000) → s.m.nvmFallback = true → ends 4) ∧
    ((r.2 ≠ 2 → KeyOf p key) → (r.2 = 1 → len.toNat ≤ 4000 ∧ s.m.hub.ues 0x1FF000 len.toNat = []) → s.m.nvmFallback = false →
      (WriterIdle s → ∃ t, exec r.1 s = .next t ∧ t.m.ll = some o ∧ t.m.get CoLlStat.busy = 1 ∧ t.m.waiting = [] ∧ State.Frame parts s t) ∧
      (s.m.nvm ≠ none ∨ s.m.ll ≠ none → ∃ t, exec r.1 s = .next t ∧ t.m.ll = s.m.ll ∧ t.m.get CoLlStat.busy = 1 ∧
        t.m.waiting = s.m.waiting ++ [.ll o] ∧ State.Frame parts s t))

/-- R93, R95, R98, R107, R108, Table CO-17, LL_OP_COMPLETE: a READ of a present key puts its payload at the start of the data buffer and its length in CO_LL_STAT, an absent key is NOT_FOUND; a
WRITE ends OK or FULL and leaves the flash below the lifeline region alone, and so does the DELETE of a present key, while that of an absent one is NOT_FOUND; a flash error, or the single-line
fallback, commits nothing. Of the books only what the scan of the store finds changes: sectors logged as corrupt, erase counts and free sectors. The device's own writes end without a
result. -/
def Sys2Proof.LifelineOperationsEnd : Prop :=
  ∀ (o : LlOp) (s : State), s.m.ll = some o → s.m.waiting = [] →
    let parts := fun q => q ∈ [Part.ll, .cast, .reg CoLlStat.reg, .reg CoLlWear.reg]
    let noted := fun t : State => t.m.ll = none ∧
      t.m.cast = { s.m.cast with corruptLogged := t.m.cast.corruptLogged, wornLogged := t.m.cast.wornLogged }
    let ended := fun (t : State) (result : Nat) => noted t ∧ (o.device = false → t.m.get CoLlStat.result = result ∧ t.m.get CoLlStat.busy = 0) ∧
      (o.device = true → t.m.get CoLlStat.result = s.m.get CoLlStat.result ∧ t.m.get CoLlStat.busy = s.m.get CoLlStat.busy)
    let stored := ∃ t, exec (.llOpComplete true) s = .next t ∧ (ended t 0 ∨ (ended t 3 ∧ t.m.flash = s.m.flash)) ∧
      (∀ x, x < s.m.llBase → flashByte t x = flashByte s x) ∧ State.Frame (fun q => parts q ∨ q = .flash) s t
    (s.m.nvmFallback = false → o.op = 2 → s.m.llGet o.key = none → ∃ t, exec (.llOpComplete true) s = .next t ∧ ended t 1 ∧ State.Frame parts s t) ∧
    (∀ bs, s.m.nvmFallback = false → o.op = 2 → s.m.llGet o.key = some bs →
      ∃ t, exec (.llOpComplete true) s = .next t ∧ ended t 0 ∧ t.m.get CoLlStat.length = bs.length % 2 ^ 12 ∧
        (∀ i (h : i < bs.length), t.m.hub.byte (0x1FF000 + i) = bs[i]) ∧
        State.Frame (fun q => parts q ∨ ∃ i < bs.length, q = .hub (0x1FF000 + i)) s t) ∧
    (s.m.nvmFallback = false → o.op = 1 → stored) ∧
    (s.m.nvmFallback = false → o.op = 3 → s.m.llGet o.key ≠ none → stored) ∧
    (s.m.nvmFallback = false → o.op = 3 → s.m.llGet o.key = none → ∃ t, exec (.llOpComplete true) s = .next t ∧ ended t 1 ∧ State.Frame parts s t) ∧
    (∀ ok, ok = false ∨ s.m.nvmFallback = true → ∃ t, exec (.llOpComplete ok) s = .next t ∧ ended t 4 ∧ State.Frame parts s t)

/-! ## Islands and links -/

/-- A link as its direction and class give it. -/
def Sys2Proof.theLink (s : State) (src dst : Fin 264) (c : FlitClass) : Link := linkOf s.links (linkKey src dst c)

/-- The other links are as before, and of the machine only books changed. -/
def Sys2Proof.OnlyLink (s t : State) (src dst : Fin 264) (c : FlitClass) : Prop :=
  t.pending = s.pending ∧ (∀ k, k ≠ linkKey src dst c → linkOf t.links k = linkOf s.links k) ∧ Mach.Books s.m t.m

/-- R117, R119, R120, R135, FLIT_SEND from an endpoint: it sends a flit of a class only while it holds a credit of that class, and spends the credit when it sends; the link carries flits in
order, and the packets of a class are contiguous, each head announcing how many data flits follow. On the way to its router a request needs a tag that it does not use already and room for the
reply, for 256 at most; a reply answers a request that the island has taken and not yet answered. -/
def Sys2Proof.EndpointsSend : Prop :=
  ∀ (src dst : Fin 264) (c : FlitClass) (f : Flit) (s : State), isRouter src.val = false →
    let l := theLink s src dst c
    let head := f.head = true
    let asks := isRouter dst.val = true ∧ c = .request ∧ head
    let mine := s.net.reqs.filter fun r => r.src == src.val
    (l.credits = 0 ∨ linkExists src dst c = false ∨ s.m.linkOpen src dst = false ∨ (head ∧ l.owed ≠ 0) ∨ (¬ head ∧ l.owed = 0) ∨
      (asks ∧ (256 ≤ mine.length ∨ ∃ r ∈ mine, r.tag = flitTag f)) ∨
      (isRouter dst.val = true ∧ c = .reply ∧ head ∧ s.net.find (answeredBy f) = none) → exec (.flitSend src dst c f) s = .next s) ∧
    (0 < l.credits → linkExists src dst c = true → s.m.linkOpen src dst = true → s.net.mayFollow src dst c l f = true →
      ∃ t, exec (.flitSend src dst c f) s = .next t ∧
        theLink t src dst c = { l with credits := l.credits - 1, inFlight := l.inFlight ++ [s.net.outgoing dst c f], voiding := false
                                       owed := if f.head then flitData f else l.owed - 1 } ∧
        (s.net.find (answeredBy f) = none ∨ c ≠ .reply → s.net.outgoing dst c f = f) ∧
        (asks → t.net.reqs = s.net.reqs ++ [{ src := flitSrc f, tag := flitTag f, dst := flitDest f, inside := false, poisoned := false, replied := false
                                              status := .ok, data := [] }]) ∧
        (¬ asks → t.net.reqs.map Request.who = s.net.reqs.map Request.who) ∧ OnlyLink s t src dst c)

/-- R118, FLIT_SEND from a router: its output forwards what arbitration grants, the reply class before every other. A granted head flit goes where x-then-y routing sends its destination. The flit
leaves the input's FIFO, whose credit starts back, and spends a credit of the output; at a closed port it is discarded, and a request is answered with VOID (Table FR-6). With nothing granted in
the class, nothing happens. -/
def Sys2Proof.RoutersForward : Prop :=
  ∀ (src dst : Fin 264) (c : FlitClass) (f : Flit) (s : State), isRouter src.val = true →
    ((∀ i, grantAt s src dst ≠ some (c, i)) → exec (.flitSend src dst c f) s = .next s) ∧
    (∀ i j, c ≠ .reply → grantIn s src dst .reply = some j → grantAt s src dst ≠ some (c, i)) ∧
    (∀ i x rest, grantAt s src dst = some (c, i) → linkExists src dst c = true → (linkOf s.links (keyOf i src c)).fifo = x :: rest →
      let l := theLink s src dst c
      let a := linkOf s.links (keyOf i src c)
      let shut := s.m.portShut src dst c l x.flit
      (x.flit.head = true → nextHop src (flitDest x.flit) = some dst.val) ∧
      ∃ t, exec (.flitSend src dst c f) s = .next t ∧ t.pending = s.pending ∧ Mach.Books s.m t.m ∧
        linkOf t.links (keyOf i src c) = { a with fifo := rest, returning := a.returning + 1 } ∧
        (∀ k, k ≠ linkKey src dst c → k ≠ keyOf i src c → linkOf t.links k = linkOf s.links k) ∧
        (shut = false → 0 < l.credits ∧ theLink t src dst c =
          { l with credits := l.credits - 1, inFlight := l.inFlight ++ [x.flit], owed := l.after x.flit, voiding := false } ∧ t.net.reqs = s.net.reqs) ∧
        (shut = true → theLink t src dst c = { l with owed := l.after x.flit, voiding := l.after x.flit != 0 } ∧
          (x.flit.head = true → c = .request → t.net.find (requestOf x.flit) = none)))

/-- R116, R131, R135, FLIT_ARRIVAL: the oldest flit in flight becomes visible; a head flit with wrong parity is discarded with LINK_PARITY, as are the rest of its packet, and their credits start
back; a data flit with wrong parity is delivered poisoned. A flit that CUT has doomed is discarded without a credit. -/
def Sys2Proof.FlitArrivalChecksParity : Prop :=
  ∀ (src dst : Fin 264) (c : FlitClass) (f : Flit) (rest : List Flit) (s : State),
    let l := theLink s src dst c
    let becomes := fun (l' : Link) (more : State → Prop) => ∃ t, exec (.flitArrival src dst c) s = .next t ∧ OnlyLink s t src dst c ∧ t.net = s.net ∧
      theLink t src dst c = l' ∧ more t
    (l.inFlight = [] → becomes l fun t => t.m = s.m) ∧
    (l.inFlight = f :: rest →
      (0 < l.doomed → becomes { l with inFlight := rest, doomed := l.doomed - 1 } fun t => t.m = s.m) ∧
      (l.doomed = 0 →
        (f.head = true → flitParityOk f = true → becomes { l with inFlight := rest, fifo := l.fifo ++ [⟨f, false⟩], dropping := false } fun _ => True) ∧
        (f.head = true → flitParityOk f = false → s.m.frc.pend.length < 16 →
          becomes { l with inFlight := rest, returning := l.returning + 1, dropping := true } fun t => Recorded s.m t.m 0x0203 (srcIsl dst) []) ∧
        (f.head = false → l.dropping = true → becomes { l with inFlight := rest, returning := l.returning + 1 } fun _ => True) ∧
        (f.head = false → l.dropping = false → becomes { l with inFlight := rest, fifo := l.fifo ++ [⟨f, !flitParityOk f⟩] } fun _ => True)))

/-- R116, R117, R119, R120, CREDIT_RETURN: an endpoint takes its oldest visible flit, and the slot's credit starts back; when it arrives the sender has it. A flit that a router is to forward
leaves it by FLIT_SEND only. A reply that has come whole ends its request, with the reply's status. -/
def Sys2Proof.CreditReturnFreesSlot : Prop :=
  ∀ (src dst : Fin 264) (c : FlitClass) (s : State),
    let l := theLink s src dst c
    (∀ x rest, l.fifo = x :: rest → isRouter dst.val = false →
      ∃ t, exec (.creditReturn src dst c .freed) s = .next t ∧ OnlyLink s t src dst c ∧ t.m = s.m ∧
        theLink t src dst c = { l with fifo := rest, returning := l.returning + 1 } ∧
        (isRouter src.val = false → t.net = s.net) ∧
        (∀ r, isRouter src.val = true → c = .reply → x.flit.head = true → flitData x.flit = 0 → s.net.find (answeredBy x.flit) = some r → r.src = dst.val →
          t.net.find r.who = none ∧ (dst.val, { tag := r.tag, status := statusOf (flitStatus x.flit), data := [] }) ∈ t.net.answers)) ∧
    (l.fifo = [] → exec (.creditReturn src dst c .freed) s = .next s) ∧
    (∀ x rest n, l.fifo = x :: rest → isRouter dst.val = true → x.flit.head = true → nextHop dst (flitDest x.flit) = some n →
      exec (.creditReturn src dst c .freed) s = .next s) ∧
    (∃ t, exec (.creditReturn src dst c .back) s = .next t ∧ OnlyLink s t src dst c ∧ t.m = s.m ∧ t.net = s.net ∧
      theLink t src dst c = if 0 < l.returning then { l with credits := l.credits + 1, returning := l.returning - 1 } else l)

/-- Table IS-6 of one link and class: sender credits, flits in flight, receiver occupancy and credits on their way back make 8, and flits that CUT has doomed count on top of that until they
have arrived. -/
def Sys2Proof.Balanced (l : Link) : Prop :=
  l.credits + l.inFlight.length + l.fifo.length + l.returning = 8 + l.doomed ∧ l.doomed ≤ l.inFlight.length

/-- The balance of every link and class. -/
def Sys2Proof.CreditsBalance (s : State) : Prop := (∀ k, Balanced (linkOf s.links k)) ∧ ∀ e ∈ s.links, Balanced e.2

/-- R121, R131, Table IS-6: every step keeps the credit balance of every link. -/
def Obligations.CreditBalanceIsKept : Prop := ∀ s t : State, CreditsBalance s → step s = .next t → CreditsBalance t

/-- The credit balance holds after reset, and after POWER_ON, which brings every link up with 8 credits (R138). -/
def Obligations.CreditBalanceAtReset : Prop :=
  CreditsBalance State.reset ∧ ∀ (up : List MonRail) (s t : State), exec (.powerOn up) s = .next t → CreditsBalance t

/-- R133, R134: a stalled link and a reply that does not come are recorded with their islands, and FRC frogs the function of the receiving island or of the target; the stalled flit stays queued. The
requester's outstanding load from the function is answered with VOID, and so is its oldest request on the links to that island: OFF when the frog has turned into a bind-off (R421). -/
def Sys2Proof.LinkWatchdogs : Prop :=
  ∀ (src dst : Fin 264) (c : FlitClass) (f : Fin 19) (s : State), isTrt dst.val = false → islandFn dst.val = some f → s.m.up f = true → s.m.inFrog f.val = false →
    FrcHasRoom s f.val →
    (linkExists src dst c = true → (theLink s src dst c).credits = 0 → s.m.inFrog (srcIsl src.val).fn = false →
      ∃ t, exec (.linkStall src dst c) s = .next t ∧ t.links = s.links ∧ t.net = s.net ∧ t.pending = s.pending ∧ Recorded s.m t.m 0x0201 (srcIsl src.val) [] ∧
        t.m.get IsStallLast.src = src.val ∧ t.m.get IsStallLast.dest = dst.val ∧ t.m.get IsStallLast.classF = classCode c ∧
        t.m.get IsStallLast.valid = 1 ∧ t.m.get IsStallCount.count = Nat.min (s.m.get IsStallCount.count + 1) (2 ^ 32 - 1) ∧ FrogAsked t.m f.val) ∧
    (∃ t, exec (.replyTimeout src dst) s = .next t ∧ t.links = s.links ∧ t.pending = s.pending ∧ Recorded s.m t.m 0x0202 (srcIsl dst.val) [] ∧ FrogAsked t.m f.val ∧
      let void := if t.m.fn f = .down then Status.voidOff else .voidReset
      (∀ (k : Fin 10) (d : DevLoad), src = coreIsland k → (s.m.core k).devLoad = some d → accessTo (some f) d.addr = true →
        ∃ e, (t.m.core k).devLoad = some e ∧ e.rd = d.rd ∧ e.addr = d.addr ∧ e.status = void) ∧
      (∀ r, (s.net.reqs.find? fun r => r.src == src.val && r.dst == dst.val) = some r →
        t.net.find r.who = none ∧ (r.src, { tag := r.tag, status := void, data := [] }) ∈ t.net.answers))

/-- The parts that the passing of time changes: the TB count and the cycle counts of islands. -/
def Sys2Proof.timeParts : Part → Prop := fun q => q = .tb ∨ ∃ i, q = .island i

/-- R136, CYCLE_COUNT_CHECK: at the next whole multiple of 9,600 ticks every island in service is read; a first reading only starts its count; an island whose clock has failed, so that it has advanced
fewer than 1,000 cycles since its last reading, is recorded as ISLAND_CLOCK and its function frogged. -/
def Sys2Proof.CycleCountCheck : Prop :=
  ∀ s : State, s.m.tbOn = true → s.m.tb.toNat + 9600 < 2 ^ 64 → s.m.phase ≠ 0 →
    (∀ failing, (∀ i, (s.m.isl i).lastRead = none) → ∃ t, exec (.cycleCountCheck failing) s = .next t ∧
      t.m.tb.toNat = (s.m.tb.toNat / 9600 + 1) * 9600 ∧
      (∀ i, (t.m.isl i).lastRead = if s.m.clockChecked i.val then some (t.m.isl i).cycles else none) ∧ State.Frame timeParts s t) ∧
    (∀ (i : Fin 264) (f : Fin 19) (n : Nat), islandFn i.val = some f → isTrt i.val = false → i.val ∉ [237, 238, 239] → (∀ j, j ≠ i → (s.m.isl j).lastRead = none) →
      (s.m.isl i).lastRead = some n → n < 2 ^ 64 → s.m.up f = true → s.m.inFrog f.val = false → GaugesQuiet s → FrcHasRoom s f.val →
      ∃ t, exec (.cycleCountCheck [i]) s = .next t ∧ Recorded s.m t.m 0x0204 (srcIsl i.val) [] ∧ FrogAsked t.m f.val)

/-- R122 to R125 and R137: at the end of a governor interval with no measure every ceiling is 180 and the row duty is full; any measure shows in GL_STATUS.tension_capped and IS_STATUS.capped and never takes a
scheduled island below the floor of R112; step 4 sets express_hit. Measures go up one step at a time, except at the alert temperature, and they do go up while the average is above the limit or
the hottest reading is near the alert. At TENSION_FLOOR every island is held at the floor's code, floor_hit is set and the fault recorded; the hold lasts while the average stays above the limit, which
is the model's choice of its end (log entry 44). An idle governor lets only time pass. -/
def Obligations.GovernorMeasures : Prop :=
  ∀ s : State, s.m.tbOn = true → s.m.tb.toNat + 9600 < 2 ^ 64 →
    (∀ (estimate : BitVec 10) (asked : Fin 5), s.m.on IsStatus.active = true → ∃ t, exec (.governorInterval estimate asked) s = .next t ∧
      t.m.tb.toNat = (s.m.tb.toNat / 9600 + 1) * 9600 ∧ t.pending = s.pending ∧ t.links = s.links ∧ t.net = s.net ∧
      let q := t.m.gov.measure
      let above := s.m.get IsTenCfg.limit < t.m.get IsTenStat.power
      q ≤ 4 ∧ t.m.get GlStatus.tensionCapped = (if q = 0 then 0 else 1) ∧ t.m.get IsStatus.capped = (if q = 0 then 0 else 1) ∧
      (q = 4 → t.m.get IsStatus.expressHit = 1) ∧ (q = 0 → t.m.get IsTenStat.rowDuty = 255 ∧ ∀ i, (t.m.isl i).ceiling = 180) ∧
      (∀ i, s.m.scheduled i = true → 40 ≤ (t.m.isl i).ceiling.toNat) ∧
      (s.m.gov.measure + 1 < q → s.m.hotBy 0 = true ∨ s.m.gov.floor = true) ∧
      (above ∨ s.m.hotBy (s.m.get IsTenCfg.thermMargin) = true → Nat.min 4 (s.m.gov.measure + 1) ≤ q) ∧
      (s.m.gov.floor = true → above → q = 4 ∧ ∀ i, (t.m.isl i).ceiling = 40)) ∧
    (∀ (estimate : BitVec 10) (asked : Fin 5), s.m.on IsStatus.active = false → ∃ t, exec (.governorInterval estimate asked) s = .next t ∧
      t.m.tb.toNat = (s.m.tb.toNat / 9600 + 1) * 9600 ∧ State.Frame timeParts s t) ∧
    (s.m.floorDue = true → s.m.frc.pend.length < 16 → ∃ t, exec .tensionFloor s = .next t ∧ (∀ i, (t.m.isl i).ceiling = 40) ∧ t.m.get IsStatus.floorHit = 1 ∧
      t.m.gov = { s.m.gov with floor := true } ∧ Recorded s.m t.m 0x0008 (srcIsl 240) [] ∧
      State.Frame (fun q => q = .gov ∨ q = .reg IsStatus.reg ∨ ∃ i, q = .island i) s t) ∧
    (s.m.floorDue = false → exec .tensionFloor s = .next s)

/-! ## Scratchpads -/

/-- Where byte i of a located range lies: its key in the tile's memory (R144, R146). -/
def Sys2Proof.spKey (s : State) (l : SpLoc) (i : Nat) : Nat :=
  let p := (s.m.tile l.tile).sp.place l.first l.banks ((l.off + i) / 64)
  64 * lineNo p.1 p.2 + (l.off + i) % 64

/-- The tag of the line that holds a byte. -/
def Sys2Proof.spTag (s : State) (t : Fin 4) (key : Nat) : BitVec 5 := Tab.get noTag (s.m.tile t).sp.tags (key / 64)

/-- The registers that keep a scratchpad's books (Table SP-8). -/
def Sys2Proof.spRegs (t : Fin 4) : List Nat :=
  [SpStatus.reg t, SpSkewLast.reg t, SpSkewCount.reg t, SpCeCount.reg t, SpChkCount.reg t, SpUeCount.reg t, SpUeLast.reg t]

/-- What a line access of a stitch of tile t to tile l changes besides memory: the reply, and the books of the accessed tile. -/
def Sys2Proof.spParts (t l : Fin 4) : Part → Prop := fun p => p = .sp t ∨ p = .sp l ∨ p = .struck ∨ ∃ a ∈ spRegs l ++ spRegs t, p = .reg a

/-- No skein is in a step: a read that finds an uncorrectable word restarts none (R304). -/
def Sys2Proof.NoSkeinSteps (s : State) : Prop := ∀ k < 96, s.m.skState k = skResident → s.m.skFlag k 5 = false

/-- The scratchpads read as before: layout, bytes, errors and tags. -/
def Sys2Proof.SpSame (s t : State) : Prop :=
  ∀ x, (t.m.tile x).sp.mem = (s.m.tile x).sp.mem ∧ (t.m.tile x).sp.tags = (s.m.tile x).sp.tags ∧ (t.m.tile x).sp.unified = (s.m.tile x).sp.unified ∧
    (t.m.tile x).sp.aFirst = (s.m.tile x).sp.aFirst ∧ (t.m.tile x).sp.pFirst = (s.m.tile x).sp.pFirst

/-- Bytes stored at a located range: the enabled ones are there, every line touched in a tagged bank has the tag, and every other byte and tag is as before. -/
def Sys2Proof.SpStored (s t : State) (l : SpLoc) (bytes : List (Option Byte)) (tag : Nat) : Prop :=
  (∀ i < bytes.length, ∀ b, bytes.getD i none = some b → (t.m.tile l.tile).sp.mem.byte (spKey s l i) = b) ∧
  (∀ x a, (∀ i < bytes.length, x = l.tile → a = spKey s l i → bytes.getD i none = none) →
    (t.m.tile x).sp.mem.byte a = (s.m.tile x).sp.mem.byte a) ∧
  (∀ i < bytes.length, (s.m.tile l.tile).sp.tagged (spKey s l i / 64 / bankLines) = true → (spTag t l.tile (spKey s l i)).toNat = tag) ∧
  (∀ x n, (∀ i < bytes.length, x = l.tile → n ≠ spKey s l i / 64) → Tab.get noTag (t.m.tile x).sp.tags n = Tab.get noTag (s.m.tile x).sp.tags n)

/-- An address that is not performed: its status, the sticky bit and the fault record of R166, or VOID and nothing more for a tile out of service. -/
def Sys2Proof.SpRefused (s t : State) (tile : Fin 4) (addr : Word) (len : Nat) : Prop :=
  (addr.toNat / 2 ^ 30 = 3 → (t.m.tile tile).sp.replyStatus = .error ∧ t.m.get (SpStatus.reach tile) = 1 ∧
    Recorded s.m t.m 0x0304 (srcFn tile.val) []) ∧
  (addr.toNat / 2 ^ 30 ≠ 3 → s.m.up (tileFn (neighbour tile (addr.toNat / 2 ^ 30))) = false →
    (t.m.tile tile).sp.replyStatus = voidStatus (s.m.fn (tileFn (neighbour tile (addr.toNat / 2 ^ 30)))) ∧
    t.m.get (SpStatus.range tile) = s.m.get (SpStatus.range tile)) ∧
  (addr.toNat / 2 ^ 30 ≠ 3 → s.m.up (tileFn (neighbour tile (addr.toNat / 2 ^ 30))) = true → s.m.spPlace tile addr len = none →
    (t.m.tile tile).sp.replyStatus = .error ∧ t.m.get (SpStatus.range tile) = 1 ∧ Recorded s.m t.m 0x0305 (srcFn tile.val) [])

/-- R141, R142, R152, R155, R164, R166, SP_READ: a read of a range in service returns its bytes and OK when no word of it is uncorrectable and each line's tag
is the one its age expects, or needs none; an uncorrectable word makes the reply POISON. A read that is OK, or during no skein's step, changes no byte and no tag (R304
restarts a skein whose state was read POISON). Reach 3, a range outside the region and a tile out of service answer without an access. -/
def Sys2Proof.ScratchpadReads : Prop :=
  ∀ (tile : Fin 4) (addr : Word) (len : Fin 65) (age : BitVec 4) (s : State), s.m.frc.pend.length < 16 →
    (∀ l, addr.toNat / 2 ^ 30 ≠ 3 → s.m.up (tileFn l.tile) = true → s.m.spPlace tile addr len.val = some l →
      ∃ t, exec (.spRead tile addr len age) s = .next t ∧ (t.m.tile tile).sp.replyData.length = len.val ∧
        (∀ i < len.val, (t.m.tile tile).sp.replyData[i]? = some ((s.m.tile l.tile).sp.mem.byte (spKey s l i))) ∧
        ((∀ i < len.val, (s.m.tile l.tile).sp.mem.bad (spKey s l i / 8) = false ∧
            (age = 15 ∨ s.m.on GlStatus.patternRunning = false ∨ (s.m.tile l.tile).sp.tagged (spKey s l i / 64 / bankLines) = false ∨
              (spTag s l.tile (spKey s l i)).toNat ∈ [0, (s.m.rowCount + 15 - age.toNat) % 15 + 1])) →
          (t.m.tile tile).sp.replyStatus = .ok) ∧
        ((∃ i < len.val, (s.m.tile l.tile).sp.mem.bad (spKey s l i / 8) = true) → (t.m.tile tile).sp.replyStatus = .poison) ∧
        (((t.m.tile tile).sp.replyStatus = .ok ∨ NoSkeinSteps s) → SpSame s t ∧ State.Frame (spParts tile l.tile) s t)) ∧
    (∀ st, s.m.spLoc tile addr len.val = .error st →
      ∃ t, exec (.spRead tile addr len age) s = .next t ∧ SpRefused s t tile addr len.val ∧ SpSame s t ∧ State.Frame (spParts tile tile) s t)

/-- R141, R151, R155, R156, R164, R166, SP_WRITE: a write of a range in service stores its enabled bytes there, tags every line it touches in a tagged bank with the
current row's tag, 0 while the pattern is stopped, and changes no other byte and no other tag; its status is POISON when a word that it writes in part is
uncorrectable, and OK when none is. One into W that is not marked as a weight write gets ERROR and stores nothing. What is not performed is refused as a read is. -/
def Sys2Proof.ScratchpadWrites : Prop :=
  ∀ (tile : Fin 4) (addr : Word) (weight : Bool) (bytes : List (Option Byte)) (s : State), bytes.length ≤ 64 → s.m.frc.pend.length < 16 →
    (∀ l, addr.toNat / 2 ^ 30 ≠ 3 → s.m.up (tileFn l.tile) = true → s.m.spPlace tile addr bytes.length = some l →
      let inPart := fun i => i < bytes.length ∧ (l.off + i) / 8 ∈ partWords l.off bytes
      ((l.inW s.m = false ∨ weight = true) →
        ∃ t, exec (.spWrite tile addr bytes weight) s = .next t ∧
          SpStored s t l bytes (if s.m.on GlStatus.patternRunning then s.m.rowCount % 15 + 1 else 0) ∧
          ((∀ i, inPart i → (s.m.tile l.tile).sp.mem.bad (spKey s l i / 8) = false) → (t.m.tile tile).sp.replyStatus = .ok) ∧
          ((∃ i, inPart i ∧ (s.m.tile l.tile).sp.mem.bad (spKey s l i / 8) = true) → (t.m.tile tile).sp.replyStatus = .poison) ∧
          State.Frame (spParts tile l.tile) s t) ∧
      (l.inW s.m = true → weight = false →
        ∃ t, exec (.spWrite tile addr bytes weight) s = .next t ∧ (t.m.tile tile).sp.replyStatus = .error ∧ SpSame s t ∧
          State.Frame (fun p => p = .sp tile) s t)) ∧
    (∀ st, s.m.spLoc tile addr bytes.length = .error st →
      ∃ t, exec (.spWrite tile addr bytes weight) s = .next t ∧ SpRefused s t tile addr bytes.length ∧ SpSame s t ∧ State.Frame (spParts tile tile) s t)

/-- Table SP-3 and R148: the requester that a bank cycle grants among those that ask: one of smallest priority number among the aged ones, and among all when none is aged. -/
def Sys2Proof.grantsTo (s : State) (tile : Fin 4) (bank : Fin 32) (rs : List Requester) (g : Requester) : Prop :=
  let aged := fun r => 4096 ≤ Tab.get noLoss (s.m.tile tile).sp.lost (lostKey bank.val r)
  g ∈ rs ∧ ((∃ r ∈ rs, aged r) → aged g) ∧ ∀ r ∈ rs, (aged g → aged r) → reqPrio g ≤ reqPrio r

/-- R148, R163, R159: BANK_GRANT grants one requester, which forgets its losses, counts an age override in SP_AGE_COUNT and adds one loss to every other; CORRECTED_WRITEBACK
repairs the bank's oldest corrected word; SCRUB_READ reads the bank's next line while scrub_en is 1. Stored data read as before. -/
def Obligations.ScratchpadUpkeep : Prop :=
  ∀ (tile : Fin 4) (bank : Fin 32) (s : State),
    (∀ (rs : List Requester) (g : Requester), rs.Nodup → grantsTo s tile bank rs g →
      ∃ t, exec (.bankGrant tile bank rs) s = .next t ∧ Tab.get noLoss (t.m.tile tile).sp.lost (lostKey bank.val g) = 0 ∧
        (∀ r ∈ rs, r ≠ g → Tab.get noLoss (t.m.tile tile).sp.lost (lostKey bank.val r) =
          Nat.min (Tab.get noLoss (s.m.tile tile).sp.lost (lostKey bank.val r) + 1) 4096) ∧
        t.m.get (SpAgeCount.count tile) = (if 4096 ≤ Tab.get noLoss (s.m.tile tile).sp.lost (lostKey bank.val g)
          then Nat.min (s.m.get (SpAgeCount.count tile) + 1) (2 ^ 32 - 1) else s.m.get (SpAgeCount.count tile)) ∧
        SpSame s t ∧ State.Frame (fun p => p ∈ [Part.sp tile, .reg (SpAgeCount.reg tile), .reg (SpStatus.reg tile)]) s t) ∧
    (∀ line word, (s.m.tile tile).sp.writeback.find? (fun e => e.1 == bank.val) = some (bank.val, line, word) →
      ∃ t, exec (.correctedWriteback tile bank) s = .next t ∧
        (t.m.tile tile).sp = { (s.m.tile tile).sp with mem := (t.m.tile tile).sp.mem, writeback := (s.m.tile tile).sp.writeback.erase (bank.val, line, word) } ∧
        EccMem.Same (s.m.tile tile).sp.mem (t.m.tile tile).sp.mem ∧
        ((s.m.tile tile).sp.mem.bad (8 * lineNo bank.val line + word) = false → (t.m.tile tile).sp.mem.flip (8 * lineNo bank.val line + word) = 0) ∧
        State.Frame (fun p => p = .sp tile) s t) ∧
    (s.m.on (SpCtl.scrubEn tile) = true →
      ∃ t, exec (.scrubRead tile bank) s = .next t ∧
        Tab.get zeroPos (t.m.tile tile).sp.scrubPos bank.val = (Tab.get zeroPos (s.m.tile tile).sp.scrubPos bank.val + 1) % 20480 ∧
        SpSame s t ∧ State.Frame (spParts tile tile) s t) ∧
    (s.m.on (SpCtl.scrubEn tile) = false → exec (.scrubRead tile bank) s = .next s)

/-- R11, R151, R156, R162, R168, R170, SP_WINDOW_ACCESS: a host access that keeps R11 reaches the page and region of SP_WIN_PAGE, without a tag check and with tag 0; a write to W while
RUNNING or IDLE is discarded and sets w_protect; one that breaks R11 or lies beyond the region reads zeros and is discarded. R274, R400, HUB_SRAM_HOST_WRITE: a read returns
the bytes of hub SRAM; a write's enabled bytes reach it, but for those of the skein table while it is protected, which set table_wp; one that breaks R11 is discarded. -/
def Obligations.HostWindowAccesses : Prop :=
  ∀ (p : Path) (s : State), p.isHost = true → s.m.pathUp p = true →
    (∀ (tile : Fin 4) (off : BitVec 19), s.m.reaches (0x180000 + 0x100000 * tile.val) = true →
      (∀ (n : Nat) (l : SpLoc), windowOk p off.toNat n true = true → s.m.windowLoc tile off.toNat n = some l →
        ∃ t, exec (.spWindowAccess p tile off (.read n)) s = .next t ∧
          (∀ i < n, (pathBytes t.m p)[i]? = some ((s.m.tile tile).sp.mem.byte (spKey s l i))) ∧
          SpSame s t ∧ State.Frame (fun q => spParts tile tile q ∨ q = .host) s t) ∧
      (∀ n, windowOk p off.toNat n true = false ∨ s.m.windowLoc tile off.toNat n = none →
        ∃ t, exec (.spWindowAccess p tile off (.read n)) s = .next t ∧ (∀ b ∈ pathBytes t.m p, b = 0) ∧ State.Frame (fun q => q = .host) s t)) ∧
    (∀ (tile : Fin 4) (off : BitVec 19) (bytes : List (Option Byte)),
      s.m.writeReaches (0x180000 + 0x100000 * tile.val + off.toNat) bytes.length = true →
      (∀ l : SpLoc, windowOk p off.toNat bytes.length (bytes.all Option.isSome) = true → s.m.windowLoc tile off.toNat bytes.length = some l →
        (s.m.wProtected l = false → ∃ t, exec (.spWindowAccess p tile off (.write bytes)) s = .next t ∧ SpStored s t l bytes 0 ∧
          State.Frame (spParts tile tile) s t) ∧
        (s.m.wProtected l = true → ∃ t, exec (.spWindowAccess p tile off (.write bytes)) s = .next t ∧ t.m.get (SpStatus.wProtect tile) = 1 ∧
          State.Frame (fun q => q = .reg (SpStatus.reg tile)) s t)) ∧
      ((windowOk p off.toNat bytes.length (bytes.all Option.isSome) = false ∨ s.m.windowLoc tile off.toNat bytes.length = none) →
        exec (.spWindowAccess p tile off (.write bytes)) s = .next s)) ∧
    (∀ off : BitVec 21, s.m.reaches 0x900000 = true →
      let books := fun q => q ∈ [Part.reg FrHsrCeCount.reg, .reg FrHsrChkCount.reg, .reg FrHsrUeCount.reg]
      (∀ n, windowOk p off.toNat n true = true → off.toNat + n ≤ 0x200000 → s.m.frc.pend.length < 16 →
        ∃ t, exec (.hubSramHostWrite p off (.read n)) s = .next t ∧ (∀ i < n, (pathBytes t.m p)[i]? = some (s.m.hub.byte (off.toNat + i))) ∧
          State.Frame (fun q => books q ∨ q = .host) s t) ∧
      (∀ n, windowOk p off.toNat n true = false ∨ 0x200000 < off.toNat + n →
        ∃ t, exec (.hubSramHostWrite p off (.read n)) s = .next t ∧ (∀ b ∈ pathBytes t.m p, b = 0) ∧ State.Frame (fun q => q = .host) s t) ∧
      (∀ bytes : List (Option Byte), windowOk p off.toNat bytes.length (bytes.all Option.isSome) = true → off.toNat + bytes.length ≤ 0x200000 →
        let kept := fun i => s.m.tableProtected = true ∧ off.toNat + i < 0x1990
        ∃ t, exec (.hubSramHostWrite p off (.write bytes)) s = .next t ∧
          (∀ i < bytes.length, ∀ b, bytes.getD i none = some b → ¬ kept i → t.m.hub.byte (off.toNat + i) = b) ∧
          ((∃ i < bytes.length, (bytes.getD i none).isSome = true ∧ kept i) → t.m.get StashStatus.tableWp = 1) ∧
          State.Frame (fun q => books q ∨ q = .reg StashStatus.reg ∨
            ∃ i < bytes.length, (bytes.getD i none).isSome = true ∧ ¬ kept i ∧ q = .hub (off.toNat + i)) s t) ∧
      (∀ bytes : List (Option Byte), (windowOk p off.toNat bytes.length (bytes.all Option.isSome) = false ∨ 0x200000 < off.toNat + bytes.length) →
        exec (.hubSramHostWrite p off (.write bytes)) s = .next s))

/-! ## Stitches at a unit -/

/-- A unit takes a stitch at once: its function is in service, nothing is in progress at it and nothing waits (R243, R244). -/
abbrev Sys2Proof.UnitReady (s : State) (u : UnitId) : Prop :=
  s.m.up (unitFn u) = true ∧ (∀ r ∈ (s.m.unitQ u).current, r.done = true) ∧ (s.m.unitQ u).head = none

/-- A unit's queue with one more stitch in progress, which takes the next number in start order. -/
def Sys2Proof.begun (s : State) (u : UnitId) (st : Stitch) (done : Bool) : UnitQ :=
  { s.m.unitQ u with current := (s.m.unitQ u).current ++ [{ stitch := st, seq := s.m.issue, start := s.m.now, done := done, overran := false }] }

/-- A unit's queue after the last write of the stitch with a number (R246). -/
def Sys2Proof.finished (q : UnitQ) (seq : Nat) : UnitQ := { q with current := q.current.map fun r => if r.seq = seq then { r with done := true } else r }

/-- R267: a stitch fault in the SFAULT queue of the posting core, with event 1 to it; a full queue of eight counts the record as lost. -/
def Sys2Proof.StitchFaulted (s t : State) (h : StitchHdr) (kind code : Nat) : Prop :=
  let k := s.m.core h.poster
  let k' := t.m.core h.poster
  let entry : Word := BitVec.ofNat 32 (2 ^ 31 + kind * 2 ^ 27 + (if h.express then 2 ^ 26 else 0) + code * 2 ^ 16 + h.tag.toNat)
  (k.sfault.length < 8 → k'.sfault = k.sfault ++ [entry]) ∧
  (8 ≤ k.sfault.length → k'.sfault = k.sfault ∧ k'.sfaultLost.toNat = Nat.min (k.sfaultLost.toNat + 1) 255) ∧
  Core.Signalled { k with sfault := k'.sfault, sfaultLost := k'.sfaultLost } k'

/-! ## Matrix engine -/

/-- An array of a tile's matrix engine. -/
def Sys2Proof.arrayOf (s : State) (tile a : Fin 4) : MxArray := vget (s.m.tile tile).mx.arrays a

/-- What an MX fault writes (R196); a stitch that arrives breaks off the test of its array (R193). -/
def Sys2Proof.mxFaultParts (tile : Fin 4) (h : StitchHdr) : Part → Prop :=
  fun q => q = .core h.poster ∨ q = .swatch ∨ q = .reg (MxFaultLast.reg tile) ∨ q = .reg (MxStatus.reg tile)

/-- The reply that a stitch of a tile gets to a read now. -/
def Sys2Proof.replyTo (s : State) (tile : Fin 4) (addr : Word) (n age d : Nat) : SpReply := (s.m.spRead tile addr n age false d).1

/-- Byte i of a reply. -/
def Sys2Proof.replyByte (r : SpReply) (i : Nat) : Byte := (r.data.getD i (0, false)).1

/-- R186, R187, R196, Table MX-6: an accepted LOAD puts the shadow of each array it names into LOADING with the next epoch; an occupied shadow faults it with MX_SHADOW_BUSY as it arrives, also while the
loader is busy, and changes no shadow. At LOAD_COMPLETE every cell holds its byte, row by row, or column by column when transposed, the shadow is READY and the stitch has had its last write granted. -/
def Obligations.WeightLoads : Prop :=
  ∀ (tile : Fin 4) (s : State),
    (∀ (h : StitchHdr) (p : LoadP), s.m.up (tileFn tile) = true → p.arrays ≠ 0 → (p.transposed = false ∨ p.int4 = false) →
      (∀ i < (loadParts p).1, s.m.spInRange tile p.src (loadParts p).2 (i * p.stride.toNat * 64) = true) →
      (UnitReady s (.loader tile) → (∀ a : Fin 4, p.arrays.getLsbD a.val = true → (arrayOf s tile a).shadowState = .empty) →
        ∃ t, exec (.load tile h p) s = .next t ∧
          (∀ a : Fin 4, arrayOf t tile a = if p.arrays.getLsbD a.val then
            { arrayOf s tile a with
              shadowState := .loading, loadRows := 0
              shadow := { cells := [], int4 := p.int4, epoch := (arrayOf s tile a).active.epoch + 1, poisoned := false
                          srMode := if p.useCtl then BitVec.ofNat 8 (s.m.get (MxCtl.accMode tile)) else p.accMode } }
            else arrayOf s tile a) ∧
          (∃ l, (t.m.tile tile).mx.loading = some l ∧ l.p = p ∧ l.hdr = h ∧ l.seq = s.m.issue) ∧
          t.m.unitQ (.loader tile) = begun s (.loader tile) ⟨h, .load p⟩ false ∧
          State.Frame (fun q => q ∈ [Part.mx tile, .unitQ (.loader tile), .issue, .swatch]) s t) ∧
      ((∃ a : Fin 4, p.arrays.getLsbD a.val = true ∧ (arrayOf s tile a).shadowState ≠ .empty) →
        ∃ t, exec (.load tile h p) s = .next t ∧ StitchFaulted s t h 1 1 ∧ t.m.get (MxFaultLast.code tile) = 1 ∧ t.m.get (MxFaultLast.kind tile) = 0 ∧
          t.m.get (MxStatus.busyShadow tile) = 1 ∧ State.Frame (mxFaultParts tile h) s t)) ∧
    (∀ l : LoadRun, (s.m.tile tile).mx.loading = some l →
      let part := fun i => replyTo s tile l.p.src (loadParts l.p).2 l.p.age.toNat (i * l.p.stride.toNat * 64)
      (∀ i < (loadParts l.p).1, (part i).status = .ok) →
      ∃ t, exec (.loadComplete tile) s = .next t ∧
        (∀ a : Fin 4, l.p.arrays.getLsbD a.val = true →
          (arrayOf t tile a).shadowState = .ready ∧ (arrayOf t tile a).loadRows = 128 ∧ (arrayOf t tile a).shadow.poisoned = false ∧
          (arrayOf t tile a).shadow.epoch = (arrayOf s tile a).shadow.epoch ∧ (arrayOf t tile a).active = (arrayOf s tile a).active ∧
          ∀ r < 128, ∀ c < 512, Tab.get zeroByte (arrayOf t tile a).shadow.cells (512 * r + c) =
            if l.p.transposed then replyByte (part c) r else replyByte (part r) c) ∧
        (∀ a : Fin 4, l.p.arrays.getLsbD a.val = false → arrayOf t tile a = arrayOf s tile a) ∧
        t.m.unitQ (.loader tile) = finished (s.m.unitQ (.loader tile)) l.seq ∧ SpSame s t ∧
        State.Frame (fun q => q = .mx tile ∨ q = .unitQ (.loader tile) ∨ ∃ x, spParts tile x q) s t)

/-- The product sum of a column (Table MX-3): 128 rows of INT8 weights, or 256 of INT4. -/
def Sys2Proof.dotProduct (w : WeightSet) (el : List Int) (c : Nat) : Int := ((List.range 128).map fun r => cellProduct w el r c).sum

/-- The elements of a vector as INT8 or UINT8. -/
def Sys2Proof.elements (r : SpReply) (unsigned : Bool) (n : Nat) : List Int :=
  (List.range n).map fun i => if unsigned then ((replyByte r i).toNat : Int) else (replyByte r i).toInt

/-- R173 to R176, R179, R189, R190, R196: an accepted PASS joins the passes of its tile, one on an array without weights faults with MX_NO_WEIGHTS. A vector of an M-mode pass in INT8 or
UINT8 commits, per array, the product sum of each column times 2 to the accumulator shift, in carry-lane mode; the first vector of a swapping pass takes the shadow set. A promotion writes
each result to its accumulator word, or adds it there with saturation to 40 bits. -/
def Obligations.PassesAndAccumulators : Prop :=
  ∀ (tile : Fin 4) (s : State),
    (∀ (h : StitchHdr) (p : PassP), s.m.up (tileFn tile) = true → (s.m.unitQ (.injector tile)).head = none →
      (∀ r ∈ (s.m.tile tile).mx.passes, r.p.arrays &&& p.arrays = 0) →
      (passCheck s.m tile p = none → ∃ t, exec (.pass tile h p) s = .next t ∧
        (t.m.tile tile).mx = { (s.m.tile tile).mx with
          passes := (s.m.tile tile).mx.passes ++ [{ hdr := h, p := p, seq := s.m.issue, next := 0, skewed := false, history := [] }] } ∧
        t.m.unitQ (.injector tile) = begun s (.injector tile) ⟨h, .pass p⟩ false ∧
        State.Frame (fun q => q ∈ [Part.mx tile, .unitQ (.injector tile), .issue, .swatch]) s t) ∧
      (p.arrays ≠ 0 → (∃ a : Fin 4, p.arrays.getLsbD a.val = true ∧ (arrayOf s tile a).setFor p.swap = none) →
        ∃ t, exec (.pass tile h p) s = .next t ∧ StitchFaulted s t h 2 2 ∧ t.m.get (MxStatus.noWeights tile) = 1 ∧
          State.Frame (mxFaultParts tile h) s t)) ∧
    (∀ (r : PassRun) (rest : List PassRun) (w : Fin 4 → WeightSet), (s.m.tile tile).mx.passes = r :: rest → (s.m.tile tile).mx.drains = [] →
      r.p.cMode = false → r.p.afmt.toNat < 2 →
      (∀ a ∈ arraysOf r.p.arrays, (arrayOf s tile a).shadowState ≠ .loading ∧ (arrayOf s tile a).setFor (r.p.swap && r.next == 0) = some (w a) ∧
        (w a).srMode = 0 ∧ (w a).poisoned = false) →
      let part := fun (q : Nat) (a : Fin 4) =>
        replyTo s tile r.p.src (if (w a).int4 then 256 else 128) r.p.age.toNat ((q * r.p.arrayStride.toNat + r.next * r.p.vecStride.toNat) * 64)
      (∀ q a, (arraysOf r.p.arrays)[q]? = some a → (part q a).status = .ok) →
      ∃ t cs, exec (.vectorCommit tile) s = .next t ∧ (t.m.tile tile).mx.committed = (s.m.tile tile).mx.committed ++ cs ∧
        cs.length = (arraysOf r.p.arrays).length ∧
        (∀ q a, (arraysOf r.p.arrays)[q]? = some a → (arrayOf t tile a).active = w a ∧
          ∃ c, cs[q]? = some c ∧ c.array = a ∧ c.accAdd = r.p.accAdd ∧ c.seq = r.seq ∧
            c.results = (List.range 512).map fun col =>
              (accKey r.p.half (r.p.rowBase.toNat + r.next) col,
               dotProduct (w a) (elements (part q a) (r.p.afmt == 1) (if (w a).int4 then 256 else 128)) col * 2 ^ r.p.accShift.toNat, 0, false)) ∧
        (∀ x ∈ (t.m.tile tile).mx.passes, x.seq = r.seq → x.next = r.next + 1) ∧ SpSame s t ∧
        State.Frame (fun q => q = .mx tile ∨ q = .reg (MxStatus.reg tile) ∨ ∃ x, spParts tile x q) s t) ∧
    (∀ (c : Committed) (rest : List Committed), (s.m.tile tile).mx.committed = c :: rest → (s.m.tile tile).mx.drains = [] →
      (c.results.map Prod.fst).Nodup →
      (∀ e ∈ c.results, Tab.get noFlips47 (arrayOf s tile c.array).accFlips e.1 = 0 ∧ (c.accAdd = false → -(2 ^ 39) ≤ e.2.1 ∧ e.2.1 < 2 ^ 39)) →
      ∃ t, exec (.resultPromotion tile) s = .next t ∧ (t.m.tile tile).mx.committed = rest ∧
        (∀ e ∈ c.results, ((arrayOf t tile c.array).word e.1).toInt =
          if c.accAdd then (clampInt (-(2 ^ 39)) (2 ^ 39 - 1) (((arrayOf s tile c.array).word e.1).toInt + e.2.1)).1 else e.2.1) ∧
        (∀ k, (∀ e ∈ c.results, e.1 ≠ k) → (arrayOf t tile c.array).word k = (arrayOf s tile c.array).word k) ∧
        (∀ a, a ≠ c.array → arrayOf t tile a = arrayOf s tile a) ∧
        t.m.unitQ (.injector tile) = (if c.last then finished (s.m.unitQ (.injector tile)) c.seq else s.m.unitQ (.injector tile)) ∧
        State.Frame (fun q => q ∈ [Part.mx tile, .unitQ (.injector tile), .struck, .reg (MxSatCount.reg tile), .reg (MxStatus.reg tile)]) s t)

/-- The integer output formats of Table MX-5: code, bytes, range. -/
def Sys2Proof.intFormats : List (Nat × Nat × Int × Int) :=
  [(0, 1, -128, 127), (1, 1, 0, 255), (2, 2, -32768, 32767), (3, 4, -2147483648, 2147483647)]

/-- R181: the requantized value of an accumulator word by an 8-byte table entry, rounded half up and clamped to the format. -/
def Sys2Proof.requantized (lo hi : Int) (entry : Nat) (acc : Int) : Int :=
  let p := (acc + signed 32 (bitsOf entry 31 0)) * signed 16 (bitsOf entry 47 32)
  let shift := bitsOf entry 53 48
  (clampInt lo hi ((if shift = 0 then p else (p + 2 ^ (shift - 1)) / 2 ^ shift) + signed 8 (bitsOf entry 63 56))).1

/-- R181, R190, R191, R194, Table MX-5: a DRAIN whose first row must wait for an earlier pass only starts, and joins or opens its top-k run. One that waits for nothing and is in no top-k run reads its requantize table and stores a row's
requantized words at its destination in the integer formats, clears the words it read where asked, and completes; with no_store it stores nothing. -/
def Obligations.DrainsRequantize : Prop :=
  ∀ (tile : Fin 4) (h : StitchHdr) (p : DrainP) (s : State), UnitReady s (.drainer tile p.array) → drainCheck s.m tile p = none →
    (s.m.drainHeld tile s.m.issue p 0 = true → ∃ t, exec (.drain tile h p) s = .next t ∧
      t.m.unitQ (.drainer tile p.array) = begun s (.drainer tile p.array) ⟨h, .drain p⟩ false ∧
      { hdr := h, p := p, seq := s.m.issue, next := 0, skewed := false } ∈ (t.m.tile tile).mx.drains ∧
      (t.m.tile tile).mx.topk = joinRun (s.m.tile tile).mx.topk p s.m.issue ∧ (t.m.tile tile).mx.arrays = (s.m.tile tile).mx.arrays ∧
      State.Frame (fun q => q ∈ [Part.mx tile, .unitQ (.drainer tile p.array), .issue, .swatch, .struck, .reg (MxStatus.reg tile)]) s t) ∧
    (let rq := replyTo s tile p.rq 4096 p.age.toNat 0
     let entry := fun col => leNat ((List.range 8).map fun i => replyByte rq (8 * col + i))
     let key := fun col => accKey p.half p.rowBase.toNat col
     let x := arrayOf s tile p.array
     s.m.drainHeld tile s.m.issue p 0 = false → p.topkStart = false → (s.m.tile tile).mx.topk = none → rq.status = .ok → p.nRows = 1 →
     (∀ col < 512, bitsOf (entry col) 53 48 ≤ 47 ∧ Tab.get noFlips47 x.accFlips (key col) = 0) →
     ∀ f ∈ intFormats, p.ofmt.toNat = f.1 →
     let drained := fun (t : State) =>
       t.m.unitQ (.drainer tile p.array) = begun s (.drainer tile p.array) ⟨h, .drain p⟩ true ∧
       (∀ k, (arrayOf t tile p.array).word k = if p.clear = true ∧ k ∈ (List.range 512).map key then 0 else x.word k) ∧
       (∀ a, a ≠ p.array → arrayOf t tile a = arrayOf s tile a) ∧
       State.Frame (fun q => q = .mx tile ∨ q = .unitQ (.drainer tile p.array) ∨ q = .issue ∨ q = .swatch ∨ ∃ y, spParts tile y q) s t
     (p.noStore = true → ∃ t, exec (.drain tile h p) s = .next t ∧ drained t ∧ SpSame s t) ∧
     (∀ l, p.noStore = false → s.m.spLoc tile p.dst (512 * f.2.1) = .ok l → l.inW s.m = false →
       ∃ t, exec (.drain tile h p) s = .next t ∧ drained t ∧
         SpStored s t l ((List.range 512).flatMap fun col => (leBytes f.2.1 (wrap (8 * f.2.1) (requantized f.2.2.1 f.2.2.2 (entry col) (x.word (key col)).toInt))).map some)
           s.m.rowTag))

/-! ## Vector engine -/

/-- The registers of a vector engine that a stitch or a stitch boundary may write (Table VE-11). -/
def Sys2Proof.veRegs (t : Fin 4) : List Nat :=
  [VeStatus.reg t, VeFaultLast.reg t, VeTblStat.reg t, VeUeLast.reg t, VeSatCount.reg t, VeInvalidCount.reg t, VeCeCount.reg t, VeChkCount.reg t, VeUeCount.reg t]

/-- What a VE stitch changes: its engine and unit, scratchpads, its books, and at a boundary the replies to debug accesses (R223). -/
def Sys2Proof.veParts (tile : Fin 4) : Part → Prop :=
  fun q => q = .ve tile ∨ q = .unitQ (.ve tile) ∨ q = .issue ∨ q = .swatch ∨ q = .host ∨ (∃ c, q = .core c) ∨ (∃ a ∈ veRegs tile, q = .reg a) ∨ ∃ x, spParts tile x q

/-- Lane i of a beat of 32-bit integers (Table VE-4). -/
def Sys2Proof.laneWord (r : SpReply) (i : Nat) : Word := BitVec.ofNat 32 (leNat ((List.range 4).map fun k => replyByte r (4 * i + k)))

/-- Bitwise stage ops of Table VE-3. -/
def Sys2Proof.bitOps : List (Nat × (Word → Word → Word)) := [(0x0F, fun a b => a &&& b), (0x10, fun a b => a ||| b), (0x11, fun a b => a ^^^ b)]

/-- R203, R205, R208, R219, R226: a VE stitch that passes its checks runs from beat 0, one that does not faults with its code before it reads anything. Each BEAT_ISSUE goes on to the next
beat, or ends the stitch. A one-stage chain of AND, OR or XOR over two INT32 streams stores its lanes at the beat's place of output 0, and the last beat completes the stitch. -/
def Sys2Proof.VectorStitches : Prop :=
  ∀ (tile : Fin 4) (s : State),
    (∀ (h : StitchHdr) (p : VeP), UnitReady s (.ve tile) →
      (veCheck (s.m.veBoundary tile) tile p = none → ∃ t, exec (.ve tile h p) s = .next t ∧
        (∃ run, (t.m.tile tile).ve.run = some run ∧ run.p = p ∧ run.hdr = h ∧ run.beat = 0 ∧ run.seq = s.m.issue) ∧
        t.m.unitQ (.ve tile) = begun s (.ve tile) ⟨h, .ve p⟩ false ∧ SpSame s t ∧ State.Frame (veParts tile) s t) ∧
      (∀ code stage, (s.m.tile tile).ve.oc = [] → veCheck (s.m.veBoundary tile) tile p = some (code, stage) → code < 8 → stage < 8 →
        ∃ t, exec (.ve tile h p) s = .next t ∧ StitchFaulted s t h 4 code ∧ t.m.get (VeFaultLast.code tile) = code ∧
          t.m.get (VeFaultLast.stage tile) = stage ∧ (t.m.tile tile).ve.run = (s.m.tile tile).ve.run ∧ SpSame s t ∧ State.Frame (veParts tile) s t)) ∧
    (∀ run : VeRun, (s.m.tile tile).ve.run = some run → ∃ t, exec (.beatIssue tile) s = .next t ∧
      ((t.m.tile tile).ve.run = none ∨ ∃ run', (t.m.tile tile).ve.run = some run' ∧ run'.beat = run.beat + 1 ∧ run'.p = run.p ∧ run'.hdr = run.hdr) ∧
      (NoSkeinSteps s → State.Frame (fun q => veParts tile q ∨ ∃ i : Fin 264, q = .island i ∧ i.val ∈ stitchIslands (.ve tile) (.ve run.p)) s t)) ∧
    (∀ (run : VeRun) (l : SpLoc), ∀ f ∈ bitOps, ∀ st : Stage, (s.m.tile tile).ve.run = some run →
      chainStages (s.m.tile tile).sdm run.p.chain = [st] → st.op = f.1 → st.a = 0x21 → st.b = 0x22 → st.dst = 0x30 →
      run.p.inMask = 3 → run.p.outMask = 1 → run.p.s0.fmt = 3 → run.p.s1.fmt = 3 → run.p.o0.fmt = 3 → run.p.o0.isInt = true →
      let r0 := replyTo s tile run.p.s0.src 256 run.p.s0.age.toNat (run.beat * run.p.s0.stride.toNat * 32)
      let r1 := replyTo s tile run.p.s1.src 256 run.p.s1.age.toNat (run.beat * run.p.s1.stride.toNat * 32)
      r0.status = .ok → r1.status = .ok → s.m.spLoc tile run.p.o0.dst 256 (run.beat * run.p.o0.stride.toNat * 32) = .ok l → l.inW s.m = false →
      ∃ t, exec (.beatIssue tile) s = .next t ∧
        SpStored s t l ((List.range 64).flatMap fun i => (leBytes 4 (f.2 (laneWord r0 i) (laneWord r1 i)).toNat).map some) s.m.rowTag ∧
        (run.beat < run.p.nBeatsM1.toNat → t.m.unitQ (.ve tile) = s.m.unitQ (.ve tile)) ∧
        (run.beat = run.p.nBeatsM1.toNat → (t.m.tile tile).ve.run = none ∧
          t.m.unitQ (.ve tile) = finished (s.m.unitQ (.ve tile)) run.seq) ∧
        State.Frame (veParts tile) s t)

/-- R214, R220, R223, R224, Table VE-12: at a TABLE_SWITCH with no stitch in progress a staged function table takes its slot and reads as loaded; during a stitch nothing is switched. A debug
access to the operand store is served at once between stitches, a poisoned word reading 0 with VE_STATUS.ue, and waits for the end of the stitch otherwise. -/
def Sys2Proof.TablesAndOperandStore : Prop :=
  ∀ (tile : Fin 4) (s : State),
    (∀ (n : Nat) (data : List Byte), (s.m.tile tile).ve.run = none → (s.m.tile tile).ve.oc = [] → (s.m.tile tile).ve.staged = [(n, data)] → n < 16 →
      ∃ t, exec (.tableSwitch tile) s = .next t ∧ (t.m.tile tile).ve.staged = [] ∧
        (∀ i (h : i < data.length), (t.m.tile tile).ve.tables.byte (tableBase n + i) = data[i]) ∧
        (∀ a, a < tableBase n ∨ tableBase n + data.length ≤ a → (t.m.tile tile).ve.tables.byte a = (s.m.tile tile).ve.tables.byte a) ∧
        t.m.get (VeTblStat.loaded tile) = s.m.get (VeTblStat.loaded tile) ||| 2 ^ n ∧ (t.m.tile tile).ve.store = (s.m.tile tile).ve.store ∧
        State.Frame (fun q => q = .ve tile ∨ q = .reg (VeTblStat.reg tile)) s t) ∧
    ((s.m.tile tile).ve.run ≠ none → exec (.tableSwitch tile) s = .next s) ∧
    (∀ p : Path, p.isHost = true → s.m.pathUp p = true → s.m.up (tileFn tile) = true → s.m.phase ≠ 5 →
      let a := s.m.get (VeOcAddr.addr tile)
      let poisoned := Tab.get goodWord (s.m.tile tile).ve.poison (a / 2) = true ∨ (s.m.tile tile).ve.store.bad (a / 2) = true
      ((s.m.tile tile).ve.run = none →
        (∀ v : Word, ∃ t, exec (.veOcAccess p tile (some v)) s = .next t ∧
          (∀ x, (t.m.tile tile).ve.store.byte x = if 4 * a ≤ x ∧ x < 4 * a + 4 then BitVec.ofNat 8 (v.toNat / 256 ^ (x - 4 * a)) else (s.m.tile tile).ve.store.byte x) ∧
          State.Frame (fun q => q = .ve tile ∨ ∃ a ∈ veRegs tile, q = .reg a) s t) ∧
        (∃ t, exec (.veOcAccess p tile none) s = .next t ∧ EccMem.Same (s.m.tile tile).ve.store (t.m.tile tile).ve.store ∧
          (∀ i < 4, (pathBytes t.m p)[i]? = some (if poisoned then 0 else (s.m.tile tile).ve.store.byte (4 * a + i))) ∧
          (poisoned → t.m.get (VeStatus.ue tile) = 1) ∧ State.Frame (veParts tile) s t)) ∧
      (∀ v : Option Word, (s.m.tile tile).ve.run ≠ none → ∃ t, exec (.veOcAccess p tile v) s = .next t ∧
        (t.m.tile tile).ve = { (s.m.tile tile).ve with oc := (s.m.tile tile).ve.oc ++ [(a, v, p)] } ∧ State.Frame (fun q => q = .ve tile) s t))

/-! ## Any stitch at its unit -/

/-- The command that posts a stitch to its unit. -/
def Sys2Proof.commandOf (tile : Fin 4) (x : Stitch) : Option Instr :=
  match x.body with
  | .load p => some (.load tile x.hdr p)
  | .pass p => some (.pass tile x.hdr p)
  | .drain p => some (.drain tile x.hdr p)
  | .ve p => some (.ve tile x.hdr p)
  | .xfer p => some (.xfer tile x.hdr p)
  | .swapOut k => some (.swapOut x.hdr k)
  | .swapIn k slot => some (.swapIn x.hdr k slot)
  | .fetch p => some (.fetch x.hdr p)
  | .store p => some (.store x.hdr p)
  | .run p => some (.run x.hdr p)
  | .stop => some (.stop x.hdr)
  | .copy p => some (.copy x.hdr p)
  | .send p => some (.send x.hdr p)
  | .flush rings usb => some (.flush x.hdr rings usb)
  | .msgOther _ => none

/-- R115, R243, R244, R246, Table TC-9: a stitch that its unit cannot start joins the queue of its lane, and reaches no unit out of service. STITCH_START takes the oldest express stitch, else the
oldest of the row lane: the last one waiting starts as its command does on a free unit, once the islands in which it runs have taken the frequencies that waited for a stitch boundary.
STITCH_COMPLETE takes a finished stitch from its unit, a stitch boundary in its islands, and signals its done event. -/
def Obligations.UnitQueues : Prop :=
  ∀ s : State,
    (∀ (tile : Fin 4) (x : Stitch) (i : Instr), commandOf tile x = some i →
      let u := bodyUnit tile x.body
      (s.m.up (unitFn u) = false → exec i s = .next s) ∧
      (s.m.up (unitFn u) = true → ((s.m.unitQ u).head ≠ none ∨ s.m.unitFree u x.body = false) →
        (∀ p, x.body = .load p → loadCheck s.m tile p ≠ some mxShadowBusy) →
        ∃ t, exec i s = .next t ∧ State.Frame (fun q => q = .unitQ u ∨ q = .swatch) s t ∧
          t.m.unitQ u = (if x.hdr.express then { s.m.unitQ u with express := (s.m.unitQ u).express ++ [x] }
            else { s.m.unitQ u with row := (s.m.unitQ u).row ++ [x] })) ∧
      (s.m.up (unitFn u) = true → (s.m.unitQ u).head = some x → s.m.unitFree u x.body = true → (s.m.unitQ u).dropHead.head = none →
        exec (.stitchStart u) s = exec i { s with m := (s.m.takeCodes (stitchIslands u x.body)).setQ u (s.m.unitQ u).dropHead })) ∧
    (∀ (u : UnitId) (x : Stitch) (rest : List Stitch), s.m.up (unitFn u) = true → s.m.unitFree u x.body = true →
      ((s.m.unitQ u).express = x :: rest ∨ ((s.m.unitQ u).express = [] ∧ (s.m.unitQ u).row = x :: rest)) →
        ∃ t, exec (.stitchStart u) s = .next t ∧ t.pending = s.pending ∧ t.links = s.links ∧ t.net = s.net ∧
          t.m = (((s.m.breakTests u x.body).takeCodes (stitchIslands u x.body)).setQ u
            (if (s.m.unitQ u).express = [] then { s.m.unitQ u with row := rest } else { s.m.unitQ u with express := rest })).startStitch u x) ∧
    (∀ (u : UnitId) (pre post : List Running) (r : Running), (s.m.unitQ u).current = pre ++ r :: post → (∀ x ∈ pre, x.done = false) → r.done = true →
      (∀ x ∈ pre ++ post, x.seq ≠ r.seq) →
      let boundary := fun (t : State) => ∀ i : Fin 264, t.m.isl i = if i.val ∈ stitchIslands u r.stitch.body
        then { s.m.isl i with code := (s.m.isl i).next.getD (s.m.isl i).code, next := none } else s.m.isl i
      (r.stitch.hdr.doneEn = false → ∃ t, exec (.stitchComplete u) s = .next t ∧ t.m.unitQ u = { s.m.unitQ u with current := pre ++ post } ∧
        boundary t ∧ State.Frame (fun q => q = .unitQ u ∨ ∃ i, q = .island i) s t) ∧
      (∀ d : Fin 10, r.stitch.hdr.doneEn = true → r.stitch.hdr.doneCore.toNat = d.val → s.m.up (coreFn d) = true →
        (s.m.core d).st ∉ [CoreSt.reset, .wait] →
        let e : Fin 64 := ⟨r.stitch.hdr.doneEvent.toNat, by omega⟩
        ((s.m.core d).counts[e]).toNat < 255 →
        ∃ t, exec (.stitchComplete u) s = .next t ∧ t.m.unitQ u = { s.m.unitQ u with current := pre ++ post } ∧
          t.m.core d = { s.m.core d with counts := (s.m.core d).counts.set e ((s.m.core d).counts[e] + 1) } ∧
          boundary t ∧ State.Frame (fun q => q = .unitQ u ∨ q = .core d ∨ ∃ i, q = .island i) s t))

/-- R247: a stitch that runs longer than its non-zero budget, in TB ticks from its start at the unit, is logged once as STITCH_OVERRUN with the posting core and the tag, and runs on. -/
def Obligations.StitchOverrunIsLogged : Prop :=
  ∀ (u : UnitId) (pre post : List Running) (r : Running) (s : State), (s.m.unitQ u).current = pre ++ r :: post →
    (∀ x ∈ pre, x.overruns s.m.now = false) → r.done = false → r.overran = false → r.stitch.hdr.budget ≠ 0 →
    r.start + r.stitch.hdr.budget.toNat < s.m.now → s.m.frc.pend.length < 16 →
      ∃ t, exec (.stitchOverrun u) s = .next t ∧
        Recorded s.m t.m 0x0504 (srcFn (unitFn u).val) [r.stitch.hdr.poster.val, r.stitch.hdr.tag.toNat] ∧
        t.m.unitQ u = { s.m.unitQ u with current := (s.m.unitQ u).current.map fun x => if x.seq = r.seq then { x with overran := true } else x } ∧
        State.Frame (fun q => q = .unitQ u) s t

/-- A line of an XFER's source: readable without error, and its bytes (Table TC-15). -/
def Sys2Proof.xferReadable (s : State) (tile : Fin 4) (p : XferP) : Prop :=
  if p.srcHub then s.m.hub.ues p.src.toNat 64 = [] else (replyTo s tile p.src 64 p.age.toNat 0).status = .ok
def Sys2Proof.xferByte (s : State) (tile : Fin 4) (p : XferP) (k : Nat) : Byte :=
  if p.srcHub then s.m.hub.byte (p.src.toNat + k) else replyByte (replyTo s tile p.src 64 p.age.toNat 0) k

/-- A line of an XFER can be reached: in hub SRAM, or at an SP address in service, outside W without weight_write for a destination. -/
def Sys2Proof.xferReachable (s : State) (tile : Fin 4) (p : XferP) (i : Nat) : Prop :=
  (p.srcHub = false → ∃ l, s.m.spLoc tile p.src 64 (i * p.srcStride.toNat * 64) = .ok l) ∧
  (p.dstHub = false → ∃ l, s.m.spLoc tile p.dst 64 (i * p.dstStride.toNat * 64) = .ok l ∧ (l.inW s.m = false ∨ p.weightWrite = true))

/-- What an XFER changes: its unit, and the line of its destination with the books of what it reads. -/
def Sys2Proof.xferParts (tile : Fin 4) (p : XferP) : Part → Prop := fun q =>
  q = .unitQ (.xfer tile) ∨ q = .issue ∨ (∃ x, spParts tile x q) ∨
    q ∈ [Part.reg FrHsrCeCount.reg, .reg FrHsrChkCount.reg, .reg FrHsrUeCount.reg] ∨
    (p.dstHub = true ∧ ∃ i ≤ p.nLinesM1.toNat, ∃ k < 64, q = .hub (p.dst.toNat + i * p.dstStride.toNat * 64 + k))

/-- R156, R250: an XFER whose lines can all be reached copies them and completes; a single line's bytes arrive at its destination and nowhere else. A bad range or a dst_stride of 0 faults with
XF_RANGE and a write into W without weight_write with XF_W_DENIED. -/
def Obligations.TransfersCopyLines : Prop :=
  ∀ (tile : Fin 4) (h : StitchHdr) (p : XferP) (s : State), UnitReady s (.xfer tile) →
    (xferBad p = false → (∀ i ≤ p.nLinesM1.toNat, xferReachable s tile p i) →
      ∃ t, exec (.xfer tile h p) s = .next t ∧ t.m.unitQ (.xfer tile) = begun s (.xfer tile) ⟨h, .xfer p⟩ true ∧
        (p.nLinesM1 = 0 → xferReadable s tile p →
          (p.dstHub = true → (∀ k < 64, t.m.hub.byte (p.dst.toNat + k) = xferByte s tile p k) ∧ SpSame s t) ∧
          (∀ l, p.dstHub = false → s.m.spLoc tile p.dst 64 = .ok l → SpStored s t l ((List.range 64).map fun k => some (xferByte s tile p k)) s.m.rowTag)) ∧
        (NoSkeinSteps s ∨ (p.nLinesM1 = 0 ∧ xferReadable s tile p) → State.Frame (xferParts tile p) s t)) ∧
    (xferBad p = true → ∃ t, exec (.xfer tile h p) s = .next t ∧ StitchFaulted s t h 5 1 ∧ State.Frame (fun q => q = .core h.poster) s t) ∧
    (∀ l, xferBad p = false → p.dstHub = false → s.m.spLoc tile p.dst 64 = .ok l → l.inW s.m = true → p.weightWrite = false →
      ∃ t, exec (.xfer tile h p) s = .next t ∧ StitchFaulted s t h 5 3 ∧
        State.Frame (fun q => q ∈ [Part.core h.poster, .unitQ (.xfer tile), .issue, .struck]) s t)

/-- A unit runs or holds a row-lane stitch (R252). -/
def Sys2Proof.rowLaneBusy (s : State) (u : UnitId) : Prop :=
  (s.m.unitQ u).row ≠ [] ∨ ∃ r ∈ (s.m.unitQ u).current, r.stitch.hdr.express = false ∧ r.done = false

/-- R252, R47, R88: ROW_BOUNDARY brings the TB to the row's end on its grid, counts the row, clears every arrival and signals ROW_START to every core in service. A core of the barrier that has not
arrived, or else a unit that holds a row-lane stitch, makes it ROW_OVERRUN and no update is applied. On the way to IDLE or RETENTION the pattern stops, and a waiting re-cast runs. With
the pattern stopped nothing happens. A row that no transition follows always ends so: the next row starts at its tick. -/
def Obligations.RowBoundaries : Prop :=
  ∀ s : State,
    (s.m.on GlStatus.patternRunning = false → exec .rowBoundary s = .next s) ∧
    (s.m.on GlStatus.patternRunning = true → s.m.pw.trans = .none →
      ∃ t, exec .rowBoundary s = .next t ∧ t.pending = s.pending ∧ t.m.rowCount = s.m.rowCount + 1 ∧ t.m.rowStart = s.m.rowStart + 480000 * s.m.cast.rowPeriod) ∧
    (s.m.on GlStatus.patternRunning = true → s.m.pw.trans = .none → s.m.tbOn = true → s.m.cast.marginsDue = none → s.m.get GaDumpCtl.period = 0 →
      let tick := s.m.rowStart + 480000 * s.m.cast.rowPeriod
      s.m.now ≤ tick → tick < 2 ^ 64 →
      let ended := fun (t : State) =>
        t.m.rowCount = s.m.rowCount + 1 ∧ t.m.rowStart = tick ∧ t.m.now = tick ∧ (∀ c, (t.m.core c).arrived = false) ∧
        (∀ c, GaugesQuiet s → s.m.up (coreFn c) = true → (s.m.core c).st ∉ [CoreSt.reset, .wait] → ((s.m.core c).counts[(0 : Fin 64)]).toNat < 255 →
          (t.m.core c).counts = (s.m.core c).counts.set 0 ((s.m.core c).counts[(0 : Fin 64)] + 1)) ∧
        (∀ c, (t.m.core c).missed = if (s.m.core c).arrived then 0 else if s.m.up (coreFn c) = true ∧ (s.m.core c).programmed = true
          then (s.m.core c).missed + 1 else (s.m.core c).missed) ∧
        State.Frame (fun q => timeParts q ∨ q = .rowCount ∨ q = .rowStart ∨ ∃ c, q = .core c) s t
      ((∀ c, s.m.up (coreFn c) = true → (s.m.core c).programmed = true → (s.m.core c).arrived = true) →
        (∀ u, ¬ rowLaneBusy s u) → s.m.cast.live = none → ∃ t, exec .rowBoundary s = .next t ∧ ended t) ∧
      (∀ c : Fin 10, s.m.frc.pend.length < 16 → GaugesQuiet s →
        (∀ d, d < c → s.m.up (coreFn d) = true → (s.m.core d).programmed = true → (s.m.core d).arrived = true) →
        s.m.up (coreFn c) = true → (s.m.core c).programmed = true → (s.m.core c).arrived = false →
        ∃ t, exec .rowBoundary s = .next t ∧ ended t ∧ Recorded s.m t.m 0x0505 (srcCore c) [c.val, 0xFF, 0xF])) ∧
    (s.m.on GlStatus.patternRunning = true → (s.m.pw.trans = .toIdle ∨ s.m.pw.trans = .toRetention) →
      ∃ t, exec .rowBoundary s = .next t ∧ t.m.on GlStatus.patternRunning = false ∧ t.m.rowCount = s.m.rowCount ∧ t.pending = s.pending) ∧
    (∀ reload, s.m.on GlStatus.patternRunning = true → s.m.pw.trans = .toRecast reload → s.m.frc.queue = [] → s.m.on GlPstateStat.pendValid = false →
      ∃ t, exec .rowBoundary s = .next t ∧ (t.m.phase = 2 ∨ t.m.phase = 15) ∧ t.pending = s.pending ∧ t.links = [] ∧ t.net = Net.reset)

/-! ## Skeins and the stash -/

/-- The stash unit can take a swap: in service, nothing waiting, a token free (R285). -/
abbrev Sys2Proof.StashReady (s : State) : Prop :=
  s.m.up fnStash = true ∧ (s.m.unitQ .stash).head = none ∧ s.m.stashPresent = true ∧ s.m.stash.swaps.length < 4

/-- A swap as it starts. -/
def Sys2Proof.newSwap (s : State) (h : StitchHdr) (out : Bool) (skein slot : Nat) : Swap :=
  { out := out, skein := skein, slot := slot, moved := Vector.replicate 2 0, lost := none, hdr := h, seq := s.m.issue }

/-- A swap is accepted: token, slot and skein state change together (R285, R286). -/
def Sys2Proof.SwapAccepted (s t : State) (st : Stitch) (out : Bool) (skein slot : Nat) : Prop :=
  t.m.stash = { s.m.stash with
    queue := begun s .stash st false, slots := vset s.m.stash.slots (ix 24 slot) .moving
    swaps := s.m.stash.swaps ++ [newSwap s st.hdr out skein slot] } ∧
  t.m.skState skein = (if out then 3 else 4) ∧ State.Frame (fun q => q ∈ [Part.stash, .unitQ .stash, .issue, .hub (64 * skein)]) s t

/-- R285, R286, R290, R303, R305, Table SK-3: SWAP_OUT of a resident skein that is not stepping and SWAP_IN of a stashed one into a free, usable slot that holds its state are accepted; a wrong state faults with SK_STATE, a
wrong slot with SK_SLOT, an absent stash with SK_ABSENT. SWAP_COMPLETE, once every block has moved, frees or fills the slot, returns the token, counts the swap and makes the skein STASHED or RESIDENT; before that it
does nothing, and a swap that lost a block is recorded. -/
def Obligations.SwapsMoveSkeins : Prop :=
  ∀ s : State,
    (∀ (h : StitchHdr) (k : BitVec 7), StashReady s → k.toNat < 96 →
      (s.m.skState k.toNat = 1 → s.m.skFlag k.toNat 5 = false → ∃ t, exec (.swapOut h k) s = .next t ∧
        SwapAccepted s t ⟨h, .swapOut k⟩ true k.toNat (s.m.sk k.toNat 1 1)) ∧
      ((s.m.skState k.toNat ≠ 1 ∨ s.m.skFlag k.toNat 5 = true) → ∃ t, exec (.swapOut h k) s = .next t ∧ StitchFaulted s t h 6 1 ∧
        State.Frame (fun q => q = .core h.poster) s t) ∧
      (∀ slot : BitVec 5,
        (s.m.skState k.toNat ≠ 2 → ∃ t, exec (.swapIn h k slot) s = .next t ∧ StitchFaulted s t h 6 1 ∧ State.Frame (fun q => q = .core h.poster) s t) ∧
        (s.m.skState k.toNat = 2 →
          let fits := slot.toNat < 24 ∧ s.m.slotUse slot.toNat = .free ∧ s.m.stash.unusable.getLsbD slot.toNat = false ∧
            s.m.sk k.toNat 8 4 ≤ s.m.slotBytes slot.toNat
          (fits → ∃ t, exec (.swapIn h k slot) s = .next t ∧ SwapAccepted s t ⟨h, .swapIn k slot⟩ false k.toNat slot.toNat) ∧
          (¬ fits → ∃ t, exec (.swapIn h k slot) s = .next t ∧ StitchFaulted s t h 6 2 ∧ State.Frame (fun q => q = .core h.poster) s t)))) ∧
    (∀ (h : StitchHdr) (k : BitVec 7) (slot : BitVec 5), s.m.up fnStash = true → (s.m.unitQ .stash).head = none → s.m.stashPresent = false →
      ∀ i ∈ [Instr.swapOut h k, .swapIn h k slot], ∃ t, exec i s = .next t ∧ StitchFaulted s t h 6 5 ∧ State.Frame (fun q => q = .core h.poster) s t) ∧
    (∀ (k : Fin 96) (pre post : List Swap) (w : Swap), s.m.stash.swaps = pre ++ w :: post → (∀ x ∈ pre, x.skein ≠ k.val) → w.skein = k.val →
      (s.m.swapDone w = false → exec (.swapComplete k) s = .next s) ∧
      (s.m.swapDone w = true → w.lost = none → (∀ x ∈ pre ++ post, x.seq ≠ w.seq) → ∃ t, exec (.swapComplete k) s = .next t ∧
        t.m.stash = { s.m.stash with queue := finished s.m.stash.queue w.seq, swaps := pre ++ post
                                     slots := vset s.m.stash.slots (ix 24 w.slot) (if w.out then .free else .occupied) } ∧
        t.m.skState k.val = (if w.out then 2 else 1) ∧ t.m.sk k.val 1 1 = (if w.out then 0xFF else w.slot % 256) ∧
        t.m.get StashSwapCount.count = Nat.min (s.m.get StashSwapCount.count + 1) (2 ^ 32 - 1) ∧
        t.m.sk k.val 0x38 4 = Nat.min (s.m.sk k.val 0x38 4 + 1) (2 ^ 32 - 1) ∧
        State.Frame (fun q => q = .stash ∨ q = .unitQ .stash ∨ q = .reg StashSwapCount.reg ∨ ∃ i < 64, q = .hub (64 * k.val + i)) s t) ∧
      (∀ b, w.lost = some b → s.m.frc.pend.length < 16 → ∃ t, exec (.swapComplete k) s = .next t ∧
        Recorded s.m t.m 0x0602 { fn := 5, island := 252 } [] ∧ t.m.get StashStatus.lost = 1 ∧
        t.pending = s.pending ∧ t.links = s.links))

/-- A byte of the stash. -/
def Sys2Proof.stashByte (s : State) (a : Nat) : Byte := Tab.get zeroByte s.m.stash.mem a

/-- A 256-byte block arrives in the stash with a good CRC, and no other byte of it changes. -/
def Sys2Proof.BlockStored (s t : State) (a : Nat) (data : Nat → Byte) : Prop :=
  (∀ x, stashByte t x = if a ≤ x ∧ x < a + 256 then data (x - a) else stashByte s x) ∧ Tab.get crcGood t.m.stash.crc (a / 256) = 0

/-- R283, R288, R289, R303, R305: an accepted FETCH or STORE joins the block traffic, a bad range faults with SK_RANGE. A STASH_BLOCK_GRANT to a channel moves the next 256-byte block of the only traffic there, from a
scratchpad to the stash for SWAP_OUT and STORE, the other way for SWAP_IN and FETCH of a block whose CRC holds; with no traffic for the channel it does nothing, and a swap's block of a tile out of service waits for the tile, which is the model's choice (log entry 86). -/
def Sys2Proof.StashTraffic : Prop :=
  ∀ s : State, s.m.up fnStash = true →
    (∀ (h : StitchHdr) (p : BlockP), ∀ i ∈ [(Instr.fetch h p, false), (.store h p, true)], (s.m.unitQ .stash).head = none →
      (s.m.blockCode i.2 p = none → ∃ t, exec i.1 s = .next t ∧
        t.m.stash = { s.m.stash with
          queue := begun s .stash ⟨h, if i.2 then .store p else .fetch p⟩ false
          blocks := s.m.stash.blocks ++ [{ store := i.2, hdr := h, p := p, seq := s.m.issue, moved := Vector.replicate 2 0, skewed := false }] } ∧
        State.Frame (fun q => q ∈ [Part.stash, .unitQ .stash, .issue]) s t) ∧
      (s.m.stashPresent = true → p.tiles = 0 ∨ p.sp.toNat % 64 ≠ 0 ∨ p.stash.toNat % 256 ≠ 0 ∨ 2 ^ 30 ≤ p.sp.toNat →
        ∃ t, exec i.1 s = .next t ∧ StitchFaulted s t h 6 3 ∧ State.Frame (fun q => q = .core h.poster) s t)) ∧
    (∀ c : Fin 2, s.m.stash.swaps = [] → s.m.stash.blocks = [] → s.m.stash.windows = [] → exec (.stashBlockGrant c) s = .next s) ∧
    (∀ (c : Fin 2) (w : Swap), s.m.stash.swaps = [w] → s.m.stash.blocks = [] → s.m.stash.windows = [] → s.m.swapOpen w c.val = false →
      exec (.stashBlockGrant c) s = .next s) ∧
    (∀ (c : Fin 2) (w : Swap) (l : SpLoc), s.m.stash.swaps = [w] → s.m.stash.blocks = [] → s.m.stash.windows = [] → s.m.swapOpen w c.val = true → w.lost = none → s.m.sk w.skein 8 4 ≠ 0 →
      s.m.sk w.skein 8 4 % 256 = 0 → 2 * vget w.moved c + c.val < 4 * (s.m.sk w.skein 8 4 / 256) →
      let n := 2 * vget w.moved c + c.val
      let per := s.m.sk w.skein 8 4 / 256
      let tile := (ix 4 (n / per))
      let a := stateArea w.skein (n / per) + n % per * 256
      s.m.spLoc tile (s.m.slotSp w.slot) 256 (n % per * 256) = .ok l →
      (w.out = true → (replyTo s tile (s.m.slotSp w.slot) 256 15 (n % per * 256)).status = .ok →
        ∃ t, exec (.stashBlockGrant c) s = .next t ∧
          BlockStored s t a (replyByte (replyTo s tile (s.m.slotSp w.slot) 256 15 (n % per * 256))) ∧
          t.m.stash.swaps = [{ w with moved := vset w.moved c (vget w.moved c + 1) }] ∧ SpSame s t ∧
          State.Frame (fun q => q = .stash ∨ ∃ x, spParts tile x q) s t) ∧
      (w.out = false → Tab.get crcGood s.m.stash.crc (a / 256) = 0 → ∃ t, exec (.stashBlockGrant c) s = .next t ∧
        SpStored s t l ((List.range 256).map fun i => some (stashByte s (a + i))) s.m.rowTag ∧
        t.m.stash = { s.m.stash with swaps := [{ w with moved := vset w.moved c (vget w.moved c + 1) }] } ∧
        State.Frame (fun q => q = .stash ∨ ∃ x, spParts tile x q) s t)) ∧
    (∀ (c : Fin 2) (r : BlockRun) (l : SpLoc), s.m.stash.swaps = [] → s.m.stash.blocks = [r] → s.m.stash.windows = [] → 2 * vget r.moved c + c.val < r.total →
      let n := 2 * vget r.moved c + c.val
      let k := n / blkCount r.p
      let d := n % blkCount r.p * 256
      let tile := (tilesOf r.p.tiles).getD k 0
      let a := blkBase r.p k + d
      a % 256 = 0 → s.m.spLoc tile r.p.sp 256 d = .ok l →
      let goesOn := fun (t : State) =>
        (vget r.moved 0 + vget r.moved 1 + 1 = r.total → t.m.stash.blocks = [] ∧ t.m.unitQ .stash = finished (s.m.unitQ .stash) r.seq) ∧
        (vget r.moved 0 + vget r.moved 1 + 1 ≠ r.total →
          ∃ skewed, t.m.stash.blocks = [{ r with moved := vset r.moved c (vget r.moved c + 1), skewed := skewed }] ∧ (r.skewed = true → skewed = true)) ∧
        State.Frame (fun q => q = .stash ∨ q = .unitQ .stash ∨ ∃ x, spParts tile x q) s t
      (r.store = true → (replyTo s tile r.p.sp 256 r.p.age.toNat d).status = .ok → ∃ t, exec (.stashBlockGrant c) s = .next t ∧
        BlockStored s t a (replyByte (replyTo s tile r.p.sp 256 r.p.age.toNat d)) ∧ SpSame s t ∧ goesOn t) ∧
      (r.store = false → Tab.get crcGood s.m.stash.crc (a / 256) = 0 → (l.inW s.m = false ∨ r.p.weightWrite = true) →
        ∃ t, exec (.stashBlockGrant c) s = .next t ∧ SpStored s t l ((List.range 256).map fun i => some (stashByte s (a + i))) s.m.rowTag ∧ goesOn t))

/-- R288, R303, R374: the PCI Express stash window reaches the page of HL_STASH_PAGE; a read checks every block it touches, a write of part of a block first checks it and leaves it with a new CRC. Beside other
traffic an access waits for its grants, the last of which answers it. OVERHANG_REWRITE_END writes a model's OVERHANG record back to its stash area and opens the area again; for a model that is not being
rewritten it does nothing. -/
def Sys2Proof.StashWindowAndOverhang : Prop :=
  ∀ s : State,
    (∀ off : BitVec 25, s.m.pathUp .pcie = true → s.m.up fnStash = true → s.m.phase ≠ 5 → s.m.stashPresent = true → (∀ b, Tab.get crcGood s.m.stash.crc b ≤ 1) →
      let a := 0x30000000 + s.m.get HlStashPage.page * 0x2000000 + off.toNat
      let idle := s.m.stash.swaps = [] ∧ s.m.stash.blocks = [] ∧ s.m.stash.windows = []
      (∀ op : WinOp, windowOk .pcie off.toNat (winSize op) true = true → ¬ idle → ∃ t, exec (.stashWindowAccess off op) s = .next t ∧
        t.m.stash = { s.m.stash with windows := s.m.stash.windows ++ [{ a := a, op := op, seq := s.m.issue, moved := Vector.replicate 2 0, bad := false }] } ∧
        State.Frame (fun q => q = .stash ∨ q = .issue) s t) ∧
      (∀ (r : WinRun) (n : Nat), s.m.stash.swaps = [] → s.m.stash.blocks = [] → s.m.stash.windows = [r] → r.op = .read n → r.blocks = [r.a / 256] →
        r.moved = Vector.replicate 2 0 → r.bad = false → ∃ t, exec (.stashBlockGrant 0) s = .next t ∧ t.m.stash.windows = [] ∧
        t.m.host.pcieStatus = .ok ∧ t.m.host.pcieReply.length = n ∧ (∀ i < n, t.m.host.pcieReply[i]? = some (stashByte s (r.a + i))) ∧
        t.m.stash.mem = s.m.stash.mem ∧ State.Frame (fun q => q ∈ [Part.host, .stash, .struck, .reg StashRetryCount.reg]) s t) ∧
      (∀ n, idle → windowOk .pcie off.toNat n true = true → ∃ t, exec (.stashWindowAccess off (.read n)) s = .next t ∧ t.m.host.pcieStatus = .ok ∧
        t.m.host.pcieReply.length = n ∧ (∀ i < n, t.m.host.pcieReply[i]? = some (stashByte s (a + i))) ∧ t.m.stash.mem = s.m.stash.mem ∧
        State.Frame (fun q => q ∈ [Part.host, .stash, .reg StashRetryCount.reg]) s t) ∧
      (∀ bytes : List (Option Byte), idle → windowOk .pcie off.toNat bytes.length true = true →
        ∃ t, exec (.stashWindowAccess off (.write bytes)) s = .next t ∧
          (∀ x, stashByte t x = if a ≤ x ∧ x < a + bytes.length then (bytes.getD (x - a) none).getD (stashByte s x) else stashByte s x) ∧
          (∀ i < bytes.length, (bytes.getD i none).isSome = true → Tab.get crcGood t.m.stash.crc ((a + i) / 256) = 0) ∧
          State.Frame (fun q => q ∈ [Part.stash, .reg StashRetryCount.reg]) s t)) ∧
    (∀ model : BitVec 16, (model.toNat ∉ s.m.stash.rewriting → exec (.overhangRewriteEnd model) s = .next s) ∧
      (model.toNat ∈ s.m.stash.rewriting → ∃ t, exec (.overhangRewriteEnd model) s = .next t ∧
        t.m.stash.rewriting = s.m.stash.rewriting.filter (· != model.toNat) ∧
        (∀ (r : RecEntry) (a n : Nat), (s.m.cast.records.filter fun x => x.type == 14 && x.param == model.toNat) = [r] →
          s.m.modelArea model.toNat (r.dest / 2 ^ 30) = some (a, n) → (crc32c (s.m.flashRead (s.m.cast.base + r.offset) r.length)).toNat = r.crc →
          s.m.flash.weak = [] → a + r.dest % 2 ^ 30 + r.length ≤ overhangArea (r.dest / 2 ^ 30) + 0x1000000 →
          ∀ i < r.length, some (stashByte t (a + r.dest % 2 ^ 30 + i)) = (s.m.flashRead (s.m.cast.base + r.offset) r.length)[i]?) ∧
        State.Frame (fun q => q = .stash ∨ q = .flash) s t))

/-! ## Annealer -/

/-- A byte of the problem memory. -/
def Sys2Proof.problemByte (s : State) (a : Nat) : Byte := s.m.dza.mem.byte a

/-- The problem memory and the lanes hold no wrong bit. -/
abbrev Sys2Proof.DzaClean (s : State) : Prop := s.m.dza.mem.flips = [] ∧ s.m.dza.laneFlips = []

/-- The registers that keep the annealer's books of wrong bits (R339). -/
def Sys2Proof.dzBooks : List Part :=
  [.reg DzStatus.reg, .reg DzCeCount.reg, .reg DzChkCount.reg, .reg DzUeCount.reg, .reg DzUeLast.reg]

/-- The registers that a RUN writes as it is accepted. -/
def Sys2Proof.runParts : Part → Prop := fun q =>
  q ∈ [Part.dza, .unitQ .dza, .issue, .reg DzSeedUsed.reg, .reg DzStatus.reg, .reg DzTraceStat.reg, .reg DzTraceLap.reg, .reg DzSweep.reg, .reg DzCheckLast.reg,
    .reg DzFaultLast.reg]

/-- R313, R315, R316, R329, R330, R331, R333, R337: an accepted RUN with a good problem starts its replicas, whose tracked energies are the energies of their configurations, under the seed of DZ_SEED when that is the
source; a problem that fails its check ends the run with outcome 4 and is recorded; a RUN or COPY that fails its own checks faults. STOP asks the active run to stop. COPY and host writes reach assigned problem memory, and
a change of the group map or of a coupler clears checked; during a run a host write is denied, and during a swatch test it waits (R334). -/
def Obligations.AnnealerCommands : Prop :=
  ∀ s : State,
    (∀ h : StitchHdr, UnitReady s .dza → s.m.on DzStatus.swatchActive = false →
      (∀ p : RunP, runCheck s.m p = none → DzaClean s →
        let due := p.check = true ∨ s.m.on DzStatus.checked = false
        ((due → dzCheck s.m.dza.mem p.active = none) → ∃ t, exec (.run h p) s = .next t ∧
          t.m.on DzStatus.runActive = true ∧ t.m.on DzStatus.checked = true ∧ t.m.on DzStatus.statesValid = true ∧
          (∃ r, t.m.dza.run = some r ∧ r.p = p ∧ r.hdr = h ∧ r.sweeps = 0 ∧ r.ended = none) ∧
          (∀ k : Fin 32, k.val ≤ p.replicasM1.toNat →
            (vget t.m.dza.reps k).energy = (runProblem s.m.dza.mem p).energy (vget t.m.dza.reps k).conf) ∧
          (s.m.on DzCtl.seedSrc = false → t.m.reg DzSeedUsed.reg = s.m.reg DzSeed.reg) ∧
          t.m.unitQ .dza = begun s .dza ⟨h, .run p⟩ true ∧ State.Frame runParts s t) ∧
        (∀ bad, due → dzCheck s.m.dza.mem p.active = some bad → s.m.frc.pend.length < 16 → ∃ t, exec (.run h p) s = .next t ∧
          (∃ r, t.m.dza.run = some r ∧ r.ended = some 4) ∧ t.m.on DzStatus.checked = false ∧ t.m.on DzStatus.problem = true ∧
          Recorded s.m t.m 0x0704 (srcIsl 248) [] ∧ State.Frame runParts s t)) ∧
      (∀ (p : RunP) (code : Nat), runCheck s.m p = some code → ∃ t, exec (.run h p) s = .next t ∧ StitchFaulted s t h 7 code ∧
        t.m.get DzFaultLast.code = code ∧ t.m.dza = s.m.dza ∧ State.Frame (fun q => q = .core h.poster ∨ q = .reg DzFaultLast.reg) s t) ∧
      (∃ t, exec (.stop h) s = .next t ∧ t.m.dza.stopReq = (s.m.dza.run.isSome || s.m.dza.stopReq) ∧ t.m.dza.run = s.m.dza.run ∧
        t.m.unitQ .dza = begun s .dza ⟨h, .stop⟩ true ∧ State.Frame (fun q => q ∈ [Part.dza, .unitQ .dza, .issue]) s t) ∧
      (∀ p : CopyP, copyCheck s.m p = none → s.m.hub.ues p.src.toNat (64 * (p.nLinesM1.toNat + 1)) = [] → ∃ t, exec (.copy h p) s = .next t ∧
        (∀ x, problemByte t x = if p.dst.toNat ≤ x ∧ x < p.dst.toNat + 64 * (p.nLinesM1.toNat + 1) then s.m.hub.byte (p.src.toNat + (x - p.dst.toNat)) else problemByte s x) ∧
        (0x410000 ≤ p.dst.toNat → t.m.on DzStatus.checked = false) ∧ t.m.unitQ .dza = begun s .dza ⟨h, .copy p⟩ true ∧
        State.Frame (fun q => q ∈ [Part.dza, .unitQ .dza, .issue, .reg DzStatus.reg, .reg FrHsrCeCount.reg, .reg FrHsrChkCount.reg]) s t) ∧
      (∀ (p : CopyP) (code : Nat), copyCheck s.m p = some code → ∃ t, exec (.copy h p) s = .next t ∧ StitchFaulted s t h 7 code ∧
        State.Frame (fun q => q = .core h.poster ∨ q = .reg DzFaultLast.reg) s t)) ∧
    (∀ (p : Path) (off : BitVec 19) (bytes : List (Option Byte)), s.m.pathUp p = true → s.m.up fnDza = true → s.m.phase ≠ 5 →
      windowOk p off.toNat bytes.length (bytes.all Option.isSome) = true →
      let a := Nat.min (s.m.get DzWinPage.page) 9 * 0x80000 + off.toNat
      (s.m.on DzStatus.swatchActive = true → ∃ t, exec (.problemWindowWrite p off bytes) s = .next t ∧
        t.m.dza = { s.m.dza with held := s.m.dza.held ++ [⟨p, 0x580000 + off.toNat, .write bytes⟩] } ∧ State.Frame (fun q => q = .dza) s t) ∧
      (s.m.on DzStatus.swatchActive = false → s.m.dza.run = none → ∃ t, exec (.problemWindowWrite p off bytes) s = .next t ∧
        (∀ x, problemByte t x = if a ≤ x ∧ x < a + bytes.length ∧ dzAssigned x = true then (bytes.getD (x - a) none).getD (problemByte s x) else problemByte s x) ∧
        (∀ i < bytes.length, (bytes.getD i none).isSome = true → 0x410000 ≤ a + i → dzAssigned (a + i) = true → t.m.on DzStatus.checked = false) ∧
        State.Frame (fun q => q = .dza ∨ q ∈ dzBooks) s t) ∧
      (s.m.on DzStatus.swatchActive = false → s.m.dza.run ≠ none → ∃ t, exec (.problemWindowWrite p off bytes) s = .next t ∧ t.m.on DzStatus.writeDenied = true ∧
        State.Frame (fun q => q = .reg DzStatus.reg) s t))

/-- R317, R322, R326, R336, R339: SWEEP_END sweeps every replica once, counts the sweep, and ends the run when a stop is asked for or the last sweep is done; an error of a lane ends it with outcome 3 and invalid states. RUN_END writes
the result block, clears run_active and signals the end event; before the run's end it does nothing. -/
def Obligations.AnnealerRuns : Prop :=
  ∀ s : State,
    (∀ r : DzRun, s.m.dza.run = some r → r.ended = none →
      (s.m.dza.mem.flips = [] → (∃ e ∈ s.m.dza.laneFlips, judge e.2 = .ue) → s.m.frc.pend.length < 16 → ∃ t, exec .sweepEnd s = .next t ∧
        t.m.dza.run = some { r with ended := some 3 } ∧ t.m.on DzStatus.statesValid = false ∧ t.m.dza.reps = s.m.dza.reps ∧ t.m.on DzStatus.ue = true ∧
        t.m.get DzUeLast.lane = 1 ∧ t.m.get DzUeLast.valid = 1 ∧ Recorded s.m t.m 0x0702 (srcIsl 248) [] ∧
        State.Frame (fun q => q = .dza ∨ q ∈ dzBooks) s t) ∧
      (DzaClean s → r.p.exchEvery = 0 → r.p.traceEvery = 0 → (s.m.get DzSweep.count + 1) % 1024 ≠ 0 → ∃ t r', exec .sweepEnd s = .next t ∧
        t.m.get DzSweep.count = (s.m.get DzSweep.count + 1) % 2 ^ 32 ∧ t.m.dza.run = some r' ∧ r'.p = r.p ∧ r'.sweeps = r.sweeps + 1 ∧
        r'.ended = (if s.m.dza.stopReq then some 1 else if r.sweeps + 1 = r.p.nSweeps.toNat then some 0 else none) ∧
        (∀ k : Fin 32, k.val ≤ r.p.replicasM1.toNat →
          let x := vget s.m.dza.reps k
          let y := sweepReplica (runProblem s.m.dza.mem r.p) (!r.p.penalty) (vget r.betas (ix 32 x.slot)).toNat
            { conf := x.conf, energy := x.energy, gens := x.gens, moves := 0 }
          vget t.m.dza.reps k = { x with conf := y.conf, energy := y.energy, gens := y.gens }) ∧
        (∀ k : Fin 32, r.p.replicasM1.toNat < k.val → vget t.m.dza.reps k = vget s.m.dza.reps k) ∧
        State.Frame (fun q => q = .dza ∨ q = .reg DzSweep.reg) s t)) ∧
    (∀ (r : DzRun) (o : Nat), s.m.dza.run = some r → r.ended = some o → (r.p.traceEvery = 0 ∨ r.sweeps = 0 ∨ r.traced = true) →
      ∃ t, exec .runEnd s = .next t ∧ t.m.dza = { s.m.dza with run := none, stopReq := false } ∧ t.m.on DzStatus.runActive = false ∧
        t.m.hubNat r.p.resDst.toNat 1 = o % 256 ∧ t.m.hubNat (r.p.resDst.toNat + 1) 1 = r.p.replicasM1.toNat + 1 ∧
        t.m.hubNat (r.p.resDst.toNat + 2) 2 = r.hdr.tag.toNat ∧ t.m.hubNat (r.p.resDst.toNat + 4) 4 = r.sweeps % 2 ^ 32 ∧
        (∀ d : Fin 10, r.p.endEn = true → r.p.endCore.toNat = d.val → s.m.up (coreFn d) = true → (s.m.core d).st ∉ [CoreSt.reset, .wait] →
          let e : Fin 64 := ⟨r.p.endEvent.toNat, by omega⟩
          ((s.m.core d).counts[e]).toNat < 255 → t.m.core d = { s.m.core d with counts := (s.m.core d).counts.set e ((s.m.core d).counts[e] + 1) }) ∧
        State.Frame (fun q => q = .dza ∨ q = .reg DzStatus.reg ∨ (∃ i < 2432, q = .hub (r.p.resDst.toNat + i)) ∨
          ∃ d : Fin 10, r.p.endEn = true ∧ r.p.endCore.toNat = d.val ∧ q = .core d) s t) ∧
    (∀ r : DzRun, s.m.dza.run = some r → r.ended = none → exec .runEnd s = .next s) ∧ (s.m.dza.run = none → exec .runEnd s = .next s ∧ exec .sweepEnd s = .next s)

/-! ## Audio edge -/

/-- The next grid instant of a capture channel: the first multiple of its sample period at or after now that it has not used (R345). -/
def Sys2Proof.gridInstant (s : State) (ch : Fin 120) : Nat := roundUp (Nat.max (s.m.gridOf ch.val) s.m.now) (periodOf (s.m.capRate ch.val))

/-- A capture channel's domain runs: capture has started, its function is in service and its clock is there. -/
abbrev Sys2Proof.Captures (s : State) (ch : Fin 120) : Prop :=
  s.m.ae.capturing = true ∧ s.m.up (domainFn (capDomain ch.val)) = true ∧ s.m.clockGone (capDomain ch.val) = false

/-- No high-pass and no converter lies in a channel's path (R352). -/
abbrev Sys2Proof.PlainPath (s : State) (ch : Fin 120) : Prop :=
  s.m.asrcIn (capDomain ch.val) = false ∧
    (if ch.val < 16 then s.m.get AeAcdCtl.hp else if ch.val < 48 then s.m.get AePdmCtl.hp else s.m.get (AeTdmCtl.hp ((ch.val - 48) / 16))) = 0

/-- R352: a TDM word is left-justified; any other source word passes whole. -/
def Sys2Proof.leftJustified (s : State) (ch : Fin 120) (v : Word) : Word :=
  if ch.val < 48 then v
  else match s.m.get (AeTdmCtl.word ((ch.val - 48) / 16)) with
    | 0 => v &&& 0xFFFF0000
    | 1 => v &&& 0xFFFFFF00
    | _ => v

/-- The bytes of a ring's slots in hub SRAM (R355). -/
def Sys2Proof.ringByte (s : State) (r : Nat) (x : Nat) : Prop := (s.m.ringRange r).1 ≤ x ∧ x < (s.m.ringRange r).2

/-- What samples of a set of channels change: time, the audio edge, its counters, and the slots of the rings that hold the channels. -/
def Sys2Proof.sampleParts (s : State) (chans : Nat → Prop) : Part → Prop := fun q =>
  timeParts q ∨ q = .ae ∨ q ∈ [Part.reg AeClipCount.reg, .reg AeStatus.reg] ∨
    ∃ ch, chans ch ∧ (q = .reg (AeCnt.reg (capDomain ch)) ∨ q = .reg (AeClip.reg (ch / 32)) ∨ ∃ r i x, (r, i) ∈ s.m.ringsOf ch ∧ ringByte s r x ∧ q = .hub x)

/-- R345, R352, R353, R355, R357, R360, SAMPLE: the sample reaches the channel's next grid instant and a domain on the derived clock counts it. In the one capture ring that holds the channel it lies at the place of its
frame: 0 with its missing bit when the channel is missing or the instant precedes the start of capture, else the left-justified word when nothing filters it; a magnitude at the threshold counts as clipped.
A channel whose domain does not run takes no sample. -/
def Sys2Proof.SamplesFillTheirFrames : Prop :=
  ∀ (ch : Fin 120) (value : Word) (s : State),
    (¬ Captures s ch → exec (.sample ch value) s = .next s) ∧
    (s.m.tbOn = true → Captures s ch → gridInstant s ch + 60000 < 2 ^ 64 →
      let d := ix 7 (capDomain ch.val)
      let g := gridInstant s ch
      let lost := s.m.chanMissing ch.val = true ∨ g < vget s.m.ae.capStart d
      let w := leftJustified s ch value
      ∃ t, exec (.sample ch value) s = .next t ∧ t.m.now = g ∧ t.m.gridOf ch.val = g + periodOf (s.m.capRate ch.val) ∧
        (vget s.m.ae.counted d < g → d.val ≠ 6 → s.m.asrcIn d.val = false → vget s.m.ae.capStart d ≤ vget s.m.ae.counted d → vget s.m.ae.native d < 1000000 →
          t.m.get (AeCnt.count d.val) = (s.m.get (AeCnt.count d.val) + 1) % 2 ^ 32 ∧ (vget t.m.ae.lastTick d).toNat = g) ∧
        (∀ r i f j, s.m.ringsOf ch.val = [(r, i)] → s.m.framePos r g = some (f, j) →
          let a := s.m.slotAt r f + 64 + i * s.m.ringStride r + 4 * j
          (lost → t.m.hubNat a 4 = 0 ∧ (Tab.get noMask t.m.ae.miss (frameKey r f)).getLsbD i = true) ∧
          (¬ lost → PlainPath s ch → t.m.hubNat a 4 = w.toNat)) ∧
        (¬ lost → PlainPath s ch → s.m.get AeCtl.clipThr ≤ magnitude24 w → s.m.ae.blind ≤ s.m.gridOf ch.val →
          t.m.get AeClipCount.count = Nat.min (s.m.get AeClipCount.count + 1) (2 ^ 32 - 1) ∧ t.m.get AeStatus.clip = 1 ∧
          (t.m.reg (AeClip.reg (ch.val / 32))).getLsbD (ch.val % 32) = true) ∧
        State.Frame (sampleParts s fun x => x = ch.val) s t)

/-- R354, R355, R356, R280, FRAME_EVENT: once the row of a capture ring's next frame has begun, the frame's slot gets its header (sequence number, channels, samples per frame, instant of the last sample, tick of the event)
and every skein the ring feeds that is not suspended gains a frame in its backlog, up to its limit. Before, nothing happens. -/
def Sys2Proof.FrameEventsCloseFrames : Prop :=
  ∀ (r : Fin 16) (s : State),
    let f := vget s.m.ae.frames r
    let n := f * s.m.ringHop r.val + s.m.get (AeRingCtl.phase r.val)
    let due := s.m.ae.capturing = true ∧ s.m.on GlStatus.patternRunning = true ∧ s.m.ae.running.getLsbD r.val = true ∧ s.m.ringPlay r.val = false ∧ n ≤ s.m.rowCount
    (¬ due → exec (.frameEvent r) s = .next s) ∧
    (due → 0x2000 ≤ (s.m.ringRange r.val).1 → (s.m.ringRange r.val).2 ≤ 0x1DE800 →
      let a := s.m.slotAt r.val f
      ∃ t, exec (.frameEvent r) s = .next t ∧ vget t.m.ae.frames r = f + 1 ∧ t.m.hubNat a 4 = f % 2 ^ 32 ∧
        t.m.hubNat (a + 4) 1 = (s.m.ringChans r.val).length ∧ t.m.hubNat (a + 6) 2 = s.m.ringS r.val % 2 ^ 16 ∧
        t.m.hubNat (a + 8) 8 = s.m.rowTick n % 2 ^ 64 ∧ t.m.hubNat (a + 16) 8 = s.m.now ∧
        (∀ k < 96, s.m.feeds r.val k = true → s.m.skState k ≠ 5 →
          t.m.sk k 0x0E 2 = if s.m.sk k 0x0E 2 < s.m.sk k 0x10 2 then s.m.sk k 0x0E 2 + 1 else s.m.sk k 0x0E 2) ∧
        State.Frame (fun q => q = .ae ∨ q ∈ [Part.reg AeClipCount.reg, .reg AeStatus.reg] ∨ (∃ k < 4, q = .reg (AeClip.reg k)) ∨
          (∃ x, ringByte s r.val x ∧ q = .hub x) ∨ ∃ x < 0x1800, q = .hub x) s t)

/-- R380, R399, Table HL-3, AUDIO_MICROFRAME: with the stream active, the device configured, not suspended and not reduced to what FAILED serves, a microframe of playback brings six samples to each of its channels, on six grid instants; one of capture carries the
next six samples of each output channel, zero where nothing plays or the channel is muted. Otherwise nothing happens. -/
def Sys2Proof.UsbMicroframes : Prop :=
  ∀ (samples : List Word) (s : State),
    let live := s.m.up fnUsb = true ∧ s.m.on HlUsbStat.configured = true ∧ s.m.on HlUsbStat.suspended = false ∧ s.m.on HlUsbStat.degraded = false
    (¬ (live ∧ s.m.on HlUsbStat.playActive = true) → exec (.audioMicroframe false samples) s = .next s) ∧
    (¬ (live ∧ s.m.on HlUsbStat.capActive = true) → exec (.audioMicroframe true samples) s = .next s) ∧
    (live → s.m.on HlUsbStat.playActive = true → s.m.ae.capturing = true → s.m.tbOn = true →
      let n := s.m.get MsgUsbCfg.playChM1 + 1
      let g := roundUp s.m.now 20000
      (∀ i < n, s.m.gridOf (112 + i) ≤ s.m.now) → g + 120000 < 2 ^ 64 →
      ∃ t, exec (.audioMicroframe false samples) s = .next t ∧ t.m.now = g + 100000 ∧ (∀ i < n, t.m.gridOf (112 + i) = g + 120000) ∧
        t.m.get (AeCnt.count 6) = (s.m.get (AeCnt.count 6) + 6) % 2 ^ 32 ∧
        State.Frame (sampleParts s fun x => 112 ≤ x ∧ x < 112 + n) s t) ∧
    (live → s.m.on HlUsbStat.capActive = true →
      let n := s.m.get MsgUsbCfg.capChM1 + 1
      ∃ t, exec (.audioMicroframe true samples) s = .next t ∧ t.m.host.usbIn.length = 6 * n ∧
        (∀ k < 6, ∀ i < n, (Tab.get noOut s.m.ae.out (72 + i)).getD k 0 = 0 ∨ s.m.host.mutes.getLsbD (8 + i) = true → t.m.host.usbIn[k * n + i]? = some 0) ∧
        (∀ i < n, Tab.get noOut t.m.ae.out (72 + i) = (Tab.get noOut s.m.ae.out (72 + i)).drop 6) ∧
        State.Frame (fun q => q = .ae ∨ q = .host) s t)

/-- R350, R355, R358, R359, PLAYBACK_FRAME: at its row a playback ring's next frame is read; with its sequence number in the header it plays, an output that sounds and does not ramp with the samples of its block, cut to
the bits that leave its pin; with another
number every output of the ring plays zeros, the underrun is counted and recorded. GAIN_CHANGE brings an input's gain into effect, 29 to 31 as 28; R361, SNAP: every domain's count and
the tick of its last increment are latched together, and AE_CNTd then reads the count so latched (log entry 38). -/
def Obligations.PlaybackGainsAndSnapshots : Prop :=
  ∀ s : State,
    (∀ r : Fin 16,
      let f := vget s.m.ae.played r
      let due := s.m.ae.capturing = true ∧ s.m.on GlStatus.patternRunning = true ∧ s.m.ae.running.getLsbD r.val = true ∧ s.m.ringPlay r.val = true ∧
        f * s.m.ringHop r.val + s.m.get (AeRingCtl.phase r.val) + s.m.ringLead r.val ≤ s.m.rowCount
      let a := s.m.slotAt r.val f
      let regs := fun q => q = Part.ae ∨ q ∈ [Part.reg AeUnderrunCount.reg, .reg AeStatus.reg, .reg FrHsrCeCount.reg, .reg FrHsrChkCount.reg, .reg FrHsrUeCount.reg]
      (¬ due → exec (.playbackFrame r) s = .next s) ∧
      (due → s.m.hub.ues a 4 = [] → s.m.hubNat a 4 = f % 2 ^ 32 → (s.m.ringRange r.val).2 ≤ 0x1DF000 →
        ∃ t, exec (.playbackFrame r) s = .next t ∧ vget t.m.ae.played r = f + 1 ∧ vget t.m.ae.playing r = some { frame := f, ok := true } ∧
          (∀ i ch, (s.m.ringChans r.val)[i]? = some ch → s.m.heldBelow r.val ch = false → s.m.outOn ch = true → s.m.sounds ch = true →
            Tab.get noRamp s.m.ae.ramp ch = 0 →
            let b := a + 64 + i * s.m.ringStride r.val
            Tab.get noOut t.m.ae.out ch = (List.range (s.m.ringS r.val)).map fun j =>
              (if s.m.hub.bad ((b + 4 * j) / 8) then 0 else BitVec.ofNat 32 (s.m.hubNat (b + 4 * j) 4)) &&& s.m.outMask ch) ∧
          State.Frame regs s t) ∧
      (due → s.m.hub.ues a 4 = [] → s.m.hubNat a 4 ≠ f % 2 ^ 32 → s.m.frc.pend.length < 16 →
        ∃ t, exec (.playbackFrame r) s = .next t ∧ vget t.m.ae.played r = f + 1 ∧ vget t.m.ae.playing r = some { frame := f, ok := false } ∧
          (∀ ch ∈ s.m.ringChans r.val, s.m.heldBelow r.val ch = false → Tab.get noOut t.m.ae.out ch = List.replicate (s.m.ringS r.val) 0) ∧
          t.m.get AeUnderrunCount.count = Nat.min (s.m.get AeUnderrunCount.count + 1) (2 ^ 32 - 1) ∧ t.m.get AeStatus.underrun = 1 ∧
          Recorded s.m t.m 0x0801 (srcIsl 262) [] ∧ State.Frame regs s t)) ∧
    (∀ i : Fin 16, ∃ t, exec (.gainChange i) s = .next t ∧
      (let code := bitsOf (s.m.reg (AeAcdGain.reg (i.val / 4))).toNat (8 * (i.val % 4) + 4) (8 * (i.val % 4))
       t.m.ae = { s.m.ae with gains := s.m.ae.gains.set i (BitVec.ofNat 5 (if code ≤ 28 then code else 28)) }) ∧ State.Frame (fun q => q = .ae) s t) ∧
    (∀ p : Path, s.m.pathUp p = true → s.m.reaches 0x600000 = true → ∃ t, exec (.snap p) s = .next t ∧
      (∀ d : Fin 7, t.m.pair (AeTsLo.reg d.val) = (vget s.m.ae.lastTick d).toNat ∧ t.m.live (AeCnt.reg d.val) = s.m.reg (AeCnt.reg d.val)) ∧
      t.m.ae = { s.m.ae with snapCount := t.m.ae.snapCount } ∧
      State.Frame (fun q => q = .ae ∨ ∃ d < 7, q = .reg (AeTsLo.reg d) ∨ q = .reg (AeTsHi.reg d)) s t)

/-- R359, R365, R368, Table AE-9: the conditions of the audio edge. An ACD swatch test turns the gain of AOUT0 to AOUT7 down until it ends and its failed inputs are recorded; a stuck microphone, a lost frame sync, a rate beyond 1,000 ppm and an
overloaded bias output each set their state and status and are recorded once while they last; a bias output is switched off; conditions end as the table says; a link error of the ACD frogs it. -/
def Obligations.AudioFailures : Prop :=
  ∀ s : State, s.m.frc.pend.length < 16 →
    (∀ p : Path, s.m.pathUp p = true → s.m.reaches 0x600000 = true → s.m.up fnAcd = true → s.m.ae.swatch = false →
      ∃ t, exec (.acdSwatchTest p) s = .next t ∧ t.m.ae.swatch = true ∧ t.m.get AeAcdStat.swatchBusy = 1 ∧
        (∀ ch < 8, Tab.get noOut s.m.ae.raw ch ≠ [] → t.m.sounds ch = false) ∧ State.Frame (fun q => q = .ae ∨ q = .reg AeAcdStat.reg) s t) ∧
    (∀ failed : BitVec 16, s.m.ae.swatch = true → ∃ t, exec (.acdSwatchEnd failed) s = .next t ∧ t.m.ae.swatch = false ∧
      (s.m.ae.raw = [] → t.m.ae = { s.m.ae with swatch := false }) ∧
      t.m.get AeAcdStat.swatchBusy = 0 ∧ t.m.get AeAcdStat.failed = failed.toNat ∧ (failed ≠ 0 → Recorded s.m t.m 0x0807 (srcIsl 262) []) ∧
      State.Frame (fun q => q = .ae ∨ q = .reg AeAcdStat.reg) s t) ∧
    (∀ i : Fin 32, s.m.up fnPdm = true → s.m.ae.stuck.getLsbD i.val = false → ∃ t, exec (.pdmStuck i) s = .next t ∧
      t.m.ae = { s.m.ae with stuck := s.m.ae.stuck ||| BitVec.ofNat 32 (2 ^ i.val) } ∧ t.m.reg AePdmStuck.reg = t.m.ae.stuck ∧ t.m.get AeStatus.stuck = 1 ∧
      Recorded s.m t.m 0x0802 (srcIsl 257) [] ∧ State.Frame (fun q => q ∈ [Part.ae, .reg AePdmStuck.reg, .reg AeStatus.reg]) s t) ∧
    (∀ i : Fin 32, s.m.ae.stuck.getLsbD i.val = true → exec (.pdmStuck i) s = .next s) ∧
    (∀ i : Fin 32, ∃ t, exec (.pdmStuckCleared i) s = .next t ∧ t.m.ae = { s.m.ae with stuck := s.m.ae.stuck &&& ~~~(BitVec.ofNat 32 (2 ^ i.val)) } ∧
      t.m.reg AePdmStuck.reg = t.m.ae.stuck ∧ State.Frame (fun q => q ∈ [Part.ae, .reg AePdmStuck.reg]) s t) ∧
    (∀ p : Fin 4, s.m.up (tdmFn p) = true →
      (s.m.tdmSlave p.val = true → s.m.ae.syncLost.getLsbD p.val = false → ∃ t, exec (.tdmSyncLost p) s = .next t ∧
        t.m.ae = { s.m.ae with syncLost := s.m.ae.syncLost ||| BitVec.ofNat 4 (2 ^ p.val) } ∧
        t.m.get AeSyncCount.count = Nat.min (s.m.get AeSyncCount.count + 1) (2 ^ 32 - 1) ∧ t.m.get AeStatus.syncLost = 1 ∧
        Recorded s.m t.m 0x0803 (srcIsl (258 + p.val)) [] ∧ State.Frame (fun q => q ∈ [Part.ae, .reg AeSyncCount.reg, .reg AeStatus.reg]) s t) ∧
      (∃ t, exec (.tdmSyncRegained p) s = .next t ∧ t.m.ae = { s.m.ae with
          syncLost := s.m.ae.syncLost &&& ~~~(BitVec.ofNat 4 (2 ^ p.val)), rateBad := s.m.ae.rateBad &&& ~~~(BitVec.ofNat 4 (2 ^ p.val)) } ∧
        State.Frame (fun q => q = .ae) s t)) ∧
    (∀ (p : Fin 4) (ppm : BitVec 16), s.m.up (tdmFn p) = true → s.m.asrcIn (2 + p.val) = true →
      ((-1000 ≤ ppm.toInt ∧ ppm.toInt ≤ 1000) → ∃ t, exec (.tdmRate p ppm) s = .next t ∧ t.m.ae = { s.m.ae with ppm := s.m.ae.ppm.set p ppm } ∧
        t.m.get (AeTdmStat.ppm p.val) = ppm.toNat ∧ State.Frame (fun q => q = .ae ∨ q = .reg (AeTdmStat.reg p.val)) s t) ∧
      ((ppm.toInt < -1000 ∨ 1000 < ppm.toInt) → s.m.ae.rateBad.getLsbD p.val = false → ∃ t, exec (.tdmRate p ppm) s = .next t ∧
        t.m.ae = { s.m.ae with ppm := s.m.ae.ppm.set p ppm, rateBad := s.m.ae.rateBad ||| BitVec.ofNat 4 (2 ^ p.val) } ∧ t.m.get AeStatus.syncLost = 1 ∧
        Recorded s.m t.m 0x0804 (srcIsl (258 + p.val)) [] ∧ State.Frame (fun q => q ∈ [Part.ae, .reg (AeTdmStat.reg p.val), .reg AeStatus.reg]) s t)) ∧
    (∀ x ∈ [((0 : Fin 2), AeAcdCtl.bias0En, AeAcdStat.bias0Fault), (1, AeAcdCtl.bias1En, AeAcdStat.bias1Fault)], s.m.on x.2.1 = true →
      ∃ t, exec (.biasFault x.1) s = .next t ∧ t.m.get x.2.1 = 0 ∧ t.m.get x.2.2 = 1 ∧ t.m.get AeStatus.biasFault = 1 ∧ Recorded s.m t.m 0x0805 (srcIsl 262) [] ∧
        State.Frame (fun q => q ∈ [Part.reg AeAcdCtl.reg, .reg AeAcdStat.reg, .reg AeStatus.reg]) s t) ∧
    (s.m.up fnAcd = true → s.m.inFrog 10 = false → FrcHasRoom s 10 → ∃ t, exec .acdLink s = .next t ∧ Recorded s.m t.m 0x0806 (srcIsl 262) [] ∧ FrogAsked t.m 10)

/-! ## PCI Express configuration, PTM and MSI-X -/

/-- Vector v has been sent with its table's address and data, or is pending (R375). -/
def Sys2Proof.VectorRaised (s t : State) (v : Nat) : Prop :=
  (s.m.bme = true → s.m.msixOn = true → (s.m.msixDword v 3).getLsbD 0 = false →
    t.m.host.msix = s.m.host.msix ++ [(s.m.msixDword v 1 ++ s.m.msixDword v 0, s.m.msixDword v 2)] ∧ t.m.host.pba.getLsbD v = false) ∧
  ((s.m.bme = false ∨ s.m.msixOn = false ∨ (s.m.msixDword v 3).getLsbD 0 = true) → t.m.host.msix = s.m.host.msix ∧ t.m.host.pba.getLsbD v = true)

/-- A vector that was pending and may now be sent has been sent. -/
def Sys2Proof.PendingSent (s t : State) (v : Nat) : Prop :=
  s.m.host.pba.getLsbD v = true → t.m.bme = true → t.m.msixOn = true → (t.m.msixDword v 3).getLsbD 0 = false →
    t.m.host.pba.getLsbD v = false ∧ (t.m.msixDword v 1 ++ t.m.msixDword v 0, t.m.msixDword v 2) ∈ t.m.host.msix

/-- R67, R373, R375, R377, R378, Table HL-1: the endpoint answers configuration requests while its link is up: device ID 0x5309 and class code 0x120000 read back, BAR0 decodes 16 MiB and BAR2 64 MiB, and Bus
Master Enable keeps what is written; D3hot is entered by a write of 3 and left by a write of 0, and D1 and D2 are not there; a 1 clears a bit of AER's status; a word of no capability reads 0. A PTM dialogue latches master time and
TB tick together. An MSI-X table word keeps its writable bits. A vector that was pending and may now be sent is sent. The places of the capabilities' registers are the model's (log entry 8). -/
def Sys2Proof.ConfigurationSpace : Prop :=
  ∀ s : State,
    (s.m.host.linkUp = false → ∀ (off : BitVec 12) (w : Option Word), exec (.configurationRequest off w) s = .next s) ∧
    (s.m.host.linkUp = true →
      (∀ off : BitVec 12, ∃ t, exec (.configurationRequest off none) s = .next t ∧ t.m.host = { s.m.host with cfgReply := t.m.host.cfgReply } ∧
        (off = 0 → t.m.host.cfgReply.toNat / 2 ^ 16 = 0x5309) ∧ (off = 8 → t.m.host.cfgReply.toNat / 2 ^ 8 = 0x120000) ∧
        (off ∈ [(0x14 : BitVec 12), 0x20, 0x24, 0x30] ∨ 0x16C ≤ off.toNat → t.m.host.cfgReply = 0) ∧
        State.Frame (fun q => q = .host) s t) ∧
      ((∀ r < 16, (s.m.buf r).due = false) →
        (∀ (off : BitVec 12) (v : Word), off ∈ [(0x04 : BitVec 12), 0x10, 0x18, 0x1C, 0x44, 0x50, 0x104] → ∃ t u, exec (.configurationRequest off (some v)) s = .next t ∧
          exec (.configurationRequest off none) t = .next u ∧ (∀ x < 32, PendingSent s t x) ∧
          (off = 0x04 → u.m.host.cfgReply.getLsbD 2 = v.getLsbD 2 ∧ t.m.bme = (s.m.linkD0 && v.getLsbD 2)) ∧
          (off = 0x44 → (bitsOf v.toNat 1 0 = 0 → t.m.linkD0 = true) ∧ (bitsOf v.toNat 1 0 = 3 → t.m.linkD0 = false ∧ t.m.pathUp .pcie = false) ∧
            (bitsOf v.toNat 1 0 = 1 ∨ bitsOf v.toNat 1 0 = 2 → t.m.linkD0 = s.m.linkD0)) ∧
          (off = 0x104 → u.m.host.cfgReply = s.m.cfgWord 0x104 &&& aerErrors &&& ~~~v) ∧
          (off = 0x10 → u.m.host.cfgReply = v &&& 0xFF000000) ∧ (off = 0x18 → u.m.host.cfgReply = (v &&& 0xFC000000) ||| 0xC) ∧
          (off = 0x1C → u.m.host.cfgReply = v) ∧ State.Frame (fun q => q = .host) s t))) ∧
    (∀ master : DWord, s.m.pathUp .pcie = true → s.m.on HlPtmCtl.auto = true → (s.m.cfgWord cfgPtmCtl).getLsbD 0 = true →
      ∃ t, exec (.ptmDialogue master) s = .next t ∧ t.m.pair HlPtmMasterLo.reg = master.toNat ∧ t.m.pair HlPtmTbLo.reg = s.m.now ∧ t.m.get HlPtmCtl.valid = 1 ∧
        State.Frame (fun q => q ∈ [Part.reg HlPtmMasterLo.reg, .reg HlPtmMasterHi.reg, .reg HlPtmTbLo.reg, .reg HlPtmTbHi.reg, .reg HlPtmCtl.reg]) s t) ∧
    (∀ (k : BitVec 7) (v : Word), s.m.pathUp .pcie = true → ∃ t, exec (.msiXTableWrite k v) s = .next t ∧
      t.m.msixDword (k.toNat / 4) (k.toNat % 4) = (if k.toNat % 4 = 0 then v &&& 0xFFFFFFFC else if k.toNat % 4 = 3 then v &&& 1 else v) ∧
      (∀ x < 32, PendingSent s t x) ∧ State.Frame (fun q => q = .host) s t)

/-! ## Message rings -/

/-- What a stop or a framed message of MSG may change: the engine, its registers, and hub SRAM (staging, R393). -/
def Sys2Proof.msgParts : Part → Prop := fun q => q = .msg ∨ (∃ a, 0x780000 ≤ a ∧ a < 0x800000 ∧ q = .reg a) ∨ ∃ a, q = .hub a

/-- R395, R401: a ring stopped with a cause: its error and cause fields, the record, nothing waiting or open there, its indices as they were. -/
def Sys2Proof.RingStopped (s t : State) (r : Fin 16) (cause : Nat) : Prop :=
  t.m.get (MsgRingStat.error r.val) = 1 ∧ t.m.get (MsgRingStat.cause r.val) = cause ∧ t.m.get MsgStatus.ringError = 1 ∧ t.m.ringStopped r.val = true ∧
    t.m.waitingFor r.val = none ∧ (t.m.buf r.val).isOpen = false ∧ t.m.hasDesc r.val = false ∧
    t.m.get (MsgRingProd.prod r.val) = s.m.get (MsgRingProd.prod r.val) ∧ t.m.get (MsgRingDone.doneTail r.val) = s.m.get (MsgRingDone.doneTail r.val) ∧
    (s.m.frc.pend.length < 16 → Recorded s.m t.m 0x0901 (srcFn 6) [])

/-- R389, R395, R396, R401, PROD_WRITE, RING_ENABLE, RING_DISABLE: a PROD that keeps at most N - 1 descriptors in device is taken, one beyond stops the ring with cause OVERPOST; disabling a ring closes its buffer, returns its descriptors,
drops what waits and keeps its indices; enabling it resumes from them. -/
def Sys2Proof.RingControl : Prop :=
  ∀ (p : Path) (r : Fin 16) (s : State), s.m.pathUp p = true → s.m.reaches 0x780000 = true →
    let done := s.m.get (MsgRingDone.doneTail r.val)
    (∀ prod : BitVec 16,
      ((prod.toNat + 2 ^ 16 - done) % 2 ^ 16 < 2 ^ s.m.get (MsgRingCtl.sizeLog2 r.val) → ∃ t, exec (.prodWrite p r prod) s = .next t ∧
        t.m.get (MsgRingProd.prod r.val) = prod.toNat ∧ State.Frame (fun q => q = .reg (MsgRingProd.reg r.val)) s t) ∧
      (2 ^ s.m.get (MsgRingCtl.sizeLog2 r.val) ≤ (prod.toNat + 2 ^ 16 - done) % 2 ^ 16 → ∃ t, exec (.prodWrite p r prod) s = .next t ∧
        RingStopped s t r 4 ∧ State.Frame msgParts s t)) ∧
    (s.m.get (MsgRingCtl.enable r.val) = 0 →
      exec (.ringDisable p r) s = .next s ∧
      ∃ t, exec (.ringEnable p r) s = .next t ∧ t.m.get (MsgRingCtl.enable r.val) = 1 ∧ t.m.ringRunning r.val = true ∧
        State.Frame (fun q => q = .msg ∨ q = .reg (MsgRingCtl.reg r.val)) s t) ∧
    (s.m.get (MsgRingCtl.enable r.val) = 1 →
      exec (.ringEnable p r) s = .next s ∧
      ∃ t, exec (.ringDisable p r) s = .next t ∧ t.m.get (MsgRingCtl.enable r.val) = 0 ∧ t.m.ringRunning r.val = false ∧ (t.m.buf r.val).isOpen = false ∧
        t.m.waitingFor r.val = none ∧ t.m.get (MsgRingProd.prod r.val) = s.m.get (MsgRingProd.prod r.val) ∧
        t.m.get (MsgRingDone.doneTail r.val) = s.m.get (MsgRingProd.prod r.val) ∧
        (s.m.bme = true → ∀ i < 2, Tab.get zeroByte t.m.host.mem (s.m.pair (MsgRingStatusLo.reg r.val) / 16 * 16 + i) =
          BitVec.ofNat 8 (s.m.get (MsgRingProd.prod r.val) / 256 ^ i)) ∧
        State.Frame (fun q => q = .msg ∨ q = .host ∨ q ∈ [Part.reg (MsgRingCtl.reg r.val), .reg (MsgRingDone.reg r.val), .reg (MsgRingDrop.reg r.val)]) s t)

/-- R376, R390, R401, COMPLETION, COMPLETION_TIMEOUT, INT_TIMER: a descriptor read that ends well gives the ring its buffer, on a 4 KiB boundary; one that ends badly is reported through AER (its bits: log entry 8) and stops the ring with its cause and its bit of HL_PCIE_STAT. The interrupt timer
raises the ring's vector for closes not yet signalled. With no read outstanding and no such close nothing happens. -/
def Sys2Proof.DescriptorReadsAndInterrupts : Prop :=
  ∀ (r : Fin 16) (s : State),
    (s.m.msg.reading.getLsbD r.val = false → exec (.completionTimeout r) s = .next s ∧ ∀ c, exec (.completion r c) s = .next s) ∧
    (s.m.msg.reading.getLsbD r.val = true →
      (∀ a : DWord, ∃ t, exec (.completion r (.ok a)) s = .next t ∧ t.m.msg.reading.getLsbD r.val = false ∧ t.m.hasDesc r.val = true ∧
        (Tab.get noDesc t.m.msg.descs r.val).toNat = a.toNat / 4096 * 4096 ∧ State.Frame (fun q => q = .msg) s t) ∧
      (∀ x ∈ [(Instr.completionTimeout r, 1, HlPcieStat.cplTmo, 14), (.completion r .ur, 2, HlPcieStat.caUrRx, 20), (.completion r .ca, 2, HlPcieStat.caUrRx, 15),
          (.completion r .poisoned, 3, HlPcieStat.poisonedRx, 12)],
        ∃ t, exec x.1 s = .next t ∧ RingStopped s t r x.2.1 ∧ t.m.get x.2.2.1 = 1 ∧ t.m.msg.reading.getLsbD r.val = false ∧
          (t.m.cfgWord cfgAerStatus).getLsbD x.2.2.2 = true ∧ State.Frame (fun q => msgParts q ∨ q = .host ∨ q = .reg HlPcieStat.reg) s t)) ∧
    (let due := 0 < s.m.closes r.val ∧ s.m.get (MsgRingInt.intTimer r.val) ≠ 0 ∧ s.m.get (MsgRingInt.intCount r.val) ≠ 0
     (¬ due → exec (.intTimer r) s = .next s) ∧
     (due → ∃ t, exec (.intTimer r) s = .next t ∧ t.m.closes r.val = 0 ∧ VectorRaised s t (Nat.max 1 (s.m.get (MsgRingInt.vector r.val))) ∧
       State.Frame (fun q => q = .msg) s t))

/-! ## Messages -/

/-- The destinations that a SEND names, 16 for EP2 IN. -/
def Sys2Proof.sendDests (p : SendP) : BitVec 17 := BitVec.ofNat 17 (p.rings.toNat + if p.usb then 2 ^ 16 else 0)

/-- The next sequence number of a message's scope (R386). -/
def Sys2Proof.scopeSeq (m : Mach) (skein : Nat) : Nat := if skein < 96 then m.sk skein 0x14 4 else m.get MsgDevSeq.seq

/-- R386, R388, R393, R404, Table HL-9, SEND: an accepted SEND takes the next number of its scope and stands in staging with its payload, for the destinations it names, and completes; without room in staging it is counted in
MSG_STAGE_DROP. One that meets a cause of Table HL-17 faults before it frames anything. FLUSH closes the open buffers of the destinations it names. -/
def Obligations.SendsAndFlushes : Prop :=
  ∀ (h : StitchHdr) (s : State), UnitReady s .msg →
    (∀ p : SendP, s.m.sendCode p = none →
      let n := p.length.toNat
      let k := p.skein.toNat
      (∀ a, s.m.stagePlace (foot n) = some a → 0x1800 ≤ a →
        (∀ d < 17, (sendDests p).getLsbD d = true → s.m.policyDrop d = true → s.m.hasRoom d (foot n) = true) →
        ∃ t x, exec (.send h p) s = .next t ∧ t.m.msg = { s.m.msg with queue := begun s .msg ⟨h, .send p⟩ true, staged := s.m.msg.staged ++ [x] } ∧
          x.type = p.type.toNat ∧ x.skein = k ∧ x.seq.toNat = scopeSeq s.m k ∧ x.length = n ∧ x.src = a ∧ x.dests = sendDests p ∧
          x.ts = (if p.tsNow then s.m.tb else p.timestamp) ∧ x.flags = (if p.frameTs then 1 else 0) ∧
          (∀ i < n, t.m.hub.byte (a + i) = s.m.hub.byte (p.src.toNat + i)) ∧ scopeSeq t.m k = (scopeSeq s.m k + 1) % 2 ^ 32 ∧
          State.Frame (fun q => msgParts q ∨ q ∈ [Part.unitQ .msg, .issue, .reg FrHsrCeCount.reg, .reg FrHsrChkCount.reg, .reg FrHsrUeCount.reg]) s t) ∧
      (s.m.stagePlace (foot n) = none → ∃ t, exec (.send h p) s = .next t ∧ t.m.msg.staged = s.m.msg.staged ∧ scopeSeq t.m k = (scopeSeq s.m k + 1) % 2 ^ 32 ∧
        t.m.get MsgStageDrop.count = (s.m.get MsgStageDrop.count + 1) % 2 ^ 32 ∧ t.m.get MsgStatus.stageFull = 1)) ∧
    (∀ (p : SendP) (c : Nat), s.m.sendCode p = some c → ∃ t, exec (.send h p) s = .next t ∧ StitchFaulted s t h 8 c ∧ t.m.get MsgFaultLast.code = c ∧
      t.m.get MsgFaultLast.valid = 1 ∧ t.m.get MsgStatus.fault = 1 ∧
      State.Frame (fun q => q ∈ [Part.core h.poster, .reg MsgFaultLast.reg, .reg MsgStatus.reg, .reg FrHsrCeCount.reg, .reg FrHsrChkCount.reg, .reg FrHsrUeCount.reg]) s t) ∧
    (∀ (rings : BitVec 16) (usb : Bool), s.m.bme = true → ∃ t, exec (.flush h rings usb) s = .next t ∧
      (∀ r : Fin 16, rings.getLsbD r.val = true → (t.m.buf r.val).isOpen = false ∧
        t.m.get (MsgRingDone.doneTail r.val) = (s.m.get (MsgRingDone.doneTail r.val) + if (s.m.buf r.val).isOpen then 1 else 0) % 2 ^ 16) ∧
      (∀ r : Fin 16, rings.getLsbD r.val = false → t.m.buf r.val = s.m.buf r.val ∧ t.m.get (MsgRingDone.doneTail r.val) = s.m.get (MsgRingDone.doneTail r.val)) ∧
      t.m.msg.usbReady = (if usb = true ∧ (s.m.buf 16).isOpen = true then s.m.msg.usbReady ++ [s.m.buf 16] else s.m.msg.usbReady) ∧
      t.m.unitQ .msg = begun s .msg ⟨h, .flush rings usb⟩ true ∧
      State.Frame (fun q => q ∈ [Part.msg, .host, .unitQ .msg, .issue] ∨ ∃ r : Fin 16, q = .reg (MsgRingDone.reg r.val)) s t)

/-- The count of messages dropped at a destination (R391, R392). -/
def Sys2Proof.dropCount (m : Mach) (d : Dest) : Nat := match d with | .ring r => m.get (MsgRingDrop.count r.val) | .usb => m.get MsgUsbDrop.count

/-- The first message that waits at a destination is gone from there, counted, and its scope is owed a gap. -/
def Sys2Proof.DroppedAt (s t : State) (d : Dest) (x : Msg) : Prop :=
  t.m.msg.staged = servedAt (destNo d) s.m.msg.staged ∧ dropCount t.m d = (dropCount s.m d + 1) % 2 ^ 32 ∧ (destNo d, scopeOf x.skein) ∈ t.m.msg.gap ∧
    State.Frame (fun q => q ∈ [Part.msg, .reg MsgUsbDrop.reg] ∨ ∃ r : Fin 16, q = .reg (MsgRingDrop.reg r.val)) s t

/-- A byte of host memory as the device has written it. -/
def Sys2Proof.hostByte (s : State) (a : Nat) : Byte := Tab.get zeroByte s.m.host.mem a

/-- R385, R390, R391, R392, Table HL-6, MESSAGE_DELIVERY, HOLD_EXPIRY: the oldest message that waits at a destination is packed into its open buffer when it fits, as header, payload and CRC in its footprint; a ring that needs a descriptor first reads it;
a destination without room drops the message under DROP and holds it under HOLD until its time runs out. -/
def Sys2Proof.MessagesAreDelivered : Prop :=
  ∀ (d : Dest) (s : State), s.m.up fnMsg = true →
    (s.m.waitingFor (destNo d) = none → exec (.messageDelivery d) s = .next s ∧ exec (.holdExpiry d) s = .next s) ∧
    (∀ x, s.m.waitingFor (destNo d) = some x →
      let n := foot x.length
      let b := s.m.buf (destNo d)
      (s.m.hasRoom (destNo d) n = true → b.fits n = true → s.m.coalesceOf (destNo d) ≠ 0 → s.m.hub.ues x.src (roundUp x.length 4) = [] →
        ∃ t y, exec (.messageDelivery d) s = .next t ∧ t.m.buf (destNo d) = { b with bytes := b.bytes ++ y, scopes := b.scopes ++ [scopeOf x.skein], places := b.places ++ [x.place] } ∧
          y.length = n ∧ leNat (y.take 2) = 0x5356 ∧ y[2]? = some (BitVec.ofNat 8 x.type) ∧ y[3]? = some (BitVec.ofNat 8 x.skein) ∧
          leNat ((y.drop 6).take 2) = x.length % 2 ^ 16 ∧ leNat ((y.drop 8).take 4) = x.seq.toNat ∧ y[14]? = some (BitVec.ofNat 8 (destNo d)) ∧
          leNat ((y.drop 16).take 8) = x.ts.toNat ∧ leNat ((y.drop 28).take 4) = (crc32c (y.take 28)).toNat ∧
          (∀ i < x.length, y[32 + i]? = some (s.m.hub.byte (x.src + i))) ∧
          t.m.msg.staged = servedAt (destNo d) s.m.msg.staged ∧
          State.Frame (fun q => q ∈ [Part.msg, .reg FrHsrCeCount.reg, .reg FrHsrChkCount.reg, .reg FrHsrUeCount.reg]) s t) ∧
      (∀ r : Fin 16, d = .ring r → s.m.hasRoom r.val n = true → b.isOpen = false → s.m.hasDesc r.val = false →
        ∃ t, exec (.messageDelivery d) s = .next t ∧ t.m.msg = { s.m.msg with reading := s.m.msg.reading ||| BitVec.ofNat 16 (2 ^ r.val) } ∧
          State.Frame (fun q => q = .msg) s t) ∧
      (s.m.hasRoom (destNo d) n = false →
        (s.m.policyDrop (destNo d) = true → ∃ t, exec (.messageDelivery d) s = .next t ∧ DroppedAt s t d x) ∧
        (s.m.policyDrop (destNo d) = false → exec (.messageDelivery d) s = .next s) ∧
        ∃ t, exec (.holdExpiry d) s = .next t ∧ DroppedAt s t d x) ∧
      (s.m.hasRoom (destNo d) n = true → exec (.holdExpiry d) s = .next s))

/-- R377, R390, R392, Tables HL-10 and HL-11, BUFFER_CLOSE_TIMER: closing a ring's buffer writes its bytes at its descriptor's address, then bytes filled, count and the TIMER flag into the descriptor, then the status block with done_tail, and counts toward the
interrupt; an open buffer of EP2 IN becomes ready to send. With Bus Master Enable 0 a ring's buffer is only marked, and with coalesce 0 there is no timer. -/
def Sys2Proof.BuffersClose : Prop :=
  ∀ s : State,
    (∀ d : Dest, s.m.coalesceOf (destNo d) = 0 ∨ (s.m.buf (destNo d)).isOpen = false → exec (.bufferCloseTimer d) s = .next s) ∧
    (s.m.coalesceOf 16 ≠ 0 → (s.m.buf 16).isOpen = true → ∃ t, exec (.bufferCloseTimer .usb) s = .next t ∧
      t.m.msg.usbReady = s.m.msg.usbReady ++ [s.m.buf 16] ∧ (t.m.buf 16).isOpen = false ∧ State.Frame (fun q => q = .msg) s t) ∧
    (∀ r : Fin 16, s.m.coalesceOf r.val ≠ 0 → (s.m.buf r.val).isOpen = true →
      let b := s.m.buf r.val
      let done := s.m.get (MsgRingDone.doneTail r.val)
      let data := (Tab.get noDesc s.m.msg.descs r.val).toNat
      let desc := s.m.descAddr r.val done + 8
      let status := s.m.pair (MsgRingStatusLo.reg r.val) / 16 * 16
      let head := leBytes 2 b.bytes.length ++ leBytes 2 b.scopes.length ++ [0x02, 0, 0, 0]
      (s.m.bme = false → ∃ t, exec (.bufferCloseTimer (.ring r)) s = .next t ∧ t.m.buf r.val = { b with due := true } ∧ State.Frame (fun q => q = .msg) s t) ∧
      (s.m.bme = true → ∃ t, exec (.bufferCloseTimer (.ring r)) s = .next t ∧
        (∀ a, hostByte t a =
          if status ≤ a ∧ a < status + 16 then
            (leBytes 2 ((done + 1) % 2 ^ 16) ++ [0, 0] ++ leBytes 4 (s.m.get (MsgRingDrop.count r.val)) ++ leBytes 8 s.m.now).getD (a - status) 0
          else if desc ≤ a ∧ a < desc + 8 then head.getD (a - desc) 0
          else if data ≤ a ∧ a < data + b.bytes.length then b.bytes.getD (a - data) 0
          else hostByte s a) ∧
        t.m.get (MsgRingDone.doneTail r.val) = (done + 1) % 2 ^ 16 ∧ (t.m.buf r.val).isOpen = false ∧ t.m.hasDesc r.val = false ∧
        (let c := s.m.get (MsgRingInt.intCount r.val)
         if c ≠ 0 ∧ c ≤ s.m.closes r.val + 1 then t.m.closes r.val = 0 ∧ VectorRaised s t (Nat.max 1 (s.m.get (MsgRingInt.vector r.val)))
         else t.m.closes r.val = s.m.closes r.val + 1 ∧ t.m.host.msix = s.m.host.msix) ∧
        State.Frame (fun q => q ∈ [Part.msg, .host, .reg (MsgRingDone.reg r.val)]) s t))

/-! ## USB -/

/-- The places of HL_USB_STAT and the books of EP2 IN and domain 6 that a de-configuration changes. -/
def Sys2Proof.usbParts : Part → Prop := fun q => q ∈ [Part.pw, .reg HlUsbStat.reg, .msg, .reg MsgUsbDrop.reg, .ae]

/-- R379, R380, R399, USB_VBUS, USB_BUS_RESET, USB_SUSPEND, USB_RESUME, ALTERNATE_SETTING, FEATURE_UNIT: the device attaches with VBUS and detaches without it; a bus reset de-configures it, sets bus_reset and drops the ready buffers of EP2 IN; suspend keeps the
configuration; alternate settings and feature units act while the audio interfaces are there. That an attached device is configured at once is the model's (log entry 54). -/
def Sys2Proof.UsbDeviceStates : Prop :=
  ∀ s : State,
    (s.m.up fnUsb = true → ∃ t, exec (.usbVbus true) s = .next t ∧ t.m.pw = { s.m.pw with vbus := true } ∧ t.m.get HlUsbStat.attached = 1 ∧ t.m.get HlUsbStat.configured = 1 ∧
      State.Frame usbParts s t) ∧
    (∃ t, exec (.usbVbus false) s = .next t ∧ t.m.pw = { s.m.pw with vbus := false } ∧ t.m.get HlUsbStat.attached = 0 ∧ t.m.get HlUsbStat.configured = 0 ∧
      t.m.msg.usbReady = [] ∧ State.Frame usbParts s t) ∧
    (s.m.usbAttached = false → ∀ i ∈ [Instr.usbBusReset, .usbSuspend, .usbResume, .lastStatus, .alternateSetting true 1, .alternateSetting false 1],
      exec i s = .next s) ∧
    (s.m.usbAttached = true →
      (∃ t, exec .usbBusReset s = .next t ∧ t.m.get HlUsbStat.configured = 0 ∧ t.m.get HlUsbStat.busReset = 1 ∧ t.m.get HlUsbStat.attached = 1 ∧
        t.m.get HlUsbStat.capActive = 0 ∧ t.m.get HlUsbStat.playActive = 0 ∧ t.m.msg.usbReady = [] ∧
        t.m.get MsgUsbDrop.count = (s.m.get MsgUsbDrop.count + (s.m.msg.usbReady.flatMap Buf.scopes).length) % 2 ^ 32 ∧ State.Frame usbParts s t) ∧
      (∃ t, exec .usbSuspend s = .next t ∧ t.m.get HlUsbStat.suspended = 1 ∧ t.m.get HlUsbStat.configured = s.m.get HlUsbStat.configured ∧
        State.Frame (fun q => q = .reg HlUsbStat.reg) s t) ∧
      (∃ t, exec .usbResume s = .next t ∧ t.m.get HlUsbStat.suspended = 0 ∧ t.m.get HlUsbStat.configured = s.m.get HlUsbStat.configured ∧
        State.Frame (fun q => q = .reg HlUsbStat.reg) s t) ∧
      (s.m.on HlUsbStat.degraded = false →
        (∀ x ∈ [(true, HlUsbStat.capActive), (false, HlUsbStat.playActive)], ∀ v : Fin 2, ∃ t, exec (.alternateSetting x.1 v) s = .next t ∧ t.m.get x.2 = v.val ∧
          t.m.get HlUsbStat.configured = 1 ∧ State.Frame (fun q => q = .reg HlUsbStat.reg) s t) ∧
        (∀ (capture : Bool) (ch : Fin 8) (mute : Bool) (halfDb : BitVec 8),
          let i := (if capture then 8 else 0) + ch.val
          ∃ t, exec (.featureUnit capture ch mute halfDb) s = .next t ∧ t.m.host.mutes.getLsbD i = mute ∧
            (∀ j, j ≠ i → t.m.host.mutes.getLsbD j = s.m.host.mutes.getLsbD j) ∧
            (vget t.m.host.volumes (ix 16 i)).toNat = Nat.min halfDb.toNat 120 ∧ State.Frame (fun q => q = .host) s t)))

/-- R4, R13, R381, R382, R392, Table HL-4, REG_READ, REG_WRITE, LAST_STATUS, BULK_OUT, BULK_IN_ACK: a vendor read answers the word and its status, a vendor write leaves its status and counts; a bulk transfer fills the next inbox slot, length, zeros and data, and signals its event, NAK
while that slot is not free; an acknowledged buffer of EP2 IN is free. -/
def Sys2Proof.UsbTransfers : Prop :=
  ∀ s : State, s.m.usbAttached = true →
    (∀ (a : BitVec 24) (g : Option (Fin 19)), a.toNat % 4 = 0 → target a.toNat = .reg g → pairOf a.toNat = none → coreAt a.toNat = none → ocTile a.toNat = none →
      s.m.dzWaits a.toNat = false → ∃ t, exec (.regRead a) s = .next t ∧
        t.m.host.usbReply = (if s.m.reaches a.toNat then leBytes 4 (s.m.live a.toNat).toNat else [0, 0, 0, 0]) ++ [0, 0, 0, 0] ∧ State.Frame (fun q => q = .host) s t) ∧
    (NoStepAsked s → ∀ (a : BitVec 24) (v : Word), s.m.dzWaits a.toNat = false → s.m.writeReaches a.toNat 4 = false ∨ target a.toNat = .unassigned ∨ a.toNat % 4 ≠ 0 →
      ∃ t, exec (.regWrite a v) s = .next t ∧ t.m.host = { s.m.host with usbLast := .ok, usbWrites := s.m.host.usbWrites + 1 } ∧ State.Frame (fun q => q = .host) s t) ∧
    (NoStepAsked s → ∀ (tile : Fin 4) (v : Word), s.m.reaches (SpWinPage.reg tile) = true →
      ∃ t, exec (.regWrite (BitVec.ofNat 24 (SpWinPage.reg tile)) v) s = .next t ∧ t.m.get (SpWinPage.page tile) = (SpWinPage.page tile).of v ∧
        t.m.host = { s.m.host with usbLast := .ok, usbWrites := s.m.host.usbWrites + 1 } ∧ State.Frame (fun q => q = .host ∨ q = .reg (SpWinPage.reg tile)) s t) ∧
    (∃ t, exec .lastStatus s = .next t ∧ t.m.host.usbReply = BitVec.ofNat 8 s.m.host.usbLast.code :: leBytes 3 s.m.host.usbWrites.toNat ∧
      State.Frame (fun q => q = .host) s t) ∧
    (s.m.usbReadyForIn = true → ∃ t, exec .bulkInAck s = .next t ∧ t.m.msg = { s.m.msg with usbReady := s.m.msg.usbReady.tail } ∧ State.Frame (fun q => q = .msg) s t) ∧
    (∀ bytes : List Byte, bytes ≠ [] → bytes.length ≤ 4096 → s.m.on HlUsbStat.configured = true → s.m.on HlUsbStat.suspended = false →
      let n := s.m.inboxSlots
      let a := s.m.inboxBase + 4160 * (s.m.host.inboxNext % n)
      let books := fun q => q ∈ [Part.host, .reg FrHsrCeCount.reg, .reg FrHsrChkCount.reg, .reg FrHsrUeCount.reg]
      a + 4160 ≤ 2 ^ 21 → s.m.hub.ues a 4 = [] →
      (s.m.hubNat a 4 ≠ 0 → ∃ t, exec (.bulkOut bytes) s = .next t ∧ t.m.host = { s.m.host with nak := true } ∧ State.Frame books s t) ∧
      (∀ c : Fin 10, s.m.hubNat a 4 = 0 → s.m.get MsgUsbCfg.inboxCore = c.val → s.m.up (coreFn c) = true → (s.m.core c).st ∉ [CoreSt.reset, .wait] →
        let e : Fin 64 := ⟨s.m.get MsgUsbCfg.inboxEvent % 64, Nat.mod_lt _ (by decide)⟩
        ((s.m.core c).counts[e]).toNat < 255 →
        ∃ t, exec (.bulkOut bytes) s = .next t ∧ t.m.hubNat a 4 = bytes.length ∧ (∀ i (h : i < bytes.length), t.m.hub.byte (a + 64 + i) = bytes[i]) ∧
          t.m.host = { s.m.host with inboxNext := (s.m.host.inboxNext % n + 1) % n, nak := false } ∧
          t.m.core c = { s.m.core c with counts := (s.m.core c).counts.set e ((s.m.core c).counts[e] + 1) } ∧
          State.Frame (fun q => books q ∨ q = .core c ∨ ∃ i < 64 + bytes.length, q = .hub (a + i)) s t))

/-! ## SPI -/

/-- The frame that a READ returns: 0xA5, data most significant byte first, status, CRC-8 over command, address and data (R383, Table HL-5). -/
def Sys2Proof.spiReadFrame (a v status : Nat) : List Byte :=
  let data := (leBytes 4 v).reverse
  [0xA5] ++ data ++ [BitVec.ofNat 8 status, crc8 ([0x0B] ++ (leBytes 3 a).reverse ++ data)]

/-- R383, R384, R403, Table HL-5, SPI_READ, SPI_READ_TIMEOUT, SPI_WRITE, SPI_STATUS: a READ returns the word and OK, one that waits too long zeros with TIMEOUT and its sticky bit; a WRITE of nine bytes with the right CRC-8 is performed and counted, with a wrong one its result is CRC_BAD and crc_err is
set, and an early end sets abort; STATUS returns the last result and the count. The CRC-8 of "123456789" is 0xF4. -/
def Obligations.SpiFrames : Prop :=
  crc8 [0x31, 0x32, 0x33, 0x34, 0x35, 0x36, 0x37, 0x38, 0x39] = 0xF4 ∧
  ∀ s : State, s.m.up fnSpi = true →
    (∀ (a : BitVec 24) (g : Option (Fin 19)), a.toNat % 4 = 0 → target a.toNat = .reg g → pairOf a.toNat = none → coreAt a.toNat = none → ocTile a.toNat = none →
      s.m.dzWaits a.toNat = false →
      (∃ t, exec (.spiRead a) s = .next t ∧ t.m.host.spiReply = spiReadFrame a.toNat (if s.m.reaches a.toNat then (s.m.live a.toNat).toNat else 0) 0 ∧
        State.Frame (fun q => q = .host) s t) ∧
      (∃ t, exec (.spiReadTimeout a) s = .next t ∧ t.m.host.spiReply = spiReadFrame a.toNat 0 5 ∧ t.m.get HlSpiStat.timeout = 1 ∧
        State.Frame (fun q => q = .host ∨ q = .reg HlSpiStat.reg) s t)) ∧
    (NoStepAsked s → ∀ bytes : List Byte,
      (bytes.length < 9 → ∃ t, exec (.spiWrite bytes) s = .next t ∧ t.m.get HlSpiStat.abort = 1 ∧ t.m.get HlSpiStat.writes = s.m.get HlSpiStat.writes ∧
        State.Frame (fun q => q = .reg HlSpiStat.reg) s t) ∧
      (9 ≤ bytes.length → crc8 (bytes.take 8) ≠ bytes.getD 8 0 → ∃ t, exec (.spiWrite bytes) s = .next t ∧ t.m.get HlSpiStat.crcErr = 1 ∧
        t.m.get HlSpiStat.lastResult = 6 ∧ t.m.get HlSpiStat.writes = s.m.get HlSpiStat.writes ∧ State.Frame (fun q => q = .reg HlSpiStat.reg) s t)) ∧
    (NoStepAsked s → ∀ (tile : Fin 4) (v : Word), s.m.reaches (SpWinPage.reg tile) = true →
      let frame := ([0x02] : List Byte) ++ (leBytes 3 (SpWinPage.reg tile)).reverse ++ (leBytes 4 v.toNat).reverse
      ∃ t, exec (.spiWrite (frame ++ [crc8 frame])) s = .next t ∧ t.m.get (SpWinPage.page tile) = (SpWinPage.page tile).of v ∧
        t.m.get HlSpiStat.writes = (s.m.get HlSpiStat.writes + 1) % 256 ∧ t.m.get HlSpiStat.lastResult = 0 ∧
        State.Frame (fun q => q = .reg HlSpiStat.reg ∨ q = .reg (SpWinPage.reg tile)) s t) ∧
    (∃ t, exec .spiStatus s = .next t ∧ t.m.host.spiReply = [BitVec.ofNat 8 (s.m.get HlSpiStat.lastResult), BitVec.ofNat 8 (s.m.get HlSpiStat.writes)] ∧
      State.Frame (fun q => q = .host) s t)

/-! ## Frogs and bind-offs -/

/-- FRC may begin a request at once: nothing is in progress or queued, no transition runs and no power target is latched (R54, R70, R423). -/
abbrev Sys2Proof.FrcFree (s : State) : Prop := s.m.frcReady = true ∧ s.m.frc.queue = [] ∧ s.m.on GlPstateStat.pendValid = false

/-- What FENCE changes: FRC's books, the function's state, its swatch tests; for function 0x06 the message engine, which settles its rings (R397); for the annealer the accesses that waited for its test, which are
answered (R334); for an audio domain its outputs, which fall silent (R369). -/
def Sys2Proof.fenceParts (f : Fin 19) : Part → Prop := fun q =>
  q ∈ [Part.frc, .fn f, .swatch, .reg DzStatus.reg, .reg FrStatus.reg] ∨ (f = 6 ∧ (msgParts q ∨ q = .host)) ∨
    (f = 4 ∧ (q ∈ [Part.dza, .host] ∨ ∃ c, q = .core c)) ∨ (10 ≤ f.val ∧ f.val ≤ 15 ∧ q = .ae)

/-- FENCE of a function has begun. -/
def Sys2Proof.FenceBegun (s t : State) (f : Fin 19) (kind : FrogKind) : Prop :=
  (∃ r, t.m.frc.cur = some r ∧ r.fn = f.val ∧ r.kind = kind ∧ r.step = .fence ∧ r.start = s.m.now) ∧
    t.m.fn f = (if kind = .frog then .frogging else .down) ∧ State.Frame (fenceParts f) s t

/-- R415, R421, R423, FROG, BIND_OFF, ENABLE: a request begins at once when FRC is free. A frog and a bind-off fence the function; the fifth frog within 1 s is a bind-off and recorded; ENABLE restarts the clocks of a bound-off function. A frog or bind-off of a
bound-off function and an ENABLE of another have no effect, and a function never brought into service sets req_denied; while an escalated re-cast is starting a request is discarded (R426). R409, POP: the oldest pending record is taken. -/
def Obligations.FrogRequests : Prop :=
  ∀ (p : Path) (s : State), s.m.pathUp p = true → s.m.reaches 0x30000 = true →
    (s.m.frc.escStarting = true → ∀ (n : BitVec 5), ∀ i ∈ [Instr.frog p n, .bindOff p n, .enable p n], exec i s = .next s) ∧
    (∀ (f : Fin 19) (n : BitVec 5), n.toNat = f.val → FrcFree s → s.m.frc.escStarting = false →
      (s.m.fn f = .up →
        (s.m.atFrogLimit f.val = false → ∃ t, exec (.frog p n) s = .next t ∧ FenceBegun s t f .frog ∧
          Tab.get noFrogs t.m.frc.history f.val = (s.m.now :: s.m.frogTimes f.val).take 4) ∧
        (s.m.atFrogLimit f.val = true → s.m.frc.pend.length < 16 → ∃ t, exec (.frog p n) s = .next t ∧ FenceBegun s t f .bindOff ∧
          Recorded s.m t.m 0x0A04 (srcFn f.val) [] ∧ t.m.get FrStatus.frogLimit = 1) ∧
        (∃ t, exec (.bindOff p n) s = .next t ∧ FenceBegun s t f .bindOff) ∧ exec (.enable p n) s = .next s) ∧
      (s.m.fn f = .off → exec (.frog p n) s = .next s ∧ exec (.bindOff p n) s = .next s ∧
        ∃ t, exec (.enable p n) s = .next t ∧
          t.m.frc.cur = some { fn := f.val, kind := .enable, step := .reset, start := s.m.now, stepping := [] } ∧
          (∀ i : Fin 264, t.m.isl i = if insideFn f.val i.val then { s.m.isl i with stopped := false, lastRead := none } else s.m.isl i) ∧
          State.Frame (fun q => q = .frc ∨ ∃ i, q = .island i) s t) ∧
      (s.m.fn f = .down → ∀ i ∈ [Instr.frog p n, .bindOff p n, .enable p n], ∃ t, exec i s = .next t ∧ t.m.get FrStatus.reqDenied = 1 ∧
        State.Frame (fun q => q = .reg FrStatus.reg) s t)) ∧
    (∀ n : BitVec 5, 19 ≤ n.toNat → ∀ i ∈ [Instr.frog p n, .bindOff p n, .enable p n], exec i s = .next s) ∧
    (∃ t, exec (.pop p) s = .next t ∧ t.m.frc = { s.m.frc with pend := s.m.frc.pend.tail } ∧ State.Frame (fun q => q = .frc) s t)

/-- FRC's books of the frog that ended (FR_FROG_LAST). -/
def Sys2Proof.FrogEnded (t : State) (f : Fin 19) (outcome : Nat) : Prop :=
  t.m.frc.cur = none ∧ t.m.get FrFrogLast.outcome = outcome ∧ t.m.get FrFrogLast.func = f.val ∧ t.m.get FrFrogLast.valid = 1

/-- A function is bound off: it reads OFF and the clocks of its islands stand. -/
def Sys2Proof.BoundOff (t : State) (f : Fin 19) : Prop :=
  t.m.fn f = .off ∧ ∀ i : Fin 264, insideFn f.val i.val = true → (t.m.isl i).stopped = true

/-- R131, R161, R227, R263, R268, R415, R418, R419, Table FR-6, CUT, REJOIN, FROG_DONE: CUT empties the links into the function with 8 credits, answers with VOID the requests that the function holds without a reply, ends its stitches, clears its cores and keeps its scratchpad and function tables; a frog then restarts its clocks, a bind-off ends. A failed clock
check ends the frog as a bind-off with FROG_FAIL; a good one begins REJOIN, at whose end the function is in service again and a frog is counted. -/
def Obligations.FrogSteps : Prop :=
  ∀ (r : FrogRun) (f : Fin 19) (s : State), s.m.frc.cur = some r → r.fn = f.val → s.m.frc.queue = [] → s.m.on GlPstateStat.pendValid = false →
    (r.step = .fence → ∃ t, exec .cut s = .next t ∧ t.pending = s.pending ∧
      (∀ k, insideFn f.val (linkDst k) = true → (linkOf t.links k).credits = 8 ∧ (linkOf t.links k).fifo = [] ∧ (linkOf t.links k).returning = 0) ∧
      ((∀ e ∈ s.links, e.2 ≠ Link.reset) → ∀ k, insideFn f.val (linkSrc k) = false → insideFn f.val (linkDst k) = false → linkOf t.links k = linkOf s.links k) ∧
      (∀ x ∈ s.net.reqs, insideFn f.val x.dst = true → x.inside = true → x.replied = false → t.net.find x.who = none) ∧
      (∀ x ∈ s.net.reqs, insideFn f.val x.src = false → insideFn f.val x.dst = false → x ∈ t.net.reqs ∨ ∃ y ∈ s.net.reqs, y ≠ x ∧ y.who = x.who) ∧
      (∀ c ∈ fnCores f.val, (t.m.core c).st = .reset ∧ (t.m.core c).imem = (s.m.core c).imem) ∧
      (∀ x : Fin 4, f = tileFn x → (∀ u ∈ tileUnits x, t.m.unitQ u = UnitQ.empty) ∧ (t.m.tile x).sp.mem = (s.m.tile x).sp.mem ∧
        (t.m.tile x).ve.tables = (s.m.tile x).ve.tables) ∧
      (r.kind = .bindOff → BoundOff t f ∧ FrogEnded t f 1) ∧
      (r.kind ≠ .bindOff → t.m.frc.cur = some { r with step := .reset } ∧ (∀ g, t.m.fn g = s.m.fn g) ∧
        ∀ i : Fin 264, insideFn f.val i.val = true → (t.m.isl i).stopped = false)) ∧
    (r.step ≠ .fence → exec .cut s = .next s) ∧
    (r.step = .reset →
      (∃ t, exec (.rejoin none) s = .next t ∧ t.m.frc.cur = some { r with step := .rejoin } ∧ t.pending = s.pending ∧ t.links = rejoinLinks f.val s.links ∧ t.net = s.net) ∧
      (∀ i : Fin 264, islandFn i.val = some f → s.m.frc.pend.length < 16 → ∃ t, exec (.rejoin (some i)) s = .next t ∧ BoundOff t f ∧ FrogEnded t f 2 ∧
        t.m.get FrStatus.frogFail = 1 ∧ Recorded s.m t.m 0x0A03 { fn := f.val, island := i.val } [] ∧
        State.Frame (fun q => q ∈ [Part.frc, .fn f, .reg FrStatus.reg, .reg FrFrogLast.reg, .nvm, .ll, .waiting] ∨ ∃ j, q = .island j) s t)) ∧
    (r.step ≠ .reset → ∀ x, exec (.rejoin x) s = .next s) ∧
    (r.step = .rejoin → ∃ t, exec .frogDone s = .next t ∧ t.m.fn f = .up ∧ FrogEnded t f 0 ∧
      t.m.get FrFrogCount.count = (if r.kind = .frog then Nat.min (s.m.get FrFrogCount.count + 1) (2 ^ 32 - 1) else s.m.get FrFrogCount.count) ∧
      t.pending = s.pending ∧ t.links = s.links ∧ t.net = s.net) ∧
    (r.step ≠ .rejoin → exec .frogDone s = .next s)

/-! ## Swatch tests -/

/-- What a swatch command may change: the instances, their registers, and the march of a scratchpad. -/
def Sys2Proof.swatchParts : Part → Prop := fun q =>
  q ∈ [Part.swatch, .reg FrSwStat.reg, .reg FrSwRunCount.reg, .reg FrSwAbandonCount.reg, .reg FrSwFailCount.reg, .reg DzStatus.reg] ∨
    ∃ t : Fin 4, q ∈ [Part.sp t, .reg (MxStatus.reg t), .reg (VeStatus.reg t)]

/-- What a failed test logs: code, source, arguments (Table FR-5). -/
def Sys2Proof.swatchFault (s : State) (a0 a1 : Word) : SwatchInst → Nat × Src × List Nat
  | .array t _ => (0x0402, srcFn t.val, [a0.toNat, a1.toNat])
  | .spBank t => (0x0306, srcBank t ((s.m.tile t).sp.marching.getD 0), [(s.m.tile t).sp.marching.getD 0, a1.toNat % 20480])
  | .ve t => (0x0404, srcFn t.val, [])
  | .dza => (0x0703, srcFn 4, [])

/-- R157, R413, R414, Table FR-5, SWATCH_WINDOW, SWATCH_TEST_START, SWATCH_TEST_END: a window opens for each enabled instance while the phase is RUNNING and its function in service; a test starts in its window once the block meets the start condition; one that completes is counted and ends its
run of misses, a failed one is counted and recorded; one that is abandoned, or that a stitch or access has broken off, is counted, and the sixteenth miss in a row starves its instance. -/
def Obligations.SwatchTests : Prop :=
  ∀ s : State,
    (∃ t, exec .swatchWindow s = .next t ∧
      (∀ k < 25, (s.m.swatchSt k).running = false →
        ((t.m.swatchSt k).isOpen = true ↔ s.m.phase = 2 ∧ (s.m.get FrSwCfg.enable).testBit (swatchKind k) = true ∧ s.m.up (ix 19 (swatchFn k)) = true) ∧
        (t.m.swatchSt k).consec = (if (s.m.swatchSt k).isOpen = true ∧ s.m.swatchEligible k = true
          then (if (s.m.swatchSt k).consec + 1 = 16 then 0 else (s.m.swatchSt k).consec + 1) else (s.m.swatchSt k).consec)) ∧
      (∀ k < 25, (s.m.swatchSt k).running = true → t.m.swatchSt k = s.m.swatchSt k) ∧ State.Frame swatchParts s t) ∧
    (∀ (i : SwatchInst) (compared : BitVec 4), (i = .dza → s.m.dza.held = []) →
      let k := swatchKey i
      let x := s.m.swatchSt k
      let ready := x.isOpen = true ∧ x.running = false ∧ s.m.phase = 2 ∧ s.m.up (ix 19 (swatchFn k)) = true ∧ s.m.swatchReady compared i = true
      (ready → ∃ t, exec (.swatchTestStart i compared) s = .next t ∧
        t.m.swatchSt k = { x with running := true, arrays := match i with | .array _ _ => compared | _ => 0 } ∧ (∀ j, j ≠ k → t.m.swatchSt j = s.m.swatchSt j) ∧
        (i = .dza → t.m.on DzStatus.swatchActive = true) ∧ State.Frame swatchParts s t) ∧
      (¬ ready → exec (.swatchTestStart i compared) s = .next s) ∧
      (x.running = false → ∀ o, exec (.swatchTestEnd i o) s = .next s) ∧
      (x.running = true → s.m.frc.pend.length < 16 →
        let ended := fun (t : State) (o : SwatchOutcome) => exec (.swatchTestEnd i o) s = .next t ∧ (t.m.swatchSt k).running = false ∧ (t.m.swatchSt k).isOpen = false ∧
          (i = .dza → t.m.on DzStatus.swatchActive = false) ∧ State.Frame swatchParts s t
        (s.m.testBroken i = false → ∃ t, ended t .passed ∧ (t.m.swatchSt k).consec = 0 ∧ t.m.get FrSwRunCount.count = Nat.min (s.m.get FrSwRunCount.count + 1) (2 ^ 32 - 1)) ∧
        (s.m.testBroken i = false → ∀ a0 a1 : Word, ∃ t, ended t (.failed a0 a1) ∧ (t.m.swatchSt k).consec = 0 ∧
          t.m.get FrSwRunCount.count = Nat.min (s.m.get FrSwRunCount.count + 1) (2 ^ 32 - 1) ∧
          t.m.get FrSwFailCount.count = Nat.min (s.m.get FrSwFailCount.count + 1) (2 ^ 32 - 1) ∧
          (let y := swatchFault s a0 a1 i
           Recorded s.m t.m y.1 y.2.1 y.2.2)) ∧
        (∀ o, o = .abandoned ∨ s.m.testBroken i = true → ∃ t, ended t o ∧ t.m.get FrSwAbandonCount.count = Nat.min (s.m.get FrSwAbandonCount.count + 1) (2 ^ 32 - 1) ∧
          (x.consec ≠ 15 → (t.m.swatchSt k).consec = x.consec + 1) ∧
          (x.consec = 15 → (t.m.swatchSt k).consec = 0 ∧ (t.m.reg FrSwStat.reg).getLsbD k = true ∧ t.m.get FrStatus.starved = 1 ∧
            Recorded s.m t.m 0x0A01 (srcFn (swatchFn k)) [k]))))

/-! ## Gauges -/

/-- R432, R434, R435, R439, R441, R447, R449, DUMP_NOW, DUMP_COMPLETE, GAUGE_CLEAR: a dump latches the counters under the next sequence number, a tick during a dump is skipped and counted; the end of the dump writes the 712 bytes to the filling buffer, which becomes the readable one; a clear puts the
counts, overflow counts and status of a block to zero and keeps its configuration. -/
def Obligations.GaugeDumps : Prop :=
  ∀ s : State,
    (∀ p : Path, s.m.pathUp p = true → s.m.reaches (gaugeRegs 4) = true →
      (s.m.dump = none → ∃ t d, exec (.dumpNow p) s = .next t ∧ t.m.dump = some d ∧ d.tick = s.m.tb ∧ d.bytes.length = 712 ∧ t.m.dumpSeq = s.m.dumpSeq + 1 ∧
        leNat (d.bytes.take 4) = s.m.dumpSeq.toNat ∧ d.bytes[4]? = some 1 ∧ leNat ((d.bytes.drop 8).take 8) = s.m.now ∧
        leNat ((d.bytes.drop 0x2C0).take 4) = s.m.dumpSeq.toNat ∧
        (∀ (b : Fin 5) (c : Fin 8), s.m.gaugeUp b = true → leNat ((d.bytes.drop (0x40 + 128 * b.val + 8 * c.val)).take 6) = (vget (vget s.m.gauges b).counts c).toNat) ∧
        State.Frame (fun q => q ∈ [Part.dump, .dumpSeq]) s t) ∧
      (s.m.dump ≠ none → ∃ t, exec (.dumpNow p) s = .next t ∧ t.m.get GaDumpStat.skipped = Nat.min (s.m.get GaDumpStat.skipped + 1) 65535 ∧
        State.Frame (fun q => q = .reg GaDumpStat.reg) s t)) ∧
    (s.m.dump = none → exec .dumpComplete s = .next s) ∧
    (∀ d, s.m.dump = some d → d.bytes.length = 712 → s.m.on GaDumpCtl.msg = false →
      let n := 1 - s.m.get GaDumpStat.readable
      let a := if n = 0 then 0x1DE800 else 0x1DEC00
      ∃ t, exec .dumpComplete s = .next t ∧ t.m.dump = none ∧ t.m.get GaDumpStat.readable = n ∧ (∀ i (h : i < d.bytes.length), t.m.hub.byte (a + i) = d.bytes[i]) ∧
        State.Frame (fun q => q ∈ [Part.dump, .reg GaDumpStat.reg] ∨ ∃ i < 712, q = .hub (a + i)) s t) ∧
    (∀ (p : Path) (b : Fin 5), s.m.pathUp p = true → s.m.reaches (gaugeRegs b) = true → ∃ t, exec (.gaugeClear p b) s = .next t ∧
      (∀ c : Fin 8, vget (vget t.m.gauges b).counts c = 0 ∧ vget (vget t.m.gauges b).ovfs c = 0) ∧ (∀ i : Fin 4, vget (vget t.m.gauges b).flits i = 0) ∧
      t.m.reg (GaStatus.reg b) = 0 ∧ (∀ c : Fin 8, t.m.reg (GaCfg.reg b c) = s.m.reg (GaCfg.reg b c)) ∧ (∀ x, x ≠ b → vget t.m.gauges x = vget s.m.gauges x) ∧
      State.Frame (fun q => q = .reg (GaStatus.reg b)) s t)

/-! ## Register accesses -/

/-- A host path that is up reaches an address, and no core has a step to run. -/
abbrev Sys2Proof.HostReaches (s : State) (p : Path) (a : BitVec 24) : Prop :=
  p.isHost = true ∧ s.m.pathUp p = true ∧ s.m.reaches a.toNat = true ∧ NoStepAsked s

/-- The pairs of every other path and every other register are as before. -/
def Sys2Proof.OtherPairs (s t : State) (p : Path) (lo : Nat) : Prop := ∀ q n, (q, n) ≠ (p, lo) → t.m.pairSt q n = s.m.pairSt q n

/-- R7, R13: a read of a pair's low word latches the high word for its path, whose next high-word read returns it and uses it up; without a latch a high-word read is live. A low-word write is staged and changes nothing; a high-word write commits both words of a ring's base address, or the high one alone. No path disturbs
another's pair; a block that does not answer reads zeros. -/
def Sys2Proof.RegisterPairs : Prop :=
  ∀ (p : Path) (a : BitVec 24) (lo : Nat) (s : State), p.isHost = true → s.m.pathUp p = true →
    (pairOf a.toNat = some (lo, false) → s.m.reaches a.toNat = true →
      (∃ t, exec (.regPairLowRead p a) s = .next t ∧ pathBytes t.m p = leBytes 4 (s.m.live lo).toNat ∧
        t.m.pairSt p lo = { s.m.pairSt p lo with shadow := some (s.m.live (lo + 4)) } ∧ OtherPairs s t p lo ∧ State.Frame (fun q => q = .pairs ∨ q = .host) s t) ∧
      (∀ v : Word, ∃ t, exec (.regPairLowWrite p a v) s = .next t ∧ t.m.pairSt p lo = { s.m.pairSt p lo with staged := some v } ∧ OtherPairs s t p lo ∧
        State.Frame (fun q => q = .pairs) s t)) ∧
    (pairOf a.toNat = some (lo, true) → s.m.reaches a.toNat = true →
      (∀ v, (s.m.pairSt p lo).shadow = some v → ∃ t, exec (.regPairHighRead p a) s = .next t ∧ pathBytes t.m p = leBytes 4 v.toNat ∧
        t.m.pairSt p lo = { s.m.pairSt p lo with shadow := none } ∧ OtherPairs s t p lo ∧ State.Frame (fun q => q = .pairs ∨ q = .host) s t) ∧
      ((s.m.pairSt p lo).shadow = none → ∃ t, exec (.regPairHighRead p a) s = .next t ∧ pathBytes t.m p = leBytes 4 (s.m.live (lo + 4)).toNat ∧
        State.Frame (fun q => q = .host) s t) ∧
      (∀ (r : Fin 16) (v : Word), lo = MsgRingBaseLo.reg r.val → ∃ t, exec (.regPairHighWrite p a v) s = .next t ∧
        t.m.reg (MsgRingBaseHi.reg r.val) = v ∧ t.m.reg lo = ((s.m.pairSt p lo).staged).getD (s.m.reg lo) ∧
        t.m.pairSt p lo = { s.m.pairSt p lo with staged := none } ∧ OtherPairs s t p lo ∧
        State.Frame (fun q => q ∈ [Part.pairs, .reg lo, .reg (MsgRingBaseHi.reg r.val)]) s t)) ∧
    (∀ high : Bool, pairOf a.toNat = some (lo, high) → s.m.reaches a.toNat = false → ∃ t,
      exec (if high then .regPairHighRead p a else .regPairLowRead p a) s = .next t ∧ pathBytes t.m p = [0, 0, 0, 0] ∧ State.Frame (fun q => q = .host) s t)

/-- Registers whose write has no effect beyond that of their fields' types: one or more of each kind of field. -/
def Sys2Proof.plainRegisters : List Nat :=
  [FrWdogCfg.reg, FrSwCfg.reg, FrSwStat.reg, MsgStatus.reg, MsgSysDest.reg, AeStatus.reg, AeCtl.reg, StashStatus.reg, HlSpiStat.reg, HlPcieStat.reg, HlStashPage.reg] ++
    (List.range 4).flatMap fun t => [SpWinPage.reg t, SpStatus.reg t, MxStatus.reg t, MxCtl.reg t, VeStatus.reg t, VeOcAddr.reg t]

/-- R4, R5, R8, R13, R127, Table SC-3, REGISTER_WRITE: a write of a register sets its RW fields, clears the bits written 1 of its W1C fields, sets those of its W1S fields and leaves its RO fields; IS_REPLY_TMO below 4,000 takes effect as 4,000. A write at an address that is unaligned or unassigned, or that does not answer, does nothing. -/
def Sys2Proof.RegisterFieldTypes : Prop :=
  ∀ (p : Path) (a : BitVec 24) (v : Word) (s : State),
    (HostReaches s p a → a.toNat ∈ plainRegisters → ∃ t, exec (.registerWrite p a v) s = .next t ∧
      (∀ d, findReg a.toNat = some d → ∀ f ∈ d.fields, bitsOf (t.m.reg a.toNat).toNat f.hi f.lo =
        match f.ty with
        | .rw => bitsOf v.toNat f.hi f.lo
        | .w1c => bitsOf (s.m.reg a.toNat &&& ~~~v).toNat f.hi f.lo
        | .w1s => bitsOf (s.m.reg a.toNat ||| v).toNat f.hi f.lo
        | .ro | .wo => bitsOf (s.m.reg a.toNat).toNat f.hi f.lo) ∧
      State.Frame (fun q => q = .reg a.toNat) s t) ∧
    (HostReaches s p a → a.toNat = IsReplyTmo.reg → ∃ t, exec (.registerWrite p a v) s = .next t ∧
      t.m.get IsReplyTmo.units = (if IsReplyTmo.units.of v < 4000 then 4000 else IsReplyTmo.units.of v) ∧ State.Frame (fun q => q = .reg IsReplyTmo.reg) s t) ∧
    (NoStepAsked s → (a.toNat % 4 ≠ 0 ∨ (target a.toNat = .unassigned ∧ s.m.dzWaits a.toNat = false) ∨ s.m.pathUp p = false ∨ s.m.writeReaches a.toNat 4 = false) → exec (.registerWrite p a v) s = .next s)

/-! ## The machine -/

/-- A step takes the command at the front of the queue and is its execution with the queue's rest. -/
def Obligations.StepRunsTheFrontCommand : Prop :=
  ∀ (i : Instr) (rest : List Instr) (s : State), s.pending = i :: rest → step s = exec i { s with pending := rest }

/-- R3, R136: with no command waiting, a step lets one TB tick pass while the timebase runs (the model's choice, log entry 6): the TB count advances by one, each running island by its frequency, and nothing else changes. -/
def Obligations.EmptyQueueLetsTimePass : Prop :=
  ∀ s : State, s.pending = [] →
    (s.m.tbOn = false → step s = .next s) ∧
    (s.m.tbOn = true → ∃ t, step s = .next t ∧ t.m.tb = s.m.tb + 1 ∧
      (∀ i : Fin 264, (s.m.isl i).stopped = true → t.m.isl i = s.m.isl i) ∧
      (∀ i : Fin 264, (s.m.isl i).stopped = false → (s.m.isl i).cycles < 2 ^ 64 →
        960 * ((s.m.isl i).cycles) + (s.m.isl i).frac + (200 + 5 * (s.m.isl i).code.toNat) < 960 * 2 ^ 64 →
        960 * (t.m.isl i).cycles + (t.m.isl i).frac = 960 * (s.m.isl i).cycles + (s.m.isl i).frac + (200 + 5 * (s.m.isl i).code.toNat)) ∧
      State.Frame timeParts s t)

/-- Every command has an outcome in every state: the block goes on, and the commands that wait behind it are kept. -/
def Obligations.EveryCommandAnswersNext : Prop := ∀ (i : Instr) (s : State), ∃ t, exec i s = .next t ∧ t.pending = s.pending

/-- R19, R57, R143, R145, R269, R393, Table TC-16: the state after power-on reset: phase RESET with cause power_on alone, no function in service, every core in RESET with TVEC 0x10, the default scratchpad layout, staging and inbox at their reset
placements, every link with its 8 credits, no record pending, no command waiting. -/
def Obligations.StateAfterReset : Prop :=
  let m := State.reset.m
  State.reset.pending = [] ∧ m.phase = 0 ∧ m.get GlResetCause.powerOn = 1 ∧ (∀ q ∈ resetCommands, m.get q.2 = 0) ∧ (∀ f, m.fn f = .down) ∧
    (∀ c, (m.core c).st = .reset ∧ (m.core c).pc = 0 ∧ (m.core c).tvec = 0x10 ∧ (m.core c).inTrap = false) ∧
    (∀ t, (m.tile t).sp.unified = false ∧ (m.tile t).sp.aFirst = 24 ∧ (m.tile t).sp.pFirst = 30) ∧
    m.stageRange = (0x10000, 0x20000) ∧ m.inboxRange = (0xC000, 0xE080) ∧ CreditsBalance State.reset ∧ m.frc.pend = [] ∧ m.reg FrFaultSeq.reg = 0

/-! ## Instruction words of the cores -/

/-- R233, Tables TC-3 to TC-5: decoding the word of an instruction that its encoding admits gives that instruction, with every operand at every value: SIGEV names an event from 8 on, and WAITEV of any event names none. -/
def Obligations.DecodeOfEncode : Prop :=
  ∀ (i : Instr) (w : Word), encodeCore i = some w → (∀ c ev t, i = .sigev c ev t → 8 ≤ ev.toNat) → (∀ c rd ra ev, i = .waitev c rd ra ev true → ev = 0) →
    ∃ c, decodeCore c w = some i

/-- Tables TC-3 to TC-5: words written out field by field, and a word that is no instruction. -/
def Sys2Proof.CoreWords : Prop :=
  ∀ c : Fin 10,
    decodeCore c 0b000000_00011_00001_00010_00000_000000 = some (.add c 3 1 2) ∧
    decodeCore c 0b000000_00001_00010_00011_00000_010010 = some (.mulhu c 1 2 3) ∧
    decodeCore c 0b000000_00001_00010_00011_00001_000000 = none ∧
    decodeCore c 0b000001_00001_00010_1111111111111111 = some (.addi c 1 2 0xFFFF) ∧
    decodeCore c 0b000111_00101_00110_0000000000011111 = some (.slli c 5 6 31) ∧
    decodeCore c 0b000111_00101_00110_0000000000100000 = none ∧
    decodeCore c 0b010000_00100_00111_0000000000001000 = some (.lw c 4 7 8) ∧
    decodeCore c 0b011000_00001_00010_1111111111111110 = some (.beq c 1 2 0xFFFE) ∧
    decodeCore c 0b011110_00000000000000000000000100 = some (.jal c 4) ∧
    decodeCore c 0b100000_00001_00010_000000_0000000011 = some (.post c 1 2 3) ∧
    decodeCore c 0b100001_00000_00000_001000_0000001001 = some (.sigev c 8 9) ∧
    decodeCore c 0b100010_00001_00010_000000_0000000001 = some (.waitev c 1 2 0 true) ∧
    decodeCore c 0b101000_00011_00000_0000000000010010 = some (.csrr c 3 0x12) ∧
    decodeCore c 0b110001_00000000000000000000000000 = some (.tret c) ∧
    decodeCore c 0b111111_00000000000000000000000000 = none

/-! ## Statements of several parts -/

/-- R233, Tables TC-4 and TC-5: the arithmetic instructions write their function to g[rd] and change nothing else; g0 stays zero. -/
def Obligations.ArithmeticInstructions : Prop := AluRegisterForms ∧ AluImmediateForms ∧ ClzCountsLeadingZeros ∧ GeneralRegisters

/-- R230, Tables TC-1 and TC-4: loads from DMEM and SDM and stores to DMEM. -/
def Obligations.LoadsAndStores : Prop := LoadsFromLocalMemories ∧ StoresToDmem

/-- R232, R259: a load from the register map holds in M until its reply, and what each reply makes of it. -/
def Obligations.DeviceLoads : Prop := DeviceLoadHoldsInM ∧ DeviceLoadReply

/-- R232, R236, R259: stores to the register map, their replies, their imprecise trap, and FENCE. -/
def Obligations.DeviceStores : Prop := DeviceStoresAwaitReplies ∧ DeviceStoreReplyFreesSlot ∧ StoreErrorIsImprecise ∧ FenceHolds

/-- Table TC-4, R234, R235: the control transfers. -/
def Obligations.BranchesAndJumps : Prop := BranchesAndWrongPath ∧ JumpsLinkAndGo

/-- R256, Table TC-17: the traps of instructions and of their fetch enter at TVEC. -/
def Obligations.TrapEntry : Prop := TrapsEnterAtTvec ∧ FetchTraps

/-- R258, R411, R420: a trap within a trap, and a core that misses its rows, are recorded and frogged. -/
def Obligations.StoppedCoresAreFrogged : Prop := TrapInTrapStops ∧ WatchdogFrogs

/-- Tables TC-17 and TC-20: BREAK, HALT and STEP. -/
def Obligations.HaltBreakAndStep : Prop := BreakHalts ∧ HaltAndResume ∧ StepRunsOneInstruction

/-- R272, R253: the debug data register and the staged program. -/
def Obligations.DebugAccessAndProgramUpdate : Prop := DebugAccesses ∧ ProgramUpdateRestarts

/-- R239, R240, R241, R271: event signals from outside, from another core and from the doorbell. -/
def Obligations.EventSignals : Prop := SignalsCountAndWake ∧ SigevReachesOrIsLost ∧ HostDoorbellIsEventTwo

/-- R240: WAITEV, its timeout, and EVCNT. -/
def Obligations.EventWaits : Prop := WaitevConsumesOrWaits ∧ WaitevTimesOut

/-- R255, R7, R267: the instructions on control and status registers. -/
def Obligations.ControlRegisters : Prop := CsrInstructions ∧ CsrLatchesAndSfault

/-- R70, Table CO-8: resets and power-on. -/
def Obligations.ResetAndPowerOn : Prop := ResetsEnterPhaseReset ∧ PowerOnClearsEverything

/-- Cast-on, its requests and the re-scan of the image copies. -/
def Obligations.CastOn : Prop := ColdCastOnRunsOrFails ∧ CastRequests ∧ RescanJudgesCopies

/-- Power and clocks: sensors, reference clocks and the core supply. -/
def Obligations.SensorsClocksAndSupply : Prop := SensorReadings ∧ ReferenceClocks ∧ CoreSupplyCommands

/-- Power states: targets, IDLE and RETENTION. -/
def Obligations.PowerStates : Prop := PowerTargets ∧ IdleEntryReachesIdle ∧ RetentionKeepsMemories

/-- The PCIe endpoint: its resets and its configuration space. -/
def Obligations.EndpointAndConfiguration : Prop := EndpointResets ∧ ConfigurationSpace

/-- NVM requests and their completion. -/
def Obligations.NvmOperations : Prop := NvmRequestsAreChecked ∧ NvmOperationsEnd

/-- Lifeline requests and their completion. -/
def Obligations.LifelineOperations : Prop := LifelineRequestsAreChecked ∧ LifelineOperationsEnd

/-- Links: a flit sent, a flit arrived, a credit returned. -/
def Obligations.FlitsAndCredits : Prop := EndpointsSend ∧ RoutersForward ∧ FlitArrivalChecksParity ∧ CreditReturnFreesSlot

/-- Links: the watchdogs and the cycle-count check. -/
def Obligations.LinkChecks : Prop := LinkWatchdogs ∧ CycleCountCheck

/-- Scratchpads: reads and writes of the path. -/
def Obligations.ScratchpadAccesses : Prop := ScratchpadReads ∧ ScratchpadWrites

/-- Vector engines: the stitches, the tables and the operand store. -/
def Obligations.VectorOperationsAndTables : Prop := VectorStitches ∧ TablesAndOperandStore

/-- The stash: FETCH, STORE, the window and the overhang. -/
def Obligations.StashAccess : Prop := StashTraffic ∧ StashWindowAndOverhang

/-- The audio engine: samples, frames and microframes. -/
def Obligations.AudioFrames : Prop := SamplesFillTheirFrames ∧ FrameEventsCloseFrames ∧ UsbMicroframes

/-- Host links: ring control, descriptor reads and interrupts. -/
def Obligations.RingsAndDescriptors : Prop := RingControl ∧ DescriptorReadsAndInterrupts

/-- Host links: messages to buffers, and the closing of buffers. -/
def Obligations.MessagesAndBuffers : Prop := MessagesAreDelivered ∧ BuffersClose

/-- The USB port: its states and its transfers. -/
def Obligations.UsbPort : Prop := UsbDeviceStates ∧ UsbTransfers

/-- Tables RG-1 and RG-2: register access. -/
def Obligations.RegisterAccess : Prop := RegisterPairs ∧ RegisterFieldTypes
end

