-- ==== Sys2Proof/Laws/Tab.lean ====
section
/-! SUPPORT. Laws of the sparse maps and byte memories: a read after a write, what a write leaves alone, and the canonical form that every
write keeps. -/

namespace Sys2Proof.Machine

variable {α : Type} [DecidableEq α] {d : Nat → α}

omit [DecidableEq α] in
theorem Tab.get_erase_self (t : Tab α) (k : Nat) : Tab.get d (Tab.erase t k) k = d k := by
  induction t with
  | nil => rfl
  | cons e t ih =>
    obtain ⟨k', v'⟩ := e
    by_cases h : k' = k
    · simpa [Tab.erase, h] using ih
    · simpa [Tab.erase, h, Tab.get] using ih

omit [DecidableEq α] in
theorem Tab.get_erase_ne (t : Tab α) {k j : Nat} (hj : j ≠ k) : Tab.get d (Tab.erase t k) j = Tab.get d t j := by
  induction t with
  | nil => rfl
  | cons e t ih =>
    obtain ⟨k', v'⟩ := e
    by_cases h : k' = k
    · subst h
      simpa [Tab.erase, Tab.get, Ne.symm hj] using ih
    · by_cases h2 : k' = j
      · simp [Tab.erase, Tab.get, h2, hj]
      · simpa [Tab.erase, h, Tab.get, h2] using ih

omit [DecidableEq α] in
theorem Tab.get_insert_ne (t : Tab α) {k j : Nat} (v : α) (hj : j ≠ k) : Tab.get d (Tab.insert t k v) j = Tab.get d t j := by
  induction t with
  | nil => simp [Tab.insert, Tab.get, Ne.symm hj]
  | cons e t ih =>
    obtain ⟨k', v'⟩ := e
    by_cases h : k < k'
    · simp [Tab.insert, h, Tab.get, Ne.symm hj]
    · by_cases h2 : k' = j
      · rw [Tab.insert, if_neg h, Tab.get, Tab.get, if_pos h2, if_pos h2]
      · simpa [Tab.insert, h, Tab.get, h2] using ih

omit [DecidableEq α] in
theorem Tab.get_insert_self (t : Tab α) (k : Nat) (v : α) (h : ∀ e ∈ t, e.1 ≠ k) : Tab.get d (Tab.insert t k v) k = v := by
  induction t with
  | nil => simp [Tab.insert, Tab.get]
  | cons e t ih =>
    obtain ⟨k', v'⟩ := e
    have hk : k' ≠ k := h (k', v') (by simp)
    by_cases h1 : k < k'
    · simp [Tab.insert, h1, Tab.get]
    · simpa [Tab.insert, h1, Tab.get, hk] using ih fun e he => h e (by simp [he])

/-- Reading the key just written. -/
@[simp] theorem Tab.get_set_self (t : Tab α) (k : Nat) (v : α) : Tab.get d (Tab.set d t k v) k = v := by
  unfold Tab.set
  split
  · rename_i h; rw [Tab.get_erase_self, h]
  · exact Tab.get_insert_self _ _ _ fun e he => by simpa using (List.mem_filter.mp he).2

/-- Reading any other key. -/
theorem Tab.get_set_ne (t : Tab α) {k j : Nat} (v : α) (hj : j ≠ k) : Tab.get d (Tab.set d t k v) j = Tab.get d t j := by
  unfold Tab.set
  split
  · exact Tab.get_erase_ne t hj
  · rw [Tab.get_insert_ne _ _ hj, Tab.get_erase_ne t hj]

theorem Tab.get_set (t : Tab α) (k j : Nat) (v : α) : Tab.get d (Tab.set d t k v) j = if j = k then v else Tab.get d t j := by
  by_cases h : j = k
  · subst h; simp
  · simp [h, Tab.get_set_ne]

/-! ## The canonical form -/

/-- Every key of the list lies above b. -/
def Tab.above (b : Nat) (t : Tab α) : Prop := ∀ e ∈ t, b < e.1

theorem Tab.wf_cons {k : Nat} {v : α} {t : Tab α} : Tab.wf d ((k, v) :: t) = true ↔ v ≠ d k ∧ Tab.above k t ∧ Tab.wf d t = true := by
  induction t generalizing k v with
  | nil => simp [Tab.wf, Tab.above]
  | cons e t ih =>
    obtain ⟨k', v'⟩ := e
    constructor
    · intro h
      simp only [Tab.wf, Bool.and_eq_true, bne_iff_ne, decide_eq_true_eq] at h
      obtain ⟨⟨h1, h2⟩, h3⟩ := h
      refine ⟨h1, ?_, h3⟩
      intro e he
      rcases List.mem_cons.mp he with rfl | he
      · exact h2
      · exact Nat.lt_trans h2 ((ih.mp h3).2.1 e he)
    · rintro ⟨h1, h2, h3⟩
      simp only [Tab.wf, Bool.and_eq_true, bne_iff_ne, decide_eq_true_eq]
      exact ⟨⟨h1, h2 (k', v') (by simp)⟩, h3⟩

theorem Tab.wf_erase {t : Tab α} (h : Tab.wf d t = true) (k : Nat) : Tab.wf d (Tab.erase t k) = true := by
  induction t with
  | nil => rfl
  | cons e t ih =>
    obtain ⟨k', v'⟩ := e
    obtain ⟨h1, h2, h3⟩ := Tab.wf_cons.mp h
    have := ih h3
    by_cases hk : k' = k
    · simpa [Tab.erase, hk] using this
    · have he : Tab.erase ((k', v') :: t) k = (k', v') :: Tab.erase t k := by simp [Tab.erase, hk]
      rw [he]
      exact Tab.wf_cons.mpr ⟨h1, fun e he => h2 e (List.mem_filter.mp he).1, this⟩

omit [DecidableEq α] in
theorem Tab.mem_insert {t : Tab α} {k : Nat} {v : α} {e : Nat × α} (h : e ∈ Tab.insert t k v) : e = (k, v) ∨ e ∈ t := by
  induction t with
  | nil => simpa [Tab.insert] using h
  | cons x t ih =>
    obtain ⟨k', v'⟩ := x
    by_cases h1 : k < k'
    · simpa [Tab.insert, h1] using h
    · simp only [Tab.insert, h1, if_false, List.mem_cons] at h ⊢
      rcases h with rfl | h
      · simp
      · rcases ih h with h | h <;> simp [h]

theorem Tab.wf_insert {t : Tab α} {k : Nat} {v : α} (h : Tab.wf d t = true) (hk : ∀ e ∈ t, e.1 ≠ k) (hv : v ≠ d k) :
    Tab.wf d (Tab.insert t k v) = true := by
  induction t with
  | nil => simp [Tab.insert, Tab.wf, hv]
  | cons e t ih =>
    obtain ⟨k', v'⟩ := e
    obtain ⟨h1, h2, h3⟩ := Tab.wf_cons.mp h
    by_cases hlt : k < k'
    · simp only [Tab.insert, hlt, if_true]
      refine Tab.wf_cons.mpr ⟨hv, ?_, h⟩
      intro e he
      rcases List.mem_cons.mp he with rfl | he
      · exact hlt
      · exact Nat.lt_trans hlt (h2 e he)
    · simp only [Tab.insert, hlt, if_false]
      have hne : k' ≠ k := hk (k', v') (by simp)
      refine Tab.wf_cons.mpr ⟨h1, ?_, ih h3 fun e he => hk e (by simp [he])⟩
      intro e he
      rcases Tab.mem_insert he with rfl | he
      · show k' < k; omega
      · exact h2 e he

/-- A write keeps the canonical form. -/
theorem Tab.wf_set {t : Tab α} (h : Tab.wf d t = true) (k : Nat) (v : α) : Tab.wf d (Tab.set d t k v) = true := by
  unfold Tab.set
  split
  · exact Tab.wf_erase h k
  · rename_i hv
    exact Tab.wf_insert (Tab.wf_erase h k) (fun e he => by simpa using (List.mem_filter.mp he).2) hv

/-- Any part of a map that a test of the entries keeps is in canonical form. -/
theorem Tab.wf_filter {t : Tab α} (h : Tab.wf d t = true) (p : Nat × α → Bool) : Tab.wf d (t.filter p) = true := by
  induction t with
  | nil => rfl
  | cons e t ih =>
    obtain ⟨k', v'⟩ := e
    obtain ⟨h1, h2, h3⟩ := Tab.wf_cons.mp h
    rw [List.filter_cons]
    split
    · exact Tab.wf_cons.mpr ⟨h1, fun e he => h2 e (List.mem_filter.mp he).1, ih h3⟩
    · exact ih h3

/-! ## Byte memory -/

variable {b : Nat → Byte}

theorem Memory.wf_writeOpt {m : Memory} (h : Tab.wf b m = true) (a : Nat) (bs : List (Option Byte)) :
    Tab.wf b (Memory.writeOpt b m a bs) = true := by
  induction bs generalizing m a with
  | nil => exact h
  | cons x bs ih =>
    cases x with
    | none => exact ih h (a + 1)
    | some v => exact ih (Tab.wf_set h a v) (a + 1)

theorem Memory.wf_write {m : Memory} (h : Tab.wf b m = true) (a : Nat) (bs : List Byte) : Tab.wf b (Memory.write b m a bs) = true :=
  Memory.wf_writeOpt h a _

/-- What a byte reads as after a write. -/
theorem Memory.get_writeOpt (m : Memory) (a : Nat) (bs : List (Option Byte)) (x : Nat) :
    Tab.get b (Memory.writeOpt b m a bs) x =
      if a ≤ x then (match bs[x - a]? with | some (some v) => v | _ => Tab.get b m x) else Tab.get b m x := by
  induction bs generalizing m a with
  | nil => simp [Memory.writeOpt]
  | cons y bs ih =>
    have hx : a < x → x - a = x - (a + 1) + 1 := by omega
    cases y with
    | none =>
      rw [Memory.writeOpt, ih]
      by_cases h1 : a + 1 ≤ x
      · rw [if_pos h1, if_pos (by omega), hx h1, List.getElem?_cons_succ]
      · rw [if_neg h1]
        by_cases h2 : a ≤ x
        · have : x = a := by omega
          subst this
          simp
        · rw [if_neg h2]
    | some v =>
      rw [Memory.writeOpt, ih]
      by_cases h1 : a + 1 ≤ x
      · rw [if_pos h1, if_pos (by omega), hx h1, List.getElem?_cons_succ, Tab.get_set_ne m v (by omega)]
      · rw [if_neg h1]
        by_cases h2 : a ≤ x
        · have : x = a := by omega
          subst this
          simp
        · rw [if_neg h2, Tab.get_set_ne m v (by omega)]

/-- A write leaves every byte outside it alone. -/
theorem Memory.get_write_out (m : Memory) (a : Nat) (bs : List Byte) {x : Nat} (h : x < a ∨ a + bs.length ≤ x) :
    Tab.get b (Memory.write b m a bs) x = Tab.get b m x := by
  rw [Memory.write, Memory.get_writeOpt]
  split
  · rename_i hx
    have : (bs.map some)[x - a]? = none := by simp; omega
    rw [this]
  · rfl

/-- A write is read back. -/
theorem Memory.get_write_in (m : Memory) (a : Nat) (bs : List Byte) {i : Nat} (h : i < bs.length) :
    Tab.get b (Memory.write b m a bs) (a + i) = bs[i] := by
  rw [Memory.write, Memory.get_writeOpt, if_pos (by omega)]
  simp [h]

/-- Reset memory is canonical. -/
theorem Memory.wf_reset : Tab.wf zeroByte State.reset.m.hub.bytes = true := rfl

end Sys2Proof.Machine
end

