-- ==== Sys2Proof/Laws/Ecc.lean ====
section
/-! SUPPORT. Laws of the SECDED memories (R163, R164, R453): what a byte reads as after a repair or a write, and the canonical form. -/

namespace Sys2Proof.Machine

/-- Bytes and flips in canonical form. -/
def EccMem.wf (m : EccMem) : Bool := Memory.wf m.bytes && Tab.wf noFlips m.flips

@[simp] theorem judge_zero : judge 0#72 = .ok := rfl

theorem judge_inverted : judge invertedCheck = .ue := by decide

/-- A word that reads as stored: its judgement names no data bit to correct. -/
def rawFlip (f : BitVec 72) : Prop := ∀ b, judge f ≠ .ce b

theorem rawFlip_zero : rawFlip 0#72 := by intro b; simp
theorem rawFlip_inverted : rawFlip invertedCheck := by intro b; rw [judge_inverted]; simp
theorem rawFlip_of_bad {m : EccMem} {w : Nat} (h : m.bad w = true) : rawFlip (m.flip w) := by
  intro b hb
  simp [EccMem.bad, hb] at h

theorem EccMem.byte_raw {m : EccMem} {x : Nat} (h : rawFlip (m.flip (x / 8))) : m.byte x = Tab.get zeroByte m.bytes x := by
  unfold EccMem.byte
  split
  · rename_i b hb
    exact absurd hb (h b)
  · rfl

/-- A byte reads the same in two memories that agree on it and on its word's judgement. -/
theorem EccMem.byte_congr {m m' : EccMem} {x : Nat} (hb : Tab.get zeroByte m'.bytes x = Tab.get zeroByte m.bytes x)
    (hf : m'.flip (x / 8) = m.flip (x / 8)) : m'.byte x = m.byte x := by
  unfold EccMem.byte
  rw [hb, hf]

theorem EccMem.flip_setFlip (m : EccMem) (w v : Nat) (f : BitVec 72) : (m.setFlip w f).flip v = if v = w then f else m.flip v := by
  simp [EccMem.setFlip, EccMem.flip, Tab.get_set]

@[simp] theorem EccMem.bytes_setFlip (m : EccMem) (w : Nat) (f : BitVec 72) : (m.setFlip w f).bytes = m.bytes := rfl

theorem EccMem.flip_repair (m : EccMem) (w v : Nat) : (m.repair w).flip v = if v = w ∧ m.bad w = false then 0 else m.flip v := by
  unfold EccMem.repair
  split
  · rename_i h; simp [h]
  · rename_i h
    simp only [EccMem.flip, Tab.get_set]
    simp [h]

/-- The write-back of a corrected word changes no byte that a read returns. -/
theorem EccMem.byte_repair (m : EccMem) (w x : Nat) : (m.repair w).byte x = m.byte x := by
  unfold EccMem.repair
  split
  · rfl
  · rename_i hb
    by_cases hw : x / 8 = w
    · have hf : rawFlip (EccMem.flip { bytes := Memory.write zeroByte m.bytes (8 * w) (m.read (8 * w) 8), flips := Tab.set noFlips m.flips w 0 } (x / 8)) := by
        simpa [EccMem.flip, hw] using rawFlip_zero
      rw [EccMem.byte_raw hf]
      have hx : x = 8 * w + (x - 8 * w) := by omega
      have hl : x - 8 * w < (m.read (8 * w) 8).length := by simp [EccMem.read]; omega
      show Tab.get zeroByte (Memory.write zeroByte m.bytes (8 * w) (m.read (8 * w) 8)) x = m.byte x
      rw [hx, Memory.get_write_in _ _ _ hl]
      simp [EccMem.read]
    · refine EccMem.byte_congr (Memory.get_write_out _ _ _ ?_) ?_
      · simp [EccMem.read]; omega
      · simp [EccMem.flip, Tab.get_set, hw]

theorem mem_wordsOf {a n w : Nat} : w ∈ wordsOf a n ↔ ∃ x, a ≤ x ∧ x < a + n ∧ x / 8 = w := by
  unfold wordsOf
  split
  · subst_vars; simp; omega
  · simp only [List.mem_map, List.mem_range]
    constructor
    · rintro ⟨i, hi, rfl⟩
      by_cases h : a ≤ 8 * (a / 8 + i)
      · exact ⟨8 * (a / 8 + i), h, by omega, by omega⟩
      · exact ⟨a, Nat.le_refl a, by omega, by omega⟩
    · rintro ⟨x, h1, h2, rfl⟩
      exact ⟨x / 8 - a / 8, by omega, by omega⟩

/-- One word's part of a write, before the bytes are stored. -/
def EccMem.touch (a : Nat) (bs : List (Option Byte)) (acc : EccMem) (w : Nat) : EccMem :=
  if ((List.range 8).all fun i => a ≤ 8 * w + i && 8 * w + i < a + bs.length && (bs[8 * w + i - a]?.join).isSome) = true then acc.setFlip w 0
  else if ((List.range 8).any fun i => a ≤ 8 * w + i && 8 * w + i < a + bs.length && (bs[8 * w + i - a]?.join).isSome) = true then
    (if acc.bad w then acc.setFlip w invertedCheck else acc.repair w)
  else acc

theorem EccMem.writeOpt_eq (m : EccMem) (a : Nat) (bs : List (Option Byte)) :
    m.writeOpt a bs =
      { (wordsOf a bs.length).foldl (EccMem.touch a bs) m with
        bytes := Memory.writeOpt zeroByte ((wordsOf a bs.length).foldl (EccMem.touch a bs) m).bytes a bs } := rfl

/-- Is byte x written? -/
def written (a : Nat) (bs : List (Option Byte)) (x : Nat) : Prop := a ≤ x ∧ (bs[x - a]?.join).isSome = true

theorem EccMem.byte_touch {a : Nat} {bs : List (Option Byte)} {acc : EccMem} {w x : Nat} (hx : ¬ written a bs x) :
    (EccMem.touch a bs acc w).byte x = acc.byte x := by
  unfold EccMem.touch
  split
  · rename_i h
    refine EccMem.byte_congr rfl ?_
    rw [EccMem.flip_setFlip, if_neg]
    intro hw
    simp only [List.all_eq_true, List.mem_range, Bool.and_eq_true, decide_eq_true_eq] at h
    have := h (x - 8 * w) (by omega)
    rw [show 8 * w + (x - 8 * w) = x by omega] at this
    exact hx ⟨this.1.1, this.2⟩
  · split
    · split
      · rename_i hb
        by_cases hw : x / 8 = w
        · rw [EccMem.byte_raw, EccMem.byte_raw, EccMem.bytes_setFlip]
          · rw [hw]; exact rawFlip_of_bad hb
          · rw [EccMem.flip_setFlip, if_pos hw]; exact rawFlip_inverted
        · exact EccMem.byte_congr rfl (by rw [EccMem.flip_setFlip, if_neg hw])
      · exact EccMem.byte_repair _ _ _
    · rfl

theorem EccMem.flip_touch_self {a : Nat} {bs : List (Option Byte)} {acc : EccMem} {w x : Nat} (hx : written a bs x) (hw : x / 8 = w) :
    rawFlip ((EccMem.touch a bs acc w).flip w) := by
  unfold EccMem.touch
  split
  · rw [EccMem.flip_setFlip, if_pos rfl]; exact rawFlip_zero
  · split
    · split
      · rw [EccMem.flip_setFlip, if_pos rfl]; exact rawFlip_inverted
      · rename_i hb
        rw [EccMem.flip_repair, if_pos ⟨rfl, by simpa using hb⟩]; exact rawFlip_zero
    · rename_i h
      exfalso; apply h
      simp only [List.any_eq_true, List.mem_range, Bool.and_eq_true, decide_eq_true_eq]
      refine ⟨x - 8 * w, by omega, ⟨?_, ?_⟩, ?_⟩
      · have := hx.1; omega
      · have h2 := hx.2
        rw [show 8 * w + (x - 8 * w) = x by omega]
        by_cases hl : x - a < bs.length
        · have := hx.1; omega
        · rw [List.getElem?_eq_none (by omega)] at h2; simp at h2
      · rw [show 8 * w + (x - 8 * w) = x by omega]; exact hx.2

theorem EccMem.flip_touch_other {a : Nat} {bs : List (Option Byte)} {acc : EccMem} {w v : Nat} (hv : v ≠ w) :
    (EccMem.touch a bs acc w).flip v = acc.flip v := by
  unfold EccMem.touch
  split
  · rw [EccMem.flip_setFlip, if_neg hv]
  · split
    · split
      · rw [EccMem.flip_setFlip, if_neg hv]
      · rw [EccMem.flip_repair, if_neg (by simp [hv])]
    · rfl

theorem EccMem.byte_touches {a : Nat} {bs : List (Option Byte)} {x : Nat} (hx : ¬ written a bs x) (ws : List Nat) (m : EccMem) :
    (ws.foldl (EccMem.touch a bs) m).byte x = m.byte x := by
  induction ws generalizing m with
  | nil => rfl
  | cons w ws ih => rw [List.foldl_cons, ih, EccMem.byte_touch hx]

theorem EccMem.flip_touches_raw {a : Nat} {bs : List (Option Byte)} {x : Nat} (hx : written a bs x) (ws : List Nat) (m : EccMem)
    (h : x / 8 ∈ ws ∨ rawFlip (m.flip (x / 8))) : rawFlip ((ws.foldl (EccMem.touch a bs) m).flip (x / 8)) := by
  induction ws generalizing m with
  | nil => rcases h with h | h; · simp at h
           · exact h
  | cons w ws ih =>
    rw [List.foldl_cons]
    apply ih
    by_cases hw : x / 8 = w
    · right; rw [hw]; exact EccMem.flip_touch_self hx hw
    · rcases h with h | h
      · left; simpa [hw] using h
      · right; rw [EccMem.flip_touch_other hw]; exact h

/-- A write leaves every byte that it does not write reading as before. -/
theorem EccMem.byte_writeOpt_out (m : EccMem) (a : Nat) (bs : List (Option Byte)) {x : Nat} (hx : ¬ written a bs x) :
    (m.writeOpt a bs).byte x = m.byte x := by
  rw [EccMem.writeOpt_eq, ← EccMem.byte_touches hx (wordsOf a bs.length) m]
  refine EccMem.byte_congr ?_ rfl
  show Tab.get zeroByte (Memory.writeOpt _ _ a bs) x = _
  rw [Memory.get_writeOpt]
  split
  · rename_i h
    have : (bs[x - a]?.join).isSome = false := by
      cases hc : (bs[x - a]?.join).isSome with
      | false => rfl
      | true => exact absurd ⟨h, hc⟩ hx
    rcases hq : bs[x - a]? with _ | _ | v
    · rfl
    · rfl
    · simp [hq] at this
  · rfl

/-- A write is read back. -/
theorem EccMem.byte_writeOpt_in (m : EccMem) (a : Nat) (bs : List (Option Byte)) {i : Nat} {v : Byte} (h : bs[i]? = some (some v)) :
    (m.writeOpt a bs).byte (a + i) = v := by
  have hl : i < bs.length := by
    rcases Nat.lt_or_ge i bs.length with h' | h'
    · exact h'
    · rw [List.getElem?_eq_none h'] at h; simp at h
  have hw : written a bs (a + i) := ⟨by omega, by rw [show a + i - a = i by omega, h]; rfl⟩
  have hraw : rawFlip ((m.writeOpt a bs).flip ((a + i) / 8)) := by
    rw [EccMem.writeOpt_eq]
    exact EccMem.flip_touches_raw hw (wordsOf a bs.length) m (Or.inl (mem_wordsOf.mpr ⟨a + i, by omega, by omega, rfl⟩))
  rw [EccMem.byte_raw hraw, EccMem.writeOpt_eq]
  show Tab.get zeroByte (Memory.writeOpt _ _ a bs) (a + i) = v
  rw [Memory.get_writeOpt, if_pos (by omega), show a + i - a = i by omega, h]

theorem EccMem.byte_write_out (m : EccMem) (a : Nat) (bs : List Byte) {x : Nat} (hx : x < a ∨ a + bs.length ≤ x) :
    (m.write a bs).byte x = m.byte x := by
  refine EccMem.byte_writeOpt_out m a _ ?_
  rintro ⟨h1, h2⟩
  have : (bs.map some)[x - a]? = none := by simp; omega
  rw [this] at h2; simp at h2

theorem EccMem.byte_write_in (m : EccMem) (a : Nat) (bs : List Byte) {i : Nat} (h : i < bs.length) : (m.write a bs).byte (a + i) = bs[i] :=
  EccMem.byte_writeOpt_in m a _ (by simp [h])

/-! ## The canonical form -/

theorem EccMem.wf_setFlip {m : EccMem} (h : m.wf = true) (w : Nat) (f : BitVec 72) : (m.setFlip w f).wf = true := by
  simp only [EccMem.wf, Bool.and_eq_true] at h ⊢
  exact ⟨h.1, Tab.wf_set h.2 w f⟩

theorem EccMem.wf_repair {m : EccMem} (h : m.wf = true) (w : Nat) : (m.repair w).wf = true := by
  unfold EccMem.repair
  split
  · exact h
  · simp only [EccMem.wf, Bool.and_eq_true, Memory.wf] at h ⊢
    exact ⟨Memory.wf_write h.1 _ _, Tab.wf_set h.2 w 0⟩

theorem EccMem.wf_repairAll {m : EccMem} (h : m.wf = true) (ws : List Nat) : (m.repairAll ws).wf = true := by
  induction ws generalizing m with
  | nil => exact h
  | cons w ws ih => exact ih (EccMem.wf_repair h w)

theorem EccMem.wf_touch {m : EccMem} (h : m.wf = true) (a : Nat) (bs : List (Option Byte)) (w : Nat) : (EccMem.touch a bs m w).wf = true := by
  unfold EccMem.touch
  split
  · exact EccMem.wf_setFlip h _ _
  · split
    · split
      · exact EccMem.wf_setFlip h _ _
      · exact EccMem.wf_repair h _
    · exact h

theorem EccMem.wf_writeOpt {m : EccMem} (h : m.wf = true) (a : Nat) (bs : List (Option Byte)) : (m.writeOpt a bs).wf = true := by
  rw [EccMem.writeOpt_eq]
  have hf : ∀ (ws : List Nat) (m : EccMem), m.wf = true → (ws.foldl (EccMem.touch a bs) m).wf = true := by
    intro ws
    induction ws with
    | nil => intro m h; exact h
    | cons w ws ih => intro m h; exact ih _ (EccMem.wf_touch h a bs w)
  have := hf (wordsOf a bs.length) m h
  simp only [EccMem.wf, Bool.and_eq_true, Memory.wf] at this ⊢
  exact ⟨Memory.wf_writeOpt this.1 _ _, this.2⟩

theorem EccMem.wf_poisonWords {m : EccMem} (h : m.wf = true) (ws : List Nat) : (m.poisonWords ws).wf = true := by
  induction ws generalizing m with
  | nil => exact h
  | cons w ws ih => exact ih (EccMem.wf_setFlip h w _)

theorem EccMem.wf_empty : EccMem.empty.wf = true := rfl

end Sys2Proof.Machine
end

