-- ==== Sys2Proof/Laws/Frame.lean ====
section
/-! SUPPORT. Laws of frames: composition, one lemma per primitive update, and what a fault record, a signal and a gauge count can change. -/

namespace Sys2Proof.Machine

theorem Core.Signalled.refl (k : Core) : Core.Signalled k k := ⟨rfl, fun _ => ⟨rfl, rfl, rfl, rfl⟩⟩

theorem Core.Signalled.trans {a b c : Core} (h : Core.Signalled a b) (g : Core.Signalled b c) : Core.Signalled a c := by
  obtain ⟨h1, h2⟩ := h
  obtain ⟨g1, g2⟩ := g
  refine ⟨?_, fun hw => ?_⟩
  · rw [g1, h1]
  · obtain ⟨p, q, r, s⟩ := h2 hw
    obtain ⟨p', q', r', s'⟩ := g2 (by rw [q]; exact hw)
    exact ⟨p'.trans p, q'.trans q, r'.trans r, s'.trans s⟩

theorem Part.kept_refl (p : Part) (m : Mach) : p.kept m m := by
  cases p <;> first | trivial | rfl | exact fun _ => rfl | exact Core.Signalled.refl _ | exact ⟨rfl, List.prefix_rfl⟩

theorem Part.kept_trans {p : Part} {a b c : Mach} (h : p.kept a b) (g : p.kept b c) : p.kept a c := by
  cases p <;> simp only [Part.kept] at h g ⊢
  case core x => exact h.trans g
  case reg a => exact fun hb => (g hb).trans (h hb)
  case hub a => exact fun hb => (g hb).trans (h hb)
  case stash | dza | msg | host => rw [g, h]
  case frc => exact ⟨by rw [g.1, h.1], h.2.trans g.2⟩
  all_goals exact g.trans h

theorem Mach.Frame.refl (ch : Part → Prop) (m : Mach) : Mach.Frame ch m m := fun p _ => p.kept_refl m

theorem Mach.Frame.trans {ch : Part → Prop} {a b c : Mach} (h : Mach.Frame ch a b) (g : Mach.Frame ch b c) : Mach.Frame ch a c :=
  fun p hp => Part.kept_trans (h p hp) (g p hp)

theorem Mach.Frame.mono {ch ch' : Part → Prop} {a b : Mach} (h : Mach.Frame ch a b) (hs : ∀ p, ch p → ch' p) : Mach.Frame ch' a b :=
  fun p hp => h p fun hc => hp (hs p hc)

theorem Mach.Books.frame {a b : Mach} (h : Mach.Books a b) (ch : Part → Prop) : Mach.Frame ch a b := h.mono (by simp)

/-- A step that keeps the books after one with a frame. -/
theorem Mach.Frame.books {ch : Part → Prop} {a b c : Mach} (h : Mach.Frame ch a b) (g : Mach.Books b c) : Mach.Frame ch a c :=
  h.trans (g.frame ch)

theorem Mach.Books.refl (m : Mach) : Mach.Books m m := Mach.Frame.refl _ m
theorem Mach.Books.trans {a b c : Mach} (h : Mach.Books a b) (g : Mach.Books b c) : Mach.Books a c := Mach.Frame.trans h g

/-- A fold of steps that each keep a frame keeps it. -/
theorem Mach.Frame.foldl {ι : Type} {ch : Part → Prop} {f : Mach → ι → Mach} (hf : ∀ m i, Mach.Frame ch m (f m i)) (l : List ι) (m : Mach) :
    Mach.Frame ch m (l.foldl f m) := by
  induction l generalizing m with
  | nil => exact Mach.Frame.refl _ _
  | cons x l ih => exact (hf m x).trans (ih _)

/-! ## Primitive updates -/

theorem Mach.reg_setReg (m : Mach) (a b : Nat) (w : Word) : (m.setReg a w).reg b = if b = a then w else m.reg b := by
  simp [Mach.setReg, Mach.reg, Tab.get_set]

@[simp] theorem Mach.reg_setReg_self (m : Mach) (a : Nat) (w : Word) : (m.setReg a w).reg a = w := by simp [Mach.reg_setReg]

theorem Mach.frame_setReg (m : Mach) (a : Nat) (w : Word) : Mach.Frame (fun p => p = .reg a) m (m.setReg a w) := by
  intro p hp
  cases p with
  | reg b =>
    intro _
    rw [Mach.reg_setReg, if_neg]
    exact fun h => hp (by rw [h])
  | unitQ u => cases u <;> rfl
  | core c => exact Core.Signalled.refl _
  | hub a => exact fun _ => rfl
  | _ => first | trivial | rfl | exact ⟨rfl, List.prefix_rfl⟩

theorem Mach.frame_put (m : Mach) (f : Fld) (v : Nat) : Mach.Frame (fun p => p = .reg f.addr) m (m.put f v) := Mach.frame_setReg _ _ _
theorem Mach.frame_flag (m : Mach) (f : Fld) : Mach.Frame (fun p => p = .reg f.addr) m (m.flag f) := Mach.frame_put _ _ _
theorem Mach.frame_bump (m : Mach) (f : Fld) (n : Nat) : Mach.Frame (fun p => p = .reg f.addr) m (m.bump f n) := Mach.frame_put _ _ _

theorem Mach.books_setReg (m : Mach) {a : Nat} (w : Word) (h : bookReg a = true) : Mach.Books m (m.setReg a w) := by
  intro p _
  by_cases hp : p = .reg a
  · subst hp
    intro hb
    rw [h] at hb; simp at hb
  · exact Mach.frame_setReg m a w p hp

theorem Mach.books_put (m : Mach) {f : Fld} (v : Nat) (h : bookReg f.addr = true) : Mach.Books m (m.put f v) := Mach.books_setReg _ _ h
theorem Mach.books_bump (m : Mach) {f : Fld} (n : Nat) (h : bookReg f.addr = true) : Mach.Books m (m.bump f n) := Mach.books_put _ _ h

theorem vget_vset_self {α : Type} {n : Nat} (v : Vector α n) (i : Fin n) (x : α) : vget (vset v i x) i = x := by
  simp [vget, vset]
theorem vget_vset_ne {α : Type} {n : Nat} (v : Vector α n) {i j : Fin n} (x : α) (h : j ≠ i) : vget (vset v i x) j = vget v j := by
  have : i.val ≠ j.val := fun e => h (Fin.ext e.symm)
  simp [vget, vset, this]
theorem vget_vmod_self {α : Type} {n : Nat} (v : Vector α n) (i : Fin n) (f : α → α) : vget (vmod v i f) i = f (vget v i) := vget_vset_self _ _ _
theorem vget_vmod_ne {α : Type} {n : Nat} (v : Vector α n) {i j : Fin n} (f : α → α) (h : j ≠ i) : vget (vmod v i f) j = vget v j :=
  vget_vset_ne _ _ h

@[simp] theorem Mach.core_modCore_self (m : Mach) (c : Fin 10) (f : Core → Core) : (m.modCore c f).core c = f (m.core c) := vget_vmod_self _ _ _
theorem Mach.core_modCore_ne (m : Mach) {c d : Fin 10} (f : Core → Core) (h : d ≠ c) : (m.modCore c f).core d = m.core d := vget_vmod_ne _ _ h

theorem Mach.frame_modCore (m : Mach) (c : Fin 10) (f : Core → Core) : Mach.Frame (fun p => p = .core c) m (m.modCore c f) := by
  intro p hp
  cases p with
  | core d =>
    have : d ≠ c := fun h => hp (by rw [h])
    show Core.Signalled (m.core d) ((m.modCore c f).core d)
    rw [Mach.core_modCore_ne m f this]
    exact Core.Signalled.refl _
  | unitQ u => cases u <;> rfl
  | reg a => exact fun _ => rfl
  | hub a => exact fun _ => rfl
  | _ => first | trivial | rfl | exact ⟨rfl, List.prefix_rfl⟩

theorem Mach.books_modCore (m : Mach) (c : Fin 10) (f : Core → Core) (h : Core.Signalled (m.core c) (f (m.core c))) : Mach.Books m (m.modCore c f) := by
  intro p _
  by_cases hp : p = .core c
  · subst hp
    show Core.Signalled (m.core c) ((m.modCore c f).core c)
    rw [Mach.core_modCore_self]; exact h
  · exact Mach.frame_modCore m c f p hp

/-- An update of parts that the books own. -/
theorem Mach.books_gauges (m : Mach) (g : Vector Gauge 5) : Mach.Books m { m with gauges := g } := by
  intro p _
  cases p with
  | unitQ u => cases u <;> rfl
  | core c => exact Core.Signalled.refl _
  | reg a => exact fun _ => rfl
  | hub a => exact fun _ => rfl
  | _ => first | trivial | rfl | exact ⟨rfl, List.prefix_rfl⟩

theorem Mach.books_msi (m : Mach) (x : List (DWord × Word)) (y : BitVec 32) : Mach.Books m { m with host := { m.host with msix := x, pba := y } } := by
  intro p _
  cases p with
  | unitQ u => cases u <;> rfl
  | core c => exact Core.Signalled.refl _
  | reg a => exact fun _ => rfl
  | hub a => exact fun _ => rfl
  | _ => first | trivial | rfl | exact ⟨rfl, List.prefix_rfl⟩

theorem Mach.books_pend (m : Mach) (x y z : List (List Word)) (hx : m.frc.pend <+: x) :
    Mach.Books m { m with frc := { m.frc with pend := x, buffer := y, recent := z } } := by
  intro p _
  cases p with
  | frc => exact ⟨rfl, hx⟩
  | unitQ u => cases u <;> rfl
  | core c => exact Core.Signalled.refl _
  | reg a => exact fun _ => rfl
  | hub a => exact fun _ => rfl
  | _ => first | trivial | rfl | exact ⟨rfl, List.prefix_rfl⟩

theorem Mach.books_free (m : Mach) (n : Nat) : Mach.Books m { m with free := n } := by
  intro p _
  cases p with
  | unitQ u => cases u <;> rfl
  | core c => exact Core.Signalled.refl _
  | reg a => exact fun _ => rfl
  | hub a => exact fun _ => rfl
  | _ => first | trivial | rfl | exact ⟨rfl, List.prefix_rfl⟩

theorem Mach.books_fresh (m : Mach) : Mach.Books m m.fresh.2 := Mach.books_free _ _

theorem Mach.frame_modHub (m : Mach) (f : EccMem → EccMem) (ch : Nat → Prop) (h : ∀ a, ¬ ch a → (f m.hub).byte a = m.hub.byte a) :
    Mach.Frame (fun p => ∃ a, p = .hub a ∧ ch a) m (m.modHub f) := by
  intro p hp
  cases p with
  | unitQ u => cases u <;> rfl
  | core c => exact Core.Signalled.refl _
  | reg a => exact fun _ => rfl
  | hub a => exact fun _ => h a fun hc => hp ⟨a, rfl, hc⟩
  | _ => first | trivial | rfl | exact ⟨rfl, List.prefix_rfl⟩

/-- A write of hub SRAM changes the bytes it stores. -/
theorem Mach.frame_hubWrite (m : Mach) (a : Nat) (bs : List Byte) :
    Mach.Frame (fun p => ∃ x, p = .hub x ∧ a ≤ x ∧ x < a + bs.length) m (m.hubWrite a bs) :=
  Mach.frame_modHub m _ (fun x => a ≤ x ∧ x < a + bs.length) fun x hx => EccMem.byte_write_out _ _ _ (by omega)

/-! ## Records -/

theorem Mach.books_raiseVector (m : Mach) (v : Nat) : Mach.Books m (m.raiseVector v) := by
  unfold Mach.raiseVector
  split
  · exact Mach.books_msi m _ _
  · exact Mach.books_msi m _ _

theorem Mach.books_alertEdge (m : Mach) (b : Bool) : Mach.Books m (m.alertEdge b) := by
  unfold Mach.alertEdge
  split
  · exact Mach.books_raiseVector _ _
  · exact Mach.Books.refl _

theorem Mach.books_pendRecord (m : Mach) (e : List Word) : Mach.Books m (m.pendRecord e) := by
  unfold Mach.pendRecord
  dsimp only
  split
  · exact Mach.books_pend m _ _ _ (List.prefix_append _ _)
  · exact (Mach.books_bump m 1 (by decide)).trans (Mach.books_pend (m.bump FrStatus.pendLost) _ _ _ List.prefix_rfl)

theorem Mach.books_logToRing (m : Mach) (e : List Word) (hl : (e.flatMap fun w => leBytes 4 w.toNat).length = 32) : Mach.Books m (m.logToRing e) := by
  have h1 : ∀ (m1 : Mach) (k : Nat), Mach.Books m1 (m1.hubWrite (logBase + 32 * (k % 4096)) (e.flatMap fun w => leBytes 4 w.toNat)) := by
    intro m1 k p _
    by_cases hp : ∃ x, p = Part.hub x ∧ logBase + 32 * (k % 4096) ≤ x ∧ x < logBase + 32 * (k % 4096) + (e.flatMap fun w => leBytes 4 w.toNat).length
    · obtain ⟨x, rfl, h2, h3⟩ := hp
      intro hx
      rw [hl] at h3
      exfalso
      simp only [logByte, decide_eq_false_iff_not] at hx
      apply hx
      omega
    · exact Mach.frame_hubWrite m1 _ _ p hp
  unfold Mach.logToRing
  dsimp only
  split
  · exact ((Mach.books_bump m 1 (by decide)).trans (Mach.books_setReg _ _ (by decide))).trans (h1 _ _)
  · exact h1 _ _

theorem Mach.books_logRecord (m : Mach) (e : List Word) (hl : (e.flatMap fun w => leBytes 4 w.toNat).length = 32) : Mach.Books m (m.logRecord e) := by
  unfold Mach.logRecord
  split
  · split
    · exact Mach.books_pend m m.frc.pend _ m.frc.recent List.prefix_rfl
    · exact Mach.books_bump m 1 (by decide)
  · exact Mach.books_logToRing m e hl

@[simp] theorem leBytes_length (n v : Nat) : (leBytes n v).length = n := by
  induction n generalizing v with
  | zero => rfl
  | succ n ih => simp [leBytes, ih]

/-- Eight words are 32 bytes. -/
theorem eightWords_length (a b c d e f g h : Word) : ([a, b, c, d, e, f, g, h].flatMap fun w => leBytes 4 w.toNat).length = 32 := by
  simp only [List.flatMap_cons, List.flatMap_nil, List.length_append, leBytes_length, List.length_nil]

theorem Mach.books_recordBase (m : Mach) (code : Nat) (src : Src) (args : List Nat) (action : Nat) (held : Bool) :
    Mach.Books m (m.recordBase code src args action held) := by
  have key : ∀ (e : List Word) (b : Bool), (e.flatMap fun w => leBytes 4 w.toNat).length = 32 → ∀ m2, Mach.Books m m2 →
      Mach.Books m ((m2.logRecord e).alertEdge b) := fun e b hl m2 h =>
    (h.trans (Mach.books_logRecord m2 e hl)).trans (Mach.books_alertEdge _ _)
  unfold Mach.recordBase
  extract_lets sev seq entry m1 m2
  refine key entry _ (eightWords_length _ _ _ _ _ _ _ _) m2 ?_
  have h1 : Mach.Books m m1 := Mach.books_setReg m _ (by decide)
  clear_value entry m1
  show Mach.Books m (if sev = 0 then m1 else m1.pendRecord entry)
  split
  · exact h1
  · exact h1.trans (Mach.books_pendRecord _ _)

/-! ## Gauges and signals -/

theorem bookReg_ovf (b : Fin 5) : bookReg (GaStatus.ovf b).addr = true := by revert b; decide
theorem bookReg_thr (b : Fin 5) : bookReg (GaStatus.thr b).addr = true := by revert b; decide

theorem Mach.books_gaugeAdd (m : Mach) (b : Fin 5) (c : Fin 8) (n : Nat) : Mach.Books m (m.gaugeAdd b c n).1 := by
  unfold Mach.gaugeAdd
  split
  · exact Mach.Books.refl _
  · dsimp only
    have h1 := Mach.books_gauges m (vset m.gauges b { (vget m.gauges b) with
      counts := vset (vget m.gauges b).counts c (BitVec.ofNat 48 ((vget (vget m.gauges b).counts c).toNat + n))
      ovfs := if 2 ^ 48 ≤ (vget (vget m.gauges b).counts c).toNat + n then vset (vget m.gauges b).ovfs c (BitVec.ofNat 16 (Nat.min ((vget (vget m.gauges b).ovfs c).toNat + 1) 0xFFFF)) else (vget m.gauges b).ovfs })
    split <;> split
    · exact (h1.trans (Mach.books_put _ _ (bookReg_ovf b))).trans (Mach.books_put _ _ (bookReg_thr b))
    · exact h1.trans (Mach.books_put _ _ (bookReg_ovf b))
    · exact h1.trans (Mach.books_put _ _ (bookReg_thr b))
    · exact h1

theorem Mach.books_gaugeCount (m : Mach) (b : Fin 5) (code : Nat) (inst : Option Nat) (add : Nat → Nat → Nat) :
    Mach.Books m (m.gaugeCount b code inst add).1 := by
  unfold Mach.gaugeCount
  split
  · exact Mach.Books.refl _
  · have : ∀ (l : List Nat) (a : Mach × Bool), Mach.Books a.1 (l.foldl (fun acc c =>
        if acc.1.get (GaCfg.event b c) = code && (inst.isNone || inst == some (acc.1.get (GaCfg.inst b c))) then
          let r := acc.1.gaugeAdd b (ix 8 c) (add (acc.1.get (GaCfg.mode b c)) (acc.1.get (GaCfg.n b c)))
          (r.1, acc.2 || r.2)
        else acc) a).1 := by
      intro l
      induction l with
      | nil => intro a; exact Mach.Books.refl _
      | cons x l ih =>
        intro a
        refine Mach.Books.trans ?_ (ih _)
        dsimp only
        split
        · exact Mach.books_gaugeAdd _ _ _ _
        · exact Mach.Books.refl _
    exact this _ _

theorem Core.signalled_wake (k : Core) : Core.Signalled k k.wake := by
  unfold Core.wake
  split
  · rename_i w hs hw
    split
    · exact Core.Signalled.refl _
    · refine ⟨?_, fun h => absurd hs h⟩
      by_cases h0 : w.rd = 0
      · rw [show ∀ (x : Core) v, x.setG w.rd v = x from fun x v => if_pos h0]
      · rw [show ∀ (x : Core) v, x.setG w.rd v = { x with regs := vset x.regs (ix 32 w.rd.toNat) v } from fun x v => if_neg h0]
  · exact Core.Signalled.refl _

theorem Core.signalled_counts (k : Core) (cs : Vector (BitVec 8) 64) : Core.Signalled k { k with counts := cs } :=
  ⟨rfl, fun _ => ⟨rfl, rfl, rfl, rfl⟩⟩

theorem Mach.books_signalFuel (n : Nat) (m : Mach) (c : Fin 10) (e : Nat) : Mach.Books m (m.signalFuel n c e) := by
  induction n generalizing m c e with
  | zero => exact Mach.Books.refl _
  | succ n ih =>
    have after : ∀ (b : Fin 5) (r : Mach × Bool), Mach.Books r.1 (if r.2 then (blockCores b).foldl (fun acc x => Mach.signalFuel n acc x 3) r.1 else r.1) := by
      intro b r
      split
      · exact Mach.Frame.foldl (fun m i => ih m i 3) _ _
      · exact Mach.Books.refl _
    unfold Mach.signalFuel
    dsimp only
    split
    · exact Mach.Books.refl _
    · split
      · refine Mach.Books.trans ?_ (after _ _)
        refine Mach.Books.trans ?_ (Mach.books_gaugeCount _ _ _ _ _)
        exact Mach.Books.trans (Mach.books_modCore m c _ ⟨rfl, fun _ => ⟨rfl, rfl, rfl, rfl⟩⟩) (Mach.books_recordBase _ _ _ _ _ _)
      · have h1 : Mach.Books m (m.modCore c fun k => Core.wake { k with counts := vset k.counts (ix 64 e) (BitVec.ofNat 8 (eventCount (m.core c) e + 1)) }) :=
          Mach.books_modCore m c _ ((Core.signalled_counts _ _).trans (Core.signalled_wake _))
        split
        · exact (h1.trans (Mach.books_gaugeCount _ _ _ _ _)).trans (after _ _)
        · exact h1

/-- A signal changes only books and cores that take signals. -/
theorem Mach.books_signal (m : Mach) (c : Fin 10) (e : Nat) : Mach.Books m (m.signal c e) := Mach.books_signalFuel _ _ _ _

theorem Mach.books_signalCode (m : Mach) (code e : Nat) : Mach.Books m (m.signalCode code e) := by
  unfold Mach.signalCode
  split
  · exact Mach.books_signal _ _ _
  · exact Mach.Books.refl _

theorem Mach.books_thresholdEvent (m : Mach) (b : Fin 5) (due : Bool) : Mach.Books m (m.thresholdEvent b due) := by
  unfold Mach.thresholdEvent
  split
  · exact Mach.Frame.foldl (fun m i => Mach.books_signal m i 3) _ _
  · exact Mach.Books.refl _

/-- A gauge event changes only the books. -/
theorem Mach.books_gauge (m : Mach) (b : Fin 5) (code : Nat) (inst : Option Nat) (n : Nat) : Mach.Books m (m.gauge b code inst n) :=
  (Mach.books_gaugeCount _ _ _ _ _).trans (Mach.books_thresholdEvent _ _ _)

/-- A fault record changes only the books. -/
theorem Mach.books_record (m : Mach) (code : Nat) (src : Src) (args : List Nat) (action : Nat) (held : Bool) :
    Mach.Books m (m.record code src args action held) :=
  (Mach.books_recordBase _ _ _ _ _ _).trans (Mach.books_gauge _ _ _ _ _)

end Sys2Proof.Machine
end

