-- ==== Sys2Proof/Laws/Core.lean ====
section
/-! SUPPORT. Laws of the tending cores: what a fetch, a commit and a trap can do, and how an instruction ends. -/

namespace Sys2Proof.Machine

theorem EccMem.Same.refl (x : EccMem) : EccMem.Same x x := fun _ => ⟨rfl, rfl⟩
theorem EccMem.Same.trans {x y z : EccMem} (h : EccMem.Same x y) (g : EccMem.Same y z) : EccMem.Same x z :=
  fun a => ⟨(g a).1.trans (h a).1, (g a).2.trans (h a).2⟩

theorem EccMem.bad_repair (m : EccMem) (w x : Nat) : (m.repair w).bad x = m.bad x := by
  unfold EccMem.bad
  rw [EccMem.flip_repair]
  split
  · rename_i h
    obtain ⟨rfl, h⟩ := h
    have : (judge (m.flip x) == Judge.ue) = false := h
    rw [this]; decide
  · rfl

theorem EccMem.same_repair (m : EccMem) (w : Nat) : EccMem.Same m (m.repair w) := fun a => ⟨EccMem.byte_repair m w a, EccMem.bad_repair m w a⟩

/-- Memories that read the same give the same bytes. -/
theorem EccMem.Same.read {x y : EccMem} (h : EccMem.Same x y) (a n : Nat) : y.read a n = x.read a n := by
  simp only [EccMem.read, (h _).1]

theorem EccMem.Same.nat {x y : EccMem} (h : EccMem.Same x y) (a n : Nat) : y.nat a n = x.nat a n := by
  simp only [EccMem.nat, h.read]

theorem Core.Like.refl (k : Core) : Core.Like k k := ⟨.refl _, .refl _, .refl _⟩

theorem Core.Like.of_signalled {k k' : Core} (h : Core.Signalled k k') : Core.Like k k' := by
  have h1 : k'.imem = k.imem := by rw [h.1]
  have h2 : k'.dmem = k.dmem := by rw [h.1]
  exact ⟨h1 ▸ .refl _, h2 ▸ .refl _, by rw [h1, h2]; exact h⟩

/-- A core with other counts, overflow bits and memories. -/
def Core.vary (k : Core) (cs : Vector (BitVec 8) 64) (ov : DWord) (im dm : EccMem) : Core :=
  { k with counts := cs, evOvf := ov, imem := im, dmem := dm }

@[simp] theorem Core.vary_imem (k : Core) cs ov im dm : (k.vary cs ov im dm).imem = im := rfl
@[simp] theorem Core.vary_dmem (k : Core) cs ov im dm : (k.vary cs ov im dm).dmem = dm := rfl
@[simp] theorem Core.vary_st (k : Core) cs ov im dm : (k.vary cs ov im dm).st = k.st := rfl
@[simp] theorem Core.vary_pc (k : Core) cs ov im dm : (k.vary cs ov im dm).pc = k.pc := rfl
@[simp] theorem Core.vary_vary (k : Core) cs ov im dm cs' ov' im' dm' : (k.vary cs ov im dm).vary cs' ov' im' dm' = k.vary cs' ov' im' dm' := rfl
@[simp] theorem Core.vary_g (k : Core) cs ov im dm (r : BitVec 5) : (k.vary cs ov im dm).g r = k.g r := rfl

/-- A core that does not wait and is like k is k with other counts and corrected words. -/
theorem Core.Like.eq {k k' : Core} (h : Core.Like k k') (hk : k.st ≠ .wait) :
    ∃ cs ov im dm, k' = k.vary cs ov im dm ∧ EccMem.Same k.imem im ∧ EccMem.Same k.dmem dm := by
  obtain ⟨h1, h2, h3, h4⟩ := h
  obtain ⟨p, q, r, s⟩ := h4 hk
  refine ⟨k'.counts, k'.evOvf, k'.imem, k'.dmem, ?_, h1, h2⟩
  rw [h3, p, q, r, s]
  rfl

theorem Core.like_vary {k : Core} {cs ov im dm} (h1 : EccMem.Same k.imem im) (h2 : EccMem.Same k.dmem dm) : Core.Like k (k.vary cs ov im dm) :=
  ⟨h1, h2, rfl, fun _ => ⟨rfl, rfl, rfl, rfl⟩⟩

/-- An update that leaves counts, overflow bits and memories alone. -/
def Plain (f : Core → Core) : Prop :=
  ∀ k : Core, (∀ cs ov im dm, f (k.vary cs ov im dm) = (f k).vary cs ov im dm) ∧ (f k).imem = k.imem ∧ (f k).dmem = k.dmem

/-- Being like is kept by such an update. -/
theorem Core.Like.map {k k' : Core} {f : Core → Core} (hf : Plain f) (h : Core.Like k k') (hk : k.st ≠ .wait) : Core.Like (f k) (f k') := by
  obtain ⟨cs, ov, im, dm, rfl, h1, h2⟩ := h.eq hk
  rw [(hf k).1]
  exact Core.like_vary (by rw [(hf k).2.1]; exact h1) (by rw [(hf k).2.2]; exact h2)

theorem Core.Like.trans {a b c : Core} (h : Core.Like a b) (g : Core.Like b c) (ha : a.st ≠ .wait) : Core.Like a c := by
  obtain ⟨cs, ov, im, dm, rfl, h1, h2⟩ := h.eq ha
  obtain ⟨cs', ov', im', dm', rfl, g1, g2⟩ := g.eq ha
  exact Core.like_vary (h1.trans g1) (h2.trans g2)

theorem Core.plain_boundary : Plain Core.boundary := by
  intro k
  refine ⟨fun cs ov im dm => ?_, ?_⟩
  · unfold Core.boundary
    show (if (k.haltReq && k.st == .run && k.free) = true then _ else _) = _
    split <;> rfl
  · unfold Core.boundary; split <;> exact ⟨rfl, rfl⟩

theorem Core.plain_setG (rd : BitVec 5) (v : Word) : Plain (fun k => k.setG rd v) := by
  intro k
  unfold Core.setG
  by_cases h : rd = 0
  · simp only [if_pos h]; exact ⟨fun _ _ _ _ => trivial, trivial, trivial⟩
  · simp only [if_neg h]; exact ⟨fun _ _ _ _ => rfl, trivial, trivial⟩

theorem Core.Like.boundary {k k' : Core} (h : Core.Like k k') (hk : k.st ≠ .wait) : Core.EndsAs k k'.boundary := Core.Like.map Core.plain_boundary h hk

/-! ## Machines -/

/-- What the books can do to a core. -/
theorem Mach.Frame.core {ch : Part → Prop} {m m' : Mach} (h : Mach.Frame ch m m') {c : Fin 10} (hc : ¬ ch (.core c)) :
    Core.Signalled (m.core c) (m'.core c) := h (.core c) hc

theorem Mach.Books.core {m m' : Mach} (h : Mach.Books m m') (c : Fin 10) : Core.Signalled (m.core c) (m'.core c) := h (.core c) (by simp)

theorem Mach.books_coreGauge (m : Mach) (c : Fin 10) (code n : Nat) : Mach.Books m (m.coreGauge c code n) := Mach.books_gauge _ _ _ _ _

theorem Mach.frame_modCore' {ch : Part → Prop} (m : Mach) (c : Fin 10) (f : Core → Core) (hc : ch (.core c)) : Mach.Frame ch m (m.modCore c f) :=
  (Mach.frame_modCore m c f).mono (by rintro p rfl; exact hc)

theorem Mach.frame_put' {ch : Part → Prop} (m : Mach) (f : Fld) (v : Nat) (hc : ch (.reg f.addr)) : Mach.Frame ch m (m.put f v) :=
  (Mach.frame_put m f v).mono (by rintro p rfl; exact hc)

theorem Mach.frame_bump' {ch : Part → Prop} (m : Mach) (f : Fld) (v : Nat) (hc : ch (.reg f.addr)) : Mach.Frame ch m (m.bump f v) :=
  Mach.frame_put' _ _ _ hc

theorem coreParts_core (c : Fin 10) : coreParts c (.core c) := Or.inl rfl

@[simp] theorem Mach.core_put (m : Mach) (f : Fld) (v : Nat) (c : Fin 10) : (m.put f v).core c = m.core c := rfl
@[simp] theorem Mach.core_bump (m : Mach) (f : Fld) (n : Nat) (c : Fin 10) : (m.bump f n).core c = m.core c := rfl

/-- A read of a word of IMEM or DMEM that is not uncorrectable: its bytes, and at most a corrected word written back and counted. -/
theorem Mach.coreRead_sound (m : Mach) (c : Fin 10) (data : Bool) (a n : Nat) (latent : Bool) (hb : (m.coreMem c data).bad (a / 8) = false) :
    (m.coreRead c data a n latent).1 = (m.coreMem c data).read a n ∧ (m.coreRead c data a n latent).2.1 = false ∧
      Mach.Frame (coreParts c) m (m.coreRead c data a n latent).2.2 ∧ Core.Like (m.core c) ((m.coreRead c data a n latent).2.2.core c) := by
  have hr : ∀ (f : Fld), coreParts c (.reg f.addr) →
      Mach.Frame (coreParts c) m ((m.bump f).modCoreMem c data fun y => y.repair (a / 8)) ∧
        Core.Like (m.core c) (((m.bump f).modCoreMem c data fun y => y.repair (a / 8)).core c) := by
    intro f hf
    refine ⟨(Mach.frame_bump' m f 1 hf).trans (Mach.frame_modCore' _ _ _ (coreParts_core c)), ?_⟩
    unfold Mach.modCoreMem
    rw [Mach.core_modCore_self, Mach.core_bump]
    cases data
    · exact Core.like_vary (k := m.core c) (cs := (m.core c).counts) (ov := (m.core c).evOvf) (EccMem.same_repair _ _) (.refl _)
    · exact Core.like_vary (k := m.core c) (cs := (m.core c).counts) (ov := (m.core c).evOvf) (.refl _) (EccMem.same_repair _ _)
  unfold Mach.coreRead
  dsimp only
  split
  · exact ⟨rfl, rfl, .refl _ _, .refl _⟩
  · exact ⟨rfl, rfl, hr _ (Or.inr (Or.inl rfl))⟩
  · exact ⟨rfl, rfl, hr _ (Or.inr (Or.inr rfl))⟩
  · rename_i h
    simp [EccMem.bad, h] at hb

/-- A ready core fetches: nothing but the core and the books of its corrected errors changes. -/
theorem Mach.fetch_ready {s : State} {c : Fin 10} (h : CoreReady s c) :
    (s.m.fetch c).1 = true ∧ Mach.Frame (coreParts c) s.m (s.m.fetch c).2 ∧ Core.Like (s.m.core c) ((s.m.fetch c).2.core c) := by
  obtain ⟨-, hr, -, hp, hb⟩ := h
  have hg := Mach.books_coreGauge s.m c 0x02 1
  have hk := Core.Like.of_signalled (hg.core c)
  obtain ⟨cs, ov, im, dm, he, h1, -⟩ := hk.eq (by rw [hr]; simp)
  have hrd := Mach.coreRead_sound (s.m.coreGauge c 0x02 1) c false ((s.m.core c).pc.toNat / 4 * 4) 4 false
    (by rw [show (s.m.core c).pc.toNat / 4 * 4 / 8 = (s.m.core c).pc.toNat / 8 by omega]
        show (((s.m.coreGauge c 0x02 1).core c).imem).bad _ = false
        rw [he]
        exact ((h1 _).2).trans hb)
  obtain ⟨-, q, f, l⟩ := hrd
  unfold Mach.fetch
  rw [if_neg (by omega)]
  dsimp only
  rw [if_neg (by simp [q])]
  exact ⟨rfl, (hg.frame _).trans f, hk.trans l (by rw [hr]; simp)⟩

theorem Mach.instr_ready {s : State} {c : Fin 10} (h : CoreReady s c) (f : Mach → Mach) :
    s.m.instr c f = (f (s.m.fetch c).2).modCore c Core.boundary := by
  unfold Mach.instr
  simp only [h.1, h.2.1, h.2.2.1, (Mach.fetch_ready h).1, beq_self_eq_true, Bool.and_true, if_true]

/-- How an instruction that ends with a change of its own core and the books of others ends. -/
theorem instr_ends {s : State} {c : Fin 10} (h : CoreReady s c) (f : Mach → Mach) {ch : Part → Prop} (hc : ∀ p, coreParts c p → ch p)
    (k : Core) (hk : k.st ≠ .wait)
    (hf : ∀ m, m = (s.m.fetch c).2 → Mach.Frame (coreParts c) s.m m → Core.Like (s.m.core c) (m.core c) →
      Mach.Frame ch m (f m) ∧ Core.Like k ((f m).core c)) :
    ∃ t, s.onM (fun m => m.instr c f) = .next t ∧ Core.EndsAs k (t.m.core c) ∧ State.Frame ch s t := by
  obtain ⟨-, h2, h3⟩ := Mach.fetch_ready h
  obtain ⟨g1, g2⟩ := hf _ rfl h2 h3
  refine ⟨_, rfl, ?_, rfl, rfl, rfl, ?_⟩
  · show Core.EndsAs k ((s.m.instr c f).core c)
    rw [Mach.instr_ready h, Mach.core_modCore_self]
    exact g2.boundary hk
  · show Mach.Frame ch s.m (s.m.instr c f)
    rw [Mach.instr_ready h]
    exact ((h2.mono hc).trans g1).trans (Mach.frame_modCore' _ _ _ (hc _ (coreParts_core c)))

/-- A commit: the register result and the next pc, and books. -/
theorem Mach.commit_spec (m : Mach) (c : Fin 10) (rd : BitVec 5) (v : Word) :
    Mach.Frame (coreParts c) m (m.commit c rd v) ∧
      Core.Signalled { (m.core c).setG rd v with pc := (m.core c).pc + 4 } ((m.commit c rd v).core c) := by
  have hg := Mach.books_coreGauge (m.modCore c fun k => { k.setG rd v with pc := k.pc + 4 }) c 0x04 1
  refine ⟨(Mach.frame_modCore' m c _ (coreParts_core c)).trans (hg.frame _), ?_⟩
  have := hg.core c
  rw [Mach.core_modCore_self] at this
  exact this

theorem Mach.commitPlain_spec (m : Mach) (c : Fin 10) :
    Mach.Frame (coreParts c) m (m.commitPlain c) ∧
      Core.Signalled { m.core c with pc := (m.core c).pc + 4 } ((m.commitPlain c).core c) := by
  have hg := Mach.books_coreGauge (m.modCore c fun k => { k with pc := k.pc + 4 }) c 0x04 1
  refine ⟨(Mach.frame_modCore' m c _ (coreParts_core c)).trans (hg.frame _), ?_⟩
  have := hg.core c
  rw [Mach.core_modCore_self] at this
  exact this

theorem Core.st_setG (k : Core) (rd : BitVec 5) (v : Word) : (k.setG rd v).st = k.st := by unfold Core.setG; split <;> rfl

theorem Core.plain_commit (rd : BitVec 5) (v : Word) : Plain (fun k => { k.setG rd v with pc := k.pc + 4 }) := by
  intro k
  unfold Core.setG
  by_cases h : rd = 0
  · simp only [if_pos h]; exact ⟨fun _ _ _ _ => rfl, trivial, trivial⟩
  · simp only [if_neg h]; exact ⟨fun _ _ _ _ => rfl, trivial, trivial⟩

/-- A commit of a core that is like k ends like k with the result. -/
theorem Mach.commit_like {m : Mach} {c : Fin 10} {k : Core} (h : Core.Like k (m.core c)) (hk : k.st ≠ .wait) (rd : BitVec 5) (v : Word) :
    Core.Like { k.setG rd v with pc := k.pc + 4 } ((m.commit c rd v).core c) :=
  (Core.Like.map (Core.plain_commit rd v) h hk).trans (Core.Like.of_signalled (Mach.commit_spec m c rd v).2)
    (by rw [show _ = _ from Core.st_setG k rd v]; exact hk)

theorem Mach.commitPlain_like {m : Mach} {c : Fin 10} {k : Core} (h : Core.Like k (m.core c)) (hk : k.st ≠ .wait) :
    Core.Like { k with pc := k.pc + 4 } ((m.commitPlain c).core c) :=
  (Core.Like.map (f := fun k => { k with pc := k.pc + 4 }) (fun _ => ⟨fun _ _ _ _ => rfl, rfl, rfl⟩) h hk).trans
    (Core.Like.of_signalled (Mach.commitPlain_spec m c).2) hk

/-- A core like k reads k's registers. -/
theorem Mach.g_like {m : Mach} {c : Fin 10} {k : Core} (h : Core.Like k (m.core c)) (hk : k.st ≠ .wait) (r : BitVec 5) : m.g c r = k.g r := by
  obtain ⟨cs, ov, im, dm, he, -, -⟩ := h.eq hk
  unfold Mach.g
  rw [he]
  rfl

/-- An instruction that commits one register result. -/
theorem commit_ends {s : State} {c : Fin 10} (h : CoreReady s c) (f : Mach → Mach) (rd : BitVec 5) (v : Word)
    (hf : ∀ m, m = (s.m.fetch c).2 → Core.Like (s.m.core c) (m.core c) → f m = m.commit c rd v) :
    ∃ t, s.onM (fun m => m.instr c f) = .next t ∧ Core.EndsAs { (s.m.core c).setG rd v with pc := (s.m.core c).pc + 4 } (t.m.core c) ∧
      State.Frame (coreParts c) s t := by
  have hr : (s.m.core c).st ≠ .wait := by rw [h.2.1]; simp
  refine instr_ends h f (fun _ hp => hp) _ (by rw [show _ = _ from Core.st_setG _ rd v]; exact hr) ?_
  intro m hm _ hl
  rw [hf m hm hl]
  exact ⟨(Mach.commit_spec m c rd v).1, Mach.commit_like hl hr rd v⟩

end Sys2Proof.Machine
end

