-- ==== Sys2Proof/Laws/Scratchpad.lean ====
section
/-! SUPPORT. Laws of the scratchpads: what a read leaves as it was, and what it answers where no word is uncorrectable. -/

namespace Sys2Proof.Machine

/-- The scratchpads hold what they held: layout, bytes, errors and tags. -/
def Mach.SpKept (m m' : Mach) : Prop :=
  ∀ x, (m'.tile x).sp.mem = (m.tile x).sp.mem ∧ (m'.tile x).sp.tags = (m.tile x).sp.tags ∧ (m'.tile x).sp.unified = (m.tile x).sp.unified ∧
    (m'.tile x).sp.aFirst = (m.tile x).sp.aFirst ∧ (m'.tile x).sp.pFirst = (m.tile x).sp.pFirst

theorem Mach.SpKept.refl (m : Mach) : Mach.SpKept m m := fun _ => ⟨rfl, rfl, rfl, rfl, rfl⟩

theorem Mach.SpKept.trans {a b c : Mach} (h : Mach.SpKept a b) (g : Mach.SpKept b c) : Mach.SpKept a c := fun x =>
  ⟨(g x).1.trans (h x).1, (g x).2.1.trans (h x).2.1, (g x).2.2.1.trans (h x).2.2.1, (g x).2.2.2.1.trans (h x).2.2.2.1,
    (g x).2.2.2.2.trans (h x).2.2.2.2⟩

theorem Mach.SpKept.foldl {ι : Type} {f : Mach → ι → Mach} (hf : ∀ m i, Mach.SpKept m (f m i)) (l : List ι) (m : Mach) : Mach.SpKept m (l.foldl f m) := by
  induction l generalizing m with
  | nil => exact .refl m
  | cons i l ih => exact (hf m i).trans (ih _)

theorem Mach.SpKept.of_sp {m m' : Mach} (h : ∀ x, (m'.tile x).sp = (m.tile x).sp) : Mach.SpKept m m' := fun x => by simp [h x]

/-- Books change no scratchpad. -/
theorem Mach.Books.spKept {m m' : Mach} (h : Mach.Books m m') : Mach.SpKept m m' := .of_sp fun x => h (.sp x) (by simp)

theorem Mach.spKept_put (m : Mach) (f : Fld) (v : Nat) : Mach.SpKept m (m.put f v) := .refl m
theorem Mach.spKept_bump (m : Mach) (f : Fld) (n : Nat) : Mach.SpKept m (m.bump f n) := .refl m

theorem Mach.spKept_flag (m : Mach) (f : Fld) : Mach.SpKept m (m.flag f) := .refl m

theorem Mach.tile_modTile (m : Mach) (t x : Fin 4) (f : Tile → Tile) : (m.modTile t f).tile x = if x = t then f (m.tile t) else m.tile x := by
  by_cases h : x = t
  · subst h; simpa [Mach.modTile, Mach.tile] using vget_vmod_self m.tiles x f
  · simpa [Mach.modTile, Mach.tile, h] using vget_vmod_ne m.tiles f h

theorem Mach.spKept_modSp (m : Mach) (t : Fin 4) (f : Sp → Sp)
    (h : ∀ x, (f x).mem = x.mem ∧ (f x).tags = x.tags ∧ (f x).unified = x.unified ∧ (f x).aFirst = x.aFirst ∧ (f x).pFirst = x.pFirst) :
    Mach.SpKept m (m.modSp t f) := fun x => by
  by_cases hx : x = t
  · subst hx; simpa [Mach.modSp, Mach.tile_modTile] using h _
  · simp [Mach.modSp, Mach.tile_modTile, hx]

theorem Mach.spKept_stopMarch (m : Mach) (t : Fin 4) (bank : Nat) : Mach.SpKept m (m.stopMarch t bank) := by
  unfold Mach.stopMarch
  split
  · refine Mach.SpKept.trans ?_ (Mach.spKept_flag _ _)
    exact Mach.spKept_modSp m t _ fun _ => ⟨rfl, rfl, rfl, rfl, rfl⟩
  · exact .refl m

theorem Mach.spKept_record (m : Mach) (code : Nat) (src : Src) (args : List Nat) (a : Nat) (b : Bool) : Mach.SpKept m (m.record code src args a b) :=
  (Mach.books_record m code src args a b).spKept

theorem Mach.spKept_spWordRead (m : Mach) (t : Fin 4) (bank line w : Nat) : Mach.SpKept m (m.spWordRead t bank line w) := by
  unfold Mach.spWordRead
  split
  · exact .refl m
  · exact (Mach.spKept_bump m _ _).trans (Mach.spKept_modSp _ _ _ fun _ => ⟨rfl, rfl, rfl, rfl, rfl⟩)
  · exact (Mach.spKept_bump m _ _).trans (Mach.spKept_modSp _ _ _ fun _ => ⟨rfl, rfl, rfl, rfl, rfl⟩)
  · refine Mach.SpKept.trans ?_ (Mach.spKept_record _ _ _ _ _ _)
    refine Mach.SpKept.trans ?_ (Mach.spKept_flag _ _)
    refine Mach.SpKept.trans ?_ (Mach.spKept_flag _ _)
    refine Mach.SpKept.trans ?_ (Mach.spKept_put _ _ _)
    refine Mach.SpKept.trans ?_ (Mach.spKept_put _ _ _)
    exact (Mach.spKept_bump m _ _).trans (Mach.spKept_put _ _ _)

theorem Mach.spKept_tagCheck (m : Mach) (t : Fin 4) (bank line age : Nat) (sk : Bool) : Mach.SpKept m (m.tagCheck t bank line age sk).2 := by
  unfold Mach.tagCheck
  simp only
  split
  · exact .refl m
  · split
    · exact .refl m
    · split
      · exact (Mach.spKept_bump m _ _).trans (Mach.spKept_flag _ _)
      · refine Mach.SpKept.trans ?_ (Mach.spKept_record _ _ _ _ _ _)
        refine Mach.SpKept.trans ?_ (Mach.spKept_flag _ _)
        refine Mach.SpKept.trans ?_ (Mach.spKept_put _ _ _)
        refine Mach.SpKept.trans ?_ (Mach.spKept_put _ _ _)
        refine Mach.SpKept.trans ?_ (Mach.spKept_put _ _ _)
        refine Mach.SpKept.trans ?_ (Mach.spKept_put _ _ _)
        refine Mach.SpKept.trans ?_ (Mach.spKept_put _ _ _)
        exact (Mach.spKept_bump m _ _).trans (Mach.spKept_flag _ _)

theorem Mach.spKept_bankRead (m : Mach) (t : Fin 4) (bank line lo hi age : Nat) (sk : Bool) : Mach.SpKept m (m.bankRead t bank line lo hi age sk).2 := by
  unfold Mach.bankRead
  simp only
  exact ((Mach.spKept_tagCheck m t bank line age sk).trans
    (Mach.SpKept.foldl (fun m w => Mach.spKept_spWordRead m t bank line w) _ _)).trans (Mach.books_gauge _ _ _ _ _).spKept

theorem Mach.spKept_lineRead (m : Mach) (t : Fin 4) (bank line lo hi age : Nat) (sk : Bool) : Mach.SpKept m (m.lineRead t bank line lo hi age sk).2 :=
  (Mach.spKept_stopMarch m t bank).trans (Mach.spKept_bankRead _ t bank line lo hi age sk)

/-- One line of a read, added to what the lines before it answered. -/
def readLine (t : Fin 4) (age : Nat) (acc : SpReply × Mach) (e : Nat × Nat × Nat × Nat) : SpReply × Mach :=
  let r := acc.2.lineRead t e.1 e.2.1 e.2.2.1 e.2.2.2 age acc.1.skewed
  (⟨if r.1.status = .poison then .poison else acc.1.status, acc.1.data ++ r.1.data, r.1.skewed⟩, r.2)

theorem readLine_kept (t : Fin 4) (age : Nat) (acc : SpReply × Mach) (e : Nat × Nat × Nat × Nat) : Mach.SpKept acc.2 (readLine t age acc e).2 :=
  Mach.spKept_lineRead _ _ _ _ _ _ _ _

/-- A line of a memory without wrong bits, read unchecked, does not change the status; of an empty memory it adds zero bytes. -/
theorem readLine_clean {t : Fin 4} {acc : SpReply × Mach} (e : Nat × Nat × Nat × Nat) (hf : (acc.2.tile t).sp.mem.flips = []) :
    (readLine t 15 acc e).1.status = acc.1.status ∧
      ((acc.2.tile t).sp.mem.bytes = [] → ∀ x ∈ (readLine t 15 acc e).1.data, x ∈ acc.1.data ∨ x = (0, false)) := by
  have hs : ∀ b, ((acc.2.stopMarch t b).tile t).sp.mem = (acc.2.tile t).sp.mem := fun b => (Mach.spKept_stopMarch acc.2 t b t).1
  have hbad : ∀ w, (acc.2.tile t).sp.mem.bad w = false := by
    intro w; simp [EccMem.bad, EccMem.flip, hf, Tab.get, noFlips]
  have hc : ∀ b l, ((acc.2.stopMarch t b).tagCheck t b l 15 acc.1.skewed).1 = false := by
    intro b l; simp [Mach.tagCheck]
  refine ⟨by simp [readLine, Mach.lineRead, Mach.bankRead, hs, hbad, hc], fun hb x hx => ?_⟩
  rcases List.mem_append.mp hx with hx | hx
  · exact .inl hx
  · simp only [Mach.lineRead, Mach.bankRead, hs, hbad, hc, Bool.false_and, Bool.or_false, List.mem_map] at hx
    obtain ⟨i, -, rfl⟩ := hx
    exact .inr (by simp [EccMem.byte, EccMem.flip, hf, hb, Tab.get, noFlips, zeroByte])

/-- The same of the lines of a read together. -/
theorem readLines {t : Fin 4} {age : Nat} (ls : List (Nat × Nat × Nat × Nat)) (acc : SpReply × Mach) :
    Mach.SpKept acc.2 (ls.foldl (readLine t age) acc).2 ∧
      (age = 15 → (acc.2.tile t).sp.mem.flips = [] → (ls.foldl (readLine t age) acc).1.status = acc.1.status ∧
        ((acc.2.tile t).sp.mem.bytes = [] → ∀ x ∈ (ls.foldl (readLine t age) acc).1.data, x ∈ acc.1.data ∨ x = (0, false))) := by
  induction ls generalizing acc with
  | nil => exact ⟨.refl _, fun _ _ => ⟨rfl, fun _ _ h => .inl h⟩⟩
  | cons e ls ih =>
    rw [List.foldl_cons]
    have hk := readLine_kept t age acc e
    refine ⟨hk.trans (ih _).1, fun h15 hf => ?_⟩
    subst h15
    obtain ⟨h1, h2⟩ := (ih (readLine t 15 acc e)).2 rfl (by rw [(hk t).1]; exact hf)
    obtain ⟨g1, g2⟩ := readLine_clean e hf
    refine ⟨h1.trans g1, fun hb x hx => ?_⟩
    rcases h2 (by rw [(hk t).1]; exact hb) x hx with h | h
    · exact g2 hb x h
    · exact .inr h

theorem Mach.spKept_locRead (m : Mach) (l : SpLoc) (n age : Nat) (sk : Bool) : Mach.SpKept m (m.locRead l n age sk).2 :=
  (readLines (t := l.tile) (age := age) (l.lines m n) (⟨.ok, [], sk⟩, m)).1

/-- Noting the skeins that a poisoned reply struck changes no scratchpad. -/
theorem Mach.spKept_struck (m : Mach) (ss : List Nat) : Mach.SpKept m { m with struck := ss } := .refl m

/-- A stitch's read changes no byte, tag or layout of a scratchpad. -/
theorem Mach.spKept_spRead (m : Mach) (t : Fin 4) (addr : Word) (n age : Nat) (sk : Bool) (d : Nat) : Mach.SpKept m (m.spRead t addr n age sk d).2 := by
  unfold Mach.spRead
  split
  · unfold Mach.spRefuse
    split
    · exact (Mach.spKept_flag m _).trans (Mach.spKept_record _ _ _ _ _ _)
    · exact (Mach.spKept_flag m _).trans (Mach.spKept_record _ _ _ _ _ _)
  · exact .refl m
  · simp only
    split
    · exact (Mach.spKept_locRead _ _ _ _ _).trans (Mach.spKept_struck _ _)
    · exact Mach.spKept_locRead _ _ _ _ _

/-- An unchecked read of a range in a memory without wrong bits answers OK; where nothing was written, every byte is zero. -/
theorem Mach.spRead_clean {m : Mach} {t : Fin 4} {addr : Word} {n d : Nat} {l : SpLoc} (sk : Bool) (hl : m.spLoc t addr n d = .ok l)
    (hf : (m.tile l.tile).sp.mem.flips = []) :
    (m.spRead t addr n 15 sk d).1.status = .ok ∧
      ((m.tile l.tile).sp.mem.bytes = [] → ∀ x ∈ (m.spRead t addr n 15 sk d).1.data, x = (0, false)) := by
  have h : (m.spRead t addr n 15 sk d).1 = ((l.lines m n).foldl (readLine l.tile 15) (⟨.ok, [], sk⟩, m)).1 := by
    unfold Mach.spRead; rw [hl]; rfl
  obtain ⟨h1, h2⟩ := (readLines (t := l.tile) (age := 15) (l.lines m n) (⟨.ok, [], sk⟩, m)).2 rfl hf
  rw [h]
  exact ⟨h1, fun hb x hx => (h2 hb x hx).resolve_left (by simp)⟩

end Sys2Proof.Machine
end

