-- ==== Sys2Proof/Laws/State.lean ====
section
/-! SUPPORT. What each update of the machine leaves as it was, field by field, and what it makes of the part it updates; all by definition. -/

namespace Sys2Proof.Machine

variable (m : Mach)

/-! ## `Mach.setReg` changes `regs` -/

@[simp] theorem Mach.free_setReg (a : Nat) (w : Word) : (m.setReg a w).free = m.free := rfl
@[simp] theorem Mach.linkEpoch_setReg (a : Nat) (w : Word) : (m.setReg a w).linkEpoch = m.linkEpoch := rfl
@[simp] theorem Mach.issue_setReg (a : Nat) (w : Word) : (m.setReg a w).issue = m.issue := rfl
@[simp] theorem Mach.pairs_setReg (a : Nat) (w : Word) : (m.setReg a w).pairs = m.pairs := rfl
@[simp] theorem Mach.tb_setReg (a : Nat) (w : Word) : (m.setReg a w).tb = m.tb := rfl
@[simp] theorem Mach.tbOn_setReg (a : Nat) (w : Word) : (m.setReg a w).tbOn = m.tbOn := rfl
@[simp] theorem Mach.pw_setReg (a : Nat) (w : Word) : (m.setReg a w).pw = m.pw := rfl
@[simp] theorem Mach.fns_setReg (a : Nat) (w : Word) : (m.setReg a w).fns = m.fns := rfl
@[simp] theorem Mach.flash_setReg (a : Nat) (w : Word) : (m.setReg a w).flash = m.flash := rfl
@[simp] theorem Mach.cast_setReg (a : Nat) (w : Word) : (m.setReg a w).cast = m.cast := rfl
@[simp] theorem Mach.nvm_setReg (a : Nat) (w : Word) : (m.setReg a w).nvm = m.nvm := rfl
@[simp] theorem Mach.ll_setReg (a : Nat) (w : Word) : (m.setReg a w).ll = m.ll := rfl
@[simp] theorem Mach.waiting_setReg (a : Nat) (w : Word) : (m.setReg a w).waiting = m.waiting := rfl
@[simp] theorem Mach.islands_setReg (a : Nat) (w : Word) : (m.setReg a w).islands = m.islands := rfl
@[simp] theorem Mach.gov_setReg (a : Nat) (w : Word) : (m.setReg a w).gov = m.gov := rfl
@[simp] theorem Mach.rowCount_setReg (a : Nat) (w : Word) : (m.setReg a w).rowCount = m.rowCount := rfl
@[simp] theorem Mach.rowStart_setReg (a : Nat) (w : Word) : (m.setReg a w).rowStart = m.rowStart := rfl
@[simp] theorem Mach.tiles_setReg (a : Nat) (w : Word) : (m.setReg a w).tiles = m.tiles := rfl
@[simp] theorem Mach.cores_setReg (a : Nat) (w : Word) : (m.setReg a w).cores = m.cores := rfl
@[simp] theorem Mach.hub_setReg (a : Nat) (w : Word) : (m.setReg a w).hub = m.hub := rfl
@[simp] theorem Mach.stash_setReg (a : Nat) (w : Word) : (m.setReg a w).stash = m.stash := rfl
@[simp] theorem Mach.dza_setReg (a : Nat) (w : Word) : (m.setReg a w).dza = m.dza := rfl
@[simp] theorem Mach.ae_setReg (a : Nat) (w : Word) : (m.setReg a w).ae = m.ae := rfl
@[simp] theorem Mach.msg_setReg (a : Nat) (w : Word) : (m.setReg a w).msg = m.msg := rfl
@[simp] theorem Mach.host_setReg (a : Nat) (w : Word) : (m.setReg a w).host = m.host := rfl
@[simp] theorem Mach.frc_setReg (a : Nat) (w : Word) : (m.setReg a w).frc = m.frc := rfl
@[simp] theorem Mach.swatch_setReg (a : Nat) (w : Word) : (m.setReg a w).swatch = m.swatch := rfl
@[simp] theorem Mach.gauges_setReg (a : Nat) (w : Word) : (m.setReg a w).gauges = m.gauges := rfl
@[simp] theorem Mach.dump_setReg (a : Nat) (w : Word) : (m.setReg a w).dump = m.dump := rfl
@[simp] theorem Mach.dumpSeq_setReg (a : Nat) (w : Word) : (m.setReg a w).dumpSeq = m.dumpSeq := rfl
@[simp] theorem Mach.struck_setReg (a : Nat) (w : Word) : (m.setReg a w).struck = m.struck := rfl

/-! ## `Mach.put` changes `regs` -/

@[simp] theorem Mach.free_put (f : Fld) (v : Nat) : (m.put f v).free = m.free := rfl
@[simp] theorem Mach.linkEpoch_put (f : Fld) (v : Nat) : (m.put f v).linkEpoch = m.linkEpoch := rfl
@[simp] theorem Mach.issue_put (f : Fld) (v : Nat) : (m.put f v).issue = m.issue := rfl
@[simp] theorem Mach.pairs_put (f : Fld) (v : Nat) : (m.put f v).pairs = m.pairs := rfl
@[simp] theorem Mach.tb_put (f : Fld) (v : Nat) : (m.put f v).tb = m.tb := rfl
@[simp] theorem Mach.tbOn_put (f : Fld) (v : Nat) : (m.put f v).tbOn = m.tbOn := rfl
@[simp] theorem Mach.pw_put (f : Fld) (v : Nat) : (m.put f v).pw = m.pw := rfl
@[simp] theorem Mach.fns_put (f : Fld) (v : Nat) : (m.put f v).fns = m.fns := rfl
@[simp] theorem Mach.flash_put (f : Fld) (v : Nat) : (m.put f v).flash = m.flash := rfl
@[simp] theorem Mach.cast_put (f : Fld) (v : Nat) : (m.put f v).cast = m.cast := rfl
@[simp] theorem Mach.nvm_put (f : Fld) (v : Nat) : (m.put f v).nvm = m.nvm := rfl
@[simp] theorem Mach.ll_put (f : Fld) (v : Nat) : (m.put f v).ll = m.ll := rfl
@[simp] theorem Mach.waiting_put (f : Fld) (v : Nat) : (m.put f v).waiting = m.waiting := rfl
@[simp] theorem Mach.islands_put (f : Fld) (v : Nat) : (m.put f v).islands = m.islands := rfl
@[simp] theorem Mach.gov_put (f : Fld) (v : Nat) : (m.put f v).gov = m.gov := rfl
@[simp] theorem Mach.rowCount_put (f : Fld) (v : Nat) : (m.put f v).rowCount = m.rowCount := rfl
@[simp] theorem Mach.rowStart_put (f : Fld) (v : Nat) : (m.put f v).rowStart = m.rowStart := rfl
@[simp] theorem Mach.tiles_put (f : Fld) (v : Nat) : (m.put f v).tiles = m.tiles := rfl
@[simp] theorem Mach.cores_put (f : Fld) (v : Nat) : (m.put f v).cores = m.cores := rfl
@[simp] theorem Mach.hub_put (f : Fld) (v : Nat) : (m.put f v).hub = m.hub := rfl
@[simp] theorem Mach.stash_put (f : Fld) (v : Nat) : (m.put f v).stash = m.stash := rfl
@[simp] theorem Mach.dza_put (f : Fld) (v : Nat) : (m.put f v).dza = m.dza := rfl
@[simp] theorem Mach.ae_put (f : Fld) (v : Nat) : (m.put f v).ae = m.ae := rfl
@[simp] theorem Mach.msg_put (f : Fld) (v : Nat) : (m.put f v).msg = m.msg := rfl
@[simp] theorem Mach.host_put (f : Fld) (v : Nat) : (m.put f v).host = m.host := rfl
@[simp] theorem Mach.frc_put (f : Fld) (v : Nat) : (m.put f v).frc = m.frc := rfl
@[simp] theorem Mach.swatch_put (f : Fld) (v : Nat) : (m.put f v).swatch = m.swatch := rfl
@[simp] theorem Mach.gauges_put (f : Fld) (v : Nat) : (m.put f v).gauges = m.gauges := rfl
@[simp] theorem Mach.dump_put (f : Fld) (v : Nat) : (m.put f v).dump = m.dump := rfl
@[simp] theorem Mach.dumpSeq_put (f : Fld) (v : Nat) : (m.put f v).dumpSeq = m.dumpSeq := rfl
@[simp] theorem Mach.struck_put (f : Fld) (v : Nat) : (m.put f v).struck = m.struck := rfl

/-! ## `Mach.flag` changes `regs` -/

@[simp] theorem Mach.free_flag (f : Fld) : (m.flag f).free = m.free := rfl
@[simp] theorem Mach.linkEpoch_flag (f : Fld) : (m.flag f).linkEpoch = m.linkEpoch := rfl
@[simp] theorem Mach.issue_flag (f : Fld) : (m.flag f).issue = m.issue := rfl
@[simp] theorem Mach.pairs_flag (f : Fld) : (m.flag f).pairs = m.pairs := rfl
@[simp] theorem Mach.tb_flag (f : Fld) : (m.flag f).tb = m.tb := rfl
@[simp] theorem Mach.tbOn_flag (f : Fld) : (m.flag f).tbOn = m.tbOn := rfl
@[simp] theorem Mach.pw_flag (f : Fld) : (m.flag f).pw = m.pw := rfl
@[simp] theorem Mach.fns_flag (f : Fld) : (m.flag f).fns = m.fns := rfl
@[simp] theorem Mach.flash_flag (f : Fld) : (m.flag f).flash = m.flash := rfl
@[simp] theorem Mach.cast_flag (f : Fld) : (m.flag f).cast = m.cast := rfl
@[simp] theorem Mach.nvm_flag (f : Fld) : (m.flag f).nvm = m.nvm := rfl
@[simp] theorem Mach.ll_flag (f : Fld) : (m.flag f).ll = m.ll := rfl
@[simp] theorem Mach.waiting_flag (f : Fld) : (m.flag f).waiting = m.waiting := rfl
@[simp] theorem Mach.islands_flag (f : Fld) : (m.flag f).islands = m.islands := rfl
@[simp] theorem Mach.gov_flag (f : Fld) : (m.flag f).gov = m.gov := rfl
@[simp] theorem Mach.rowCount_flag (f : Fld) : (m.flag f).rowCount = m.rowCount := rfl
@[simp] theorem Mach.rowStart_flag (f : Fld) : (m.flag f).rowStart = m.rowStart := rfl
@[simp] theorem Mach.tiles_flag (f : Fld) : (m.flag f).tiles = m.tiles := rfl
@[simp] theorem Mach.cores_flag (f : Fld) : (m.flag f).cores = m.cores := rfl
@[simp] theorem Mach.hub_flag (f : Fld) : (m.flag f).hub = m.hub := rfl
@[simp] theorem Mach.stash_flag (f : Fld) : (m.flag f).stash = m.stash := rfl
@[simp] theorem Mach.dza_flag (f : Fld) : (m.flag f).dza = m.dza := rfl
@[simp] theorem Mach.ae_flag (f : Fld) : (m.flag f).ae = m.ae := rfl
@[simp] theorem Mach.msg_flag (f : Fld) : (m.flag f).msg = m.msg := rfl
@[simp] theorem Mach.host_flag (f : Fld) : (m.flag f).host = m.host := rfl
@[simp] theorem Mach.frc_flag (f : Fld) : (m.flag f).frc = m.frc := rfl
@[simp] theorem Mach.swatch_flag (f : Fld) : (m.flag f).swatch = m.swatch := rfl
@[simp] theorem Mach.gauges_flag (f : Fld) : (m.flag f).gauges = m.gauges := rfl
@[simp] theorem Mach.dump_flag (f : Fld) : (m.flag f).dump = m.dump := rfl
@[simp] theorem Mach.dumpSeq_flag (f : Fld) : (m.flag f).dumpSeq = m.dumpSeq := rfl
@[simp] theorem Mach.struck_flag (f : Fld) : (m.flag f).struck = m.struck := rfl

/-! ## `Mach.bump` changes `regs` -/

@[simp] theorem Mach.free_bump (f : Fld) (n : Nat) : (m.bump f n).free = m.free := rfl
@[simp] theorem Mach.linkEpoch_bump (f : Fld) (n : Nat) : (m.bump f n).linkEpoch = m.linkEpoch := rfl
@[simp] theorem Mach.issue_bump (f : Fld) (n : Nat) : (m.bump f n).issue = m.issue := rfl
@[simp] theorem Mach.pairs_bump (f : Fld) (n : Nat) : (m.bump f n).pairs = m.pairs := rfl
@[simp] theorem Mach.tb_bump (f : Fld) (n : Nat) : (m.bump f n).tb = m.tb := rfl
@[simp] theorem Mach.tbOn_bump (f : Fld) (n : Nat) : (m.bump f n).tbOn = m.tbOn := rfl
@[simp] theorem Mach.pw_bump (f : Fld) (n : Nat) : (m.bump f n).pw = m.pw := rfl
@[simp] theorem Mach.fns_bump (f : Fld) (n : Nat) : (m.bump f n).fns = m.fns := rfl
@[simp] theorem Mach.flash_bump (f : Fld) (n : Nat) : (m.bump f n).flash = m.flash := rfl
@[simp] theorem Mach.cast_bump (f : Fld) (n : Nat) : (m.bump f n).cast = m.cast := rfl
@[simp] theorem Mach.nvm_bump (f : Fld) (n : Nat) : (m.bump f n).nvm = m.nvm := rfl
@[simp] theorem Mach.ll_bump (f : Fld) (n : Nat) : (m.bump f n).ll = m.ll := rfl
@[simp] theorem Mach.waiting_bump (f : Fld) (n : Nat) : (m.bump f n).waiting = m.waiting := rfl
@[simp] theorem Mach.islands_bump (f : Fld) (n : Nat) : (m.bump f n).islands = m.islands := rfl
@[simp] theorem Mach.gov_bump (f : Fld) (n : Nat) : (m.bump f n).gov = m.gov := rfl
@[simp] theorem Mach.rowCount_bump (f : Fld) (n : Nat) : (m.bump f n).rowCount = m.rowCount := rfl
@[simp] theorem Mach.rowStart_bump (f : Fld) (n : Nat) : (m.bump f n).rowStart = m.rowStart := rfl
@[simp] theorem Mach.tiles_bump (f : Fld) (n : Nat) : (m.bump f n).tiles = m.tiles := rfl
@[simp] theorem Mach.cores_bump (f : Fld) (n : Nat) : (m.bump f n).cores = m.cores := rfl
@[simp] theorem Mach.hub_bump (f : Fld) (n : Nat) : (m.bump f n).hub = m.hub := rfl
@[simp] theorem Mach.stash_bump (f : Fld) (n : Nat) : (m.bump f n).stash = m.stash := rfl
@[simp] theorem Mach.dza_bump (f : Fld) (n : Nat) : (m.bump f n).dza = m.dza := rfl
@[simp] theorem Mach.ae_bump (f : Fld) (n : Nat) : (m.bump f n).ae = m.ae := rfl
@[simp] theorem Mach.msg_bump (f : Fld) (n : Nat) : (m.bump f n).msg = m.msg := rfl
@[simp] theorem Mach.host_bump (f : Fld) (n : Nat) : (m.bump f n).host = m.host := rfl
@[simp] theorem Mach.frc_bump (f : Fld) (n : Nat) : (m.bump f n).frc = m.frc := rfl
@[simp] theorem Mach.swatch_bump (f : Fld) (n : Nat) : (m.bump f n).swatch = m.swatch := rfl
@[simp] theorem Mach.gauges_bump (f : Fld) (n : Nat) : (m.bump f n).gauges = m.gauges := rfl
@[simp] theorem Mach.dump_bump (f : Fld) (n : Nat) : (m.bump f n).dump = m.dump := rfl
@[simp] theorem Mach.dumpSeq_bump (f : Fld) (n : Nat) : (m.bump f n).dumpSeq = m.dumpSeq := rfl
@[simp] theorem Mach.struck_bump (f : Fld) (n : Nat) : (m.bump f n).struck = m.struck := rfl

/-! ## `Mach.modTile` changes `tiles` -/

@[simp] theorem Mach.free_modTile (t : Fin 4) (f : Tile → Tile) : (m.modTile t f).free = m.free := rfl
@[simp] theorem Mach.linkEpoch_modTile (t : Fin 4) (f : Tile → Tile) : (m.modTile t f).linkEpoch = m.linkEpoch := rfl
@[simp] theorem Mach.issue_modTile (t : Fin 4) (f : Tile → Tile) : (m.modTile t f).issue = m.issue := rfl
@[simp] theorem Mach.regs_modTile (t : Fin 4) (f : Tile → Tile) : (m.modTile t f).regs = m.regs := rfl
@[simp] theorem Mach.pairs_modTile (t : Fin 4) (f : Tile → Tile) : (m.modTile t f).pairs = m.pairs := rfl
@[simp] theorem Mach.tb_modTile (t : Fin 4) (f : Tile → Tile) : (m.modTile t f).tb = m.tb := rfl
@[simp] theorem Mach.tbOn_modTile (t : Fin 4) (f : Tile → Tile) : (m.modTile t f).tbOn = m.tbOn := rfl
@[simp] theorem Mach.pw_modTile (t : Fin 4) (f : Tile → Tile) : (m.modTile t f).pw = m.pw := rfl
@[simp] theorem Mach.fns_modTile (t : Fin 4) (f : Tile → Tile) : (m.modTile t f).fns = m.fns := rfl
@[simp] theorem Mach.flash_modTile (t : Fin 4) (f : Tile → Tile) : (m.modTile t f).flash = m.flash := rfl
@[simp] theorem Mach.cast_modTile (t : Fin 4) (f : Tile → Tile) : (m.modTile t f).cast = m.cast := rfl
@[simp] theorem Mach.nvm_modTile (t : Fin 4) (f : Tile → Tile) : (m.modTile t f).nvm = m.nvm := rfl
@[simp] theorem Mach.ll_modTile (t : Fin 4) (f : Tile → Tile) : (m.modTile t f).ll = m.ll := rfl
@[simp] theorem Mach.waiting_modTile (t : Fin 4) (f : Tile → Tile) : (m.modTile t f).waiting = m.waiting := rfl
@[simp] theorem Mach.islands_modTile (t : Fin 4) (f : Tile → Tile) : (m.modTile t f).islands = m.islands := rfl
@[simp] theorem Mach.gov_modTile (t : Fin 4) (f : Tile → Tile) : (m.modTile t f).gov = m.gov := rfl
@[simp] theorem Mach.rowCount_modTile (t : Fin 4) (f : Tile → Tile) : (m.modTile t f).rowCount = m.rowCount := rfl
@[simp] theorem Mach.rowStart_modTile (t : Fin 4) (f : Tile → Tile) : (m.modTile t f).rowStart = m.rowStart := rfl
@[simp] theorem Mach.cores_modTile (t : Fin 4) (f : Tile → Tile) : (m.modTile t f).cores = m.cores := rfl
@[simp] theorem Mach.hub_modTile (t : Fin 4) (f : Tile → Tile) : (m.modTile t f).hub = m.hub := rfl
@[simp] theorem Mach.stash_modTile (t : Fin 4) (f : Tile → Tile) : (m.modTile t f).stash = m.stash := rfl
@[simp] theorem Mach.dza_modTile (t : Fin 4) (f : Tile → Tile) : (m.modTile t f).dza = m.dza := rfl
@[simp] theorem Mach.ae_modTile (t : Fin 4) (f : Tile → Tile) : (m.modTile t f).ae = m.ae := rfl
@[simp] theorem Mach.msg_modTile (t : Fin 4) (f : Tile → Tile) : (m.modTile t f).msg = m.msg := rfl
@[simp] theorem Mach.host_modTile (t : Fin 4) (f : Tile → Tile) : (m.modTile t f).host = m.host := rfl
@[simp] theorem Mach.frc_modTile (t : Fin 4) (f : Tile → Tile) : (m.modTile t f).frc = m.frc := rfl
@[simp] theorem Mach.swatch_modTile (t : Fin 4) (f : Tile → Tile) : (m.modTile t f).swatch = m.swatch := rfl
@[simp] theorem Mach.gauges_modTile (t : Fin 4) (f : Tile → Tile) : (m.modTile t f).gauges = m.gauges := rfl
@[simp] theorem Mach.dump_modTile (t : Fin 4) (f : Tile → Tile) : (m.modTile t f).dump = m.dump := rfl
@[simp] theorem Mach.dumpSeq_modTile (t : Fin 4) (f : Tile → Tile) : (m.modTile t f).dumpSeq = m.dumpSeq := rfl
@[simp] theorem Mach.struck_modTile (t : Fin 4) (f : Tile → Tile) : (m.modTile t f).struck = m.struck := rfl

/-! ## `Mach.modCore` changes `cores` -/

@[simp] theorem Mach.free_modCore (c : Fin 10) (f : Core → Core) : (m.modCore c f).free = m.free := rfl
@[simp] theorem Mach.linkEpoch_modCore (c : Fin 10) (f : Core → Core) : (m.modCore c f).linkEpoch = m.linkEpoch := rfl
@[simp] theorem Mach.issue_modCore (c : Fin 10) (f : Core → Core) : (m.modCore c f).issue = m.issue := rfl
@[simp] theorem Mach.regs_modCore (c : Fin 10) (f : Core → Core) : (m.modCore c f).regs = m.regs := rfl
@[simp] theorem Mach.pairs_modCore (c : Fin 10) (f : Core → Core) : (m.modCore c f).pairs = m.pairs := rfl
@[simp] theorem Mach.tb_modCore (c : Fin 10) (f : Core → Core) : (m.modCore c f).tb = m.tb := rfl
@[simp] theorem Mach.tbOn_modCore (c : Fin 10) (f : Core → Core) : (m.modCore c f).tbOn = m.tbOn := rfl
@[simp] theorem Mach.pw_modCore (c : Fin 10) (f : Core → Core) : (m.modCore c f).pw = m.pw := rfl
@[simp] theorem Mach.fns_modCore (c : Fin 10) (f : Core → Core) : (m.modCore c f).fns = m.fns := rfl
@[simp] theorem Mach.flash_modCore (c : Fin 10) (f : Core → Core) : (m.modCore c f).flash = m.flash := rfl
@[simp] theorem Mach.cast_modCore (c : Fin 10) (f : Core → Core) : (m.modCore c f).cast = m.cast := rfl
@[simp] theorem Mach.nvm_modCore (c : Fin 10) (f : Core → Core) : (m.modCore c f).nvm = m.nvm := rfl
@[simp] theorem Mach.ll_modCore (c : Fin 10) (f : Core → Core) : (m.modCore c f).ll = m.ll := rfl
@[simp] theorem Mach.waiting_modCore (c : Fin 10) (f : Core → Core) : (m.modCore c f).waiting = m.waiting := rfl
@[simp] theorem Mach.islands_modCore (c : Fin 10) (f : Core → Core) : (m.modCore c f).islands = m.islands := rfl
@[simp] theorem Mach.gov_modCore (c : Fin 10) (f : Core → Core) : (m.modCore c f).gov = m.gov := rfl
@[simp] theorem Mach.rowCount_modCore (c : Fin 10) (f : Core → Core) : (m.modCore c f).rowCount = m.rowCount := rfl
@[simp] theorem Mach.rowStart_modCore (c : Fin 10) (f : Core → Core) : (m.modCore c f).rowStart = m.rowStart := rfl
@[simp] theorem Mach.tiles_modCore (c : Fin 10) (f : Core → Core) : (m.modCore c f).tiles = m.tiles := rfl
@[simp] theorem Mach.hub_modCore (c : Fin 10) (f : Core → Core) : (m.modCore c f).hub = m.hub := rfl
@[simp] theorem Mach.stash_modCore (c : Fin 10) (f : Core → Core) : (m.modCore c f).stash = m.stash := rfl
@[simp] theorem Mach.dza_modCore (c : Fin 10) (f : Core → Core) : (m.modCore c f).dza = m.dza := rfl
@[simp] theorem Mach.ae_modCore (c : Fin 10) (f : Core → Core) : (m.modCore c f).ae = m.ae := rfl
@[simp] theorem Mach.msg_modCore (c : Fin 10) (f : Core → Core) : (m.modCore c f).msg = m.msg := rfl
@[simp] theorem Mach.host_modCore (c : Fin 10) (f : Core → Core) : (m.modCore c f).host = m.host := rfl
@[simp] theorem Mach.frc_modCore (c : Fin 10) (f : Core → Core) : (m.modCore c f).frc = m.frc := rfl
@[simp] theorem Mach.swatch_modCore (c : Fin 10) (f : Core → Core) : (m.modCore c f).swatch = m.swatch := rfl
@[simp] theorem Mach.gauges_modCore (c : Fin 10) (f : Core → Core) : (m.modCore c f).gauges = m.gauges := rfl
@[simp] theorem Mach.dump_modCore (c : Fin 10) (f : Core → Core) : (m.modCore c f).dump = m.dump := rfl
@[simp] theorem Mach.dumpSeq_modCore (c : Fin 10) (f : Core → Core) : (m.modCore c f).dumpSeq = m.dumpSeq := rfl
@[simp] theorem Mach.struck_modCore (c : Fin 10) (f : Core → Core) : (m.modCore c f).struck = m.struck := rfl

/-! ## `Mach.modIsl` changes `islands` -/

@[simp] theorem Mach.free_modIsl (i : Fin 264) (f : Island → Island) : (m.modIsl i f).free = m.free := rfl
@[simp] theorem Mach.linkEpoch_modIsl (i : Fin 264) (f : Island → Island) : (m.modIsl i f).linkEpoch = m.linkEpoch := rfl
@[simp] theorem Mach.issue_modIsl (i : Fin 264) (f : Island → Island) : (m.modIsl i f).issue = m.issue := rfl
@[simp] theorem Mach.regs_modIsl (i : Fin 264) (f : Island → Island) : (m.modIsl i f).regs = m.regs := rfl
@[simp] theorem Mach.pairs_modIsl (i : Fin 264) (f : Island → Island) : (m.modIsl i f).pairs = m.pairs := rfl
@[simp] theorem Mach.tb_modIsl (i : Fin 264) (f : Island → Island) : (m.modIsl i f).tb = m.tb := rfl
@[simp] theorem Mach.tbOn_modIsl (i : Fin 264) (f : Island → Island) : (m.modIsl i f).tbOn = m.tbOn := rfl
@[simp] theorem Mach.pw_modIsl (i : Fin 264) (f : Island → Island) : (m.modIsl i f).pw = m.pw := rfl
@[simp] theorem Mach.fns_modIsl (i : Fin 264) (f : Island → Island) : (m.modIsl i f).fns = m.fns := rfl
@[simp] theorem Mach.flash_modIsl (i : Fin 264) (f : Island → Island) : (m.modIsl i f).flash = m.flash := rfl
@[simp] theorem Mach.cast_modIsl (i : Fin 264) (f : Island → Island) : (m.modIsl i f).cast = m.cast := rfl
@[simp] theorem Mach.nvm_modIsl (i : Fin 264) (f : Island → Island) : (m.modIsl i f).nvm = m.nvm := rfl
@[simp] theorem Mach.ll_modIsl (i : Fin 264) (f : Island → Island) : (m.modIsl i f).ll = m.ll := rfl
@[simp] theorem Mach.waiting_modIsl (i : Fin 264) (f : Island → Island) : (m.modIsl i f).waiting = m.waiting := rfl
@[simp] theorem Mach.gov_modIsl (i : Fin 264) (f : Island → Island) : (m.modIsl i f).gov = m.gov := rfl
@[simp] theorem Mach.rowCount_modIsl (i : Fin 264) (f : Island → Island) : (m.modIsl i f).rowCount = m.rowCount := rfl
@[simp] theorem Mach.rowStart_modIsl (i : Fin 264) (f : Island → Island) : (m.modIsl i f).rowStart = m.rowStart := rfl
@[simp] theorem Mach.tiles_modIsl (i : Fin 264) (f : Island → Island) : (m.modIsl i f).tiles = m.tiles := rfl
@[simp] theorem Mach.cores_modIsl (i : Fin 264) (f : Island → Island) : (m.modIsl i f).cores = m.cores := rfl
@[simp] theorem Mach.hub_modIsl (i : Fin 264) (f : Island → Island) : (m.modIsl i f).hub = m.hub := rfl
@[simp] theorem Mach.stash_modIsl (i : Fin 264) (f : Island → Island) : (m.modIsl i f).stash = m.stash := rfl
@[simp] theorem Mach.dza_modIsl (i : Fin 264) (f : Island → Island) : (m.modIsl i f).dza = m.dza := rfl
@[simp] theorem Mach.ae_modIsl (i : Fin 264) (f : Island → Island) : (m.modIsl i f).ae = m.ae := rfl
@[simp] theorem Mach.msg_modIsl (i : Fin 264) (f : Island → Island) : (m.modIsl i f).msg = m.msg := rfl
@[simp] theorem Mach.host_modIsl (i : Fin 264) (f : Island → Island) : (m.modIsl i f).host = m.host := rfl
@[simp] theorem Mach.frc_modIsl (i : Fin 264) (f : Island → Island) : (m.modIsl i f).frc = m.frc := rfl
@[simp] theorem Mach.swatch_modIsl (i : Fin 264) (f : Island → Island) : (m.modIsl i f).swatch = m.swatch := rfl
@[simp] theorem Mach.gauges_modIsl (i : Fin 264) (f : Island → Island) : (m.modIsl i f).gauges = m.gauges := rfl
@[simp] theorem Mach.dump_modIsl (i : Fin 264) (f : Island → Island) : (m.modIsl i f).dump = m.dump := rfl
@[simp] theorem Mach.dumpSeq_modIsl (i : Fin 264) (f : Island → Island) : (m.modIsl i f).dumpSeq = m.dumpSeq := rfl
@[simp] theorem Mach.struck_modIsl (i : Fin 264) (f : Island → Island) : (m.modIsl i f).struck = m.struck := rfl

/-! ## `Mach.setFn` changes `fns` -/

@[simp] theorem Mach.free_setFn (f : Fin 19) (s : FnState) : (m.setFn f s).free = m.free := rfl
@[simp] theorem Mach.linkEpoch_setFn (f : Fin 19) (s : FnState) : (m.setFn f s).linkEpoch = m.linkEpoch := rfl
@[simp] theorem Mach.issue_setFn (f : Fin 19) (s : FnState) : (m.setFn f s).issue = m.issue := rfl
@[simp] theorem Mach.regs_setFn (f : Fin 19) (s : FnState) : (m.setFn f s).regs = m.regs := rfl
@[simp] theorem Mach.pairs_setFn (f : Fin 19) (s : FnState) : (m.setFn f s).pairs = m.pairs := rfl
@[simp] theorem Mach.tb_setFn (f : Fin 19) (s : FnState) : (m.setFn f s).tb = m.tb := rfl
@[simp] theorem Mach.tbOn_setFn (f : Fin 19) (s : FnState) : (m.setFn f s).tbOn = m.tbOn := rfl
@[simp] theorem Mach.pw_setFn (f : Fin 19) (s : FnState) : (m.setFn f s).pw = m.pw := rfl
@[simp] theorem Mach.flash_setFn (f : Fin 19) (s : FnState) : (m.setFn f s).flash = m.flash := rfl
@[simp] theorem Mach.cast_setFn (f : Fin 19) (s : FnState) : (m.setFn f s).cast = m.cast := rfl
@[simp] theorem Mach.nvm_setFn (f : Fin 19) (s : FnState) : (m.setFn f s).nvm = m.nvm := rfl
@[simp] theorem Mach.ll_setFn (f : Fin 19) (s : FnState) : (m.setFn f s).ll = m.ll := rfl
@[simp] theorem Mach.waiting_setFn (f : Fin 19) (s : FnState) : (m.setFn f s).waiting = m.waiting := rfl
@[simp] theorem Mach.islands_setFn (f : Fin 19) (s : FnState) : (m.setFn f s).islands = m.islands := rfl
@[simp] theorem Mach.gov_setFn (f : Fin 19) (s : FnState) : (m.setFn f s).gov = m.gov := rfl
@[simp] theorem Mach.rowCount_setFn (f : Fin 19) (s : FnState) : (m.setFn f s).rowCount = m.rowCount := rfl
@[simp] theorem Mach.rowStart_setFn (f : Fin 19) (s : FnState) : (m.setFn f s).rowStart = m.rowStart := rfl
@[simp] theorem Mach.tiles_setFn (f : Fin 19) (s : FnState) : (m.setFn f s).tiles = m.tiles := rfl
@[simp] theorem Mach.cores_setFn (f : Fin 19) (s : FnState) : (m.setFn f s).cores = m.cores := rfl
@[simp] theorem Mach.hub_setFn (f : Fin 19) (s : FnState) : (m.setFn f s).hub = m.hub := rfl
@[simp] theorem Mach.stash_setFn (f : Fin 19) (s : FnState) : (m.setFn f s).stash = m.stash := rfl
@[simp] theorem Mach.dza_setFn (f : Fin 19) (s : FnState) : (m.setFn f s).dza = m.dza := rfl
@[simp] theorem Mach.ae_setFn (f : Fin 19) (s : FnState) : (m.setFn f s).ae = m.ae := rfl
@[simp] theorem Mach.msg_setFn (f : Fin 19) (s : FnState) : (m.setFn f s).msg = m.msg := rfl
@[simp] theorem Mach.host_setFn (f : Fin 19) (s : FnState) : (m.setFn f s).host = m.host := rfl
@[simp] theorem Mach.frc_setFn (f : Fin 19) (s : FnState) : (m.setFn f s).frc = m.frc := rfl
@[simp] theorem Mach.swatch_setFn (f : Fin 19) (s : FnState) : (m.setFn f s).swatch = m.swatch := rfl
@[simp] theorem Mach.gauges_setFn (f : Fin 19) (s : FnState) : (m.setFn f s).gauges = m.gauges := rfl
@[simp] theorem Mach.dump_setFn (f : Fin 19) (s : FnState) : (m.setFn f s).dump = m.dump := rfl
@[simp] theorem Mach.dumpSeq_setFn (f : Fin 19) (s : FnState) : (m.setFn f s).dumpSeq = m.dumpSeq := rfl
@[simp] theorem Mach.struck_setFn (f : Fin 19) (s : FnState) : (m.setFn f s).struck = m.struck := rfl

/-! ## `Mach.modHub` changes `hub` -/

@[simp] theorem Mach.free_modHub (f : EccMem → EccMem) : (m.modHub f).free = m.free := rfl
@[simp] theorem Mach.linkEpoch_modHub (f : EccMem → EccMem) : (m.modHub f).linkEpoch = m.linkEpoch := rfl
@[simp] theorem Mach.issue_modHub (f : EccMem → EccMem) : (m.modHub f).issue = m.issue := rfl
@[simp] theorem Mach.regs_modHub (f : EccMem → EccMem) : (m.modHub f).regs = m.regs := rfl
@[simp] theorem Mach.pairs_modHub (f : EccMem → EccMem) : (m.modHub f).pairs = m.pairs := rfl
@[simp] theorem Mach.tb_modHub (f : EccMem → EccMem) : (m.modHub f).tb = m.tb := rfl
@[simp] theorem Mach.tbOn_modHub (f : EccMem → EccMem) : (m.modHub f).tbOn = m.tbOn := rfl
@[simp] theorem Mach.pw_modHub (f : EccMem → EccMem) : (m.modHub f).pw = m.pw := rfl
@[simp] theorem Mach.fns_modHub (f : EccMem → EccMem) : (m.modHub f).fns = m.fns := rfl
@[simp] theorem Mach.flash_modHub (f : EccMem → EccMem) : (m.modHub f).flash = m.flash := rfl
@[simp] theorem Mach.cast_modHub (f : EccMem → EccMem) : (m.modHub f).cast = m.cast := rfl
@[simp] theorem Mach.nvm_modHub (f : EccMem → EccMem) : (m.modHub f).nvm = m.nvm := rfl
@[simp] theorem Mach.ll_modHub (f : EccMem → EccMem) : (m.modHub f).ll = m.ll := rfl
@[simp] theorem Mach.waiting_modHub (f : EccMem → EccMem) : (m.modHub f).waiting = m.waiting := rfl
@[simp] theorem Mach.islands_modHub (f : EccMem → EccMem) : (m.modHub f).islands = m.islands := rfl
@[simp] theorem Mach.gov_modHub (f : EccMem → EccMem) : (m.modHub f).gov = m.gov := rfl
@[simp] theorem Mach.rowCount_modHub (f : EccMem → EccMem) : (m.modHub f).rowCount = m.rowCount := rfl
@[simp] theorem Mach.rowStart_modHub (f : EccMem → EccMem) : (m.modHub f).rowStart = m.rowStart := rfl
@[simp] theorem Mach.tiles_modHub (f : EccMem → EccMem) : (m.modHub f).tiles = m.tiles := rfl
@[simp] theorem Mach.cores_modHub (f : EccMem → EccMem) : (m.modHub f).cores = m.cores := rfl
@[simp] theorem Mach.stash_modHub (f : EccMem → EccMem) : (m.modHub f).stash = m.stash := rfl
@[simp] theorem Mach.dza_modHub (f : EccMem → EccMem) : (m.modHub f).dza = m.dza := rfl
@[simp] theorem Mach.ae_modHub (f : EccMem → EccMem) : (m.modHub f).ae = m.ae := rfl
@[simp] theorem Mach.msg_modHub (f : EccMem → EccMem) : (m.modHub f).msg = m.msg := rfl
@[simp] theorem Mach.host_modHub (f : EccMem → EccMem) : (m.modHub f).host = m.host := rfl
@[simp] theorem Mach.frc_modHub (f : EccMem → EccMem) : (m.modHub f).frc = m.frc := rfl
@[simp] theorem Mach.swatch_modHub (f : EccMem → EccMem) : (m.modHub f).swatch = m.swatch := rfl
@[simp] theorem Mach.gauges_modHub (f : EccMem → EccMem) : (m.modHub f).gauges = m.gauges := rfl
@[simp] theorem Mach.dump_modHub (f : EccMem → EccMem) : (m.modHub f).dump = m.dump := rfl
@[simp] theorem Mach.dumpSeq_modHub (f : EccMem → EccMem) : (m.modHub f).dumpSeq = m.dumpSeq := rfl
@[simp] theorem Mach.struck_modHub (f : EccMem → EccMem) : (m.modHub f).struck = m.struck := rfl

/-! ## The part an update changes -/

@[simp] theorem Mach.fn_setFn_self (f : Fin 19) (s : FnState) : (m.setFn f s).fn f = s := vget_vset_self _ _ _
theorem Mach.fn_setFn_ne {f g : Fin 19} (s : FnState) (h : g ≠ f) : (m.setFn f s).fn g = m.fn g := vget_vset_ne _ _ h
@[simp] theorem Mach.isl_modIsl_self (i : Fin 264) (f : Island → Island) : (m.modIsl i f).isl i = f (m.isl i) := vget_vmod_self _ _ _
theorem Mach.isl_modIsl_ne {i j : Fin 264} (f : Island → Island) (h : j ≠ i) : (m.modIsl i f).isl j = m.isl j := vget_vmod_ne _ _ h
@[simp] theorem Mach.tile_modTile_self (t : Fin 4) (f : Tile → Tile) : (m.modTile t f).tile t = f (m.tile t) := vget_vmod_self _ _ _
theorem Mach.tile_modTile_ne {t x : Fin 4} (f : Tile → Tile) (h : x ≠ t) : (m.modTile t f).tile x = m.tile x := vget_vmod_ne _ _ h
@[simp] theorem Mach.hub_modHub (f : EccMem → EccMem) : (m.modHub f).hub = f m.hub := rfl

/-! ## The update of a register leaves every other part readable as before -/

@[simp] theorem Mach.tile_setReg (a : Nat) (w : Word) (t : Fin 4) : (m.setReg a w).tile t = m.tile t := rfl
@[simp] theorem Mach.tile_put (f : Fld) (v : Nat) (t : Fin 4) : (m.put f v).tile t = m.tile t := rfl
@[simp] theorem Mach.fn_put (f : Fld) (v : Nat) (g : Fin 19) : (m.put f v).fn g = m.fn g := rfl
@[simp] theorem Mach.up_put (f : Fld) (v : Nat) (g : Fin 19) : (m.put f v).up g = m.up g := rfl
@[simp] theorem Mach.isl_put (f : Fld) (v : Nat) (i : Fin 264) : (m.put f v).isl i = m.isl i := rfl
@[simp] theorem Mach.reg_modTile (t : Fin 4) (f : Tile → Tile) (a : Nat) : (m.modTile t f).reg a = m.reg a := rfl
@[simp] theorem Mach.reg_modCore (c : Fin 10) (f : Core → Core) (a : Nat) : (m.modCore c f).reg a = m.reg a := rfl
@[simp] theorem Mach.reg_modIsl (i : Fin 264) (f : Island → Island) (a : Nat) : (m.modIsl i f).reg a = m.reg a := rfl
@[simp] theorem Mach.reg_setFn (g : Fin 19) (s : FnState) (a : Nat) : (m.setFn g s).reg a = m.reg a := rfl
@[simp] theorem Mach.reg_modHub (f : EccMem → EccMem) (a : Nat) : (m.modHub f).reg a = m.reg a := rfl
theorem Mach.get_put_ne {f g : Fld} (v : Nat) (h : g.addr ≠ f.addr) : (m.put f v).get g = m.get g := by
  simp [Mach.get, Mach.put, Mach.reg_setReg, h]

end Sys2Proof.Machine
end

