-- ==== Sys2Proof/Laws/Shared.lean ====
section
/-! SUPPORT. What the operations that many commands share can do: settling struck skeins, counting the routers' ports while time passes, breaking off
swatch tests, taking codes at a stitch boundary, storing a configuration word. -/

namespace Sys2Proof.Machine

/-- With no skein struck there is nothing to settle. -/
@[simp] theorem Mach.settle_none {m : Mach} (h : m.struck = []) : m.settle = m := by unfold Mach.settle; rw [h]

/-- Work that strikes no skein is all that happens. -/
theorem Mach.settled_quiet {m : Mach} {work : Mach → Mach} (h : (work { m with struck := [] }).struck = []) : m.settled work = work { m with struck := [] } := by
  unfold Mach.settled; exact Mach.settle_none h

/-- One counter's share of a router port is a book. -/
theorem books_portGauge (s : State) (m0 m : Mach) (b : Fin 5) (c : Fin 8) : Mach.Books m (portGauge s m0 m b c) := by
  unfold portGauge
  simp only
  split
  · exact (Mach.books_gaugeAdd _ _ _ _).trans (Mach.books_thresholdEvent _ _ _)
  · exact .refl m

/-- Counting the ports keeps books and nothing else (R434). -/
theorem State.books_lapsed (s : State) (m : Mach) : Mach.Books m (s.lapsed m) := by
  unfold State.lapsed
  exact Mach.Frame.foldl (fun acc _ => books_portGauge s m acc _ _) _ _

theorem State.linkEpoch_lapsed (s : State) (m : Mach) : (s.lapsed m).linkEpoch = m.linkEpoch := State.books_lapsed s m .linkEpoch (by simp)
theorem State.tb_lapsed (s : State) (m : Mach) : (s.lapsed m).tb = m.tb := State.books_lapsed s m .tb (by simp)

/-- A command in which time passes: what its meaning does, and books. -/
theorem State.onTime_spec (s : State) (f : Mach → Mach) :
    ∃ t, s.onTime f = .next t ∧ t.pending = s.pending ∧ t.links = s.links ∧ t.net = s.net ∧ Mach.Books (f s.m) t.m :=
  ⟨_, rfl, rfl, rfl, rfl, State.books_lapsed s (f s.m)⟩

/-- One that starts neither a cast-on nor a re-cast. -/
theorem State.onTimeCast_spec (s : State) (f : Mach → Mach) (h : (f s.m).linkEpoch = s.m.linkEpoch) :
    ∃ t, s.onTimeCast f = .next t ∧ t.pending = s.pending ∧ t.links = s.links ∧ t.net = s.net ∧ Mach.Books (f s.m) t.m := by
  have he : (s.lapsed (f s.m)).linkEpoch = s.m.linkEpoch := (State.linkEpoch_lapsed s (f s.m)).trans h
  refine ⟨{ s with m := s.lapsed (f s.m) }, ?_, rfl, rfl, rfl, State.books_lapsed s (f s.m)⟩
  simp [State.onTimeCast, State.onCast, h, he]

/-- With no test known nothing breaks off. -/
theorem Mach.breakTests_nil {m : Mach} (h : m.swatch = []) (u : UnitId) (b : Body) : m.breakTests u b = m := by
  unfold Mach.breakTests; simp [h]; rw [← h]

/-- Breaking tests off changes only the swatch instances. -/
theorem Mach.frame_breakTests (m : Mach) (u : UnitId) (b : Body) : Mach.Frame (fun p => p = .swatch) m (m.breakTests u b) := by
  intro p hp
  cases p with
  | swatch => exact absurd rfl hp
  | unitQ u => cases u <;> rfl
  | core c => exact Core.Signalled.refl _
  | reg a => exact fun _ => rfl
  | hub a => exact fun _ => rfl
  | _ => first | trivial | rfl | exact ⟨rfl, List.prefix_rfl⟩

/-- An update of the islands changes no other part. -/
theorem Mach.frame_islands (m : Mach) (v : Vector Island 264) (ch : Part → Prop) (h : ∀ i, ¬ ch (.island i) → vget v i = m.isl i) :
    Mach.Frame ch m { m with islands := v } := by
  intro p hp
  cases p with
  | island i => exact h i hp
  | unitQ u => cases u <;> rfl
  | core c => exact Core.Signalled.refl _
  | reg a => exact fun _ => rfl
  | hub a => exact fun _ => rfl
  | _ => first | trivial | rfl | exact ⟨rfl, List.prefix_rfl⟩

/-- A stitch boundary changes only islands in which the stitch ran. -/
theorem Mach.frame_takeCodes (m : Mach) (is : List Nat) :
    Mach.Frame (fun p => ∃ i : Fin 264, p = .island i ∧ is.contains i.val = true) m (m.takeCodes is) := by
  refine Mach.frame_islands m _ _ fun i hi => ?_
  have h : is.contains i.val ≠ true := fun h => hi ⟨i, rfl, h⟩
  simp only [vget, Vector.getElem_ofFn]
  split <;> simp_all

/-- Storing a configuration word changes only the host's side. -/
theorem Mach.frame_putCfg (m : Mach) (off : Nat) (w : Word) : Mach.Frame (fun p => p = .host) m (m.putCfg off w) := by
  intro p hp
  cases p with
  | host => exact absurd rfl hp
  | unitQ u => cases u <;> rfl
  | core c => exact Core.Signalled.refl _
  | reg a => exact fun _ => rfl
  | hub a => exact fun _ => rfl
  | _ => first | trivial | rfl | exact ⟨rfl, List.prefix_rfl⟩

end Sys2Proof.Machine
end

