-- ==== Sys2Proof/Tests/Slice0.lean ====
section
/-! SUPPORT. Tests: ill-formed commands that WellFormed refuses, words of the instruction encoding written out from Tables TC-3 to TC-5, values
that the spec itself gives, and for each statement states that meet the hypotheses of its clauses. -/

namespace Sys2Proof.Tests

open Sys2Proof.Machine

-- The theorems below are checked one after another: each takes a stack of its own.
set_option Elab.async false

/-! ## States the witnesses start from -/

/-- Phase RUNNING, every function in service, the cores in RUN, the link to the host up, a flash of 64 MiB. -/
def live : State :=
  { State.reset with
    m := (({ Mach.reset with
      fns := Vector.replicate 19 .up, tbOn := true, cores := Vector.replicate 10 { Core.reset with st := .run }
      host := { HostSide.reset with linkUp := true }
      pw := { Power.reset with porst := true, pwrok := true, perst := true } } : Mach).put GlStatus.phase 2).put CoNvmInfo.probed 1 |>.put CoNvmInfo.sizeLog2 26 }

/-- The live machine after a change. -/
def with_ (f : Mach → Mach) : State := { live with m := f live.m }

/-- The live machine with core 0 changed. -/
def withCore (f : Core → Core) : State := with_ fun m => m.modCore 0 f

/-- A poisoned word, which every read finds uncorrectable. -/
def badAt (w : Nat) : EccMem := EccMem.empty.setFlip w invertedCheck

/-- A stitch header of a core, with no done event and no budget. -/
def hdr (c : Fin 10) : StitchHdr := { express := false, doneEn := false, tag := 1, budget := 0, poster := c, doneEvent := 0, doneCore := 0 }

/-- A state with the registers of `live` signals no threshold event. -/
theorem quiet {s : State} (h : s.m.regs = live.m.regs) : GaugesQuiet s := by
  have h0 : GaugesQuiet live := by decide +kernel
  intro b c
  have := h0 b c
  simpa [Mach.on, Mach.get, Mach.reg, h] using this

/-! ## Tending cores -/

/-- Core 0 with g1 at an address of each region, its last word included. -/
def pointing (a : Word) : State := withCore fun k => k.setG 1 a

theorem witness_arithmetic : CoreReady live 0 := by decide +kernel

theorem witness_local_accesses :
    CoreReady (pointing 0x17FFC) 0 ∧ NoStepAsked (pointing 0x17FFC) ∧ memAddress (pointing 0x17FFC) 0 1 0 = 0x10000 + 0x7FFC ∧
      memAddress (pointing 0x17FFC) 0 1 0 % 4 = 0 ∧ ((pointing 0x17FFC).m.core 0).dmem.bad (0x7FFC / 8) = false ∧
    CoreReady (pointing 0x7FFFC) 0 ∧ memAddress (pointing 0x7FFFC) 0 1 0 = 0x40000 + 0x3FFFC ∧ (0 : Fin 4) = (⟨(0 : Fin 10).val / 2 % 4, by omega⟩ : Fin 4) := by
  decide +kernel

/-- Core 0 points at the registers of tile 1, which is out of service. -/
def deviceGone : State := { pointing 0x10200000 with m := (pointing 0x10200000).m.setFn 1 .down }

theorem witness_device_loads :
    CoreReady deviceGone 0 ∧ NoStepAsked deviceGone ∧ memAddress deviceGone 0 1 0 = 0x10000000 + 0x200000 ∧ deviceGone.m.reaches 0x200000 = false := by
  decide +kernel

/-- A load in M with a reply. -/
def loadReplied (st : Status) : State := withCore fun k => { k with devLoad := some { rd := 3, addr := 0x10100000, value := 7, status := st } }

theorem witness_device_replies :
    ∀ st ∈ [Status.ok, .error, .voidReset, .voidOff, .poison],
      ((loadReplied st).m.core 0).devLoad = some { rd := 3, addr := 0x10100000, value := 7, status := st } ∧ (loadReplied st).m.up (coreFn 0) = true ∧
      ((loadReplied st).m.core 0).st = .run ∧ (loadReplied .ok).m.loadWaits 0 = false ∧ ((loadReplied st).m.core 0).inTrap = false := by
  decide +kernel

/-- Stores of core 0 that await replies. -/
def storing (xs : List (Word × Status)) (fence : Bool) : State := withCore fun k => { k with stores := xs, fencing := fence }

theorem witness_device_stores :
    (let s := { deviceGone with m := deviceGone.m.modCore 0 fun k => { k with stores := List.replicate 7 (0x10000000, Status.error) } }
     CoreReady s 0 ∧ NoStepAsked s ∧ (s.m.core 0).stores.length < 8 ∧ s.m.reaches 0x200000 = false) ∧
    (let s := { deviceGone with m := deviceGone.m.modCore 0 fun k => { k with stores := List.replicate 8 (0x10000000, Status.ok) } }
     CoreReady s 0 ∧ NoStepAsked s ∧ 8 ≤ (s.m.core 0).stores.length) := by
  decide +kernel

theorem witness_store_replies :
    (let s := storing ([(1, .error)] ++ (2, .ok) :: [(3, .voidOff)]) true
     NoStepAsked s ∧ (s.m.core 0).st = .run ∧ (s.m.core 0).stores = [(1, .error)] ++ (2, .ok) :: [(3, .voidOff)] ∧
       (∀ x ∈ [((1 : Word), Status.error)], x.2 ≠ .ok) ∧ (s.m.core 0).heldStore = none) ∧
    (let s := storing ([(1, .ok)] ++ (2, .poison) :: []) false
     NoStepAsked s ∧ s.m.up (coreFn 0) = true ∧ (s.m.core 0).st = .run ∧ (s.m.core 0).stores = [(1, .ok)] ++ (2, .poison) :: [] ∧
       (∀ x ∈ [((1 : Word), Status.ok)], x.2 = .ok) ∧ (s.m.core 0).devLoad = none ∧ (s.m.core 0).heldStore = none ∧ (s.m.core 0).fencing = false ∧
       (s.m.core 0).inTrap = false) := by
  decide +kernel

theorem witness_trap_entry :
    CoreReady live 0 ∧ NoStepAsked live ∧ (live.m.core 0).inTrap = false ∧ live.m.on (TcCtl.breakHalt 0) = false ∧ decodeCore 0 0xFC000000 = none ∧
    (7 : BitVec 6).toNat < 8 ∧ csrKnown 0xFFFF = false ∧
    CoreReady (pointing 0x10002) 0 ∧ ((pointing 0x10002).m.core 0).g 1 + (0 : BitVec 16).signExtend 32 = 0x10002 ∧
    coreRegion 0 0x18000 = .none ∧ coreRegion 0 0x80000 = .none := by
  decide +kernel

theorem witness_fetch_traps :
    (let s := withCore fun k => { k with pc := 0x10000 }
     s.m.up (coreFn 0) = true ∧ (s.m.core 0).st = .run ∧ (s.m.core 0).free = true ∧ (s.m.core 0).inTrap = false ∧ 0x10000 ≤ (s.m.core 0).pc.toNat) ∧
    (let s := withCore fun k => { k with pc := 0xFFFC, imem := badAt (0xFFFC / 8) }
     s.m.up (coreFn 0) = true ∧ (s.m.core 0).st = .run ∧ (s.m.core 0).free = true ∧ (s.m.core 0).inTrap = false ∧ (s.m.core 0).pc.toNat < 0x10000 ∧
       (s.m.core 0).imem.bad ((s.m.core 0).pc.toNat / 8) = true) := by
  decide +kernel

/-- Core 0 within a trap. -/
def inTrap : State := withCore fun k => { k with inTrap := true, cause := 0x0B }

theorem witness_traps_within : CoreReady inTrap 0 ∧ (inTrap.m.core 0).inTrap = true ∧ GaugesQuiet inTrap ∧ FrcHasRoom inTrap (coreFn 0).val := by
  decide +kernel

/-- Core 0 has missed as many rows as the watchdog allows. -/
def missing : State := with_ fun m => (m.modCore 0 fun k => { k with programmed := true, missed := 3 }).put FrWdogCfg.rows 3

theorem witness_core_watchdog :
    missing.m.get FrWdogCfg.rows ≠ 0 ∧ (missing.m.core 0).programmed = true ∧ missing.m.up (coreFn 0) = true ∧
      missing.m.get FrWdogCfg.rows ≤ (missing.m.core 0).missed ∧ FrcHasRoom missing (coreFn 0).val ∧ missing.m.frc.cur = none := by
  decide +kernel

theorem witness_break_halt_step :
    (let s := with_ fun m => m.put (TcCtl.breakHalt 0) 1
     CoreReady s 0 ∧ s.m.on (TcCtl.breakHalt 0) = true) ∧
    live.m.coreOpen .pcie 0 = true ∧
    (let s := withCore fun k => { k with st := .halted }
     s.m.coreOpen .spi 0 = true ∧ NoStepAsked s ∧ (s.m.core 0).st = .halted ∧ (s.m.core 0).inTrap = false ∧
       CoreReady { s with m := s.m.modCore 0 fun k => { k with st := .run, haltReq := true } } 0 ∧
       decodeCore 0 (s.m.imemWord 0 (s.m.core 0).pc.toNat) = some (.add 0 0 0 0)) := by
  decide +kernel

/-- Core 0 in a state, with a space and an address of its debug port. -/
def probing (st : CoreSt) (space a : Nat) : State :=
  with_ fun m => ((m.modCore 0 fun k => { k with st := st }).put (TcDbgAddr.space 0) space).put (TcDbgAddr.addr 0) a

theorem probing_fields :
    (∀ x ∈ [(0, 0x3FFF), (1, 0x1FFF), (2, 31), (3, 0x13), (3, 2)], let s := probing .halted x.1 x.2
     s.m.coreOpen .spi 0 = true ∧ s.m.get (TcDbgAddr.space 0) = x.1 ∧ s.m.get (TcDbgAddr.addr 0) = x.2 ∧ (s.m.core 0).st = .halted) ∧
    (let s := probing .run 1 0x2000
     s.m.coreOpen .pcie 0 = true ∧ s.m.get (TcDbgAddr.space 0) = 1 ∧ s.m.get (TcDbgAddr.addr 0) = 0x2000) ∧
    csrKnown 0x13 = true ∧ csrHigh 0x13 = true ∧ csrKnown 2 = true ∧ (∃ w ∈ csrWords, 2 = w.1.toNat) ∧
    ((probing .halted 0 0x3FFF).m.core 0).imem.bad (4 * 0x3FFF / 8) = false ∧ ((probing .halted 1 0x1FFF).m.core 0).dmem.bad (4 * 0x1FFF / 8) = false := by
  decide +kernel

/-- Core 0 halted in phase FAILED, where IMEM may be written whether or not signatures are required. -/
def patching : State := { probing .halted 0 0 with m := (probing .halted 0 0).m.put GlStatus.phase 15 }

theorem witness_debug_access :
    DebugRefused (probing .run 1 0x2000) 0 false ∧ DebugRefused (probing .run 1 0x2000) 0 true ∧
    (∀ x ∈ [(0, 0x3FFF), (1, 0x1FFF), (2, 31), (3, 0x13), (3, 2)], ¬ DebugRefused (probing .halted x.1 x.2) 0 false) ∧
    (∀ x ∈ [(1, 0x1FFF), (2, 31), (3, 0x13), (3, 2)], ¬ DebugRefused (probing .halted x.1 x.2) 0 true) := by
  have h := probing_fields
  refine ⟨?_, ?_, ?_, ?_⟩
  · unfold DebugRefused; simp [h.2.1.2.1, h.2.1.2.2]
  · unfold DebugRefused; simp [h.2.1.2.1, h.2.1.2.2]
  · intro x hx
    have hh := h.1 x hx
    simp only [List.mem_cons, List.not_mem_nil, or_false] at hx
    rcases hx with rfl | rfl | rfl | rfl | rfl <;> dsimp only at hh <;> simp [DebugRefused, hh.2.1, hh.2.2.1, hh.2.2.2, h.2.2.1, h.2.2.2.2.1]
  · intro x hx
    have hh := h.1 x (List.mem_cons_of_mem _ hx)
    simp only [List.mem_cons, List.not_mem_nil, or_false] at hx
    rcases hx with rfl | rfl | rfl | rfl <;> dsimp only at hh <;> simp [DebugRefused, hh.2.1, hh.2.2.1, hh.2.2.2, h.2.2.1, h.2.2.2.2.1]

theorem witness_debug_program : ¬ DebugRefused patching 0 true ∧ patching.m.coreOpen .pcie 0 = true ∧ (patching.m.core 0).imem.bad 0 = false := by
  have h : patching.m.get (TcDbgAddr.space 0) = 0 ∧ patching.m.get (TcDbgAddr.addr 0) = 0 ∧ (patching.m.core 0).st = .halted ∧ patching.m.phase = 15 ∧
    patching.m.coreOpen .pcie 0 = true ∧ (patching.m.core 0).imem.bad 0 = false := by decide +kernel
  refine ⟨?_, h.2.2.2.2⟩
  unfold DebugRefused
  simp [h.1, h.2.1, h.2.2.1, h.2.2.2.1, phRunning, phIdle]

theorem witness_program_update :
    let s := withCore fun k => { k with staged := [(0, 0, [1, 2, 3, 4])], st := .wait }
    (s.m.core 0).staged = [(0, 0, [1, 2, 3, 4])] ∧ (s.m.core 0).st = .wait ∧ s.m.up (coreFn 0) = true := by
  decide +kernel

theorem witness_program_update_quiet : GaugesQuiet (withCore fun k => { k with staged := [(0, 0, [1, 2, 3, 4])], st := .wait }) ∧ (live.m.core 0).staged = [] :=
  ⟨quiet rfl, rfl⟩

/-- Core 0 with counts of event 63, in a state, waiting for an event. -/
def counting (n : BitVec 8) (st : CoreSt) (w : Option WaitSt) : State :=
  withCore fun k => { k with counts := k.counts.set 63 n, st := st, wait := w }

def waiting (deadline : Option Nat) : WaitSt := { rd := 4, anyEv := false, ev := 63, deadline := deadline }

theorem witness_event_signals :
    (let s := counting 254 .run none
     s.m.up (coreFn 0) = true ∧ (s.m.core 0).st ≠ .reset ∧ (s.m.core 0).st ≠ .wait ∧ ((s.m.core 0).counts[63]).toNat < 255) ∧
    (let s := counting 255 .run none
     (s.m.core 0).st ≠ .wait ∧ ((s.m.core 0).counts[63]).toNat = 255 ∧ s.m.frc.pend.length < 16) ∧
    (let s := counting 0 .wait (some (waiting none))
     s.m.up (coreFn 0) = true ∧ (s.m.core 0).st = .wait ∧ waitHit (s.m.core 0) (waiting none) = none ∧ ((s.m.core 0).counts[63]).toNat < 255 ∧ (waiting none).ev = 63) ∧
    CoreReady live 0 ∧ 8 ≤ (8 : BitVec 6).toNat ∧ live.m.up (coreFn 9) = true ∧ (live.m.core 9).st ∉ [CoreSt.reset, .wait] ∧
    (let s := with_ fun m => m.setFn 17 .down
     CoreReady s 0 ∧ s.m.up (coreFn 9) = false) ∧
    live.m.coreOpen .usb 0 = true ∧ ((live.m.core 0).counts[2]).toNat < 255 := by
  decide +kernel

theorem witness_event_waits :
    (let s := counting 1 .run none
     CoreReady s 0 ∧ (s.m.core 0).counts[(63 : Fin 64)] ≠ 0 ∧ ∀ d : Fin 64, d < 63 → d.val = 63 → (s.m.core 0).counts[d] = 0) ∧
    (∀ e : Fin 64, e.val = 63 → (live.m.core 0).counts[e] = 0) ∧
    (let s := counting 0 .wait (some (waiting (some 0)))
     (s.m.core 0).st = .wait ∧ (s.m.core 0).wait = some (waiting (some 0)) ∧ 0 ≤ s.m.now) := by
  decide +kernel

theorem witness_csr_latches :
    (let s := withCore fun k => { k with latches := [(0x12, 5)] }
     CoreReady s 0 ∧ ((s.m.core 0).latches.find? fun e => e.1 == 0x12) = some (0x12, 5)) := by
  decide +kernel

/-- A descriptor of a unit that no core can name, and one of a SEND. -/
def described (unit : Nat) : Core → Core := fun k => { k.setG 1 0x10000 with dmem := k.dmem.writeNat 0 4 unit }

/-- Core 0 posts the descriptor at the start of DMEM, or of its tile's SDM, or one that is not aligned. -/
theorem witness_post :
    (let s := pointing 0x10000
     CoreReady s 0 ∧ ((s.m.core 0).g 1 + (0 : BitVec 10).zeroExtend 32 * 64).toNat = 0x10000 + 0 ∧
       (∀ w < 8, (s.m.core 0).dmem.bad w = false)) ∧
    (let s := pointing 0x7FFC0
     CoreReady s 0 ∧ ((s.m.core 0).g 1 + (0 : BitVec 10).zeroExtend 32 * 64).toNat = 0x40000 + 0x3FFC0 ∧ coreTile 0 = some 0) ∧
    (let s := pointing 0x10020
     CoreReady s 0 ∧ ((s.m.core 0).g 1 + (0 : BitVec 10).zeroExtend 32 * 64).toNat % 64 ≠ 0) ∧
    live.m.postStatus 0 none ≠ 0 := by
  decide +kernel

/-- POST of a LOAD: accepted while its loader is busy, as while it is free. -/
theorem witness_post_accepted :
    let st : Stitch := { hdr := { express := false, doneEn := false, tag := 1, budget := 0, poster := 0, doneEvent := 0, doneCore := 0 },
                         body := .load { src := 0x10000000, stride := 8, arrays := 1, transposed := false, int4 := false, useCtl := false, age := 15, accMode := 0 } }
    live.m.postStatus 0 (some st) = 0 ∧
    (let s := with_ fun m => m.setQ (.loader 0) { UnitQ.empty with row := [st] }
     s.m.postStatus 0 (some st) = 0 ∧ (s.m.unitQ (.loader 0)).head ≠ none ∧ ∀ p, st.body = .load p → loadCheck s.m 0 p ≠ some mxShadowBusy) := by
  refine ⟨by decide +kernel, by decide +kernel, by decide +kernel, fun p hp => ?_⟩
  cases hp
  decide +kernel

/-- None of these states signals a threshold event. -/
theorem witness_quiet :
    GaugesQuiet live ∧ GaugesQuiet (with_ fun m => m.setFn 17 .down) ∧ GaugesQuiet (counting 1 .run none) ∧ GaugesQuiet (pointing 0x10000) ∧
    GaugesQuiet (pointing 0x7FFC0) ∧ GaugesQuiet (pointing 0x10020) :=
  ⟨quiet rfl, quiet rfl, quiet rfl, quiet rfl, quiet rfl, quiet rfl⟩

/-! ## Resets, power and cast-on -/

/-- A machine in phase RESET that keeps the pins high. -/
def tripped (trip : Bool) : State := { State.reset with m := { Mach.reset with pw := { Power.reset with porst := true, thermtrip := trip } } }

/-- In phase RESET with two rails low. -/
def lowRails : State := { State.reset with m := { Mach.reset with pw := { Power.reset with coreOk := false, io18Ok := false } } }

theorem witness_cold_cast_on :
    (State.reset.m.phase = 0 ∧ State.reset.m.pw.porst = false) ∧ ((tripped false).m.phase = 0 ∧ (tripped false).m.pw.thermtrip = false) ∧
    (let s := { tripped false with m := { (tripped false).m with flash := { Flash.reset with sfdpOk := false } } }
     s.m.phase = 0 ∧ s.m.flash.sfdpOk = false) ∧
    live.m.phase ≠ 0 ∧ ((tripped true).m.pw.thermtrip = true ∧ (tripped true).m.pw.porst = true) ∧
    (([.core] : List MonRail).foldl Power.rise lowRails.m.pw).allOk = false ∧
    (([.core, .io18] : List MonRail).foldl Power.rise lowRails.m.pw).allOk = true ∧ (([.core, .io18] : List MonRail).foldl Power.rise lowRails.m.pw).orderBad = true ∧
    (([.io18, .core] : List MonRail).foldl Power.rise lowRails.m.pw).orderBad = false ∧ Cool lowRails ∧
    (let s : State := { State.reset with m := { Mach.reset with pw := { Power.reset with temps := Power.reset.temps.set 15 460 } } }
     s.m.pw.allOk = true ∧ ¬ Cool s) := by
  decide +kernel

/-- The device in phase IDLE. -/
def idle : State := with_ fun m => m.setPhase 4

/-- A frog of function 3 in progress. -/
def frogging (kind : FrogKind) (step : FrogStep) : State :=
  with_ fun m => { m.setFn 3 .frogging with frc := { m.frc with cur := some { fn := 3, kind := kind, step := step, start := 0, stepping := [] } } }

theorem witness_cast_requests :
    CastReady live .spi ∧ live.m.phase = 2 ∧ CastReady idle .pcie ∧ idle.m.phase = 4 ∧ idle.m.on GlPstateStat.pendValid = false ∧
    live.m.on GlStatus.patternRunning = false ∧ (with_ fun m => m.put GlStatus.patternRunning 1).m.on GlStatus.patternRunning = true ∧
    (let s := with_ fun m => { m.put GlStatus.patternRunning 1 with pw := { m.pw with trans := .toIdle } }
     CastReady s .spi ∧ s.m.on GlPstateStat.pendValid = false ∧ s.m.pw.trans = .toIdle) ∧
    ((with_ fun m => m.setPhase 15).m.coOpen .spi = true ∧ (with_ fun m => m.setPhase 15).m.phase = 15) ∧ Cool live ∧
    (frogging .frog .fence).m.coOpen .pcie = true ∧ (frogging .frog .fence).m.castBusy = true := by
  decide +kernel

theorem witness_rescan :
    live.m.coOpen .usb = true ∧ live.m.cast.rescanning = false ∧ live.m.nvmRefusal nvBusy nvDown = none ∧ live.m.nvmFallback = false ∧
    (with_ fun m => { m with cast := { m.cast with rescanning := true } }).m.cast.rescanning = true := by
  decide +kernel

theorem witness_sensors :
    State.reset.m.phase = 0 ∧ live.m.phase ≠ 0 ∧ (459 : BitVec 11).toInt < 460 ∧ (460 ≤ (460 : BitVec 11).toInt) ∧ (0x400 : BitVec 11).toInt < 460 ∧
    (with_ fun m => m.put GlTherm.alert 100).m.get GlTherm.alert = 100 := by
  decide +kernel

theorem witness_clocks :
    (let s := with_ fun m => m.put GlClkstat.xtalOk 1
     s.m.tbOn = true ∧ s.m.on GlClkstat.xtalOk = true ∧ s.m.frc.pend.length < 16) ∧
    ((with_ fun m => m.setReg AeClksel.reg 1).m.onAmclk 0 = true ∧ outDomain 0 = 0 ∧ (with_ fun m => m.setReg AeClksel.reg 1).m.frc.pend.length < 16) ∧
    live.m.pw.fixedSupply = false ∧ live.m.phase ≠ 0 ∧ (live.m.isl 263).stopped = false := by
  decide +kernel

theorem witness_power_targets :
    live.m.glOpen .pcie = true ∧ live.m.phase = 2 ∧ live.m.pw.trans = .none ∧ live.m.frc.cur = none ∧ live.m.on GlPstateStat.pendValid = false ∧
    live.m.frc.queue = [] ∧
    idle.m.glOpen .spi = true ∧ idle.m.phase = 4 ∧ idle.m.pw.trans = .none ∧ idle.m.frc.cur = none ∧ idle.m.on GlPstateStat.pendValid = false ∧
    idle.m.frc.queue = [] ∧
    (let s := with_ fun m => { m with pw := { m.pw with trans := .toRetention } }
     s.m.glOpen .pcie = true ∧ s.m.phase = 2 ∧ s.m.pw.trans ≠ .none) ∧
    (∀ ph ∈ [5, 15], let s := with_ fun m => m.setPhase ph
     s.m.glOpen .spi = true ∧ s.m.phase = ph ∧ s.m.on GlPstateStat.pendValid = false ∧ s.m.frc.queue = []) := by
  decide +kernel

theorem witness_power_entries :
    (let s := with_ fun m => { m with pw := { m.pw with trans := .toIdle } }
     s.m.phase = 2 ∧ s.m.pw.trans = .toIdle ∧ s.m.on GlPstateStat.pendValid = false ∧ s.m.frc.queue = [] ∧ s.m.on GlStatus.patternRunning = false ∧
       s.m.stash.swaps = [] ∧ s.m.msg.staged = [] ∧ s.quiet = true ∧ State.quiet { s with links := [(0, { Link.reset with credits := 7, returning := 1 })] } = false) ∧
    (let s := { idle with m := { idle.m with pw := { idle.m.pw with trans := .toRetention } } }
     s.m.phase = 4 ∧ s.m.pw.trans = .toRetention ∧ s.m.on GlPstateStat.pendValid = false ∧ s.quiet = true) := by
  decide +kernel

theorem witness_endpoint :
    (let s := with_ fun m => m.setFn 7 .down
     s.m.phase ≠ 0 ∧ s.m.phase ≠ 5 ∧ s.m.fn 7 = .down ∧ s.m.inFrog 7 = false ∧ s.m.fnAllowed 7 = true) ∧
    (∀ wake ∈ [0, 1], let s := with_ fun m => (m.setPhase 5).put GlPstateCtl.perstWake wake
     s.m.phase = 5 ∧ s.m.on GlPstateCtl.perstWake = (wake == 1)) ∧ live.m.fn 7 ≠ .down ∧
    live.m.phase ≠ 0 ∧ live.m.pw.perst = true ∧ live.m.up fnPcie = true ∧
    State.reset.m.host.linkUp = false ∧ live.m.host.linkUp = true ∧ (∀ r < 16, (live.m.buf r).due = false) ∧
    (let s := with_ fun m => { m with host := { m.host with cfg := [(cfgPtmCtl, 1)] } }.put HlPtmCtl.auto 1
     s.m.pathUp .pcie = true ∧ s.m.on HlPtmCtl.auto = true ∧ (s.m.cfgWord cfgPtmCtl).getLsbD 0 = true) ∧
    live.m.pathUp .pcie = true := by
  decide +kernel

/-! ## Flash and lifeline -/

/-- The NVM address register holds an address. -/
def nvmAt (a : Nat) : State := with_ fun m => m.setReg CoNvmAddr.reg (BitVec.ofNat 32 a)

theorem witness_nvm_requests :
    live.m.coOpen .pcie = true ∧ live.m.on CoNvmStat.busy = false ∧ live.m.nvmRefusal nvBusy nvDown = none ∧
    (let s := with_ fun m => m.put CoNvmStat.busy 1
     s.m.coOpen .pcie = true ∧ s.m.on CoNvmStat.busy = true) ∧
    ((nvmAt 0x3FFFFFF).m.flashSize < ((nvmAt 0x3FFFFFF).m.reg CoNvmAddr.reg).toNat + 2) ∧
    ((nvmAt 4).m.reg CoNvmAddr.reg).toNat % 4096 ≠ 0 ∧
    (((nvmAt 0x3FFFFFF).m.reg CoNvmAddr.reg).toNat + 1 ≤ (nvmAt 0x3FFFFFF).m.flashSize) ∧
    (nvmAt 0).m.nvmProtected ((nvmAt 0).m.reg CoNvmAddr.reg).toNat 1 = false ∧ (nvmAt 0).m.hub.ues 0x1FF000 4096 = [] ∧
    (let s := with_ fun m => { m with cast := { m.cast with loaded := true, base := 0x10000, length := 0x1000 } }
     s.m.nvmProtected 0x10000 1 = true ∧ 0x10000 + 1 ≤ s.m.flashSize) ∧
    ((frogging .frog .fence).m.on CoNvmStat.busy = false ∧ (with_ fun m => m.setFn 18 .frogging).m.fn 18 = .frogging ∧
      (with_ fun m => m.setFn 18 .off).m.fn 18 = .off ∧ live.m.phase ≠ phCasting ∧ live.m.phase ≠ phRecasting) ∧
    (let s := with_ fun m => m.modHub fun h => h.setFlip (0x1FF000 / 8) invertedCheck
     s.m.hub.ues 0x1FF000 1 ≠ [] ∧ s.m.nvmRefusal nvBusy nvDown = none) ∧
    WriterIdle live ∧ (with_ fun m => { m with nvm := some { op := 1, addr := 0, len := 1, data := [], firmware := false } }).m.nvm ≠ none := by
  decide +kernel

theorem witness_nvm_ends :
    ∀ op ∈ [1, 2, 3, 4], let o : NvmOp := { op := op, addr := 0x1000, len := 4096, data := [], firmware := false }
      (with_ fun m => { m with nvm := some o }).m.nvm = some o ∧ o.len ≤ 4096 ∧ (with_ fun m => { m with nvm := some o }).m.waiting = [] := by
  decide +kernel

/-- While the pattern runs, a host's ERASE is served and another waits before the device's own write. -/
theorem witness_nvm_waits :
    let e : NvmOp := { op := 3, addr := 0x1000, len := 4096, data := [], firmware := false }
    let d : LlOp := { op := 1, key := 2, data := [], device := true, firmware := false }
    let s := with_ fun m => { m.put GlStatus.patternRunning 1 with nvm := some e, waiting := .nvm e :: ([] ++ .ll d :: []) }
    s.m.nvm = some e ∧ s.m.ll = none ∧ s.m.up fnNvm = true ∧ s.m.waiting = .nvm e :: ([] ++ .ll d :: []) ∧ s.m.on GlStatus.patternRunning = true ∧
      e.firmware = false ∧ d.op ≠ 2 ∧ d.device = true ∧ (∀ x ∈ [WriterOp.nvm e], x.prior = false) := by
  decide +kernel

theorem witness_lifeline_requests :
    Path.usb.isHost = true ∧ live.m.coOpen .usb = true ∧ live.m.on CoLlStat.busy = false ∧ live.m.nvmRefusal llBusy llDown = none ∧
    (0x7FFF : BitVec 16).toNat < 0x8000 ∧ (0xFFFF : BitVec 16).toNat = 0xFFFF ∧ 0x8000 ≤ (0xFFFE : BitVec 16).toNat ∧ (4000 : BitVec 12).toNat ≤ 4000 ∧
    live.m.hub.ues 0x1FF000 4000 = [] ∧ live.m.nvmFallback = false ∧ WriterIdle live ∧ 4000 < (4001 : BitVec 12).toNat ∧
    (let s := with_ fun m => m.put CoNvmInfo.probed 0
     s.m.nvmFallback = true ∧ s.m.nvmRefusal llBusy llDown = none) := by
  decide +kernel

theorem witness_keys : KeyOf .usb 0xFFFE ∧ ¬ KeyOf .usb 0x7FFF ∧ ¬ KeyOf .usb 0xFFFF ∧ KeyOf (.core 9) 0x1000 ∧ ¬ KeyOf (.core 9) 0x8000 := by
  unfold KeyOf; decide

/-- A lifeline operation in progress. -/
def lifeline (op : Nat) (data : List Byte) : State := with_ fun m => { m with ll := some { op := op, key := 0x8000, data := data, device := false, firmware := false } }

theorem witness_lifeline_ends :
    ∀ op ∈ [1, 2, 3], (lifeline op []).m.ll = some { op := op, key := 0x8000, data := [], device := false, firmware := false } ∧ (lifeline op []).m.waiting = [] ∧
      (lifeline op []).m.nvmFallback = false ∧ (lifeline op []).m.llGet 0x8000 = none := by
  decide +kernel

/-- A lifeline that holds one record, of a key of the host. -/
def keeping : State := with_ fun m => (m.llOpen [] 0).llAppend 0 32 1 0x8000 [1, 2]

theorem witness_lifeline_payload : keeping.m.llGet 0x8000 = some [1, 2] ∧ keeping.m.nvmFallback = false := by decide +kernel

/-! ## Islands and links -/

/-- The request class from TRT of tile 0 to the first core's island, in a state. -/
def linked (l : Link) : State := { live with links := [(linkKey 57 (coreIsland 0) .request, l)] }

/-- A head flit and a data flit, with right parity or wrong. -/
def flit (head ok : Bool) : Flit := { head := head, payload := 0, parity := if ok then 0 else 1 }

theorem witness_flits :
    linkExists 57 (coreIsland 0) .request = true ∧ live.m.linkOpen 57 (coreIsland 0) = true ∧
    (theLink (linked { Link.reset with credits := 0 }) 57 (coreIsland 0) .request).credits = 0 ∧
    0 < (theLink (linked { Link.reset with credits := 1 }) 57 (coreIsland 0) .request).credits ∧
    flitParityOk (flit true true) = true ∧ flitParityOk (flit true false) = false ∧ flitParityOk (flit false false) = false ∧
    (theLink (linked { Link.reset with credits := 7, inFlight := [flit true false] }) 57 (coreIsland 0) .request).inFlight = flit true false :: [] ∧
    (theLink (linked { Link.reset with credits := 7, inFlight := [flit false true], dropping := true }) 57 (coreIsland 0) .request).dropping = true ∧
    (theLink (linked { Link.reset with credits := 7, fifo := [⟨flit true true, false⟩] }) 57 (coreIsland 0) .request).fifo = ⟨flit true true, false⟩ :: [] := by
  decide +kernel

/-- A head flit of a class with right parity: to an island, from an island, with a tag, announcing data flits. -/
def headOf (c : FlitClass) (dst src tag data : Nat) : Flit :=
  let p := BitVec.ofNat 128 (classCode c * 2 ^ 126 + dst * 2 ^ 117 + src * 2 ^ 108 + tag * 2 ^ 100 + data * 2 ^ 89)
  { head := true, payload := p, parity := evenParity p }

/-- A request of core 0 (island 55) to the second core's island, with a tag; its target has taken it or not. -/
def asked (tag : BitVec 8) (inside : Bool) : Request :=
  { src := 55, tag := tag, dst := 56, inside := inside, poisoned := false, replied := false, status := .ok, data := [] }

/-- The live machine with links and requests. -/
def carrying (ls : Tab Link) (reqs : List Request) : State := { live with links := ls, net := { Net.reset with reqs := reqs } }

theorem witness_endpoints :
    isRouter 55 = false ∧ isRouter 57 = true ∧ linkExists 55 57 .request = true ∧ linkExists 56 57 .reply = true ∧ linkExists 55 56 .message = false ∧
    live.m.linkOpen 55 57 = true ∧ live.m.linkOpen 56 57 = true ∧
    live.net.mayFollow 55 57 .request Link.reset (headOf .request 56 55 255 16) = true ∧
    live.net.mayFollow 55 57 .request { Link.reset with owed := 1 } (flit false true) = true ∧
    (carrying [] [asked 3 false]).net.mayFollow 55 57 .request Link.reset (headOf .request 56 55 3 0) = false ∧
    (carrying [] [asked 3 true]).net.mayFollow 56 57 .reply Link.reset (headOf .reply 55 56 3 0) = true ∧
    (carrying [] [asked 3 true]).net.find (answeredBy (headOf .reply 55 56 3 0)) = some (asked 3 true) ∧
    (carrying [] [asked 3 true]).net.outgoing 57 .reply (headOf .reply 55 56 3 0) = headOf .reply 55 56 3 0 ∧
    live.net.find (answeredBy (headOf .reply 55 56 3 0)) = none ∧
    ((List.range 256).map fun n => asked (BitVec.ofNat 8 n) false).length = 256 := by
  decide +kernel

theorem witness_routers :
    (∀ i ∈ [55, 56], grantAt live 57 56 ≠ some (.request, i)) ∧
    (let s := carrying [(linkKey 55 57 .request, { Link.reset with credits := 7, fifo := [⟨headOf .request 56 55 3 0, false⟩] })] [asked 3 false]
     grantAt s 57 56 = some (.request, 55) ∧ linkExists 57 56 .request = true ∧
       (linkOf s.links (keyOf 55 57 .request)).fifo = ⟨headOf .request 56 55 3 0, false⟩ :: [] ∧ s.m.portShut 57 56 .request Link.reset (headOf .request 56 55 3 0) = false ∧
       nextHop 57 (flitDest (headOf .request 56 55 3 0)) = some 56) ∧
    (let s := { carrying [(linkKey 236 57 .request, { Link.reset with credits := 7, fifo := [⟨headOf .request 56 246 3 0, false⟩] })] [{ asked 3 false with src := 246 }] with
       m := live.m.setFn 0 .down }
     grantAt s 57 56 = some (.request, 236) ∧ s.m.portShut 57 56 .request Link.reset (headOf .request 56 246 3 0) = true ∧
       s.net.find (requestOf (headOf .request 56 246 3 0)) ≠ none) ∧
    (let s := carrying [(linkKey 55 57 .request, { Link.reset with credits := 7, fifo := [⟨headOf .request 56 55 3 0, false⟩] }),
                        (linkKey 236 57 .reply, { Link.reset with credits := 7, fifo := [⟨headOf .reply 56 246 3 0, false⟩] })] [asked 3 false]
     grantIn s 57 56 .reply = some 236 ∧ grantIn s 57 56 .request = some 55) := by
  decide +kernel

theorem witness_slots :
    (let s := linked { Link.reset with inFlight := [flit true true], doomed := 1 }
     (theLink s 57 (coreIsland 0) .request).inFlight = flit true true :: [] ∧ 0 < (theLink s 57 (coreIsland 0) .request).doomed) ∧
    live.m.frc.pend.length < 16 ∧
    (let x : RxFlit := ⟨headOf .reply 55 56 3 0, false⟩
     let s := carrying [(linkKey 57 55 .reply, { Link.reset with credits := 7, fifo := [x] })] [asked 3 true]
     (theLink s 57 55 .reply).fifo = x :: [] ∧ isRouter 55 = false ∧ isRouter 57 = true ∧ x.flit.head = true ∧ flitData x.flit = 0 ∧
       s.net.find (answeredBy x.flit) = some (asked 3 true) ∧ (asked 3 true).src = 55) ∧
    (let x : RxFlit := ⟨headOf .request 56 55 3 0, false⟩
     let s := carrying [(linkKey 55 57 .request, { Link.reset with credits := 7, fifo := [x] })] [asked 3 false]
     (theLink s 55 57 .request).fifo = x :: [] ∧ isRouter 57 = true ∧ x.flit.head = true ∧ nextHop 57 (flitDest x.flit) = some 56) ∧
    0 < (theLink (linked { Link.reset with credits := 7, returning := 1 }) 57 (coreIsland 0) .request).returning := by
  decide +kernel

theorem witness_link_watchdogs :
    (let s := linked { Link.reset with credits := 0 }
     isTrt (coreIsland 0).val = false ∧ islandFn (coreIsland 0).val = some 0 ∧ s.m.up 0 = true ∧ s.m.inFrog (0 : Fin 19).val = false ∧ FrcHasRoom s (0 : Fin 19).val ∧
       linkExists 57 (coreIsland 0) .request = true ∧ (theLink s 57 (coreIsland 0) .request).credits = 0 ∧ s.m.inFrog (srcIsl (57 : Fin 264).val).fn = false) ∧
    (((loadReplied .error).m.core 0).devLoad = some { rd := 3, addr := 0x10100000, value := 7, status := .error } ∧ isTrt 246 = false ∧ (55 : Fin 264) = coreIsland 0 ∧
      accessTo (some 0) 0x10100000 = true) ∧
    ((carrying [] [asked 3 true]).net.reqs.find? fun r => r.src == (55 : Fin 264).val && r.dst == (56 : Fin 264).val) = some (asked 3 true) := by
  decide +kernel

/-- An island of function 0 has been read. -/
def standing : State := with_ fun m => m.modIsl 5 fun x => { x with lastRead := some 0 }

theorem live_unread (i : Fin 264) : (live.m.isl i).lastRead = none := by
  show (vget (Vector.replicate 264 Island.reset) i).lastRead = none
  simp [vget, Island.reset]

theorem witness_cycle_count :
    (live.m.tbOn = true ∧ live.m.tb.toNat + 9600 < 2 ^ 64 ∧ live.m.phase ≠ 0) ∧ (∀ i, (live.m.isl i).lastRead = none) ∧
    (islandFn (5 : Fin 264).val = some 0 ∧ isTrt (5 : Fin 264).val = false ∧ (5 : Fin 264).val ∉ [237, 238, 239]) ∧
    (∀ j, j ≠ 5 → (standing.m.isl j).lastRead = none) ∧
    ((standing.m.isl 5).lastRead = some 0 ∧ (0 : Nat) < 2 ^ 64 ∧
      standing.m.up 0 = true ∧ standing.m.inFrog (0 : Fin 19).val = false ∧ FrcHasRoom standing (0 : Fin 19).val) ∧ GaugesQuiet standing := by
  refine ⟨by decide +kernel, live_unread, by decide +kernel, fun j hj => ?_, by decide +kernel, quiet rfl⟩
  show (vget (vset live.m.islands 5 _) j).lastRead = none
  rw [vget_vset_ne _ _ hj]
  exact live_unread j

theorem witness_governor :
    (let s := with_ fun m => m.put IsStatus.active 1
     s.m.on IsStatus.active = true ∧ s.m.tbOn = true ∧ s.m.tb.toNat + 9600 < 2 ^ 64 ∧ s.m.hotBy 0 = false) ∧
    (live.m.on IsStatus.active = false ∧ live.m.tbOn = true ∧ live.m.floorDue = false) ∧
    (let s := with_ fun m => { (m.put IsStatus.active 1).put IsTenCfg.limit 10 with gov := { m.gov with measure := 4, estimates := List.replicate 100 11 } }
     s.m.frc.pend.length < 16 ∧ s.m.on IsStatus.active = true ∧ s.m.gov.measure = 4 ∧ s.m.gov.estimates.length = 100 ∧
       (s.m.gov.estimates.all fun e => decide (s.m.get IsTenCfg.limit < e.toNat)) = true) ∧
    (∀ fl, let s := with_ fun m => { (m.put IsStatus.active 1).put IsTenCfg.limit 10 with gov := { m.gov with measure := 4, floor := fl } }
     s.m.gov.floor = fl) := by
  decide +kernel

/-! ## Scratchpads -/

/-- Tile 0's region A from its first byte, and the last line of region W. -/
def regionA : Word := 0x10000000
def lastW : Word := BitVec.ofNat 32 (24 * 20480 * 64 - 64)

theorem witness_scratchpad :
    (live.m.frc.pend.length < 16 ∧ lastW.toNat / 2 ^ 30 ≠ 3 ∧ live.m.up (tileFn 0) = true ∧
      live.m.spPlace 0 lastW 64 = some ⟨0, 0, 0, 24, 24 * 20480 * 64 - 64⟩ ∧ live.m.spPlace 0 regionA 1 = some ⟨0, 1, 24, 6, 0⟩) ∧
    (live.m.spPlace 0 lastW 65 = none ∧ (0xC0000000 : Word).toNat / 2 ^ 30 = 3) ∧
    (let s := with_ fun m => m.setFn 1 .down
     (0x40000000 : Word).toNat / 2 ^ 30 ≠ 3 ∧ s.m.up (tileFn (neighbour 0 ((0x40000000 : Word).toNat / 2 ^ 30))) = false) := by
  decide +kernel

theorem witness_scratchpad_errors :
    (match live.m.spLoc 0 lastW 65 with | .error .error => true | _ => false) = true ∧
    (match live.m.spLoc 0 0xC0000000 4 with | .error .error => true | _ => false) = true ∧
    (match (with_ fun m => m.setFn 1 .down).m.spLoc 0 0x40000000 4 with | .error .voidOff => true | _ => false) = true := by
  decide +kernel

/-- A word of region A's first line is uncorrectable. -/
def spoiled : State := with_ fun m => m.modSp 0 fun x => { x with mem := x.mem.setFlip (spKey live ⟨0, 1, 24, 6, 0⟩ 0 / 8) invertedCheck }

theorem witness_scratchpad_words :
    (let l : SpLoc := ⟨0, 1, 24, 6, 0⟩
     spoiled.m.spPlace 0 regionA 1 = some l ∧ (spoiled.m.tile 0).sp.mem.bad (spKey spoiled l 0 / 8) = true ∧ (l.off + 0) / 8 ∈ partWords l.off [some 1] ∧
       (live.m.tile 0).sp.mem.bad (spKey live l 0 / 8) = false ∧ spTag live 0 (spKey live l 0) = 0 ∧ l.inW live.m = false) ∧
    (⟨0, 0, 0, 24, 24 * 20480 * 64 - 64⟩ : SpLoc).inW live.m = true := by
  decide +kernel

theorem witness_no_steps : NoSkeinSteps live := by
  unfold NoSkeinSteps; decide +kernel

theorem witness_bank_grant : [Requester.shadowLoad, .drainWrite].Nodup ∧ (let s := live
      let aged := fun r => 4096 ≤ Tab.get noLoss (s.m.tile 0).sp.lost (lostKey 0 r)
      aged .shadowLoad = False) ∧ reqPrio .shadowLoad ≤ reqPrio .shadowLoad := by
  refine ⟨by decide +kernel, ?_, Nat.le_refl _⟩
  show (4096 ≤ 0) = False
  simp

/-- A corrected word of bank 3 waits for its write-back. -/
def correctable : State := with_ fun m => m.modSp 0 fun x => { x with mem := x.mem.setFlip (8 * lineNo 3 7 + 2) 1, writeback := [(3, 7, 2)] }

theorem witness_upkeep :
    (correctable.m.tile 0).sp.writeback.find? (fun e => e.1 == 3) = some (3, 7, 2) ∧ (correctable.m.tile 0).sp.mem.bad (8 * lineNo 3 7 + 2) = false ∧
    (with_ fun m => m.put (SpCtl.scrubEn 0) 1).m.on (SpCtl.scrubEn 0) = true ∧ (with_ fun m => m.put (SpCtl.scrubEn 0) 0).m.on (SpCtl.scrubEn 0) = false := by
  decide +kernel

theorem witness_host_windows :
    Path.pcie.isHost = true ∧ live.m.pathUp .pcie = true ∧ live.m.reaches 0x180000 = true ∧
    windowOk .pcie (0xF00 : BitVec 19).toNat 256 true = true ∧ windowOk .pcie (0xF01 : BitVec 19).toNat 256 true = false ∧
    windowOk .spi (0x7FFFC : BitVec 19).toNat 4 true = true ∧ windowOk .usb (2 : BitVec 19).toNat 4 true = false ∧
    live.m.windowLoc 0 (0xF00 : BitVec 19).toNat 256 = some ⟨0, 0, 0, 24, 0xF00⟩ ∧ live.m.wProtected ⟨0, 0, 0, 24, 0xF00⟩ = true ∧
    live.m.wProtected ⟨0, 1, 24, 6, 0⟩ = false ∧
    (let s := with_ fun m => (m.put (SpWinPage.region 0) 2).put (SpWinPage.page 0) 5
     s.m.windowLoc 0 0 4 = none) ∧
    live.m.writeReaches (0x180000 + 0x100000 * 0 + 0xF00) 256 = true ∧
    live.m.reaches 0x900000 = true ∧ windowOk .pcie (0x1FFF00 : BitVec 21).toNat 256 true = true ∧ (0x1FFF00 : BitVec 21).toNat + 256 ≤ 0x200000 ∧
    windowOk .usb (0x1FFFFE : BitVec 21).toNat 4 true = false ∧ live.m.tableProtected = true ∧ (0x198F : BitVec 21).toNat < 0x1990 ∧
    (with_ fun m => m.setPhase 15).m.tableProtected = false := by
  decide +kernel

/-! ## Matrix engine -/

/-- A LOAD of array 0 from region A. -/
def aLoad (transposed : Bool) : LoadP :=
  { src := regionA, stride := 8, arrays := 1, transposed := transposed, int4 := false, useCtl := false, age := 15, accMode := 0 }

theorem witness_weight_loads :
    UnitReady live (.loader 0) ∧ (aLoad false).arrays ≠ 0 ∧
    (∀ i < 128, live.m.spInRange 0 (aLoad false).src 512 (i * (aLoad false).stride.toNat * 64) = true) ∧
    (loadParts (aLoad false) = (128, 512) ∧ loadParts (aLoad true) = (512, 128)) ∧
    (∀ a : Fin 4, (arrayOf live 0 a).shadowState = .empty) ∧
    (let s := with_ fun m => m.modArray 0 0 fun x => { x with shadowState := .loading }
     UnitReady s (.loader 0) ∧ (arrayOf s 0 0).shadowState ≠ .empty ∧ (aLoad false).arrays.getLsbD 0 = true ∧
       (∀ i < 128, s.m.spInRange 0 (aLoad false).src 512 (i * (aLoad false).stride.toNat * 64) = true)) ∧
    (let s := with_ fun m => (m.modArray 0 0 fun x => { x with shadowState := .loading }).setQ (.loader 0) { UnitQ.empty with
       current := [{ stitch := { hdr := hdr 0, body := .load (aLoad false) }, seq := 0, start := 0, done := false, overran := false }] }
     (arrayOf s 0 0).shadowState ≠ .empty ∧ s.m.unitFree (.loader 0) (.load (aLoad false)) = false ∧ loadCheck s.m 0 (aLoad false) = some mxShadowBusy) := by
  decide +kernel

/-- A load in progress whose reads all end well. -/
def loadingState (transposed : Bool) : State :=
  with_ fun m => m.modMx 0 fun x => { x with loading := some { hdr := hdr 0, p := aLoad transposed, accMode := 0, seq := 0 } }

/-- An unchecked read of a region that is in range answers OK in these states. -/
theorem reply_ok {s : State} {addr : Word} {n d : Nat} (hs : ∀ x, (s.m.tile x).sp.mem.flips = []) (h : ∃ l, s.m.spLoc 0 addr n d = .ok l) :
    (replyTo s 0 addr n 15 d).status = .ok := by
  obtain ⟨l, hl⟩ := h
  exact (Mach.spRead_clean false hl (hs _)).1

/-- Is a range in reach and in service? -/
def located (s : State) (addr : Word) (n d : Nat) : Bool := match s.m.spLoc 0 addr n d with | .ok _ => true | .error _ => false

theorem located_ok {s : State} {addr : Word} {n d : Nat} (h : located s addr n d = true) : ∃ l, s.m.spLoc 0 addr n d = .ok l := by
  unfold located at h
  split at h
  · exact ⟨_, ‹_›⟩
  · exact absurd h (by simp)

theorem witness_load_ends :
    (∀ tr, ((loadingState tr).m.tile 0).mx.loading = some { hdr := hdr 0, p := aLoad tr, accMode := 0, seq := 0 }) ∧
    (∀ i < 128, (replyTo (loadingState false) 0 (aLoad false).src 512 (aLoad false).age.toNat (i * (aLoad false).stride.toNat * 64)).status = .ok) ∧
    (∀ i < 512, (replyTo (loadingState true) 0 (aLoad true).src 128 (aLoad true).age.toNat (i * (aLoad true).stride.toNat * 64)).status = .ok) := by
  have h1 : ∀ i < 128, located (loadingState false) (aLoad false).src 512 (i * (aLoad false).stride.toNat * 64) = true := by decide +kernel
  have h2 : ∀ i < 512, located (loadingState true) (aLoad true).src 128 (i * (aLoad true).stride.toNat * 64) = true := by decide +kernel
  exact ⟨by decide +kernel, fun i hi => reply_ok (by decide +kernel) (located_ok (h1 i hi)), fun i hi => reply_ok (by decide +kernel) (located_ok (h2 i hi))⟩

/-- A pass of one vector on array 0. -/
def aPass : PassP :=
  { src := regionA, vecStride := 8, arrayStride := 0, nVec := 1, cHist := 0, rowBase := 63, accShift := 15, half := true, accAdd := false,
    reseed := false, arrays := 1, cMode := false, swap := false, afmt := 0, age := 15 }

/-- Array 0 holds weights. -/
def weighted (passes : List PassRun) (committed : List Committed) : State :=
  with_ fun m => (m.modArray 0 0 fun x => { x with activeValid := true }).modMx 0 fun x => { x with passes := passes, committed := committed }

/-- A committed vector of two results, the least and the greatest word. -/
def aCommit (add : Bool) : Committed := { seq := 0, array := 0, accAdd := add, results := [(0, -(2 ^ 39), 0, false), (1, 2 ^ 39 - 1, 0, false)], last := true }

theorem witness_passes :
    (let s := weighted [] []
     s.m.up (tileFn 0) = true ∧ (s.m.unitQ (.injector 0)).head = none ∧ passCheck s.m 0 aPass = none) ∧
    (aPass.arrays ≠ 0 ∧ (arrayOf live 0 0).setFor aPass.swap = none) ∧
    (let r : PassRun := { hdr := hdr 0, p := aPass, seq := 0, next := 0, skewed := false, history := [] }
     let s := weighted [r] []
     (s.m.tile 0).mx.passes = r :: [] ∧ (s.m.tile 0).mx.drains = [] ∧ arraysOf r.p.arrays = [0] ∧ (arrayOf s 0 0).shadowState ≠ .loading ∧
       (arrayOf s 0 0).setFor (r.p.swap && r.next == 0) = some WeightSet.empty ∧ WeightSet.empty.srMode = 0 ∧ WeightSet.empty.poisoned = false ∧
       (replyTo s 0 r.p.src 128 r.p.age.toNat 0).status = .ok) ∧
    (∀ add, let s := weighted [] [aCommit add]
     (s.m.tile 0).mx.committed = aCommit add :: [] ∧ (s.m.tile 0).mx.drains = [] ∧ ((aCommit add).results.map Prod.fst).Nodup ∧
       ∀ e ∈ (aCommit add).results, Tab.get noFlips47 (arrayOf s 0 (aCommit add).array).accFlips e.1 = 0 ∧ -(2 ^ 39) ≤ e.2.1 ∧ e.2.1 < 2 ^ 39) := by
  decide +kernel

/-- A DRAIN of one row of array 0, in INT8, from a table of zeros. -/
def aDrain (noStore : Bool) : DrainP :=
  { rq := 0x20000000, dst := regionA, dstStride := 8, posBase := 0, topkDst := 0, k := 1, topkStart := false, topkEnd := false, noStore := noStore,
    clear := true, array := 0, half := false, rowBase := 0, nRows := 1, ofmt := 0, age := 15 }

theorem witness_drains :
    (∀ ns, UnitReady live (.drainer 0 (aDrain ns).array) ∧ drainCheck live.m 0 (aDrain ns) = none ∧ live.m.drainHeld 0 live.m.issue (aDrain ns) 0 = false ∧
      (live.m.tile 0).mx.topk = none ∧ (aDrain ns).nRows = 1 ∧ (aDrain ns).topkStart = false) ∧
    (let r : PassRun := { hdr := hdr 0, p := aPass, seq := 0, next := 0, skewed := false, history := [] }
     let s := with_ fun m => { (m.modMx 0 fun x => { x with passes := [r] }) with issue := 1 }
     let p : DrainP := { aDrain true with half := true, rowBase := 63 }
     UnitReady s (.drainer 0 0) ∧ drainCheck s.m 0 p = none ∧ s.m.drainHeld 0 s.m.issue p 0 = true) ∧
    (match live.m.spLoc 0 (aDrain false).dst 512 with | .ok l => l == ⟨0, 1, 24, 6, 0⟩ | _ => false) = true ∧ (⟨0, 1, 24, 6, 0⟩ : SpLoc).inW live.m = false := by
  decide +kernel

/-- The requantize table of this drain is all zeros: every shift count is 0. -/
theorem witness_drain_table :
    let rq := replyTo live 0 (aDrain true).rq 4096 15 0
    rq.status = .ok ∧ ∀ col, bitsOf (leNat ((List.range 8).map fun i => replyByte rq (8 * col + i))) 53 48 ≤ 47 ∧
      Tab.get noFlips47 (arrayOf live 0 0).accFlips (accKey false 0 col) = 0 := by
  obtain ⟨l, hl⟩ := located_ok (s := live) (addr := (aDrain true).rq) (n := 4096) (d := 0) (by decide +kernel)
  have hs : ∀ x, (live.m.tile x).sp.mem.flips = [] ∧ (live.m.tile x).sp.mem.bytes = [] := by decide +kernel
  obtain ⟨h1, h2⟩ := Mach.spRead_clean false hl (hs _).1
  have hb : ∀ i, replyByte (replyTo live 0 (aDrain true).rq 4096 15 0) i = 0 := by
    intro i
    unfold replyByte
    rw [List.getD_eq_getElem?_getD]
    cases hx : (replyTo live 0 (aDrain true).rq 4096 15 0).data[i]? with
    | none => rfl
    | some x => rw [h2 (hs _).2 x (List.mem_of_getElem? hx)]; rfl
  refine ⟨h1, fun col => ⟨?_, rfl⟩⟩
  simp only [hb]
  exact of_decide_eq_true rfl

/-! ## Vector engine and stitches -/

/-- A stream of INT32 from region A, and output 0 back to region P. -/
def aStream (src : Word) : StreamIn := { src := src, stride := 8, fmt := 3, age := 15 }
def aVe (outs : BitVec 2) : VeP :=
  { chain := 0, ocm := false, nBeatsM1 := 0, inMask := 3, outMask := outs, s0 := aStream regionA, s1 := aStream 0x10000100, s2 := aStream 0
    o0 := { dst := 0x20000000, stride := 8, fmt := 3, isInt := true, sat := false, exp := 0 }
    o1 := { dst := 0x20000000, stride := 8, fmt := 3, isInt := true, sat := false, exp := 0 } }

/-- Tile 0 holds a chain of one stage: AND, OR or XOR of the two streams to output 0. -/
def chained (op : Nat) (run : Option VeRun) : State :=
  with_ fun m => m.modTile 0 fun x => { x with
    sdm := EccMem.empty.writeNat 0x3E000 8 (op + 0x21 * 2 ^ 6 + 0x22 * 2 ^ 12 + 0x30 * 2 ^ 24), ve := { x.ve with run := run } }

def aRun (beats : BitVec 10) : VeRun := { hdr := hdr 0, p := { aVe 1 with nBeatsM1 := beats }, seq := 0, beat := 0, skewed := false, scan := [], carry := [] }

theorem witness_vector_checks :
    UnitReady (chained 0x0F none) (.ve 0) ∧ veCheck ((chained 0x0F none).m.veBoundary 0) 0 (aVe 1) = none ∧
    UnitReady live (.ve 0) ∧ (live.m.tile 0).ve.oc = [] ∧ veCheck (live.m.veBoundary 0) 0 (aVe 1) = some (1, 0) := by
  decide +kernel

theorem witness_bitwise_beats :
    (∀ f ∈ [0x0F, 0x10, 0x11],
      let s := chained f (some (aRun 1))
      (s.m.tile 0).ve.run = some (aRun 1) ∧ ((chained f (some (aRun 0))).m.tile 0).ve.run = some (aRun 0) ∧ (chainStages (s.m.tile 0).sdm 0).map (fun st => (st.op, st.a, st.b, st.dst)) = [(f, 0x21, 0x22, 0x30)] ∧
        located s regionA 256 0 = true ∧ located s 0x10000100 256 0 = true ∧ (∀ x, (s.m.tile x).sp.mem.flips = []) ∧
        (match s.m.spLoc 0 0x20000000 256 with | .ok l => l == ⟨0, 2, 30, 2, 0⟩ | _ => false) = true ∧ (⟨0, 2, 30, 2, 0⟩ : SpLoc).inW s.m = false) ∧
    (aRun 0).beat = (aRun 0).p.nBeatsM1.toNat ∧ (aRun 1).beat < (aRun 1).p.nBeatsM1.toNat := by
  decide +kernel

theorem witness_tables :
    (let s := with_ fun m => m.modVe 0 fun x => { x with staged := [(15, [1, 2])] }
     (s.m.tile 0).ve.run = none ∧ (s.m.tile 0).ve.oc = [] ∧ (s.m.tile 0).ve.staged = [(15, [1, 2])]) ∧
    ((chained 0 (some (aRun 0))).m.tile 0).ve.run ≠ none ∧
    Path.usb.isHost = true ∧ live.m.pathUp .usb = true ∧ live.m.up (tileFn 0) = true ∧ live.m.phase ≠ 5 := by
  decide +kernel

/-- A stitch that signals nothing: a STOP for the annealer; a LOAD for the tile's loader. -/
def aStitch (b : Body) : Stitch := { hdr := hdr 0, body := b }

/-- A queue of the loader of tile 0. -/
def queued (q : UnitQ) : State := with_ fun m => m.setQ (.loader 0) q

def running (doneEn done : Bool) (start : Nat) (budget : BitVec 12) : Running :=
  { stitch := { hdr := { hdr 0 with doneEn := doneEn, doneEvent := 63, doneCore := 9, budget := budget }, body := .load (aLoad false) }
    seq := 0, start := start, done := done, overran := false }

theorem witness_unit_queues :
    commandOf 0 (aStitch (.load (aLoad false))) = some (.load 0 (hdr 0) (aLoad false)) ∧
    (with_ fun m => m.setFn 0 .down).m.up (unitFn (.loader 0)) = false ∧
    live.m.up (unitFn (.loader 0)) = true ∧
    ((queued { UnitQ.empty with row := [aStitch .stop] }).m.unitQ (.loader 0)).head ≠ none ∧
    (queued { UnitQ.empty with current := [running false false 0 0] }).m.unitFree (.loader 0) (.load (aLoad false)) = false ∧
    (let s := queued { UnitQ.empty with row := [aStitch (.load (aLoad false))] }
     (s.m.unitQ (.loader 0)).head = some (aStitch (.load (aLoad false))) ∧ s.m.unitFree (.loader 0) (.load (aLoad false)) = true ∧
       (s.m.unitQ (.loader 0)).dropHead.head = none ∧ loadCheck s.m 0 (aLoad false) ≠ some mxShadowBusy ∧
       ((s.m.unitQ (.loader 0)).express = [] ∧ (s.m.unitQ (.loader 0)).row = aStitch (.load (aLoad false)) :: [])) ∧
    (∀ en, let s := queued { UnitQ.empty with current := [] ++ running en true 0 0 :: [] }
     (s.m.unitQ (.loader 0)).current = [] ++ running en true 0 0 :: [] ∧ (running en true 0 0).done = true ∧ (running en true 0 0).stitch.hdr.doneEn = en ∧
       (running en true 0 0).stitch.hdr.doneCore.toNat = (9 : Fin 10).val ∧ s.m.up (coreFn 9) = true ∧ (s.m.core 9).st ∉ [CoreSt.reset, .wait] ∧
       ((s.m.core 9).counts[63]).toNat < 255) := by
  decide +kernel

theorem witness_stitch_overrun :
    let r := running false false 0 10
    let s := { queued { UnitQ.empty with current := [] ++ r :: [] } with m := { (queued { UnitQ.empty with current := [] ++ r :: [] }).m with tb := 11 } }
    (s.m.unitQ (.loader 0)).current = [] ++ r :: [] ∧ r.done = false ∧ r.overran = false ∧ r.stitch.hdr.budget ≠ 0 ∧
      r.start + r.stitch.hdr.budget.toNat < s.m.now ∧ s.m.frc.pend.length < 16 := by
  decide +kernel

/-- An XFER of one line: hub SRAM to hub SRAM, from or to region A, or into region W. -/
def aXfer (srcHub dstHub : Bool) (dst : Word) (stride : BitVec 16) : XferP :=
  { src := if srcHub then 0x1000 else regionA, dst := dst, nLinesM1 := 0, age := 15, weightWrite := false, srcHub := srcHub, dstHub := dstHub,
    srcStride := 1, dstStride := stride }

theorem witness_transfers :
    UnitReady live (.xfer 0) ∧ xferBad (aXfer true true 0x2000 1) = false ∧ live.m.hub.ues (aXfer true true 0x2000 1).src.toNat 64 = [] ∧
    (aXfer true true 0x2000 1).nLinesM1 = 0 ∧ (aXfer true true 0x2000 1).srcHub = true ∧ (aXfer true true 0x2000 1).dstHub = true ∧
    xferBad (aXfer false false regionA 1) = false ∧ located live regionA 64 0 = true ∧ (⟨0, 1, 24, 6, 0⟩ : SpLoc).inW live.m = false ∧
    xferBad (aXfer true true 0x2000 0) = true ∧ xferBad (aXfer true true 0x1FFFFC 1) = true ∧
    xferBad (aXfer true false 0 1) = false ∧ (match live.m.spLoc 0 0 64 with | .ok l => l.inW live.m | _ => false) = true ∧
    (aXfer true false 0 1).weightWrite = false := by
  decide +kernel

/-- The pattern runs; the row's end is 480,000 ticks on. -/
def rowOn (f : Mach → Mach) : State := with_ fun m => f (m.put GlStatus.patternRunning 1)

theorem witness_row_boundary :
    live.m.on GlStatus.patternRunning = false ∧
    (let s := rowOn id
     s.m.on GlStatus.patternRunning = true ∧ s.m.pw.trans = .none ∧ s.m.tbOn = true ∧ s.m.cast.marginsDue = none ∧ s.m.get GaDumpCtl.period = 0 ∧
       s.m.now ≤ s.m.rowStart + 480000 * s.m.cast.rowPeriod ∧ s.m.rowStart + 480000 * s.m.cast.rowPeriod < 2 ^ 64 ∧
       (∀ c, s.m.up (coreFn c) = true → (s.m.core c).programmed = true → (s.m.core c).arrived = true) ∧ s.m.cast.live = none ∧
       (s.m.core 0).st ∉ [CoreSt.reset, .wait] ∧ ((s.m.core 0).counts[(0 : Fin 64)]).toNat < 255) ∧
    (let s := rowOn fun m => m.modCore 3 fun k => { k with programmed := true }
     s.m.frc.pend.length < 16 ∧ s.m.up (coreFn 3) = true ∧ (s.m.core 3).programmed = true ∧ (s.m.core 3).arrived = false ∧
       (∀ d : Fin 10, d < 3 → s.m.up (coreFn d) = true → (s.m.core d).programmed = true → (s.m.core d).arrived = true)) ∧
    (let s := rowOn fun m => { m with pw := { m.pw with trans := .toIdle } }
     s.m.on GlStatus.patternRunning = true ∧ s.m.pw.trans = .toIdle) ∧
    (let s := rowOn fun m => { m with pw := { m.pw with trans := .toRecast true } }
     s.m.on GlStatus.patternRunning = true ∧ s.m.pw.trans = .toRecast true ∧ s.m.frc.queue = [] ∧ s.m.on GlPstateStat.pendValid = false) := by
  decide +kernel

/-- No unit of this machine runs or holds a row-lane stitch. -/
theorem witness_row_units (u : UnitId) : ¬ rowLaneBusy (rowOn id) u := by
  have h : (rowOn id).m.unitQ u = UnitQ.empty := by
    cases u with
    | loader t => exact congrArg Tile.loaderQ (show vget (Vector.replicate 4 Tile.reset) t = Tile.reset by simp [vget])
    | injector t => exact congrArg Tile.injectorQ (show vget (Vector.replicate 4 Tile.reset) t = Tile.reset by simp [vget])
    | drainer t a =>
      show vget (vget (Vector.replicate 4 Tile.reset) t).drainerQ a = UnitQ.empty
      simp [vget, Tile.reset]
    | ve t => exact congrArg Tile.veQ (show vget (Vector.replicate 4 Tile.reset) t = Tile.reset by simp [vget])
    | xfer t => exact congrArg Tile.xferQ (show vget (Vector.replicate 4 Tile.reset) t = Tile.reset by simp [vget])
    | stash => rfl
    | dza => rfl
    | msg => rfl
  rw [rowLaneBusy, h]
  simp [UnitQ.empty]

/-! ## Skeins and the stash -/

/-- The skein table and the slots: skein k in a state with flags and a state length, in slot 0 of 4 MiB; the stash is there. -/
def skeined (state flags len : Nat) (f : Mach → Mach) : State :=
  with_ fun m => f (((((m.put GlCaps.stashPresent 1).skPut 0 0 1 state).skPut 0 4 1 flags).skPut 0 8 4 len).hubPut (slotAddr 0) 8 (0x10000000 + 0x400000 * 2 ^ 32))

/-- A swap of skein 0 in flight. -/
def swapping (out : Bool) (moved : Nat) (lost : Option Nat) : Swap :=
  { out := out, skein := 0, slot := 0, moved := Vector.replicate 2 moved, lost := lost, hdr := hdr 8, seq := 0 }

theorem witness_swaps :
    (let s := skeined 1 0 256 id
     StashReady s ∧ s.m.skState 0 = 1 ∧ s.m.skFlag 0 5 = false) ∧
    (let s := skeined 1 0x20 256 id
     StashReady s ∧ s.m.skState 0 = 1 ∧ s.m.skFlag 0 5 = true) ∧
    (let s := skeined 2 0 256 id
     StashReady s ∧ s.m.skState 0 = 2 ∧ (0 : BitVec 5).toNat < 24 ∧ s.m.slotUse 0 = .free ∧ s.m.stash.unusable.getLsbD 0 = false ∧
       s.m.sk 0 8 4 ≤ s.m.slotBytes 0 ∧ ¬ (24 : BitVec 5).toNat < 24) ∧
    (let s := with_ fun m => m.put GlCaps.stashPresent 0
     s.m.up fnStash = true ∧ (s.m.unitQ .stash).head = none ∧ s.m.stashPresent = false) ∧
    (∀ out, let s := skeined 1 0 256 fun m => { m with stash := { m.stash with swaps := [] ++ swapping out 2 none :: [] } }
     s.m.stash.swaps = [] ++ swapping out 2 none :: [] ∧ s.m.swapDone (swapping out 2 none) = true) ∧
    (skeined 1 0 256 id).m.swapDone (swapping true 0 none) = false ∧
    (skeined 1 0 256 id).m.swapDone (swapping true 0 (some 3)) = true := by
  decide +kernel

/-- A FETCH or STORE of one block of tile 0 between region A and the ring area. -/
def aBlock (tiles : BitVec 4) (sp stash : Word) : BlockP :=
  { tiles := tiles, age := 15, weightWrite := false, sp := sp, stash := stash, nBlocksM1 := 0, tileStride := 1 }

theorem witness_block_stitches :
    (let s := skeined 1 0 256 id
     s.m.up fnStash = true ∧ (s.m.unitQ .stash).head = none ∧ (∀ store, s.m.blockCode store (aBlock 1 regionA 0x30000000) = none) ∧ s.m.stashPresent = true ∧
       (aBlock 0 regionA 0x30000000).tiles = 0 ∧ (aBlock 1 0x10000020 0x30000000).sp.toNat % 64 ≠ 0 ∧ (aBlock 1 regionA 0x30000080).stash.toNat % 256 ≠ 0 ∧
       2 ^ 30 ≤ (aBlock 1 0x40000000 0x30000000).sp.toNat) := by
  decide +kernel

theorem witness_block_grants :
    (live.m.up fnStash = true ∧ live.m.stash.swaps = [] ∧ live.m.stash.blocks = [] ∧ live.m.stash.windows = []) ∧
    (let s := skeined 1 0 256 fun m => { m.setFn 0 .down with stash := { m.stash with swaps := [swapping true 0 none] } }
     s.m.up fnStash = true ∧ s.m.stash.swaps = [swapping true 0 none] ∧ s.m.stash.blocks = [] ∧ s.m.stash.windows = [] ∧ s.m.swapOpen (swapping true 0 none) 0 = false) ∧
    (∀ out, let s := skeined 1 0 256 fun m => { m with stash := { m.stash with swaps := [swapping out 0 none] } }
     s.m.stash.swaps = [swapping out 0 none] ∧ s.m.stash.blocks = [] ∧ s.m.stash.windows = [] ∧ s.m.swapOpen (swapping out 0 none) 1 = true ∧ s.m.sk 0 8 4 ≠ 0 ∧ s.m.sk 0 8 4 % 256 = 0 ∧
       2 * vget (swapping out 0 none).moved 1 + 1 < 4 * (s.m.sk 0 8 4 / 256) ∧
       (match s.m.spLoc (ix 4 1) (s.m.slotSp 0) 256 0 with | .ok _ => true | _ => false) = true ∧ Tab.get crcGood s.m.stash.crc (0 / 256) = 0 ∧
       (∀ x, (s.m.tile x).sp.mem.flips = [])) ∧
    (∀ store, let r : BlockRun := { store := store, hdr := hdr 8, p := aBlock 1 regionA 0x30000000, seq := 0, moved := Vector.replicate 2 0, skewed := false }
     let s := with_ fun m => { m with stash := { m.stash with blocks := [r] } }
     s.m.stash.swaps = [] ∧ s.m.stash.blocks = [r] ∧ s.m.stash.windows = [] ∧ 2 * vget r.moved 0 + (0 : Fin 2).val < r.total ∧ blkBase r.p 0 % 256 = 0 ∧
       (match s.m.spLoc 0 r.p.sp 256 0 with | .ok l => !l.inW s.m | _ => false) = true ∧ (∀ x, (s.m.tile x).sp.mem.flips = []) ∧
       vget r.moved 0 + vget r.moved 1 + 1 = r.total) := by
  decide +kernel

theorem witness_stash_window :
    (let s := skeined 1 0 256 id
     (s.m.pathUp .pcie = true ∧ s.m.up fnStash = true ∧ s.m.phase ≠ 5 ∧ s.m.stashPresent = true ∧ windowOk .pcie (0x1FFFF00 : BitVec 25).toNat 256 true = true)) ∧
    (∀ b, Tab.get crcGood (skeined 1 0 256 id).m.stash.crc b ≤ 1) ∧
    (let r : WinRun := { a := 0x30000010, op := .read 4, seq := 0, moved := Vector.replicate 2 0, bad := false }
     let s := skeined 1 0 256 fun m => { m with stash := { m.stash with windows := [r] } }
     s.m.up fnStash = true ∧ s.m.pathUp .pcie = true ∧ s.m.stashPresent = true ∧ s.m.stash.windows = [r] ∧ s.m.stash.swaps = [] ∧ s.m.stash.blocks = [] ∧
       r.blocks = [r.a / 256] ∧ windowOk .pcie (0x1FFFF00 : BitVec 25).toNat (winSize (.read 256)) true = true) ∧
    (3 : BitVec 16).toNat ∉ live.m.stash.rewriting ∧
    (3 : BitVec 16).toNat ∈ (with_ fun m => { m with stash := { m.stash with rewriting := [3] } }).m.stash.rewriting :=
  ⟨by decide +kernel, fun _ => Nat.zero_le _, by decide +kernel, by decide +kernel, by decide +kernel⟩

/-- The record of a model that is being rewritten, its area, and its data as the image holds them. -/
theorem witness_overhang_record :
    let r : RecEntry := { type := 14, id := 0, offset := 0, length := 4, dest := 0, param := 3, flags := 0, crc := (crc32c [0xFF, 0xFF, 0xFF, 0xFF]).toNat }
    let s := with_ fun m => { m with
      cast := { m.cast with records := [r], models := [{ model := 3, resident := [0, 0, 0, 0], overhang := [(0, 256), (0, 0), (0, 0), (0, 0)] }] } }
    (s.m.cast.records.filter fun x => x.type == 14 && x.param == 3) = [r] ∧ s.m.modelArea 3 (r.dest / 2 ^ 30) = some (0x18000000, 256) ∧
      (crc32c (s.m.flashRead (s.m.cast.base + r.offset) r.length)).toNat = r.crc ∧ r.dest % 2 ^ 30 + r.length ≤ 256 ∧ s.m.flash.weak = [] ∧
      0x18000000 + r.dest % 2 ^ 30 + r.length ≤ overhangArea (r.dest / 2 ^ 30) + 0x1000000 := by
  decide +kernel

/-! ## Annealer -/

/-- A RUN of one replica and one sweep with block 0 active. -/
def aRunP (check : Bool) : RunP :=
  { init := 1, check := check, penalty := false, replicasM1 := 0, exchEvery := 0, traceEvery := 0, traceReset := false, nSweeps := 1, active := 1
    resDst := 0x1000, traceBase := 0, traceSize := 0, penWeight := 0, endEvent := 63, endCore := 9, endEn := true }

def dzRunning (ended : Option Nat) : DzRun :=
  { hdr := hdr 8, p := aRunP false, betas := Vector.replicate 32 0, driftStop := false, sweeps := 0, exchanges := 0, moves := 0, repaired := 0, exchAcc := 0
    exchSinceAcc := 0, exchSinceAtt := 0, movesSince := 0, traced := false, ended := ended }

theorem empty_nat (a n : Nat) : EccMem.empty.nat a n = 0 := by
  have hz : ∀ l : List Nat, leNat (l.map fun _ => (0 : Byte)) = 0 := by
    intro l
    induction l with
    | nil => rfl
    | cons x l ih => rw [List.map_cons, leNat, ih]; rfl
  exact hz (List.range n)

theorem witness_run :
    UnitReady live .dza ∧ live.m.on DzStatus.swatchActive = false ∧ runCheck live.m (aRunP true) = none ∧ DzaClean live ∧ live.m.frc.pend.length < 16 ∧
    live.m.on DzCtl.seedSrc = false ∧ runCheck live.m { aRunP true with nSweeps := 0 } ≠ none := by
  decide +kernel

/-- A problem without couplers and groups is good. -/
theorem dzCheck_bare {m : EccMem} (a : BitVec 64) (h : dzCouplerList m = []) (hg : ∀ i, dzGroup m i = none) : dzCheck m a = none := by
  unfold dzCheck
  simp only [h, hg, List.find?_nil]
  rw [List.findSome?_eq_none_iff]
  intro g _
  simp

theorem witness_good_problem : dzCheck live.m.dza.mem (aRunP true).active = none := by
  refine dzCheck_bare (m := EccMem.empty) _ ?_ fun i => ?_
  · unfold dzCouplerList
    rw [List.filterMap_eq_nil_iff]
    intro n _
    simp [empty_nat, bitsOf]
  · unfold dzGroup
    simp [empty_nat, bitsOf]

/-- A coupler between two spins of one block is not. -/
theorem witness_bad_problem : dzCheck (EccMem.empty.writeNat dzCouplers 8 (2 ^ 63 + 2 ^ 16)) 1 = some (1, 0) := by
  have h0 : (let v := (EccMem.empty.writeNat dzCouplers 8 (2 ^ 63 + 2 ^ 16)).nat (dzCouplers + 8 * 0) 8
      if bitsOf v 63 63 = 1 then some (⟨0, bitsOf v 13 0, bitsOf v 29 16, signed 8 (bitsOf v 39 32)⟩ : Coupler) else none) = some ⟨0, 0, 1, 0⟩ := by decide +kernel
  unfold dzCheck dzCouplerList
  rw [show (65536 : Nat) = 65535 + 1 from rfl, List.range_succ_eq_map, List.filterMap_cons, h0]
  rfl

theorem witness_copy :
    (let p : CopyP := { nLinesM1 := 0, src := 0x1000, dst := 0x410000 }
     copyCheck live.m p = none ∧ live.m.hub.ues p.src.toNat (64 * (p.nLinesM1.toNat + 1)) = [] ∧ 0x410000 ≤ p.dst.toNat ∧
       copyCheck live.m { p with src := 1 } ≠ none) ∧
    live.m.pathUp .spi = true ∧ live.m.up fnDza = true ∧ live.m.phase ≠ 5 ∧ windowOk .spi (0x7FFFC : BitVec 19).toNat 4 true = true ∧ live.m.dza.run = none ∧
    live.m.on DzStatus.swatchActive = false ∧ (with_ fun m => m.put DzStatus.swatchActive 1).m.on DzStatus.swatchActive = true ∧
    (with_ fun m => { m with dza := { m.dza with run := some (dzRunning none) } }).m.dza.run ≠ none := by
  decide +kernel

theorem witness_annealer_runs :
    (let s := with_ fun m => { m with dza := { m.dza with run := some (dzRunning none), laneFlips := [(0, 3)] } }
     s.m.dza.run = some (dzRunning none) ∧ (dzRunning none).ended = none ∧ s.m.dza.mem.flips = [] ∧ s.m.dza.laneFlips = [(0, 3)] ∧ judge 3 = .ue) ∧
    (let s := with_ fun m => { m with dza := { m.dza with run := some (dzRunning none) } }
     DzaClean s ∧ (dzRunning none).p.exchEvery = 0 ∧ (dzRunning none).p.traceEvery = 0 ∧ (s.m.get DzSweep.count + 1) % 1024 ≠ 0) ∧
    (dzRunning (some 0)).ended = some 0 ∧ (dzRunning (some 0)).p.endEn = true ∧ (dzRunning (some 0)).p.endCore.toNat = (9 : Fin 10).val ∧
    live.m.up (coreFn 9) = true ∧ (live.m.core 9).st ∉ [CoreSt.reset, .wait] ∧ ((live.m.core 9).counts[63]).toNat < 255 := by
  decide +kernel

/-! ## Audio edge -/

/-- Capture runs; ring 0 holds capture channel 0 and has a place in hub SRAM. -/
def audio (f : Mach → Mach) : State :=
  with_ fun m => f { (((((m.put AeAcdCtl.inEn 1).put AeAcdCtl.hp 0).put (AeRingBase.base 0) 0x20000).put (AeRingCtl.depthM1 0) 1).setReg (AeRingCh.reg 0 0) 1).put GlStatus.patternRunning 1 with
    ae := { m.ae with capturing := true, running := 1 } }

theorem witness_samples :
    (let s := audio id
     s.m.tbOn = true ∧ Captures s 0 ∧ gridInstant s 0 + 60000 < 2 ^ 64 ∧ (s.m.chanMissing 0 = false ∧ ¬ gridInstant s 0 < vget s.m.ae.capStart (ix 7 (capDomain 0))) ∧
       s.m.ringsOf 0 = [(0, 0)] ∧ s.m.framePos 0 (gridInstant s 0) = some (0, 23) ∧ PlainPath s 0 ∧ s.m.chanMissing 1 = true ∧ Captures s 1) ∧
    ¬ Captures live 0 ∧
    (let s := audio fun m => (m.setReg AeClksel.reg 1).put AeAcdCtl.inEn 1
     s.m.clockGone 0 = true ∧ ¬ Captures s 0) ∧
    (audio id).m.asrcIn 0 = false ∧ vget (audio id).m.ae.native 0 < 1000000 ∧ (audio id).m.ae.blind ≤ (audio id).m.gridOf 0 ∧
    (let s := audio fun m => { m with ae := { m.ae with grid := [(0, 20000)] } }
     vget s.m.ae.counted 0 < gridInstant s 0) ∧
    (let s := audio fun m => m.put AeCtl.clipThr 0x100
     s.m.get AeCtl.clipThr ≤ magnitude24 0x7FFFFFFF) := by
  decide +kernel

theorem witness_frames :
    (let s := audio id
     s.m.ae.capturing = true ∧ s.m.on GlStatus.patternRunning = true ∧ s.m.ae.running.getLsbD 0 = true ∧ s.m.ringPlay 0 = false ∧
       vget s.m.ae.frames 0 * s.m.ringHop 0 + s.m.get (AeRingCtl.phase 0) ≤ s.m.rowCount ∧ 0x2000 ≤ (s.m.ringRange 0).1 ∧ (s.m.ringRange 0).2 ≤ 0x1DE800) ∧
    (let s := audio fun m => m.put (AeRingCtl.dir 0) 1
     s.m.ringPlay 0 = true ∧ s.m.hub.ues (s.m.slotAt 0 0) 4 = [] ∧ s.m.hubNat (s.m.slotAt 0 0) 4 = 0 ∧ (s.m.ringRange 0).2 ≤ 0x1DF000 ∧
       vget s.m.ae.played 0 * s.m.ringHop 0 + s.m.get (AeRingCtl.phase 0) + 0 ≤ s.m.rowCount) ∧
    live.m.ae.capturing = false := by
  decide +kernel

/-- A playback ring whose first frame is due: its lead has passed. -/
def playing (n : Nat) : State := audio fun m => { (m.put (AeRingCtl.dir 0) 1).hubPut 0x20000 4 n with rowCount := 1 }

theorem witness_playback :
    (let s := playing 0
     vget s.m.ae.played 0 * s.m.ringHop 0 + s.m.get (AeRingCtl.phase 0) + s.m.ringLead 0 ≤ s.m.rowCount ∧ s.m.hub.ues (s.m.slotAt 0 0) 4 = [] ∧
       s.m.hubNat (s.m.slotAt 0 0) 4 = 0 ∧ s.m.ringChans 0 = [0]) ∧
    ((playing 7).m.hubNat ((playing 7).m.slotAt 0 0) 4 ≠ 0 ∧ (playing 7).m.frc.pend.length < 16) ∧
    (let s := { playing 0 with m := { ((playing 0).m.put AeAcdOut.outEn 1) with ae := { (playing 0).m.ae with out := [(0, [1])], sound := 1 } } }
     s.m.heldBelow 0 0 = false ∧ s.m.outOn 0 = true ∧ s.m.sounds 0 = true ∧ Tab.get noOut s.m.ae.out 0 ≠ [] ∧ Tab.get noRamp s.m.ae.ramp 0 = 0) ∧
    live.m.pathUp .usb = true ∧ live.m.reaches 0x600000 = true := by
  decide +kernel

/-- The stream of the USB audio interfaces is active. -/
def streaming : State :=
  audio fun m => ((((m.put HlUsbStat.attached 1).put HlUsbStat.configured 1).put HlUsbStat.playActive 1).put HlUsbStat.capActive 1).put MsgUsbCfg.playChM1 7

theorem witness_microframes :
    streaming.m.up fnUsb = true ∧ streaming.m.on HlUsbStat.configured = true ∧ streaming.m.on HlUsbStat.suspended = false ∧ streaming.m.on HlUsbStat.degraded = false ∧
    streaming.m.on HlUsbStat.playActive = true ∧ streaming.m.on HlUsbStat.capActive = true ∧ streaming.m.ae.capturing = true ∧ streaming.m.tbOn = true ∧
    (∀ i < 8, streaming.m.gridOf (112 + i) ≤ streaming.m.now) ∧ roundUp streaming.m.now 20000 + 120000 < 2 ^ 64 ∧
    live.m.on HlUsbStat.playActive = false ∧ Tab.get noOut streaming.m.ae.out 72 = [] := by
  decide +kernel

theorem witness_audio_failures :
    live.m.frc.pend.length < 16 ∧ live.m.pathUp .pcie = true ∧ live.m.reaches 0x600000 = true ∧ live.m.up fnAcd = true ∧ live.m.ae.swatch = false ∧
    (with_ fun m => { m with ae := { m.ae with swatch := true } }).m.ae.swatch = true ∧ live.m.ae.raw = [] ∧
    Tab.get noOut (with_ fun m => { m with ae := { m.ae with raw := [(7, [1])] } }).m.ae.raw 7 ≠ [] ∧ live.m.up fnPdm = true ∧ live.m.ae.stuck.getLsbD 31 = false ∧
    (with_ fun m => { m with ae := { m.ae with stuck := 0x80000000 } }).m.ae.stuck.getLsbD 31 = true ∧
    live.m.up (tdmFn 3) = true ∧ live.m.tdmSlave 3 = true ∧ live.m.ae.syncLost.getLsbD 3 = false ∧ live.m.asrcIn 5 = true ∧
    (1000 : BitVec 16).toInt ≤ 1000 ∧ -1000 ≤ (0xFC18 : BitVec 16).toInt ∧ (0xFC17 : BitVec 16).toInt < -1000 ∧ 1000 < (1001 : BitVec 16).toInt ∧
    live.m.ae.rateBad.getLsbD 3 = false ∧ (with_ fun m => m.put AeAcdCtl.bias1En 1).m.on AeAcdCtl.bias1En = true ∧
    live.m.inFrog 10 = false ∧ FrcHasRoom live 10 := by
  decide +kernel

/-! ## Host links -/

/-- Bus Master Enable is 1. -/
def mastering (f : Mach → Mach) : State := with_ fun m => f { m with host := { m.host with cfg := [(4, 4)] } }

theorem witness_rings :
    live.m.pathUp .pcie = true ∧ live.m.reaches 0x780000 = true ∧
    (let s := with_ fun m => m.put (MsgRingCtl.sizeLog2 0) 6
     ((63 : BitVec 16).toNat + 2 ^ 16 - s.m.get (MsgRingDone.doneTail 0)) % 2 ^ 16 < 2 ^ s.m.get (MsgRingCtl.sizeLog2 0) ∧
       2 ^ s.m.get (MsgRingCtl.sizeLog2 0) ≤ ((64 : BitVec 16).toNat + 2 ^ 16 - s.m.get (MsgRingDone.doneTail 0)) % 2 ^ 16) ∧
    live.m.get (MsgRingCtl.enable 15) = 0 ∧ (mastering fun m => m.put (MsgRingCtl.enable 15) 1).m.get (MsgRingCtl.enable 15) = 1 ∧ (mastering id).m.bme = true ∧
    live.m.msg.reading.getLsbD 15 = false ∧ (with_ fun m => { m with msg := { m.msg with reading := 0x8000 } }).m.msg.reading.getLsbD 15 = true ∧
    (let s := with_ fun m => ((m.setCloses 0 1).put (MsgRingInt.intTimer 0) 1).put (MsgRingInt.intCount 0) 2
     0 < s.m.closes 0 ∧ s.m.get (MsgRingInt.intTimer 0) ≠ 0 ∧ s.m.get (MsgRingInt.intCount 0) ≠ 0) := by
  decide +kernel

/-- A SEND of n bytes to ring 0. -/
def aSend (n : BitVec 12) : SendP :=
  { type := 1, skein := 0xFF, tsNow := true, frameTs := false, rings := 1, usb := false, src := 0x4000, length := n, timestamp := 0 }

theorem witness_send :
    (∀ c : Fin 10, UnitReady live .msg ∧ (hdr c).poster = c) ∧ live.m.sendCode (aSend 0) = none ∧ live.m.sendCode (aSend 8) = none ∧
    live.m.stagePlace (foot 8) = some 0x10000 ∧ (∀ d < 17, (sendDests (aSend 8)).getLsbD d = true → live.m.policyDrop d = true → live.m.hasRoom d (foot 8) = true) ∧
    (with_ fun m => m.put MsgStage.sizeKib 0).m.stagePlace (foot 8) = none ∧ live.m.sendCode { aSend 8 with rings := 0 } = some 3 ∧ (mastering id).m.bme = true := by
  decide +kernel

/-- A message of 8 bytes that waits at a destination. -/
def waitingMsg (dests : BitVec 17) : Msg := { type := 1, skein := 0xFF, flags := 0, seq := 0, modelId := 0, ts := 0, length := 8, src := 0x10000, dests := dests }

/-- The message waits at ring 0, which runs with two descriptors; its buffer holds n bytes. -/
def delivering (n : Nat) : State := mastering fun m =>
  { (((m.put (MsgRingCtl.enable 0) 1).put (MsgRingProd.prod 0) 2).put (MsgRingInt.coalesce 0) 1).setBuf 0 { bytes := List.replicate n 0, scopes := if n = 0 then [] else [256], due := false, places := [] } with
    msg := { m.msg with staged := [waitingMsg 1], bufs := (m.setBuf 0 { bytes := List.replicate n 0, scopes := if n = 0 then [] else [256], due := false, places := [] }).msg.bufs } }

theorem witness_delivery :
    live.m.up fnMsg = true ∧ live.m.waitingFor 0 = none ∧
    ((delivering 40).m.waitingFor 0 = some (waitingMsg 1) ∧ (delivering 40).m.hasRoom 0 (foot 8) = true ∧ ((delivering 40).m.buf 0).fits (foot 8) = true ∧
      (delivering 40).m.coalesceOf 0 ≠ 0 ∧ (delivering 40).m.hub.ues 0x10000 (roundUp 8 4) = []) ∧
    ((delivering 0).m.hasRoom 0 (foot 8) = true ∧ ((delivering 0).m.buf 0).isOpen = false ∧ (delivering 0).m.hasDesc 0 = false) ∧
    (let s := with_ fun m => { m with msg := { m.msg with staged := [waitingMsg 1] } }
     s.m.waitingFor 0 = some (waitingMsg 1) ∧ s.m.hasRoom 0 (foot 8) = false ∧ s.m.policyDrop 0 = false) ∧
    (let s := with_ fun m => { m.put (MsgRingCtl.policy 0) 1 with msg := { m.msg with staged := [waitingMsg 1] } }
     s.m.hasRoom 0 (foot 8) = false ∧ s.m.policyDrop 0 = true) := by
  decide +kernel

theorem witness_closes :
    (live.m.buf 3).isOpen = false ∧ ((delivering 40).m.coalesceOf 0 ≠ 0 ∧ ((delivering 40).m.buf 0).isOpen = true ∧ (delivering 40).m.bme = true) ∧
    (let s := with_ fun m => (m.setBuf 0 { bytes := [0], scopes := [256], due := false, places := [] }).put (MsgRingInt.coalesce 0) 1
     s.m.coalesceOf 0 ≠ 0 ∧ (s.m.buf 0).isOpen = true ∧ s.m.bme = false) ∧
    (let s := with_ fun m => (m.setBuf 16 { bytes := [0], scopes := [256], due := false, places := [] }).put MsgUsbCfg.coalesce 1
     s.m.coalesceOf 16 ≠ 0 ∧ (s.m.buf 16).isOpen = true) := by
  decide +kernel

/-- The USB device attached and configured. -/
def attached (f : Mach → Mach) : State := with_ fun m => f ((m.put HlUsbStat.attached 1).put HlUsbStat.configured 1)

theorem witness_usb :
    live.m.up fnUsb = true ∧ live.m.usbAttached = false ∧ (attached id).m.usbAttached = true ∧ (attached id).m.on HlUsbStat.degraded = false ∧
    (attached id).m.usbReadyForIn = true ∧ NoStepAsked (attached id) ∧
    ((0x10 : BitVec 24).toNat % 4 = 0 ∧ (match target 0x10 with | .reg none => true | _ => false) = true ∧ pairOf 0x10 = none ∧ coreAt 0x10 = none ∧ ocTile 0x10 = none) ∧
    ((match target 0x50000 with | .unassigned => true | _ => false) = true ∧ (2 : BitVec 24).toNat % 4 ≠ 0) ∧
    (attached id).m.reaches (SpWinPage.reg (3 : Fin 4)) = true ∧
    ((attached id).m.on HlUsbStat.suspended = false ∧
      (attached id).m.inboxBase + 4160 * ((attached id).m.host.inboxNext % (attached id).m.inboxSlots) + 4160 ≤ 2 ^ 21 ∧
      (attached id).m.hub.ues ((attached id).m.inboxBase) 4 = [] ∧ (attached id).m.hubNat ((attached id).m.inboxBase) 4 = 0 ∧
      (attached id).m.get MsgUsbCfg.inboxCore = (⟨(attached id).m.get MsgUsbCfg.inboxCore % 10, by omega⟩ : Fin 10).val ∧
      ((attached id).m.core 8).st ∉ [CoreSt.reset, .wait]) ∧
    (let s := attached fun m => m.hubPut m.inboxBase 4 1
     s.m.hubNat s.m.inboxBase 4 ≠ 0) ∧
    live.m.dzWaits 0x10 = false ∧ live.m.dzWaits 0x50000 = false ∧ (with_ fun m => m.setFn 4 .down).m.writeReaches 0x500000 4 = false ∧
    (attached fun m => { m with msg := { m.msg with usbReady := [{ bytes := [0], scopes := [256], due := false, places := [(0, 32)] }] } }).m.msg.usbReady ≠ [] := by
  decide +kernel

theorem witness_spi :
    live.m.up fnSpi = true ∧ NoStepAsked live ∧ ([2, 0, 0] : List Byte).length < 9 ∧
    (9 ≤ ([2, 0, 0, 0, 0, 0, 0, 0, 1] : List Byte).length ∧ crc8 (([2, 0, 0, 0, 0, 0, 0, 0, 1] : List Byte).take 8) ≠ 1) ∧
    live.m.reaches (SpWinPage.reg (3 : Fin 4)) = true ∧
    ((0x10 : BitVec 24).toNat % 4 = 0 ∧ (match target 0x10 with | .reg none => true | _ => false) = true ∧ pairOf 0x10 = none ∧ coreAt 0x10 = none ∧
      ocTile 0x10 = none ∧ live.m.dzWaits 0x10 = false) := by
  decide +kernel

/-! ## Frogs, swatch tests and gauges -/

theorem witness_frog_requests :
    (live.m.pathUp .pcie = true ∧ live.m.reaches 0x30000 = true ∧ (18 : BitVec 5).toNat = (18 : Fin 19).val ∧ FrcFree live ∧ live.m.fn 18 = .up ∧
      live.m.atFrogLimit (18 : Fin 19).val = false ∧ live.m.frc.pend.length < 16) ∧
    live.m.frc.escStarting = false ∧ (with_ fun m => { m with frc := { m.frc with escStarting := true } }).m.frc.escStarting = true ∧
    (let s := with_ fun m => { m with frc := { m.frc with history := [(18, [0, 0, 0, 0])] } }
     FrcFree s ∧ s.m.atFrogLimit 18 = true) ∧
    (let s := with_ fun m => m.setFn 18 .off
     FrcFree s ∧ s.m.fn 18 = .off) ∧
    (let s := with_ fun m => m.setFn 18 .down
     FrcFree s ∧ s.m.fn 18 = .down) ∧
    19 ≤ (19 : BitVec 5).toNat := by
  decide +kernel

theorem witness_frog_steps :
    (∀ k, ∀ st ∈ [FrogStep.fence, .reset, .rejoin],
      (frogging k st).m.frc.cur = some { fn := 3, kind := k, step := st, start := 0, stepping := [] } ∧ (frogging k st).m.frc.queue = [] ∧
        (frogging k st).m.on GlPstateStat.pendValid = false ∧ (frogging k st).m.frc.pend.length < 16) ∧
    islandFn (200 : Fin 264).val = some 3 ∧
    (let x : Request := { asked 7 true with dst := 200 }
     let s := { frogging .frog .fence with links := [(keyOf 57 55 .request, { Link.reset with credits := 7, returning := 1 })], net := { Net.reset with reqs := [x, asked 8 true] } }
     (∀ e ∈ s.links, e.2 ≠ Link.reset) ∧ x ∈ s.net.reqs ∧ insideFn 3 x.dst = true ∧ x.inside = true ∧ x.replied = false ∧ insideFn 3 (asked 8 true).dst = false) := by
  have h : ∀ st ∈ [FrogStep.fence, .reset, .rejoin],
      (frogging .frog st).m.on GlPstateStat.pendValid = false ∧ (frogging .bindOff st).m.on GlPstateStat.pendValid = false ∧
        (frogging .enable st).m.on GlPstateStat.pendValid = false := by decide +kernel
  refine ⟨fun k st hst => ⟨rfl, rfl, ?_, show (0 : Nat) < 16 by decide⟩, by decide +kernel, by decide +kernel⟩
  cases k
  · exact (h st hst).1
  · exact (h st hst).2.1
  · exact (h st hst).2.2

/-- The window of the annealer's instance is open; its test may run. -/
def swatching (running : Bool) (consec : Nat) : State :=
  with_ fun m => { m with swatch := [(swatchKey .dza, { isOpen := true, running := running, consec := consec, arrays := 0, broken := false })] }

theorem witness_swatch :
    (let s := swatching false 0
     (s.m.swatchSt (swatchKey .dza)).isOpen = true ∧ (s.m.swatchSt (swatchKey .dza)).running = false ∧ s.m.phase = 2 ∧
       s.m.up (ix 19 (swatchFn (swatchKey .dza))) = true ∧ s.m.swatchReady 0 .dza = true ∧ s.m.dza.held = []) ∧
    (∀ n ∈ [0, 15], let s := swatching true n
     (s.m.swatchSt (swatchKey .dza)).running = true ∧ s.m.testBroken .dza = false ∧ s.m.frc.pend.length < 16 ∧ (s.m.swatchSt (swatchKey .dza)).consec = n) ∧
    (let s := with_ fun m => { m with swatch := [(swatchKey (.ve 1), { isOpen := true, running := true, consec := 15, arrays := 0, broken := true })] }
     (s.m.swatchSt (swatchKey (.ve 1))).running = true ∧ s.m.testBroken (.ve 1) = true ∧ (s.m.swatchSt (swatchKey (.ve 1))).consec = 15) ∧
    (live.m.swatchSt 24).running = false := by
  decide +kernel

theorem witness_dumps :
    (live.m.pathUp .spi = true ∧ live.m.reaches (gaugeRegs 4) = true ∧ live.m.dump = none ∧ live.m.gaugeUp 0 = true ∧ live.m.reaches (gaugeRegs (0 : Fin 5).val) = true) ∧
    (let d : Dump := { bytes := List.replicate 712 0, tick := 0 }
     let s := with_ fun m => { m with dump := some d }
     s.m.dump ≠ none ∧ s.m.dump = some d ∧ d.bytes.length = 712 ∧ s.m.on GaDumpCtl.msg = false) := by
  decide +kernel

/-! ## Register accesses -/

theorem witness_pairs :
    Path.pcie.isHost = true ∧ live.m.pathUp .pcie = true ∧ pairOf (BitVec.ofNat 24 (MsgRingBaseLo.reg 15)).toNat = some (MsgRingBaseLo.reg 15, false) ∧
    pairOf (BitVec.ofNat 24 (MsgRingBaseLo.reg 15 + 4)).toNat = some (MsgRingBaseLo.reg 15, true) ∧ live.m.reaches (MsgRingBaseLo.reg 15) = true ∧
    live.m.reaches (MsgRingBaseLo.reg 15 + 4) = true ∧ (live.m.pairSt (some .pcie) (MsgRingBaseLo.reg 15)).shadow = none ∧
    (let s := with_ fun m => { m with pairs := [{ path := some .pcie, low := MsgRingBaseLo.reg 15, shadow := some 5, staged := some 6 }] }
     (s.m.pairSt (some .pcie) (MsgRingBaseLo.reg 15)).shadow = some 5) ∧
    (let s := with_ fun m => m.setFn 0 .down
     pairOf 0x140008 = some (0x140008, false) ∧ s.m.reaches 0x140008 = false) := by
  decide +kernel

theorem witness_fields :
    HostReaches live .pcie (BitVec.ofNat 24 FrWdogCfg.reg) ∧ (BitVec.ofNat 24 FrWdogCfg.reg).toNat ∈ plainRegisters ∧
    HostReaches live .spi (BitVec.ofNat 24 IsReplyTmo.reg) ∧ (BitVec.ofNat 24 IsReplyTmo.reg).toNat = IsReplyTmo.reg ∧ NoStepAsked live ∧
    (1 : BitVec 24).toNat % 4 ≠ 0 ∧ State.reset.m.pathUp .pcie = false := by
  decide +kernel

/-! ## The machine -/

theorem witness_queue : State.reset.pending = [] ∧ ({ live with pending := [.xtalLost] } : State).pending = .xtalLost :: [] := ⟨rfl, rfl⟩

theorem witness_time :
    live.pending = [] ∧ live.m.tbOn = true ∧ State.reset.m.tbOn = false ∧ (live.m.isl 263).stopped = false ∧ (live.m.isl 263).cycles < 2 ^ 64 ∧
    960 * (live.m.isl 263).cycles + (live.m.isl 263).frac + (200 + 5 * (live.m.isl 263).code.toNat) < 960 * 2 ^ 64 := by
  decide +kernel

theorem witness_credits : CreditsBalance State.reset := ⟨fun _ => ⟨rfl, Nat.le_refl _⟩, fun _ h => absurd h (by simp [State.reset])⟩

theorem witness_encoded :
    encodeCore (.sigev 0 8 9) = some 0x84002009 ∧ 8 ≤ (8 : BitVec 6).toNat ∧ encodeCore (.waitev 0 1 2 0 true) = some 0x88220001 := by
  decide +kernel

/-! ## Commands that are not well-formed -/

theorem test_wf_host_paths : (∀ i ∈ [Instr.recast (.core 0), .nvmRead (.core 0) 0, .llWrite (.core 0) 0x8000 0, .snap (.core 1), .frog (.core 2) 0, .halt (.core 0) 1 true],
    i.wf = false) ∧ (Instr.recast .spi).wf = true := by decide
theorem test_wf_links : (Instr.replyTimeout 5 5).wf = false ∧ (Instr.replyTimeout 5 6).wf = true := by decide
theorem test_wf_bank_grant : (Instr.bankGrant 0 0 []).wf = false ∧ (Instr.bankGrant 0 0 [.drainWrite, .drainWrite]).wf = false ∧
    (Instr.bankGrant 0 0 [.drainWrite]).wf = true := by decide
theorem test_wf_lines : (Instr.spRead 0 0 0 0).wf = false ∧ (Instr.spWrite 0 0 []).wf = false ∧ (Instr.spWrite 0 0 (List.replicate 65 none) true).wf = false ∧
    (Instr.spWrite 0 0 (List.replicate 64 none) true).wf = true := by decide
theorem test_wf_windows : (Instr.spWindowAccess .pcie 0 0 (.read 257)).wf = false ∧ (Instr.stashWindowAccess 0 (.write [])).wf = false ∧
    (Instr.hubSramHostWrite .pcie 0 (.write [])).wf = false ∧ (Instr.stashWindowAccess 0 (.read 256)).wf = true := by decide
theorem test_wf_stitches : (Instr.load 1 (hdr 0) (aLoad false)).wf = false ∧ (Instr.send (hdr 0) (aSend 0)).wf = false ∧
    (Instr.stop { hdr 8 with doneEn := true, doneEvent := 7 }).wf = false ∧ (Instr.stop { hdr 8 with doneEn := true, doneEvent := 8, doneCore := 9 }).wf = true := by decide
theorem test_wf_addresses : (Instr.regRead 2).wf = false ∧ (Instr.registerWrite .pcie 1 0).wf = false ∧ (Instr.configurationRequest 6 none).wf = false ∧
    (Instr.regRead 4).wf = true := by decide
theorem test_wf_transfers : (Instr.bulkOut []).wf = false ∧ (Instr.spiWrite [0x03]).wf = false ∧ (Instr.audioMicroframe true (List.replicate 7 0)).wf = false ∧
    (Instr.linkTrained 0 1).wf = false ∧ (Instr.linkTrained 1 3).wf = false ∧ (Instr.featureUnit true 0 false 121).wf = false ∧ (Instr.linkTrained 4 4).wf = true := by decide

/-! ## Words of Tables TC-3 to TC-5, field by field -/

theorem test_core_words : CoreWords := by unfold CoreWords; decide +kernel

/-! ## Values that the spec gives -/

/-- Table HL-5: the check value of the SPI's CRC-8. -/
theorem test_crc8 : crc8 [0x31, 0x32, 0x33, 0x34, 0x35, 0x36, 0x37, 0x38, 0x39] = 0xF4 := by decide +kernel
/-- Table TC-5: CLZ of 0 is 32. -/
theorem test_clz : leadingZeros 0 = 32 ∧ leadingZeros 0xFFFFFFFF = 0 ∧ leadingZeros 1 = 31 := by decide +kernel
/-- R110: code 40 is 400 MHz and one TB tick is 1/960 us: an island at 400 MHz makes 400 cycles in 960 ticks. -/
theorem test_cycles : (Island.elapse 960 Island.reset).cycles = 400 := by decide +kernel
/-- Table TC-5, SRA and MULH keep the sign. -/
theorem test_signs : mulHigh 0xFFFFFFFF 2 = 0xFFFFFFFF ∧ ((0x80000000 : Word).sshiftRight 31) = 0xFFFFFFFF := by decide +kernel

end Sys2Proof.Tests
end

section
/-! # Proofs: the row barrier, returns from traps, stitch budgets (08_tending_cores.md) -/

namespace Sys2Proof.Machine

/-! ## The wrong path (R235, R237): it leaves the core as it is, but for corrected words and the books of latent errors -/

theorem Core.Like.st_eq {a b : Core} (h : Core.Like a b) (ha : a.st ≠ .wait) : b.st = a.st := by
  obtain ⟨cs, ov, im, dm, rfl, -, -⟩ := h.eq ha
  rfl

/-- What fetches behind an instruction may do to core c: its wrong-path books change, and the core stays like it was. -/
def Mach.StaysLike (c : Fin 10) (m m' : Mach) : Prop :=
  Mach.Frame (pathParts c) m m' ∧ ((m.core c).st ≠ .wait → Core.Like (m.core c) (m'.core c))

theorem Mach.StaysLike.refl (c : Fin 10) (m : Mach) : Mach.StaysLike c m m := ⟨.refl _ _, fun _ => .refl _⟩

theorem Mach.StaysLike.trans {c : Fin 10} {a b d : Mach} (h : Mach.StaysLike c a b) (g : Mach.StaysLike c b d) : Mach.StaysLike c a d := by
  refine ⟨h.1.trans g.1, fun ha => ?_⟩
  have hab := h.2 ha
  exact hab.trans (g.2 (by rwa [hab.st_eq ha])) ha

theorem Mach.Books.staysLike {m m' : Mach} (h : Mach.Books m m') (c : Fin 10) : Mach.StaysLike c m m' :=
  ⟨h.frame _, fun _ => .of_signalled (h.core c)⟩

/-- An uncorrectable word met on the wrong path touches only the books of R237. -/
theorem Mach.frame_coreUe_latent (m : Mach) (c : Fin 10) (data : Bool) (word : Nat) :
    Mach.Frame (fun p => p = .reg (TcLatentCount.count c).addr ∨ p = .reg (TcUeLast.valid c).addr) m (m.coreUe c data true word) := by
  unfold Mach.coreUe
  simp only [if_true]
  refine Mach.Frame.books ?_ (Mach.books_record _ _ _ _ _ _)
  have hcount : Mach.Frame (fun p => p = .reg (TcLatentCount.count c).addr ∨ p = .reg (TcUeLast.valid c).addr) m (m.bump (TcLatentCount.count c)) :=
    Mach.frame_bump' m _ 1 (.inl rfl)
  have hmem := hcount.trans (Mach.frame_put' _ (TcUeLast.mem c) (b2n data) (.inr rfl))
  have hlatent := hmem.trans (Mach.frame_put' _ (TcUeLast.latent c) (b2n true) (.inr rfl))
  have hword := hlatent.trans (Mach.frame_put' _ (TcUeLast.word c) word (.inr rfl))
  exact hword.trans (Mach.frame_put' _ (TcUeLast.valid c) _ (.inr rfl))

theorem Mach.coreRead_latent_staysLike (m : Mach) (c : Fin 10) (data : Bool) (a n : Nat) :
    Mach.StaysLike c m (m.coreRead c data a n true).2.2 := by
  cases hb : (m.coreMem c data).bad (a / 8) with
  | false =>
    obtain ⟨-, -, hf, hl⟩ := Mach.coreRead_sound m c data a n true hb
    exact ⟨hf.mono fun _ => Or.inl, fun _ => hl⟩
  | true =>
    have hue : judge ((m.coreMem c data).flip (a / 8)) = .ue := by simpa [EccMem.bad] using hb
    have hread : (m.coreRead c data a n true).2.2 = m.coreUe c data true (a / 8) := by simp [Mach.coreRead, hue]
    rw [hread]
    have hf := Mach.frame_coreUe_latent m c data (a / 8)
    exact ⟨hf.mono fun _ => Or.inr, fun _ => .of_signalled (hf.core (by simp))⟩

theorem Mach.wrongPath_staysLike (m : Mach) (c : Fin 10) (n : Nat) (pc : Word) : Mach.StaysLike c m (m.wrongPath c n pc) := by
  induction n generalizing m pc with
  | zero => exact .refl c m
  | succ n ih =>
    unfold Mach.wrongPath
    split
    · exact .refl c m
    · have hfetched := (Mach.books_coreGauge m c 0x02 1).trans (Mach.books_coreGauge _ c 0x03 1)
      exact ((hfetched.staysLike c).trans (Mach.coreRead_latent_staysLike _ c false _ 4)).trans (ih _ _)

theorem Mach.squash_staysLike (m : Mach) (c : Fin 10) (own : Nat) (pc : Word) : Mach.StaysLike c m (m.squash c own pc) :=
  (((Mach.books_fresh m).staysLike c).trans (Mach.wrongPath_staysLike _ c _ pc)).trans ((Mach.books_coreGauge _ c 0x03 own).staysLike c)

/-! ## TRET (R257) -/

/-- The core as TRET leaves it. -/
def Core.returned (k : Core) : Core := { k with pc := k.epc, inTrap := false }

theorem Core.plain_returned : Plain Core.returned := fun _ => ⟨fun _ _ _ _ => rfl, rfl, rfl⟩

/-- In a trap TRET squashes what was fetched behind it, returns, and retires. -/
theorem Mach.iTret_spec {m : Mach} {c : Fin 10} {k : Core} (hl : Core.Like k (m.core c)) (hk : k.st ≠ .wait) (ht : k.inTrap = true) :
    Mach.Frame (pathParts c) m (m.iTret c) ∧ Core.Like k.returned ((m.iTret c).core c) := by
  have htrap : (m.core c).inTrap = true := by
    obtain ⟨cs, ov, im, dm, he, -, -⟩ := hl.eq hk
    rw [he]
    exact ht
  obtain ⟨hf, hs⟩ := Mach.squash_staysLike m c 0 (m.behind c)
  have hsquashed : Core.Like k ((m.squash c 0 (m.behind c)).core c) := hl.trans (hs (by rwa [hl.st_eq hk])) hk
  have hretire := Mach.books_coreGauge ((m.squash c 0 (m.behind c)).modCore c Core.returned) c 0x04 1
  have heq : m.iTret c = ((m.squash c 0 (m.behind c)).modCore c Core.returned).retire c := by
    unfold Mach.iTret
    rw [if_pos htrap]
    rfl
  rw [heq]
  refine ⟨(hf.trans (Mach.frame_modCore' _ c _ (Or.inl (coreParts_core c)))).books hretire, ?_⟩
  refine Core.Like.trans (Core.Like.map Core.plain_returned hsquashed hk) (.of_signalled ?_) hk
  rw [← Mach.core_modCore_self _ c Core.returned]
  exact hretire.core c

/-- Settles O1: TRET's only effects are its return and what the squash of the fetches behind it leaves. -/
theorem tretReturns : Obligations.TretReturns := by
  intro c s hr ht
  have hw : (s.m.core c).st ≠ .wait := by rw [hr.2.1]; decide
  exact instr_ends hr (Mach.iTret c) (fun _ => Or.inl) (s.m.core c).returned hw fun _ _ _ hl => Mach.iTret_spec hl hw ht

/-! ## ROWEND (R251) -/

/-- The core that has arrived at the row barrier; its count of missed rows starts again (R420). -/
def Core.arrives (k : Core) : Core := { k with arrived := true, missed := 0 }

theorem Core.plain_arrives : Plain Core.arrives := fun _ => ⟨fun _ _ _ _ => rfl, rfl, rfl⟩

theorem Core.arrives_setG (k : Core) (rd : BitVec 5) (v : Word) : k.arrives.setG rd v = (k.setG rd v).arrives := by
  unfold Core.setG
  split <;> rfl

/-- The word that ROWEND writes to g[rd]: the row count modulo 2^28, and in bit 31 whether the core had arrived already. -/
def Mach.rowendWord (m : Mach) (c : Fin 10) : Word :=
  BitVec.ofNat 32 (m.rowCount % 2 ^ 28 + if (m.core c).arrived then 2 ^ 31 else 0)

theorem Mach.iRowend_eq (m : Mach) (c : Fin 10) (rd : BitVec 5) :
    m.iRowend c rd = (m.modCore c Core.arrives).commit c rd (m.rowendWord c) := by
  unfold Mach.iRowend Mach.rowendWord
  cases (m.core c).arrived <;> rfl

theorem Mach.rowendWord_like {m m' : Mach} {c : Fin 10} (hrow : m'.rowCount = m.rowCount) (hl : Core.Like (m.core c) (m'.core c))
    (hk : (m.core c).st ≠ .wait) : m'.rowendWord c = m.rowendWord c := by
  obtain ⟨cs, ov, im, dm, he, -, -⟩ := hl.eq hk
  unfold Mach.rowendWord
  rw [hrow, he]
  rfl

/-- Settles O2: the arrival is a plain change of the core, and the commit writes the word read before it. -/
theorem rowendArrives : Obligations.RowendArrives := by
  intro c rd s hr
  have hw : (s.m.core c).st ≠ .wait := by rw [hr.2.1]; decide
  refine instr_ends hr (Mach.iRowend c rd) (fun _ h => h) _ (by rw [show _ = _ from Core.st_setG _ rd _]; exact hw) fun m _ hf hl => ?_
  have hrow : m.rowCount = s.m.rowCount := hf .rowCount (by simp [coreParts])
  have harr : Core.Like (s.m.core c).arrives ((m.modCore c Core.arrives).core c) := by
    rw [Mach.core_modCore_self]
    exact Core.Like.map Core.plain_arrives hl hw
  rw [Mach.iRowend_eq, Mach.rowendWord_like hrow hl hw]
  refine ⟨(Mach.frame_modCore' m c _ (coreParts_core c)).trans (Mach.commit_spec _ c rd _).1, ?_⟩
  have hcommit := Mach.commit_like harr hw rd (s.m.rowendWord c)
  rw [Core.arrives_setG] at hcommit
  exact hcommit

/-! ## Queues of units -/

/-- A part of a tile that an update leaves alone. -/
theorem Mach.tile_modTile_proj {α : Type} (m : Mach) (t x : Fin 4) (f : Tile → Tile) (g : Tile → α) (h : ∀ y, g (f y) = g y) :
    g ((m.modTile t f).tile x) = g (m.tile x) := by
  rw [Mach.tile_modTile]
  split
  · next hx => rw [hx, h]
  · rfl

@[simp] theorem Mach.unitQ_setQ_self (m : Mach) (u : UnitId) (q : UnitQ) : (m.setQ u q).unitQ u = q := by
  cases u <;> simp [Mach.setQ, Mach.unitQ, vget_vset_self]

theorem Mach.unitQ_setQ_ne (m : Mach) {u v : UnitId} (q : UnitQ) (h : v ≠ u) : (m.setQ u q).unitQ v = m.unitQ v := by
  cases u <;> cases v
  -- one kind of unit: another tile, or another array
  case loader.loader t x => exact congrArg Tile.loaderQ (Mach.tile_modTile_ne m _ (mt (congrArg UnitId.loader) h))
  case injector.injector t x => exact congrArg Tile.injectorQ (Mach.tile_modTile_ne m _ (mt (congrArg UnitId.injector) h))
  case ve.ve t x => exact congrArg Tile.veQ (Mach.tile_modTile_ne m _ (mt (congrArg UnitId.ve) h))
  case xfer.xfer t x => exact congrArg Tile.xferQ (Mach.tile_modTile_ne m _ (mt (congrArg UnitId.xfer) h))
  case drainer.drainer t a x b =>
    by_cases hx : x = t
    · subst hx
      have hb : b ≠ a := mt (congrArg (UnitId.drainer x)) h
      simp [Mach.setQ, Mach.unitQ, vget_vset_ne _ q hb]
    · exact congrArg (vget ·.drainerQ b) (Mach.tile_modTile_ne m _ hx)
  case stash.stash | dza.dza | msg.msg => exact absurd rfl h
  -- different kinds: another field, of whatever tile
  case injector.loader | drainer.loader | ve.loader | xfer.loader => exact Mach.tile_modTile_proj m _ _ _ Tile.loaderQ fun _ => rfl
  case loader.injector | drainer.injector | ve.injector | xfer.injector => exact Mach.tile_modTile_proj m _ _ _ Tile.injectorQ fun _ => rfl
  case loader.ve | injector.ve | drainer.ve | xfer.ve => exact Mach.tile_modTile_proj m _ _ _ Tile.veQ fun _ => rfl
  case loader.xfer | injector.xfer | drainer.xfer | ve.xfer => exact Mach.tile_modTile_proj m _ _ _ Tile.xferQ fun _ => rfl
  case loader.drainer b | injector.drainer b | ve.drainer b | xfer.drainer b =>
    exact Mach.tile_modTile_proj m _ _ _ (vget ·.drainerQ b) fun _ => rfl
  all_goals rfl

/-- An update of a tile that keeps its memories and engines changes at most queues. -/
theorem Mach.frame_tileQueues (m : Mach) (t : Fin 4) (f : Tile → Tile) (ch : Part → Prop)
    (hparts : ∀ x, (f x).sp = x.sp ∧ (f x).mx = x.mx ∧ (f x).ve = x.ve ∧ (f x).sdm = x.sdm)
    (hqueues : ∀ v, ¬ ch (.unitQ v) → (m.modTile t f).unitQ v = m.unitQ v) : Mach.Frame ch m (m.modTile t f) := by
  intro p hp
  cases p with
  | unitQ v => exact hqueues v hp
  | sp x => exact Mach.tile_modTile_proj m t x f Tile.sp fun y => (hparts y).1
  | mx x => exact Mach.tile_modTile_proj m t x f Tile.mx fun y => (hparts y).2.1
  | ve x => exact Mach.tile_modTile_proj m t x f Tile.ve fun y => (hparts y).2.2.1
  | sdm x => exact Mach.tile_modTile_proj m t x f Tile.sdm fun y => (hparts y).2.2.2
  | core c => exact Core.Signalled.refl _
  | reg a => exact fun _ => rfl
  | hub a => exact fun _ => rfl
  | frc => exact ⟨rfl, List.prefix_rfl⟩
  | free | gauges => trivial
  | _ => rfl

/-- Replacing a unit's queue changes that queue and nothing else. -/
theorem Mach.frame_setQ (m : Mach) (u : UnitId) (q : UnitQ) : Mach.Frame (fun p => p = .unitQ u) m (m.setQ u q) := by
  have hne : ∀ v, ¬ Part.unitQ v = .unitQ u → (m.setQ u q).unitQ v = m.unitQ v :=
    fun v hv => Mach.unitQ_setQ_ne m q fun e => hv (by rw [e])
  cases u with
  | loader | injector | drainer | ve | xfer => exact Mach.frame_tileQueues m _ _ _ (fun _ => ⟨rfl, rfl, rfl, rfl⟩) hne
  | stash | dza | msg =>
    intro p hp
    cases p with
    | unitQ v => exact hne v hp
    | core c => exact Core.Signalled.refl _
    | reg a => exact fun _ => rfl
    | hub a => exact fun _ => rfl
    | frc => exact ⟨rfl, List.prefix_rfl⟩
    | free | gauges => trivial
    | _ => rfl

@[simp] theorem Mach.reg_setQ (m : Mach) (u : UnitId) (q : UnitQ) (a : Nat) : (m.setQ u q).reg a = m.reg a := by cases u <;> rfl
@[simp] theorem Mach.frc_setQ (m : Mach) (u : UnitId) (q : UnitQ) : (m.setQ u q).frc = m.frc := by cases u <;> rfl

/-! ## Fault records (R409, Table FR-2) -/

/-- The eight words of a fault record. -/
def Mach.faultEntry (m : Mach) (code : Nat) (src : Src) (args : List Nat) (action : Nat) (held : Bool) : List Word :=
  [ BitVec.ofNat 32 (code + src.fn * 2 ^ 16 + severity code * 2 ^ 24 + action * 2 ^ 26 + b2n held * 2 ^ 29),
    BitVec.ofNat 32 (src.island + src.skein * 2 ^ 9), BitVec.ofNat 32 m.now, BitVec.ofNat 32 (m.now / 2 ^ 32), m.reg FrFaultSeq.reg,
    BitVec.ofNat 32 (args.getD 0 0), BitVec.ofNat 32 (args.getD 1 0), BitVec.ofNat 32 (args.getD 2 0) ]

theorem Mach.mem_pendRecord {m : Mach} (hroom : m.frc.pend.length < 16) (e : List Word) : e ∈ (m.pendRecord e).frc.pend := by
  simp [Mach.pendRecord, hroom]

/-- A record of severity 1 takes its number, and goes to the pending queue and the log. -/
theorem Mach.record_eq (m : Mach) {code : Nat} (hsev : severity code = 1) (src : Src) (args : List Nat) (action : Nat) (held : Bool) :
    m.record code src args action held =
      ((((m.setReg FrFaultSeq.reg (m.reg FrFaultSeq.reg + 1)).pendRecord (m.faultEntry code src args action held)).logRecord
        (m.faultEntry code src args action held)).alertEdge m.hostAlert).gauge hubGauge 0x87 none 1 := by
  simp only [Mach.record, Mach.recordBase, Mach.faultEntry, hsev]
  rfl

/-- With room in the pending queue, a record of severity 1 stays queued there (R409). -/
theorem Mach.faultEntry_mem_record {m : Mach} {code : Nat} (hsev : severity code = 1) (hroom : m.frc.pend.length < 16)
    (src : Src) (args : List Nat) (action : Nat) (held : Bool) :
    m.faultEntry code src args action held ∈ (m.record code src args action held).frc.pend := by
  rw [Mach.record_eq m hsev]
  have hqueued := Mach.mem_pendRecord (m := m.setReg FrFaultSeq.reg (m.reg FrFaultSeq.reg + 1)) hroom (m.faultEntry code src args action held)
  have hlogged := fun m1 : Mach => Mach.books_logRecord m1 (m.faultEntry code src args action held) (eightWords_length _ _ _ _ _ _ _ _)
  have hbooks := fun m1 => ((hlogged m1).trans (Mach.books_alertEdge _ m.hostAlert)).trans (Mach.books_gauge _ hubGauge 0x87 none 1)
  exact (hbooks _ .frc (by simp)).2.subset hqueued

/-- The words of a fault record lie as Table FR-2 lays them out. -/
theorem Mach.recorded_record {m : Mach} {code : Nat} (hsev : severity code = 1) (hcode : code < 2 ^ 16) (hroom : m.frc.pend.length < 16)
    (src : Src) {args : List Nat} (hargs : args.length ≤ 3) (action : Nat) (held : Bool) :
    Recorded m (m.record code src args action held) code src args := by
  refine ⟨_, Mach.faultEntry_mem_record hsev hroom src args action held, ?_, ?_, ?_, rfl, fun i hi => ?_⟩
  · simp only [Mach.faultEntry, hsev, List.getD_cons_zero, BitVec.toNat_ofNat]
    omega
  · simp only [Mach.faultEntry, hsev, List.getD_cons_zero, BitVec.toNat_ofNat]
    omega
  · simp only [Mach.faultEntry, List.getD_cons_succ, List.getD_cons_zero, BitVec.toNat_ofNat]
    omega
  · have hi3 : i < 3 := by omega
    match i, hi3 with
    | 0, _ | 1, _ | 2, _ => rfl

/-! ## STITCH_OVERRUN (R247) -/

/-- The stitch with a number is marked as logged for its budget. -/
def Mach.markOverran (m : Mach) (u : UnitId) (seq : Nat) : Mach :=
  m.setQ u { m.unitQ u with current := (m.unitQ u).current.map fun x => if x.seq = seq then { x with overran := true } else x }

/-- The first stitch of a unit that overruns is marked and recorded, and nothing else happens. -/
theorem Mach.stitchOverrun_eq {m : Mach} {u : UnitId} {r : Running} (h : (m.unitQ u).current.find? (fun x => x.overruns m.now) = some r) :
    m.stitchOverrun u = (m.markOverran u r.seq).record Flt.stitchOverrun (srcFn (unitFn u).val) [r.stitch.hdr.poster.val, r.stitch.hdr.tag.toNat] := by
  unfold Mach.stitchOverrun
  simp only [h]
  rfl

theorem Running.overruns_of_late {r : Running} {now : Nat} (hdone : r.done = false) (hover : r.overran = false)
    (hbudget : r.stitch.hdr.budget ≠ 0) (hlate : r.start + r.stitch.hdr.budget.toNat < now) : r.overruns now = true := by
  simpa [Running.overruns, hdone, hover, hlate] using hbudget

/-- Settles O13: the first late stitch is found; marking it changes its unit's queue, and the record is a book. -/
theorem stitchOverrunIsLogged : Obligations.StitchOverrunIsLogged := by
  intro u pre post r s hcur hpre hdone hover hbudget hlate hroom
  have hfind : (s.m.unitQ u).current.find? (fun x => x.overruns s.m.now) = some r := by
    rw [hcur, List.find?_append, List.find?_eq_none.mpr (by simpa using hpre)]
    simp [Running.overruns_of_late hdone hover hbudget hlate]
  have heq := Mach.stitchOverrun_eq hfind
  have hmarkedRoom : (s.m.markOverran u r.seq).frc.pend.length < 16 := by rwa [Mach.markOverran, Mach.frc_setQ]
  have hrecorded : Recorded s.m (s.m.stitchOverrun u) 0x0504 (srcFn (unitFn u).val) [r.stitch.hdr.poster.val, r.stitch.hdr.tag.toNat] := by
    rw [heq]
    have h := Mach.recorded_record (code := Flt.stitchOverrun) (by decide) (by decide) hmarkedRoom (srcFn (unitFn u).val)
      (args := [r.stitch.hdr.poster.val, r.stitch.hdr.tag.toNat]) (by simp) 0 false
    rwa [Recorded, Mach.markOverran, Mach.reg_setQ] at h
  have hbooks : Mach.Books (s.m.markOverran u r.seq) (s.m.stitchOverrun u) := heq ▸ Mach.books_record _ _ _ _ _ _
  have hq : (s.m.stitchOverrun u).unitQ u = (s.m.markOverran u r.seq).unitQ u := hbooks (.unitQ u) (by simp)
  rw [Mach.markOverran, Mach.unitQ_setQ_self] at hq
  exact ⟨{ s with m := s.m.stitchOverrun u }, rfl, hrecorded, hq, rfl, rfl, rfl, (Mach.frame_setQ s.m u _).books hbooks⟩

end Sys2Proof.Machine

end
